-- ==== Sys2Proof/Word.lean ====
section
/-!
DEFINITION. The byte of the CX6's memory traffic.
-/

namespace Sys2Proof

/-- One byte of memory traffic (00_scope.md, Conventions). -/
abbrev Byte := BitVec 8

end Sys2Proof
end

