-- ==== Sys2Proof/Syntax.lean ====
section
/-!
DEFINITION. The commands: one constructor of `Instr` for each row of spec/opcode_table.json, with what the outside
world brings with it. A host command row (LANE_GEOMETRY and the rows after it, UNKNOWN_COMMAND included) brings
nothing: its target and parameters are those of the entry that the command unit has fetched (R152, R153, R170).
-/

namespace Sys2Proof

/-- Direction of a request (1.1). -/
inductive ReqKind where
  | read | write
  deriving DecidableEq, Repr

/-- A request as both ports carry it (1.1): `len` beats of 32 bytes from `addr`; for a WRITE one mask of 32 byte
enables a beat and 32 bytes a beat. A byte that is not enabled is no part of the transfer (log 14). -/
structure Request where
  kind : ReqKind
  addr : Nat
  len : Nat
  enables : List (BitVec 32)
  data : List Byte
  deriving DecidableEq, Repr

/-- A request offered on the upstream port: with its master ID and tag (1.1). -/
structure UpRequest where
  req : Request
  master : Fin 16
  tag : Nat
  deriving DecidableEq, Repr

/-- The levels of the encoder channels A and B of a strand (R37). -/
structure Pair where
  a : Bool
  b : Bool
  deriving DecidableEq, Repr

/-- What one sample of a strand's inputs shows (R36): the encoder pair and the cut-complete level. -/
structure Sample where
  pair : Pair
  cut : Bool
  deriving DecidableEq, Repr

/-- The commands, in the order of spec/opcode_table.json. -/
inductive Instr where
  | powerOn
  | resetLineAssert
  | resetLineRelease
  | storeReadEnd (bytes : List Byte)
  | presetHandover
  | upstreamRequestTake (offered : UpRequest)
  | issueOpportunity
  | downstreamResponse (okay : Bool) (data : List Byte)
  | jobStart
  | eventRecordStart
  | lineProcessed (lane : Fin 12)
  | forwardStep (strand : Fin 6) (sampled : Pair)
  | reverseStep (strand : Fin 6) (sampled : Pair)
  | encoderError (strand : Fin 6) (sampled : Pair)
  | cutEvent (strand : Fin 6)
  | cutInputFall (strand : Fin 6)
  | pulseEnd (strand : Fin 6)
  | laneGeometry
  | laneZones
  | deadColumnsMark
  | deadColumnsClear
  | laneDetect
  | strandSetup
  | strandMarking
  | classifySetup
  | reportSetup
  | arm
  | disarm
  | reseed
  | testOn
  | testOff
  | snapshot
  | clearFault
  | laneReset
  | bayReset
  | unknownCommand
  | bayClockIncrement (samples : Vector Sample 6)
  deriving DecidableEq, Repr

end Sys2Proof
end

