-- ==== Sys2Proof/Config.lean ====
section
/-!
DEFINITION. The values the manual leaves open. None of them has a body: nothing can be proved of what they are, and a
statement about the machine holds whatever they are. Each is applied to the model's choice counter (log 6), so that
two uses are independent.
-/

namespace Sys2Proof

/-- DESIGN CHOICE (log 11, safe): how many of the injected requests taken at the take of a pass-through write stand
before that write in the take order; R2: "receive their places in either order". -/
opaque Config.takeRank : Nat → Nat

/-- DESIGN CHOICE (log 12, safe): where a lane is put among lanes that act at one event of the path unit or of the
billet unit and whose order the manual leaves open (R3, R102, R136, R162). -/
opaque Config.orderPick : Nat → Nat

/-- DESIGN CHOICE (log 13, safe): how many status stripes the n-th area write of a SNAPSHOT carries, before the bound
of R155 (at most 16 beats) is applied. -/
opaque Config.snapshotGroup : Nat → Nat → Nat

/-- DESIGN CHOICE (log 32, safe): whether the cabinet resets the frame-memory controller by the same power-on as the
part; R11 leaves both open ("If the frame-memory controller was itself reset by the same power-on"). -/
opaque Config.controllerSharesPowerOn : Bool

/-- DESIGN CHOICE (log 10, safe): the n-th data byte of the ERROR answer that a READ gets at a reset (R11 states the
answer, 1.1 that a READ's response carries data, and nothing states the data). -/
opaque Config.resetReadByte : Nat → Nat → Byte

end Sys2Proof
end

