-- ==== Sys2Proof/Machine/State.lean ====
section
/-!
DEFINITION. Everything the spec gives the CX6 to hold, as plain data, block by block in the order of the spec's
chapters, and the state right after power-on. Widths are in INVENTORY.md; numbers the spec calls counts, coordinates
and indices are `Nat`, and the operations saturate or wrap them as their rules say.
-/

namespace Sys2Proof.Machine

/-- No command of this model stops with a fault: the part has no behaviour the spec leaves without an effect. The type
has no constructor. -/
inductive Fault where
  deriving DecidableEq, Repr

/-- Why a command is turned away. -/
inductive Refusal where
  /-- Raised by no arm of `exec`: every row of the table has its meaning. Kept for the host's interface; safe. -/
  | notModelled (mnemonic : String)
  deriving DecidableEq, Repr

/-! ### Whole part -/

/-- The global state (R13, R164); `held` is the state while the reset line is asserted (log 20). -/
inductive Global where
  | held | loading | passOnly | running
  deriving DecidableEq, Repr

/-! ### Path unit (chapter 1) -/

/-- The arbiter's turn (R5). -/
inductive Turn where
  | pass | injected
  deriving DecidableEq, Repr

/-- The blocks that make injected requests (R3). -/
inductive Block where
  | lane (i : Fin 12) | command | report
  deriving DecidableEq, Repr

/-- The name of a line (R22): lane, arming number, sequence number. -/
structure LineId where
  lane : Fin 12
  arming : Nat
  seq : Nat
  deriving DecidableEq, Repr

/-- What an injected request is for: it tells the maker (R156) and what its completion does (R6). -/
inductive Purpose where
  /-- a trailer write of a lane (R27, R28) -/
  | trailer (i : Fin 12)
  /-- the entry read of the command unit (R152) -/
  | entryRead
  /-- a write of the command unit (R154, R155, R167) -/
  | commandWrite
  /-- a record write of the writer's run (R161) -/
  | record (run : Nat)
  /-- the producer word write that ends a run (R161) -/
  | producer (run value : Nat)
  /-- a producer word write of 0 (R157, R163, R167) -/
  | producerZero
  deriving DecidableEq, Repr

/-- A place of the pass-through queue (1.2). `order` is its place in the take order; `issue` is absent while WAITING
and holds the place in the order of issue when ISSUED. -/
structure PassEntry where
  req : Request
  master : Fin 16
  tag : Nat
  fed : List LineId
  order : Nat
  issue : Option Nat
  deriving DecidableEq, Repr

/-- A place of the injected queue (1.2). -/
structure InjEntry where
  req : Request
  purpose : Purpose
  order : Nat
  issue : Option Nat
  deriving DecidableEq, Repr

/-- The path unit. -/
structure Path where
  pass : List PassEntry
  injected : List InjEntry
  waitList : List Block
  turn : Turn
  nextOrder : Nat
  nextIssue : Nat
  absorb : Nat
  deriving DecidableEq, Repr

/-- A response on the upstream port (R1). -/
structure UpResponse where
  master : Fin 16
  tag : Nat
  okay : Bool
  data : List Byte
  deriving DecidableEq, Repr

/-- What the two memory ports have carried outward, oldest first (log 5). -/
structure Ports where
  upstream : List UpResponse
  downstream : List Request
  deriving DecidableEq, Repr

/-! ### Settings and lane control (chapters 2, 4, 9) -/

inductive TapOrder where
  | linear | mirrored | interleaved
  deriving DecidableEq, Repr

inductive ZoneKind where
  | face | corner | ignore
  deriving DecidableEq, Repr

/-- A zone of the zone table (R50). -/
structure Zone where
  first : Nat
  last : Nat
  kind : ZoneKind
  deriving DecidableEq, Repr

/-- The lane's geometry (R146); `w` is W, `n` is N. -/
structure Geometry where
  strand : Fin 6
  w : Nat
  n : Nat
  base : Nat
  tap : TapOrder
  pitch : Nat
  span : Nat
  obscureLimit : Nat
  trailers : Bool
  deriving DecidableEq, Repr

/-- The ten detection settings (R64). -/
structure Detect where
  tLow : Nat
  tHigh : Nat
  bgShift : Nat
  bgFloor : Nat
  seedLines : Nat
  linkGap : Nat
  gapLines : Nat
  minLines : Nat
  minAdvance : Nat
  stallLines : Nat
  deriving DecidableEq, Repr

/-- The TEST pattern parameters (R142). -/
structure TestParams where
  base : Nat
  depth : Nat
  col : Nat
  width : Nat
  lines : Nat
  period : Nat
  deriving DecidableEq, Repr

inductive LaneState where
  | off | armed | seeding | tracking | parked | test | stopping
  deriving DecidableEq, Repr

/-- Lane control (chapter 9). The settings record of R137 is the presence of the three settings (log 17). -/
structure Control where
  state : LaneState
  stateLeft : Option LaneState
  seed : Nat
  stall : Nat
  geometry : Option Geometry
  zones : Option (List Zone)
  detect : Option Detect
  test : Option TestParams
  deriving DecidableEq, Repr

/-! ### Line capture (chapter 2) -/

/-- A line held by a lane (R22): `bytes` are the buffer's bytes by offset, an unlisted offset holding 0. -/
structure Line where
  seq : Nat
  coord : Nat
  time : Nat
  arming : Nat
  slot : Nat
  memError : Bool
  coverage : List Nat
  bytes : List Host.Cell
  deriving DecidableEq, Repr

/-- The settings copy of a line in processing (R48). -/
structure Copy where
  detect : Detect
  dead : List Nat
  zones : List Zone
  w : Nat
  tap : TapOrder
  obscureLimit : Nat
  deriving DecidableEq, Repr

/-- A line buffer (R22). -/
inductive Buffer where
  | free
  | assembling (line : Line)
  | waiting (line : Line)
  | processing (line : Line) (copy : Copy)
  deriving DecidableEq, Repr

/-- The assembler (R17), with the current slot where there is one. -/
inductive Assembler where
  | noSlot
  | assembling (slot : Nat)
  | complete (slot : Nat)
  | discarding (slot : Nat)
  deriving DecidableEq, Repr

/-- The eight capture counters, in the order of R31. -/
structure Counters where
  processed : Nat
  runt : Nat
  overrun : Nat
  slip : Nat
  outOfSeq : Nat
  trailerWrites : Nat
  memErrors : Nat
  stationary : Nat
  deriving DecidableEq, Repr

/-- The line capture unit. `phaseFresh` says that no line has started since the last accepted TEST ON (R30);
`trailers` are the trailer requests that no queue place has taken yet (R3). -/
structure Capture where
  assembler : Assembler
  bufA : Buffer
  bufB : Buffer
  nextSeq : Nat
  arming : Nat
  statRef : Option Nat
  phase : Nat
  phaseFresh : Bool
  counters : Counters
  trailers : List Request
  deriving DecidableEq, Repr

/-! ### Detection (chapter 4) -/

/-- A segment (R57). -/
structure Segment where
  zone : Nat
  c0 : Nat
  c1 : Nat
  peak : Nat
  sum : Nat
  deriving DecidableEq, Repr

/-- The detection unit: `background` by column, an unlisted column holding 0; `dead` lists the DEAD columns. -/
structure Detection where
  background : List (Nat × Nat)
  dead : List Nat
  segments : List Segment
  segOverflow : Nat
  deriving DecidableEq, Repr

/-! ### Track table (chapter 5) -/

/-- An open track (R67). -/
structure Track where
  serial : Nat
  zone : Nat
  start : Nat
  stop : Nat
  lines : Nat
  colMin : Nat
  colMax : Nat
  r0 : Nat
  r1 : Nat
  newSpan : Option (Nat × Nat)
  peak : Nat
  sum : Nat
  gap : Nat
  merged : Nat
  splitTail : Bool
  test : Bool
  deriving DecidableEq, Repr

/-- The track table: its entries in age order (R69). -/
structure TrackTable where
  tracks : List Track
  nextSerial : Nat
  trackFull : Nat
  deriving DecidableEq, Repr

/-- A coverage run [start, stop) (R111). -/
structure Run where
  start : Nat
  stop : Nat
  approx : Bool
  deriving DecidableEq, Repr

/-- One lane. Its coverage run list belongs to the billet unit of its strand (7.3). -/
structure Lane where
  control : Control
  capture : Capture
  detection : Detection
  table : TrackTable
  runs : List Run
  deriving DecidableEq, Repr

/-! ### Defect records (chapter 6) -/

inductive Class where
  | corner | longitudinal | transverse | mesh
  deriving DecidableEq, Repr

inductive CloseReason where
  | gap | drain | cut
  deriving DecidableEq, Repr

inductive Mark where
  | none | queued | shared | fired | lost | late
  deriving DecidableEq, Repr

/-- A defect record (R98). The MERGED flag is the merged count being at least 1. -/
structure Defect where
  lane : Fin 12
  strand : Fin 6
  serial : Nat
  cls : Class
  grade : Nat
  start : Nat
  stop : Nat
  length : Nat
  width : Nat
  colMin : Nat
  colMax : Nat
  zone : Nat
  lines : Nat
  peak : Nat
  sum : Nat
  merged : Nat
  time : Nat
  reason : CloseReason
  splitHead : Bool
  splitTail : Bool
  straddle : Bool
  test : Bool
  mark : Mark
  deriving DecidableEq, Repr

/-- The classification settings (R103). -/
structure Classify where
  aspect : Nat
  oscSpanPct : Nat
  oscPeakMax : Nat
  g1 : Nat
  g2 : Nat
  g3 : Nat
  longLen : Nat
  deriving DecidableEq, Repr

/-! ### Strands: motion, billet, marker (chapters 3, 7, 8) -/

/-- The STRAND_SETUP settings (R148). -/
structure StrandSetup where
  countsPerM : Nat
  cutDist : Nat
  reverseLimit : Nat
  coverMin : Nat
  rejectGrade : Nat
  deriving DecidableEq, Repr

/-- The channel of the motion unit (chapter 3). `pairDue` and `cutDue` are what the sample of the last increment showed
in RUNNING, while it is still to be decoded (R36, log 7): the encoder pair and the cut-complete level. -/
structure Motion where
  refPair : Pair
  coord : Nat
  debt : Nat
  reportArmed : Bool
  encErrors : Nat
  cutHigh : Bool
  pairDue : Option Pair
  cutDue : Option Bool
  deriving DecidableEq, Repr

/-- The open billet (R105); `active` in ascending lane order. -/
structure OpenBillet where
  serial : Nat
  start : Nat
  partialHead : Bool
  testSeen : Bool
  laneLeft : Bool
  active : List (Fin 12)
  osc : Nat
  noise : Nat
  dropped : Nat
  deriving DecidableEq, Repr

/-- The billet unit: the open billet and the pending defect list in key order (R108). -/
structure Billets where
  current : OpenBillet
  waiting : List Defect
  deriving DecidableEq, Repr

/-- The marker settings (R132). -/
structure MarkSettings where
  dist : Nat
  grade : Nat
  holdoff : Nat
  pulse : Nat
  lateMax : Nat
  deriving DecidableEq, Repr

/-- An entry of the marker queue: fire coordinate, record reference, grade. -/
structure MarkEntry where
  fire : Nat
  lane : Fin 12
  serial : Nat
  start : Nat
  grade : Nat
  deriving DecidableEq, Repr

/-- The marker unit; `pulsing` is PULSE, otherwise IDLE. -/
structure Marker where
  queue : List MarkEntry
  pulsing : Bool
  pulseStart : Nat
  lastFired : Option Nat
  settings : Option MarkSettings
  fired : Nat
  lost : Nat
  late : Nat
  deriving DecidableEq, Repr

/-- One strand. -/
structure Strand where
  setup : Option StrandSetup
  motion : Motion
  billet : Billets
  marker : Marker
  deriving DecidableEq, Repr

/-! ### Billet records, jobs and events (chapters 7, 10) -/

inductive Verdict where
  | clean | unverified | defective
  deriving DecidableEq, Repr

/-- A coverage entry of a billet record (R117, R119). -/
structure CoverEntry where
  lane : Fin 12
  perMille : Nat
  approx : Bool
  deriving DecidableEq, Repr

/-- The billet record (R119). -/
structure BilletRecord where
  strand : Fin 6
  serial : Nat
  start : Nat
  stop : Nat
  length : Nat
  time : Nat
  corner : Nat
  longitudinal : Nat
  transverse : Nat
  mesh : Nat
  osc : Nat
  noise : Nat
  dropped : Nat
  condensed : Nat
  maxGrade : Nat
  coverage : List CoverEntry
  partialHead : Bool
  test : Bool
  approx : Bool
  verdict : Verdict
  deriving DecidableEq, Repr

/-- A billet job (R121). -/
structure Job where
  billet : BilletRecord
  group : List Defect
  deriving DecidableEq, Repr

inductive Cause where
  | arm | firstLine | seeded | stalled | moving | reseed | testOn | testOff | disarm | stopped | laneReset
  deriving DecidableEq, Repr

/-- The events of the report unit (R162) with what each carries (R136, R20, R114, R41). -/
inductive Event where
  | laneState (lane : Fin 12) (strand : Option (Fin 6)) (old new : LaneState) (cause : Cause) (line time : Nat)
  | lineSlip (lane : Fin 12) (strand : Fin 6) (slot seq coord time : Nat)
  | cutRefused (strand : Fin 6) (coord cutDist start time : Nat)
  | reverseTravel (strand : Fin 6) (coord debt time : Nat)
  deriving DecidableEq, Repr

/-! ### Command unit (chapter 10) -/

/-- The command statuses (R153). -/
inductive Status where
  | done | doneClamped | refused | badValue | badTarget | incomplete | unknown | fetchError
  deriving DecidableEq, Repr

/-- What holds a command in EXECUTING (R154). -/
inductive Held where
  | disarm (i : Fin 12) | snapshot
  deriving DecidableEq, Repr

/-- The condition of the command unit (R151). `fetching` and `retiring` say whether the entry read, or the status
write, has been taken into the injected queue; `executing` carries the command part of the entry in hand. -/
inductive CmdCond where
  | loading
  | idle
  | fetching (taken : Bool)
  | executing (entry : List Byte) (held : Option Held)
  | retiring (status : Status) (statusTaken : Bool)
  deriving DecidableEq, Repr

/-- The command unit; `writes` are the status-area and start-up writes still to be made (R155, R167). -/
structure CommandUnit where
  base : Option Nat
  master : Option (Fin 16)
  cond : CmdCond
  consumer : Nat
  producer : Nat
  foreign : Nat
  writes : List Request
  deriving DecidableEq, Repr

/-! ### Report unit (chapter 10) -/

/-- The report settings (R157). -/
structure ReportSettings where
  base : Nat
  size : Nat
  high : Nat
  low : Nat
  condenseGrade : Nat
  deriving DecidableEq, Repr

inductive Mode where
  | normal | condensed
  deriving DecidableEq, Repr

inductive FaultCode where
  | none | injectWriteError | fetchError | reportLost | eventLost | presetFailed
  deriving DecidableEq, Repr

/-- A record of the report ring (12.5). -/
inductive Rec where
  | billet (b : BilletRecord) | defect (d : Defect) | event (e : Event)
  deriving DecidableEq, Repr

/-- The writer (R161): in WRITING the records whose writes are still to be made and the number of record writes made
and not completed; in PUBLISHING the value and whether its write has been taken. -/
inductive Writer where
  | idle
  | writing (todo : List Rec) (outstanding : Nat)
  | publishing (value : Nat) (taken : Bool)
  deriving DecidableEq, Repr

/-- The report unit. `zeros` counts the producer word writes of 0 still to be made; `run` numbers the writer's work
(log 6). -/
structure ReportUnit where
  settings : Option ReportSettings
  writeIndex : Nat
  published : Nat
  consumer : Nat
  mode : Mode
  writer : Writer
  zeros : Nat
  run : Nat
  jobs : List Job
  events : List Event
  lostJobs : Nat
  lostEvents : Nat
  fault : FaultCode
  detail : Nat
  suppressed : Nat
  deriving DecidableEq, Repr

/-! ### Start-up loader (chapter 11) -/

inductive LoaderState where
  | reading | presets | finished
  deriving DecidableEq, Repr

inductive Partition where
  | none | first | second
  deriving DecidableEq, Repr

/-- The image header values (R165). -/
structure Header where
  base : Nat
  master : Nat
  count : Nat
  deriving DecidableEq, Repr

/-- The start-up loader. `spiSent` are the bytes sent on the SPI line in the present read (R164). -/
structure Loader where
  state : LoaderState
  partition : Partition
  header : Option Header
  presets : List (List Byte)
  statuses : List Status
  chipSelect : Bool
  spiSent : List Byte
  deriving DecidableEq, Repr

/-! ### The whole state -/

/-- The state of the part, with the queue of commands that wait. -/
structure State where
  global : Global
  clock : Nat
  path : Path
  ports : Ports
  lanes : Vector Lane 12
  strands : Vector Strand 6
  classify : Classify
  command : CommandUnit
  report : ReportUnit
  loader : Loader
  choice : Nat
  pending : List Instr
  deriving DecidableEq, Repr

/-! ### Power-on values -/

/-- R11. -/
def Path.initial : Path := ⟨[], [], [], .pass, 0, 0, 0⟩

/-- R149. -/
def Control.initial : Control := ⟨.off, none, 0, 0, none, none, none, none⟩

/-- R31. -/
def Counters.zero : Counters := ⟨0, 0, 0, 0, 0, 0, 0, 0⟩

/-- R33. -/
def Capture.initial : Capture := ⟨.noSlot, .free, .free, 1, 0, none, 0, false, Counters.zero, []⟩

/-- R66. -/
def Detection.initial : Detection := ⟨[], [], [], 0⟩

/-- R88. -/
def TrackTable.initial : TrackTable := ⟨[], 1, 0⟩

def Lane.initial : Lane := ⟨Control.initial, Capture.initial, Detection.initial, TrackTable.initial, []⟩

/-- R46. The reference pair and the cut input state stand for the time before the first sample (log 4). -/
def Motion.initial : Motion := ⟨⟨false, false⟩, 0, 0, true, 0, false, none, none⟩

/-- Billet 1 from coordinate `start`, after a reset (R106). -/
def OpenBillet.first (start : Nat) : OpenBillet := ⟨1, start, true, false, false, [], 0, 0, 0⟩

/-- R134. -/
def Marker.initial : Marker := ⟨[], false, 0, none, none, 0, 0, 0⟩

def Strand.initial : Strand := ⟨none, Motion.initial, ⟨OpenBillet.first 0, []⟩, Marker.initial⟩

/-- The defaults of R103. -/
def Classify.initial : Classify := ⟨3, 60, 40, 48, 96, 160, 500⟩

/-- R163, R164. -/
def CommandUnit.initial : CommandUnit := ⟨none, none, .loading, 0, 0, 0, []⟩

/-- R163. -/
def ReportUnit.initial : ReportUnit := ⟨none, 0, 0, 0, .normal, .idle, 0, 0, [], [], 0, 0, .none, 0, 0⟩

/-- The loader as the read of the store begins (R164): chip select asserted, the read command 0x03 and the three
address bytes sent. -/
def Loader.reading : Loader := ⟨.reading, .none, none, [], [], true, [0x03, 0x00, 0x00, 0x00]⟩

/-- The part right after power-on (R164, R11, R33, R46, R66, R88, R104, R106, R134, R149, R163). -/
def State.reset : State where
  global := .loading
  clock := 0
  path := Path.initial
  ports := ⟨[], []⟩
  lanes := Vector.replicate 12 Lane.initial
  strands := Vector.replicate 6 Strand.initial
  classify := Classify.initial
  command := CommandUnit.initial
  report := ReportUnit.initial
  loader := Loader.reading
  choice := 0
  pending := []

end Sys2Proof.Machine
end

