-- ==== Sys2Proof/Machine/Arith.lean ====
section
/-!
DEFINITION. The arithmetic the chapters share: saturation and wrapping (00_scope.md, Conventions), clamping,
little-endian bytes (R169), the conversion of counts to lengths (R43), and lists in canonical form for the addressed
buffers.
-/

namespace Sys2Proof.Machine

/-- The greatest value of a 32-bit counter. -/
def top32 : Nat := 4294967295

/-- A counter that saturates at `top` rises by `k`. -/
def satAdd (top n k : Nat) : Nat := min top (n + k)

/-- A 32-bit saturating counter rises by 1. -/
def bump (n : Nat) : Nat := satAdd top32 n 1

/-- A 32-bit value that wraps rises by 1. -/
def wrap32 (n : Nat) : Nat := (n + 1) % 2 ^ 32

/-- The nearest value of the range `lo`-`hi`. -/
def clamp (lo hi x : Nat) : Nat := max lo (min hi x)

/-- The `k` bytes of `v`, least significant first (R169). -/
def le : Nat → Nat → List Byte
  | 0, _ => []
  | k + 1, v => BitVec.ofNat 8 v :: le k (v / 256)

/-- The value of bytes stored least significant first. -/
def fromLe : List Byte → Nat
  | [] => 0
  | b :: bs => b.toNat + 256 * fromLe bs

/-- The unsigned integer of the `len` bytes at `off` (R170). -/
def fieldAt (bytes : List Byte) (off len : Nat) : Nat :=
  fromLe ((bytes.drop off).take len)

/-- `n` zero bytes. -/
def zeroBytes (n : Nat) : List Byte := List.replicate n 0

/-- One byte holding `n`. -/
def byteOf (n : Nat) : Byte := BitVec.ofNat 8 n

/-- A span of counts as a length in 0.1 mm (R43). -/
def toLength (counts countsPerM : Nat) : Nat :=
  min top32 (counts * 10000 / countsPerM)

/-- The value at `k` of a list of keyed values; an unlisted key holds `d`. -/
def lookupAt {α : Type} (d : α) : List (Nat × α) → Nat → α
  | [], _ => d
  | (a, v) :: m, k => if a = k then v else lookupAt d m k

/-- Stores `v` at `k`, keeping the keys rising and no entry equal to `d`. -/
def storeAt {α : Type} [DecidableEq α] (d : α) : List (Nat × α) → Nat → α → List (Nat × α)
  | [], k, v => if v = d then [] else [(k, v)]
  | (a, w) :: m, k, v =>
    if k < a then (if v = d then (a, w) :: m else (k, v) :: (a, w) :: m)
    else if k = a then (if v = d then m else (k, v) :: m)
    else (a, w) :: storeAt d m k v

/-- The canonical form: keys strictly rising from above `lo`, no entry equal to `d`. -/
def canonicalFrom {α : Type} [DecidableEq α] (d : α) : Nat → List (Nat × α) → Bool
  | _, [] => true
  | lo, (a, v) :: m => decide (lo ≤ a) && decide (v ≠ d) && canonicalFrom d (a + 1) m

/-- The canonical form of a keyed list. -/
def canonical {α : Type} [DecidableEq α] (d : α) (m : List (Nat × α)) : Bool := canonicalFrom d 0 m

/-- Adds `k` to a set of numbers held as a strictly rising list. -/
def insertNum : List Nat → Nat → List Nat
  | [], k => [k]
  | a :: m, k => if k < a then k :: a :: m else if k = a then a :: m else a :: insertNum m k

/-- A set of numbers held as a strictly rising list, above `lo`. -/
def risingFrom : Nat → List Nat → Bool
  | _, [] => true
  | lo, a :: m => decide (lo ≤ a) && risingFrom (a + 1) m

/-- The intervals [a, b) and [c, d) share a number. -/
def intervalsMeet (a b c d : Nat) : Bool := decide (a < d) && decide (c < b) && decide (a < b) && decide (c < d)

/-- Puts `x` at position `k` of `l` (at its end when `k` is beyond it). -/
def insertPos {α : Type} (x : α) : Nat → List α → List α
  | 0, l => x :: l
  | _ + 1, [] => [x]
  | k + 1, y :: l => y :: insertPos x k l

/-- The members of `l` in an order the manual leaves open, chosen by the free value `Config.orderPick` from `n` on.
A list of at most one member is not reordered, and the free value is then not asked. -/
def anyOrder {α : Type} : Nat → List α → List α
  | _, [] => []
  | n, x :: xs =>
    match anyOrder (n + 1) xs with
    | [] => [x]
    | y :: ys => insertPos x (Config.orderPick n % ((y :: ys).length + 1)) (y :: ys)

end Sys2Proof.Machine
end

