-- ==== Sys2Proof/Machine/Operands.lean ====
section
/-!
DEFINITION. The memory formats of chapter 12: the codes (12.1), the layouts of every structure the CX6 writes (R169),
the places of the control block (R170), the rings of chapter 2, and the decoding of command entries (12.4, R170).
-/

namespace Sys2Proof.Machine

/-! ### Codes (12.1) -/

def LaneState.code : LaneState → Nat
  | .off => 0 | .armed => 1 | .seeding => 2 | .tracking => 3 | .parked => 4 | .test => 5 | .stopping => 6

def Cause.code : Cause → Nat
  | .arm => 1 | .firstLine => 2 | .seeded => 3 | .stalled => 4 | .moving => 5 | .reseed => 6 | .testOn => 7
  | .testOff => 8 | .disarm => 9 | .stopped => 10 | .laneReset => 11

/-- Trailer statuses (R27, R28). -/
inductive TrailerStatus where
  | ok | runt | overrun | slip | memError | stationary | seed | test
  deriving DecidableEq, Repr

def TrailerStatus.code : TrailerStatus → Nat
  | .ok => 0 | .runt => 1 | .overrun => 2 | .slip => 3 | .memError => 4 | .stationary => 5 | .seed => 6 | .test => 7

/-- The event kind codes (12.1). -/
def Event.kindCode : Event → Nat
  | .laneState .. => 1 | .lineSlip .. => 2 | .cutRefused .. => 3 | .reverseTravel .. => 4

def Class.code : Class → Nat
  | .corner => 0 | .longitudinal => 1 | .transverse => 2 | .mesh => 3

def CloseReason.code : CloseReason → Nat
  | .gap => 0 | .drain => 1 | .cut => 2

def Mark.code : Mark → Nat
  | .none => 0 | .queued => 1 | .shared => 2 | .fired => 3 | .lost => 4 | .late => 5

def Verdict.code : Verdict → Nat
  | .clean => 0 | .unverified => 1 | .defective => 2

def Status.code : Status → Nat
  | .done => 1 | .doneClamped => 2 | .refused => 3 | .badValue => 4 | .badTarget => 5 | .incomplete => 6
  | .unknown => 7 | .fetchError => 8

def FaultCode.code : FaultCode → Nat
  | .none => 0 | .injectWriteError => 1 | .fetchError => 2 | .reportLost => 3 | .eventLost => 4 | .presetFailed => 5

def Mode.code : Mode → Nat
  | .normal => 0 | .condensed => 1

def Partition.code : Partition → Nat
  | .none => 0 | .first => 1 | .second => 2

/-- Tap order of a code; none for a code outside the table. -/
def tapOfCode : Nat → Option TapOrder
  | 0 => some .linear | 1 => some .mirrored | 2 => some .interleaved | _ => none

/-- Zone kind of a code; none for a code outside the table. -/
def zoneKindOfCode : Nat → Option ZoneKind
  | 0 => some .face | 1 => some .corner | 2 => some .ignore | _ => none

/-- A flag byte from its bits, bit 0 first (R169). -/
def flagByte : List Bool → Nat
  | [] => 0
  | b :: bs => (if b then 1 else 0) + 2 * flagByte bs

/-- A lane or strand number, or none (R169). -/
def numberOrNone {n : Nat} : Option (Fin n) → Byte
  | some i => byteOf i.val
  | none => 0xFF

/-! ### Rings (R14, R15) -/

/-- The slot size S for W samples (R14). -/
def slotSize (w : Nat) : Nat := (2 * w + 32 + 63) / 64 * 64

/-- The first address above the ring (R14). -/
def ringEnd (g : Geometry) : Nat := g.base + g.n * slotSize g.w

/-- The column of storage position `p` (R15). -/
def tapColumn (tap : TapOrder) (w p : Nat) : Nat :=
  match tap with
  | .linear => p
  | .mirrored => if p < w / 2 then p else w - 1 - (p - w / 2)
  | .interleaved => if p % 2 = 0 then p / 2 else w / 2 + (p - 1) / 2

/-- The storage position of column `c`: the mapping of R15 read backwards. -/
def tapPosition (tap : TapOrder) (w c : Nat) : Nat :=
  match tap with
  | .linear => c
  | .mirrored => if c < w / 2 then c else w / 2 + (w - 1 - c)
  | .interleaved => if c < w / 2 then 2 * c else 2 * (c - w / 2) + 1

/-! ### Trailers (12.2) -/

/-- The 32 bytes of a trailer. -/
def trailerBytes (l : Line) (status : TrailerStatus) (segments obscured : Nat) (overflow uncovered : Bool) : List Byte :=
  le 4 l.seq ++ le 5 l.coord ++ le 6 l.time ++ [byteOf status.code] ++ le 2 obscured ++ [byteOf segments] ++
    [byteOf (flagByte [overflow, uncovered])] ++ zeroBytes 12

/-- All 32 bytes of a beat enabled. -/
def allBytes : BitVec 32 := 0xFFFFFFFF

/-- A write of one beat. -/
def beatWrite (addr : Nat) (enables : BitVec 32) (data : List Byte) : Request := ⟨.write, addr, 1, [enables], data⟩

/-- The trailer write of a line: one whole beat at the trailer of the line's slot (R27, R28). -/
def trailerWrite (g : Geometry) (l : Line) (status : TrailerStatus) (segments obscured : Nat)
    (overflow uncovered : Bool) : Request :=
  beatWrite (g.base + l.slot * slotSize g.w + 2 * g.w) allBytes
    (trailerBytes l status segments obscured overflow uncovered)

/-! ### Report ring records (12.5) -/

/-- One coverage entry: lane, flags, per mille. -/
def coverBytes (e : CoverEntry) : List Byte :=
  [byteOf e.lane.val, byteOf (flagByte [e.approx])] ++ le 2 e.perMille

/-- The 64 bytes of a billet record. -/
def billetBytes (b : BilletRecord) : List Byte :=
  [1, byteOf b.strand.val, byteOf b.verdict.code, byteOf b.maxGrade,
    byteOf (flagByte [b.partialHead, b.test, b.approx]), byteOf b.coverage.length, 0, 0] ++
  le 4 b.serial ++ le 4 b.length ++ le 5 b.start ++ le 5 b.stop ++ le 6 b.time ++
  [byteOf b.corner, byteOf b.longitudinal, byteOf b.transverse, byteOf b.mesh] ++
  le 2 b.osc ++ le 2 b.noise ++ le 2 b.dropped ++ le 2 b.condensed ++ zeroBytes 4 ++
  (b.coverage.flatMap coverBytes ++ zeroBytes 16).take 16

/-- The 64 bytes of a defect record. -/
def defectBytes (d : Defect) : List Byte :=
  [2, byteOf d.lane.val, byteOf d.strand.val, byteOf d.cls.code, byteOf d.grade, byteOf d.zone, byteOf d.reason.code,
    byteOf d.mark.code] ++
  le 4 d.serial ++ le 4 d.length ++ le 5 d.start ++ le 5 d.stop ++ le 6 d.time ++ le 4 d.width ++
  le 2 d.colMin ++ le 2 d.colMax ++ le 2 d.lines ++ [byteOf d.peak, byteOf d.merged] ++ le 3 d.sum ++
  [byteOf (flagByte [d.splitHead, d.splitTail, d.straddle, d.test, decide (1 ≤ d.merged)])] ++ zeroBytes 16

/-- The 48 content bytes of an event record. -/
def eventContents : Event → List Byte
  | .laneState _ _ old new cause line _ =>
    [byteOf old.code, byteOf new.code, byteOf cause.code, 0] ++ le 4 line ++ zeroBytes 40
  | .lineSlip _ _ slot seq coord _ => le 2 slot ++ zeroBytes 2 ++ le 4 seq ++ le 5 coord ++ zeroBytes 35
  | .cutRefused _ coord cutDist start _ =>
    le 5 coord ++ zeroBytes 3 ++ le 4 cutDist ++ zeroBytes 4 ++ le 5 start ++ zeroBytes 27
  | .reverseTravel _ coord debt _ => le 5 coord ++ zeroBytes 3 ++ le 2 debt ++ zeroBytes 38

/-- The lane byte of an event record. -/
def eventLane : Event → Byte
  | .laneState i .. => byteOf i.val
  | .lineSlip i .. => byteOf i.val
  | .cutRefused .. => 0xFF
  | .reverseTravel .. => 0xFF

/-- The strand byte of an event record. -/
def eventStrand : Event → Byte
  | .laneState _ k .. => numberOrNone k
  | .lineSlip _ k .. => byteOf k.val
  | .cutRefused k .. => byteOf k.val
  | .reverseTravel k .. => byteOf k.val

/-- The bay time of an event. -/
def eventTime : Event → Nat
  | .laneState _ _ _ _ _ _ t => t
  | .lineSlip _ _ _ _ _ t => t
  | .cutRefused _ _ _ _ t => t
  | .reverseTravel _ _ _ t => t

/-- The 64 bytes of an event record. -/
def eventBytes (e : Event) : List Byte :=
  [3, byteOf e.kindCode, eventLane e, eventStrand e] ++ le 6 (eventTime e) ++ zeroBytes 6 ++ eventContents e

/-- The 64 bytes of a record of the report ring. -/
def recBytes : Rec → List Byte
  | .billet b => billetBytes b
  | .defect d => defectBytes d
  | .event e => eventBytes e

/-- A record write: two whole beats in the slot at `index` (R158, R161). -/
def recordWrite (ringBase index : Nat) (r : Rec) : Request :=
  ⟨.write, ringBase + 64 * index, 2, [allBytes, allBytes], recBytes r⟩

/-! ### The control block (12.3) -/

/-- The status write of an entry: the two status bytes only (R154). -/
def statusWrite (base index : Nat) (st : Status) : Request :=
  beatWrite (base + 64 * index) 0x0000000C (zeroBytes 2 ++ le 2 st.code ++ zeroBytes 28)

/-- The command consumer word write (offset 52 of place 0). -/
def consumerWordWrite (base value : Nat) : Request :=
  beatWrite (base + 32) 0x00F00000 (zeroBytes 20 ++ le 4 value ++ zeroBytes 8)

/-- The report producer word write (offset 56 of place 0). -/
def producerWordWrite (base value : Nat) : Request :=
  beatWrite (base + 32) 0x0F000000 (zeroBytes 24 ++ le 4 value ++ zeroBytes 4)

/-- The entry read: the whole 64-byte place (R152). -/
def entryRead (base index : Nat) : Request := ⟨.read, base + 64 * index, 2, [], []⟩

/-- The control block offset of status byte `sb` (R170). -/
def statusOffset (sb : Nat) : Nat := 64 * (1 + sb / 16) + 48 + sb % 16

/-- The 16 status bytes whose stripe is in place `p` (R170), from the whole status area. -/
def stripeBytes (area : List Byte) (p : Nat) : List Byte := (area.drop (16 * (p - 1))).take 16

/-- One write that carries the stripes of `places`, from the stripe beat of the first to the stripe beat of the last;
only the bytes of those stripes are enabled (R169). That the write has no beat before the first or after the last of which
it enables a byte, which fixes its address and its length, is the model's choice (R155, R169 and R167 are silent; log 40). -/
def stripesWrite (base : Nat) (area : List Byte) (places : List Nat) : Request :=
  let p := places.headD 0
  let q := places.getLastD 0
  let beats := List.range (2 * (q - p) + 1)
  let carried (j : Nat) : Bool := j % 2 == 0 && places.contains (p + j / 2)
  { kind := .write
    addr := base + 64 * p + 32
    len := 2 * (q - p) + 1
    enables := beats.map fun j => if carried j then 0xFFFF0000 else 0
    data := beats.flatMap fun j =>
      if carried j then zeroBytes 16 ++ stripeBytes area (p + j / 2) else zeroBytes 32 }

/-- Cuts the places to be written into groups whose writes have at most 16 beats (R155); the size of each group, from
1 to 8, is the free value `Config.snapshotGroup` (log 13). `fuel` bounds the number of groups. -/
def groupPlaces (choice : Nat) : Nat → Nat → List Nat → List (List Nat)
  | 0, _, _ => []
  | _ + 1, _, [] => []
  | fuel + 1, k, p :: ps =>
    let more := (ps.take (Config.snapshotGroup choice k % 8)).takeWhile (· ≤ p + 7)
    (p :: more) :: groupPlaces choice fuel (k + 1) (ps.drop more.length)

/-! ### The status area (12.3) -/

/-- Status bytes of one lane: 48. -/
def laneSection (l : Lane) : List Byte :=
  [byteOf l.control.state.code, numberOrNone (l.control.geometry.map (·.strand)), byteOf l.control.seed,
    byteOf l.control.stall] ++
  le 4 l.capture.counters.processed ++ le 4 l.capture.counters.runt ++ le 4 l.capture.counters.overrun ++
  le 4 l.capture.counters.slip ++ le 4 l.capture.counters.outOfSeq ++ le 4 l.capture.counters.trailerWrites ++
  le 4 l.capture.counters.memErrors ++ le 4 l.capture.counters.stationary ++
  le 4 l.detection.segOverflow ++ le 4 l.table.trackFull ++ [byteOf l.table.tracks.length] ++ zeroBytes 3

/-- Status bytes of one strand: 56. `runCounts` are the run counts of its bound lanes in ascending lane order. -/
def strandSection (t : Strand) (runCounts : List Nat) : List Byte :=
  le 5 t.motion.coord ++ [byteOf (if t.marker.pulsing then 1 else 0)] ++ le 2 t.motion.debt ++
  le 4 t.motion.encErrors ++ le 4 t.billet.current.serial ++ le 5 t.billet.current.start ++
  [byteOf t.billet.waiting.length] ++ le 2 t.billet.current.osc ++ le 2 t.billet.current.noise ++
  le 2 t.billet.current.dropped ++ ((runCounts.map byteOf) ++ List.replicate 4 0xFF).take 4 ++
  le 5 (t.marker.lastFired.getD 0) ++ [byteOf (if t.marker.lastFired.isSome then 1 else 0)] ++
  [byteOf t.marker.queue.length, 0] ++ le 4 t.marker.fired ++ le 4 t.marker.lost ++ le 4 t.marker.late ++ zeroBytes 4

/-- Status bytes of the bay: 32. -/
def baySection (s : State) : List Byte :=
  le 6 s.clock ++ [byteOf s.command.consumer, byteOf s.report.mode.code] ++ le 4 s.command.foreign ++
  le 2 s.report.writeIndex ++ le 2 s.report.published ++ le 2 s.report.consumer ++
  [byteOf s.report.jobs.length, byteOf s.report.events.length] ++ le 4 s.report.lostJobs ++ le 4 s.report.lostEvents ++
  [byteOf s.report.fault.code, byteOf s.report.detail, byteOf s.report.suppressed, 0]

/-- Status bytes of the preset section: 48 (R167). -/
def presetSection (partition : Partition) (count : Nat) (statuses : List Status) : List Byte :=
  [byteOf partition.code, byteOf count] ++
    (statuses.map (fun st => byteOf st.code) ++ zeroBytes 46).take 46

/-- The lanes, in ascending order. -/
def allLanes : List (Fin 12) := [0, 1, 2, 3, 4, 5, 6, 7, 8, 9, 10, 11]

/-- The strands, in ascending order. -/
def allStrands : List (Fin 6) := [0, 1, 2, 3, 4, 5]

/-- The lanes bound to strand `k`, in ascending order (R135). -/
def boundLanes (s : State) (k : Fin 6) : List (Fin 12) :=
  allLanes.filter fun i => ((s.lanes.get i).control.geometry.map (·.strand)) == some k

/-- The 1,008 bytes of the status area as SNAPSHOT captures them; the places of the preset section are not written
from it (R155). -/
def snapshotArea (s : State) : List Byte :=
  baySection s ++ zeroBytes 48 ++
  allLanes.flatMap (fun i => laneSection (s.lanes.get i)) ++
  allStrands.flatMap (fun k =>
    strandSection (s.strands.get k) ((boundLanes s k).map fun i => (s.lanes.get i).runs.length)) ++
  zeroBytes 16

/-- The places whose stripes SNAPSHOT writes: all but the preset section's places 3 to 5 (R155, R167, log 13). -/
def snapshotPlaces : List Nat := [1, 2] ++ (List.range 58).map (· + 6)

/-- The area writes of a SNAPSHOT, in rising address order (R155). -/
def snapshotWrites (s : State) : List Request :=
  (groupPlaces s.choice 60 0 snapshotPlaces).map (stripesWrite (s.command.base.getD 0) (snapshotArea s))

/-- The write of the preset section at the entry to RUNNING: the stripes of places 3 to 5 (R167). -/
def presetSectionWrite (base : Nat) (partition : Partition) (count : Nat) (statuses : List Status) : Request :=
  stripesWrite base (zeroBytes 32 ++ presetSection partition count statuses) [3, 4, 5]

/-! ### Command entries (12.4) -/

/-- The parameters of LANE_GEOMETRY as the entry carries them. -/
structure GeometryParams where
  strand : Nat
  tap : Nat
  trailers : Nat
  w : Nat
  n : Nat
  base : Nat
  pitch : Nat
  span : Nat
  obscureLimit : Nat
  deriving DecidableEq, Repr

/-- One zone of LANE_ZONES as the entry carries it. -/
structure ZoneParams where
  first : Nat
  last : Nat
  kind : Nat
  deriving DecidableEq, Repr

/-- A command entry decoded (12.4); `target` is the target byte. -/
inductive Command where
  | laneGeometry (target : Nat) (p : GeometryParams)
  | laneZones (target count : Nat) (zones : List ZoneParams)
  | deadColumns (target first count action : Nat)
  | laneDetect (target : Nat) (p : Detect)
  | strandSetup (target : Nat) (p : StrandSetup)
  | strandMarking (target : Nat) (p : MarkSettings)
  | classifySetup (p : Classify)
  | reportSetup (p : ReportSettings)
  | arm (target : Nat)
  | disarm (target : Nat)
  | reseed (target : Nat)
  | test (target action : Nat) (p : TestParams)
  | snapshot
  | clearFault
  | laneReset (target : Nat)
  | bayReset (keep : Bool)
  | unknown (code : Nat)
  deriving DecidableEq, Repr

/-- The zones of a LANE_ZONES entry within its count (R170); a count above 8 is refused, and no zone is read for it. -/
def zonesOf (e : List Byte) (count : Nat) : List ZoneParams :=
  (List.range (if count ≤ 8 then count else 0)).map fun z =>
    ⟨fieldAt e (8 + 5 * z) 2, fieldAt e (10 + 5 * z) 2, fieldAt e (12 + 5 * z) 1⟩

/-- The command that a command part spells (12.4, R170). -/
def decodeEntry (e : List Byte) : Command :=
  let f := fieldAt e
  let target := f 1 1
  match f 0 1 with
  | 0x01 => .laneGeometry target ⟨f 4 1, f 5 1, f 6 1, f 8 2, f 10 2, f 12 5, f 18 2, f 20 2, f 22 2⟩
  | 0x02 => .laneZones target (f 4 1) (zonesOf e (f 4 1))
  | 0x03 => .deadColumns target (f 4 2) (f 6 2) (f 8 1)
  | 0x04 => .laneDetect target ⟨f 4 1, f 5 1, f 6 1, f 8 2, f 7 1, f 10 1, f 11 1, f 12 1, f 13 1, f 14 1⟩
  | 0x05 => .strandSetup target ⟨f 4 4, f 8 4, f 12 2, f 14 2, f 16 1⟩
  | 0x06 => .strandMarking target ⟨f 4 4, f 8 1, f 10 2, f 12 2, f 14 2⟩
  | 0x07 => .classifySetup ⟨f 4 1, f 5 1, f 6 1, f 7 1, f 8 1, f 9 1, f 10 2⟩
  | 0x08 => .reportSetup ⟨f 4 5, f 12 4, f 16 2, f 18 2, f 20 1⟩
  | 0x09 => .arm target
  | 0x0A => .disarm target
  | 0x0B => .reseed target
  | 0x0C => .test target (f 4 1) ⟨f 6 2, f 8 2, f 10 2, f 12 2, f 14 1, f 15 1⟩
  | 0x0D => .snapshot
  | 0x0E => .clearFault
  | 0x0F => .laneReset target
  | 0x10 => .bayReset (decide (f 4 1 ≠ 0))
  | code => .unknown code

/-- The command part of a place: its bytes 0-47 (R170). -/
def commandPart (place : List Byte) : List Byte := place.take 48

end Sys2Proof.Machine
end

