-- ==== Sys2Proof/Machine/Flags.lean ====
section
/-!
DEFINITION. The discrete output lines and the marks computed from State. Each line has one home, the state it shows;
there is no second copy that could disagree.
-/

namespace Sys2Proof.Machine

/-- FAULT is asserted while the fault code is not NONE (R156). -/
def faultLine (s : State) : Bool := decide (s.report.fault ≠ .none)

/-- REPORT is asserted while the published producer differs from the consumer copy (R158). -/
def reportLine (s : State) : Bool := decide (s.report.published ≠ s.report.consumer)

/-- CFG_OK is asserted from the entry to RUNNING to power-on or the reset line (R164, R167, R168). -/
def cfgOkLine (s : State) : Bool := decide (s.global = .running)

/-- The marker line of a strand is asserted throughout PULSE (R133). -/
def markerLine (s : State) (k : Fin 6) : Bool := (s.strands.get k).marker.pulsing

/-- A lane is armed in every state except OFF (R135). -/
def LaneState.armedState (st : LaneState) : Bool := decide (st ≠ .off)

/-- The capturing states (2.2). -/
def LaneState.capturing : LaneState → Bool
  | .off => false | .armed => true | .seeding => true | .tracking => true | .parked => true | .test => true
  | .stopping => false

/-- The line in processing with its settings copy, where there is one (R22, R48). -/
def Capture.inProcessing (c : Capture) : Option (Line × Copy) :=
  match c.bufA, c.bufB with
  | .processing l k, _ => some (l, k)
  | _, .processing l k => some (l, k)
  | _, _ => none

/-- The detection unit is BUSY while a line is in processing (R47). -/
def Capture.busy (c : Capture) : Bool := c.inProcessing.isSome

/-- The free count of the report ring (R158). -/
def freeCount (r : ReportUnit) (c : ReportSettings) : Nat :=
  c.size - 1 - (r.writeIndex + c.size - r.consumer) % c.size

end Sys2Proof.Machine
end

