-- ==== Sys2Proof/Machine/Ops.lean ====
section
/-!
DEFINITION. The operations every chapter uses: reading and writing a lane or a strand, making injected requests (R3),
retiring a command (R154), queueing an event (R162), raising a fault (R156), and the LANE_STATE event (R136).
-/

namespace Sys2Proof.Machine

/-! ### Lanes and strands -/

/-- Lane `i`. -/
def State.lane (s : State) (i : Fin 12) : Lane := s.lanes.get i

/-- Replaces lane `i`. -/
def State.setLane (s : State) (i : Fin 12) (l : Lane) : State := { s with lanes := s.lanes.set i l }

/-- Strand `k`. -/
def State.strand (s : State) (k : Fin 6) : Strand := s.strands.get k

/-- Replaces strand `k`. -/
def State.setStrand (s : State) (k : Fin 6) (t : Strand) : State := { s with strands := s.strands.set k t }

/-- A vector of twelve from a function of the lane. -/
def buildLanes {α : Type} (f : Fin 12 → α) : Vector α 12 :=
  #v[f 0, f 1, f 2, f 3, f 4, f 5, f 6, f 7, f 8, f 9, f 10, f 11]

/-- A vector of six from a function of the strand. -/
def buildStrands {α : Type} (f : Fin 6 → α) : Vector α 6 :=
  #v[f 0, f 1, f 2, f 3, f 4, f 5]

/-- The strand a lane is bound to (R135). -/
def Lane.binding (l : Lane) : Option (Fin 6) := l.control.geometry.map (·.strand)

/-- The setup of a strand, or all zero while it is unset (log 18: no meaning uses it then). -/
def Strand.setupOrZero (t : Strand) : StrandSetup := t.setup.getD ⟨0, 0, 0, 0, 0⟩

/-- The control block base (R166); 0 while it is unset, when no block makes a request (R13, log 18). -/
def State.controlBase (s : State) : Nat := s.command.base.getD 0

/-! ### Faults and events of the report unit -/

/-- Raises a fault (R156): the first one is held, a later one raises the suppressed count. -/
def ReportUnit.raise (r : ReportUnit) (code : FaultCode) (detail : Nat) : ReportUnit :=
  if r.fault = .none then { r with fault := code, detail := detail }
  else { r with suppressed := satAdd 255 r.suppressed 1 }

/-- Queues an event (R162): the queue holds 16, and a further event is lost and raises EVENT_LOST. -/
def ReportUnit.emit (r : ReportUnit) (e : Event) : ReportUnit :=
  if r.events.length < 16 then { r with events := r.events ++ [e] }
  else { r with lostEvents := bump r.lostEvents }.raise .eventLost e.kindCode

def State.raise (s : State) (code : FaultCode) (detail : Nat) : State :=
  { s with report := s.report.raise code detail }

def State.emit (s : State) (e : Event) : State := { s with report := s.report.emit e }

/-! ### Injected requests (R3) -/

/-- The next request the command unit has to make (R152, R154, R155, R167). -/
def CommandUnit.wants (c : CommandUnit) : Option (Request × Purpose) :=
  match c.writes with
  | w :: _ => some (w, .commandWrite)
  | [] =>
    match c.cond with
    | .fetching false => some (entryRead (c.base.getD 0) c.consumer, .entryRead)
    | .retiring st false => some (statusWrite (c.base.getD 0) c.consumer st, .commandWrite)
    | .retiring _ true => some (consumerWordWrite (c.base.getD 0) ((c.consumer + 1) % 64), .commandWrite)
    | _ => none

/-- An IDLE command unit whose consumer index differs from the producer copy begins the next command (R151). -/
def CommandUnit.beginNext (c : CommandUnit) : CommandUnit :=
  if c.cond = .idle ∧ c.consumer ≠ c.producer then { c with cond := .fetching false } else c

/-- The command unit once its next request has been taken: after the last area write of a SNAPSHOT the command has
its status (R155), and after the consumer word write the unit is IDLE with the index advanced (R154). -/
def CommandUnit.afterMade (c : CommandUnit) : CommandUnit :=
  match c.writes with
  | _ :: ws =>
    match ws, c.cond with
    | [], .executing _ (some .snapshot) => { c with writes := [], cond := .retiring .done false }
    | ws, _ => { c with writes := ws }
  | [] =>
    match c.cond with
    | .fetching false => { c with cond := .fetching true }
    | .retiring st false => { c with cond := .retiring st true }
    | .retiring _ true => { c with cond := .idle, consumer := (c.consumer + 1) % 64 }.beginNext
    | _ => c

/-- The next request the report unit has to make (R157, R161). -/
def ReportUnit.wants (r : ReportUnit) (controlBase : Nat) : Option (Request × Purpose) :=
  if r.zeros ≠ 0 then some (producerWordWrite controlBase 0, .producerZero)
  else
    match r.writer, r.settings with
    | .writing (x :: _) _, some c => some (recordWrite c.base r.writeIndex x, .record r.run)
    | .publishing v false, _ => some (producerWordWrite controlBase v, .producer r.run v)
    | _, _ => none

/-- The report unit once its next request has been taken: the write index advances as each record write is taken
(R158), and the published producer is 0 once a producer word write of 0 is made (R161). -/
def ReportUnit.afterMade (r : ReportUnit) : ReportUnit :=
  if r.zeros ≠ 0 then { r with zeros := r.zeros - 1, published := 0 }
  else
    match r.writer, r.settings with
    | .writing (_ :: xs) n, some c =>
      { r with writer := .writing xs (n + 1), writeIndex := (r.writeIndex + 1) % c.size }
    | .publishing v false, _ => { r with writer := .publishing v true }
    | _, _ => r

/-- The next request block `b` has to make. -/
def wanted (b : Block) (s : State) : Option (Request × Purpose) :=
  match b with
  | .lane i => (s.lane i).capture.trailers.head?.map fun r => (r, .trailer i)
  | .command => s.command.wants
  | .report => s.report.wants s.controlBase

/-- The oldest waiting trailer of a lane has been taken. -/
def Lane.trailerMade (l : Lane) : Lane := { l with capture := { l.capture with trailers := l.capture.trailers.tail } }

/-- Block `b` once its next request has been taken. -/
def made (b : Block) (s : State) : State :=
  match b with
  | .lane i => s.setLane i (s.lane i).trailerMade
  | .command => { s with command := s.command.afterMade }
  | .report => { s with report := s.report.afterMade }

/-- Takes a request into the injected queue as WAITING, with the next place in the take order (R2, R3). -/
def Path.inject (p : Path) (w : Request × Purpose) : Path :=
  { p with injected := p.injected ++ [⟨w.1, w.2, p.nextOrder, none⟩], nextOrder := p.nextOrder + 1 }

/-- Puts a block at the back of the injection wait list (R3). -/
def Path.joinWait (p : Path) (b : Block) : Path := { p with waitList := p.waitList ++ [b] }

/-- Block `b` makes the requests it has: each is taken at once while the wait list is empty and the queue holds fewer
than 16; otherwise the block waits (R3). A block already on the wait list stands still. `n` bounds the requests: the
queue has 16 places. -/
def pump : Nat → Block → State → State
  | 0, _, s => s
  | n + 1, b, s =>
    match wanted b s with
    | none => s
    | some w =>
      if b ∈ s.path.waitList then s
      else if s.path.waitList = [] ∧ s.path.injected.length < 16 then
        pump n b (made b { s with path := s.path.inject w })
      else { s with path := s.path.joinWait b }

/-- Block `b` makes the requests it has (R3). -/
def request (b : Block) (s : State) : State := pump 17 b s

/-- A place of the injected queue has been freed: the block at the front of the wait list has its request taken and
leaves the list, and joins its back if it has a further one (R3). -/
def serveWaiting (s : State) : State :=
  match s.path.waitList with
  | [] => s
  | b :: rest =>
    let s := { s with path := { s.path with waitList := rest } }
    match wanted b s with
    | none => s
    | some w =>
      let s := made b { s with path := s.path.inject w }
      if (wanted b s).isSome then { s with path := s.path.joinWait b } else s

/-- Block `b` leaves the wait list (R3, R12). -/
def Path.withdraw (p : Path) (b : Block) : Path := { p with waitList := p.waitList.filter (· ≠ b) }

/-- A lane makes a trailer write, when its trailers are enabled (R27, R28). -/
def makeTrailer (i : Fin 12) (line : Line) (status : TrailerStatus) (segments obscured : Nat)
    (overflow uncovered : Bool) (s : State) : State :=
  match (s.lane i).control.geometry with
  | none => s
  | some g =>
    if g.trailers then
      let l := s.lane i
      request (.lane i) (s.setLane i { l with capture := { l.capture with
        trailers := l.capture.trailers ++ [trailerWrite g line status segments obscured overflow uncovered] } })
    else s

/-! ### Retiring a command (R154) -/

/-- The command in hand has its status: the unit passes to RETIRING and makes the status write and the consumer word
write. -/
def retire (st : Status) (s : State) : State :=
  request .command { s with command := { s.command with cond := .retiring st false } }

/-! ### Lane state changes (R136) -/

/-- Changes the state of a lane and queues the LANE_STATE event with its cause and line. -/
def changeLaneState (i : Fin 12) (new : LaneState) (cause : Cause) (line : Nat) (s : State) : State :=
  let l := s.lane i
  (s.setLane i { l with control := { l.control with state := new } }).emit
    (.laneState i l.binding l.control.state new cause line s.clock)

end Sys2Proof.Machine
end

