-- ==== Sys2Proof/Machine/Capture.lean ====
section
/-!
DEFINITION. Line capture (chapter 2): how a write taken into the pass-through queue reaches the assembler of each lane
whose ring it touches, line start, completion and the drops, the TEST pattern, and the error notices of R25.
-/

namespace Sys2Proof.Machine

/-! ### Buffers -/

def Buffer.isFree : Buffer → Bool
  | .free => true
  | _ => false

/-- The line being assembled, where there is one (R22). -/
def Capture.assemblingLine (c : Capture) : Option Line :=
  match c.bufA, c.bufB with
  | .assembling l, _ => some l
  | _, .assembling l => some l
  | _, _ => none

/-- Replaces the buffer that is ASSEMBLING. -/
def Capture.putAssembling (c : Capture) (b : Buffer) : Capture :=
  match c.bufA, c.bufB with
  | .assembling _, _ => { c with bufA := b }
  | _, .assembling _ => { c with bufB := b }
  | _, _ => c

/-- The line that waits for the detection unit, where there is one (R22). -/
def Capture.waitingLine (c : Capture) : Option Line :=
  match c.bufA, c.bufB with
  | .waiting l, _ => some l
  | _, .waiting l => some l
  | _, _ => none

/-- Replaces the buffer that is WAITING. -/
def Capture.putWaiting (c : Capture) (b : Buffer) : Capture :=
  match c.bufA, c.bufB with
  | .waiting _, _ => { c with bufA := b }
  | _, .waiting _ => { c with bufB := b }
  | _, _ => c

/-- Replaces the buffer that is PROCESSING. -/
def Capture.putProcessing (c : Capture) (b : Buffer) : Capture :=
  match c.bufA, c.bufB with
  | .processing _ _, _ => { c with bufA := b }
  | _, .processing _ _ => { c with bufB := b }
  | _, _ => c

/-- All-zero detection settings, standing for unset ones where no line can be in processing (log 18). -/
def Detect.zero : Detect := ⟨0, 0, 0, 0, 0, 0, 0, 0, 0, 0⟩

/-- The copy taken when a line is taken into processing (R48). -/
def Lane.settingsCopy (l : Lane) : Copy where
  detect := l.control.detect.getD Detect.zero
  dead := l.detection.dead
  zones := l.control.zones.getD []
  w := (l.control.geometry.map (·.w)).getD 0
  tap := (l.control.geometry.map (·.tap)).getD .linear
  obscureLimit := (l.control.geometry.map (·.obscureLimit)).getD 0

/-- Changes the line capture unit of lane `i`. -/
def State.modCapture (s : State) (i : Fin 12) (f : Capture → Capture) : State :=
  s.setLane i { s.lane i with capture := f (s.lane i).capture }

/-! ### The parts of a write (R16) -/

/-- A beat of a write inside a ring: its slot, its number within the slot, its place in the write, its enables. -/
structure RingBeat where
  slot : Nat
  index : Nat
  pos : Nat
  enables : BitVec 32
  deriving DecidableEq, Repr

/-- A beat counts as written if at least one of its enables is set (R16). -/
def RingBeat.written (b : RingBeat) : Bool := b.enables != 0

/-- The beats of a write that land in the ring of geometry `g` (R14, R16). -/
def ringBeats (g : Geometry) (r : Request) : List RingBeat :=
  (List.range r.len).filterMap fun j =>
    let a := r.addr + 32 * j
    if g.base ≤ a ∧ a < ringEnd g then
      some ⟨(a - g.base) / slotSize g.w, (a - g.base) % slotSize g.w / 32, j, r.enables.getD j 0⟩
    else none

/-- Cuts beats in rising address order into slot parts (R16). -/
def slotParts : List RingBeat → List (Nat × List RingBeat)
  | [] => []
  | b :: bs =>
    match slotParts bs with
    | (slot, xs) :: rest =>
      if slot = b.slot then (slot, b :: xs) :: rest else (b.slot, [b]) :: (slot, xs) :: rest
    | [] => [(b.slot, [b])]

/-! ### The TEST pattern (R29, R30) -/

/-- The pattern value of column `c` at phase `phase` (R29). -/
def patternValue (t : TestParams) (phase c : Nat) : Nat :=
  if t.col ≤ c ∧ c < t.col + t.width ∧ phase < t.lines then t.base - t.depth else t.base

/-- The pattern byte at offset `off` of the data area (R29). -/
def patternByte (g : Geometry) (t : TestParams) (phase off : Nat) : Byte :=
  let v := patternValue t phase (tapColumn g.tap g.w (off / 2))
  if off % 2 = 0 then byteOf v else byteOf (v / 256)

/-- Replaces the enabled data-area bytes of one beat by the pattern. -/
def substituteBeat (g : Geometry) (t : TestParams) (phase : Nat) (data : List Byte) (b : RingBeat) : List Byte :=
  data.mapIdx fun j x =>
    if j / 32 = b.pos ∧ b.enables.getLsbD (j % 32) then patternByte g t phase (32 * b.index + j % 32) else x

/-- The data of a write after the substitution of the lane's pattern into the data-area beats of one part; a lane not
in TEST substitutes nothing (R29). -/
def substitute (l : Lane) (g : Geometry) (beats : List RingBeat) (data : List Byte) : List Byte :=
  match l.control.state, l.control.test with
  | .test, some t => beats.foldl (substituteBeat g t l.capture.phase) data
  | _, _ => data

/-! ### Line start and the drops (R19, R20, R22, R28) -/

/-- The pattern phase at a line start (R30): the first line started after an accepted ON leaves it at 0, each later
one raises it, returning to 0 after PAT_PERIOD − 1. Outside TEST it stands. -/
def Lane.phaseAtLineStart (l : Lane) : Nat :=
  match l.control.state, l.control.test with
  | .test, some t => if l.capture.phaseFresh then l.capture.phase else (l.capture.phase + 1) % t.period
  | _, _ => l.capture.phase

/-- The fresh-phase flag after a line start. -/
def Lane.freshAfterLineStart (l : Lane) : Bool :=
  match l.control.state with
  | .test => false
  | _ => l.capture.phaseFresh

/-- Starts a line in `slot` (R22): it latches its sequence number, the strand's coordinate and the bay time, and takes
buffer A if free, else buffer B, else it is dropped as OVERRUN. -/
def startLine (i : Fin 12) (g : Geometry) (slot : Nat) (s : State) : State :=
  let l := s.lane i
  let c := l.capture
  let line : Line := ⟨c.nextSeq, (s.strand g.strand).motion.coord, s.clock, c.arming, slot, false, [], []⟩
  let c := { c with nextSeq := wrap32 c.nextSeq, phase := l.phaseAtLineStart, phaseFresh := l.freshAfterLineStart }
  if c.bufA.isFree then
    s.setLane i { l with capture := { c with bufA := .assembling line, assembler := .assembling slot } }
  else if c.bufB.isFree then
    s.setLane i { l with capture := { c with bufB := .assembling line, assembler := .assembling slot } }
  else
    makeTrailer i line .overrun 0 0 false false
      (s.setLane i { l with capture := { c with
        assembler := .discarding slot
        counters := { c.counters with overrun := bump c.counters.overrun } } })

/-- Drops the line being assembled, if there is one, with a trailer of the given status (R28). -/
def dropAssembling (i : Fin 12) (status : TrailerStatus) (s : State) : State :=
  match (s.lane i).capture.assemblingLine with
  | none => s
  | some line => makeTrailer i line status 0 0 false false (s.modCapture i fun c => c.putAssembling .free)

/-- Drops an incomplete line as RUNT and counts it (R19). -/
def dropRunt (i : Fin 12) (s : State) : State :=
  match (s.lane i).capture.assemblingLine with
  | none => s
  | some _ =>
    dropAssembling i .runt (s.modCapture i fun c =>
      { c with counters := { c.counters with runt := bump c.counters.runt } })

/-- Raises the out-of-sequence counter (R31). -/
def countOutOfSeq (i : Fin 12) (s : State) : State :=
  s.modCapture i fun c => { c with counters := { c.counters with outOfSeq := bump c.counters.outOfSeq } }

/-- Raises the trailer-write counter (R31). -/
def countTrailerWrite (i : Fin 12) (s : State) : State :=
  s.modCapture i fun c => { c with counters := { c.counters with trailerWrites := bump c.counters.trailerWrites } }

/-- What a part that writes data-area beats of `slot` does (R17 to R20). -/
inductive PartAction where
  | start | current | resync | outOfSeq
  deriving DecidableEq, Repr

/-- The action of a part by the assembler's condition: with no current slot it starts a line (R17); the current slot
is filled (R18); the expected slot starts the next line (R19); any other slot is a resync when the part begins at a
written beat 0, and out of sequence otherwise (R20). -/
def partAction (a : Assembler) (n slot : Nat) (beginsAtZero : Bool) : PartAction :=
  let other (c : Nat) : PartAction :=
    if slot = c then .current else if slot = (c + 1) % n then .start
    else if beginsAtZero then .resync else .outOfSeq
  match a with
  | .noSlot => .start
  | .assembling c => other c
  | .complete c => other c
  | .discarding c => other c

/-- The first half of a part: the line it drops, the slip it reports and the line it starts. -/
def enterSlot (i : Fin 12) (g : Geometry) (slot : Nat) (a : PartAction) (s : State) : State :=
  match a with
  | .current => s
  | .outOfSeq => s
  | .start => startLine i g slot (dropRunt i s)
  | .resync =>
    let s := s.emit (.lineSlip i g.strand slot (s.lane i).capture.nextSeq (s.strand g.strand).motion.coord s.clock)
    let s := s.modCapture i fun c => { c with counters := { c.counters with slip := bump c.counters.slip } }
    startLine i g slot (dropAssembling i .slip s)

/-! ### Copying and completion (R18, R23) -/

/-- Copies the enabled bytes of one beat into a line's buffer. -/
def copyBeat (data : List Byte) (bytes : List Host.Cell) (b : RingBeat) : List Host.Cell :=
  (List.range 32).foldl (fun m k =>
    if b.enables.getLsbD k then storeAt 0 m (32 * b.index + k) (data.getD (32 * b.pos + k) 0) else m) bytes

/-- The line after the written data-area beats of a part (R18). -/
def Line.fill (l : Line) (beats : List RingBeat) (data : List Byte) : Line :=
  { l with
    bytes := beats.foldl (copyBeat data) l.bytes
    coverage := (beats.map (·.index)).foldl insertNum l.coverage }

/-- Hands on a complete line (R23): dropped when marked MEM_ERROR, taken into processing when the detection unit is
idle, WAITING otherwise. -/
def handOn (i : Fin 12) (slot : Nat) (line : Line) (s : State) : State :=
  if line.memError then
    makeTrailer i line .memError 0 0 false false
      (s.modCapture i fun c => { c.putAssembling .free with assembler := .complete slot })
  else if (s.lane i).capture.busy then
    s.modCapture i fun c => { c.putAssembling (.waiting line) with assembler := .complete slot }
  else
    s.modCapture i fun c =>
      { c.putAssembling (.processing line (s.lane i).settingsCopy) with assembler := .complete slot }

/-- What a write gathers as its parts are handled: the state, the data to be forwarded, the lines it fed (R7). -/
structure TakeAcc where
  s : State
  data : List Byte
  fed : List LineId
  deriving DecidableEq, Repr

/-- The second half of a part that writes the current slot: in ASSEMBLING the bytes are copied, the coverage grows and
a full line is handed on; in COMPLETE the part is out of sequence; in DISCARDING nothing happens (R18). -/
def fillCurrent (i : Fin 12) (g : Geometry) (slot : Nat) (beats : List RingBeat) (acc : TakeAcc) : TakeAcc :=
  match (acc.s.lane i).capture.assembler, (acc.s.lane i).capture.assemblingLine with
  | .assembling _, some line =>
    let line := line.fill beats acc.data
    let fed := acc.fed ++ [⟨i, line.arming, line.seq⟩]
    let s := acc.s.modCapture i fun c => c.putAssembling (.assembling line)
    if line.coverage.length = g.w / 16 then { acc with s := handOn i slot line s, fed := fed }
    else { acc with s := s, fed := fed }
  | .complete _, _ => { acc with s := countOutOfSeq i acc.s }
  | _, _ => acc

/-- The data-area beats of a part (R17 to R20, R29): the line start it makes, the substitution at the phase that then
stands, the copying. `beats` are the written data-area beats. -/
def handleData (i : Fin 12) (g : Geometry) (slot : Nat) (beginsAtZero : Bool) (beats : List RingBeat)
    (acc : TakeAcc) : TakeAcc :=
  let action := partAction (acc.s.lane i).capture.assembler g.n slot beginsAtZero
  let s := enterSlot i g slot action acc.s
  let acc := { acc with s := s, data := substitute (s.lane i) g beats acc.data }
  match action with
  | .outOfSeq => { acc with s := countOutOfSeq i acc.s }
  | .current => fillCurrent i g slot beats acc
  | .start => fillCurrent i g slot beats acc
  | .resync => fillCurrent i g slot beats acc

/-- The data-area beats of a part count as out of sequence (R18, R20): they are written out of sequence, or into a
COMPLETE current slot. -/
def countedOutOfSeq (a : Assembler) (action : PartAction) : Bool :=
  match action, a with
  | .outOfSeq, _ => true
  | .current, .complete _ => true
  | _, _ => false

/-- One slot part (R16 to R21). A part in which no beat is written is passed over. A part is counted out of sequence at
most once, padding included (R31, log 26). A part into a DISCARDING current slot that also writes a padding beat, and no
trailer beat, is counted once for the padding: R18 does not count the part, R21 counts the padding, and R31 names parts that
write only padding; that the model follows R21 here is its choice (log 41). -/
def handlePart (i : Fin 12) (g : Geometry) (acc : TakeAcc) (part : Nat × List RingBeat) : TakeAcc :=
  let written := part.2.filter (·.written)
  let dataBeats := written.filter fun b => decide (b.index < g.w / 16)
  let beginsAtZero := match part.2 with
    | b :: _ => b.index == 0 && b.written
    | [] => false
  let a := (acc.s.lane i).capture.assembler
  let counted := !dataBeats.isEmpty && countedOutOfSeq a (partAction a g.n part.1 beginsAtZero)
  let acc := if dataBeats.isEmpty then acc else handleData i g part.1 beginsAtZero dataBeats acc
  if written.any (fun b => b.index == g.w / 16) then { acc with s := countTrailerWrite i acc.s }
  else if written.any (fun b => decide (g.w / 16 < b.index)) && !counted then { acc with s := countOutOfSeq i acc.s }
  else acc

/-- The write as one lane's line capture unit takes it (R7, R16). -/
def captureLane (r : Request) (acc : TakeAcc) (i : Fin 12) : TakeAcc :=
  match (acc.s.lane i).control.geometry with
  | none => acc
  | some g => (slotParts (ringBeats g r)).foldl (handlePart i g) acc

/-- The lanes that look at a write: those in a capturing state whose ring it touches (2.2). -/
def touchedLanes (s : State) (r : Request) : List (Fin 12) :=
  allLanes.filter fun i =>
    (s.lane i).control.state.capturing &&
    match (s.lane i).control.geometry with
    | none => false
    | some g => !(ringBeats g r).isEmpty

/-- Offers a write to the line capture units (R7). Two lanes touched by one write act in an order left open
(log 12). -/
def offerWrite (r : Request) (s : State) : TakeAcc :=
  let lanes := touchedLanes s r
  let s' := if lanes.length ≤ 1 then s else { s with choice := s.choice + lanes.length }
  (anyOrder s.choice lanes).foldl (captureLane r) ⟨s', r.data, []⟩

/-! ### Memory errors (R25) -/

/-- The line is recognised by arming number and sequence number (R25). -/
def Line.named (l : Line) (n : LineId) : Bool := l.arming == n.arming && l.seq == n.seq

/-- An error notice for a line (R9, R25): the memory-error counter rises; an ASSEMBLING line is marked; a WAITING line
is dropped at once. -/
def lineErrorNotice (s : State) (n : LineId) : State :=
  let s := s.modCapture n.lane fun c =>
    { c with counters := { c.counters with memErrors := bump c.counters.memErrors } }
  let c := (s.lane n.lane).capture
  match c.assemblingLine, c.waitingLine with
  | some l, some w =>
    if l.named n then s.modCapture n.lane fun c => c.putAssembling (.assembling { l with memError := true })
    else if w.named n then
      makeTrailer n.lane w .memError 0 0 false false (s.modCapture n.lane fun c => c.putWaiting .free)
    else s
  | some l, none =>
    if l.named n then s.modCapture n.lane fun c => c.putAssembling (.assembling { l with memError := true }) else s
  | none, some w =>
    if w.named n then
      makeTrailer n.lane w .memError 0 0 false false (s.modCapture n.lane fun c => c.putWaiting .free)
    else s
  | none, none => s

/-! ### Stationary judgement (R26) -/

/-- The STATIONARY judgement of a line at coordinate `coord` (R26). -/
def judgeStationary (minAdvance coord : Nat) (ref : Option Nat) : Bool :=
  match ref with
  | none => false
  | some r => decide (minAdvance ≠ 0) && decide (coord - r < minAdvance)

/-! ### Arming, disarming and resets (R32, R33) -/

/-- The ARM column of R33. -/
def Capture.atArm (c : Capture) : Capture :=
  { c with assembler := .noSlot, bufA := .free, bufB := .free, nextSeq := 1, arming := wrap32 c.arming, statRef := none }

/-- The LANE_RESET and bay reset columns of R33; the waiting trailers are withdrawn. -/
def Capture.atReset (c : Capture) : Capture :=
  { Capture.initial with arming := wrap32 c.arming }

/-- Capture ends at DISARM (R32): the line being assembled is abandoned and the assembler passes to NO_SLOT. -/
def Capture.atDisarm (c : Capture) : Capture :=
  { c.putAssembling .free with assembler := .noSlot }

/-- The buffers at a line-processed event (R24 step 4): the processed line's buffer is freed; a waiting line is taken
into processing under copy `k`, or discarded in STOPPING (R32). -/
def Capture.nextLine (c : Capture) (stopping : Bool) (k : Copy) : Capture :=
  let c := c.putProcessing .free
  match c.waitingLine with
  | none => c
  | some l => if stopping then c.putWaiting .free else c.putWaiting (.processing l k)

end Sys2Proof.Machine
end

