-- ==== Sys2Proof/Machine/Contrast.lean ====
section
/-!
DEFINITION. Surface contrast arithmetic (chapter 4): the mode of a line, column repair, saturation, the obscured test,
contrast, segments and the background update of one line-processed event.
-/

namespace Sys2Proof.Machine

/-- The mode of a line (R49). -/
inductive LineMode where
  | firstSeed | seed | detect
  deriving DecidableEq, Repr

/-- The mode lane control names from the lane state (for STOPPING, the state the lane left) and the seed count
(R49). OFF has no lines. -/
def lineMode (st : LaneState) (seed seedLines : Nat) : LineMode :=
  match st with
  | .armed => if seed = 0 then .firstSeed else .seed
  | .seeding => if seed = 0 then .firstSeed else .seed
  | .test => if seed = 0 then .firstSeed else if seed < seedLines then .seed else .detect
  | .tracking => .detect
  | .parked => .detect
  | .off => .detect
  | .stopping => .detect

/-- A FIRST_SEED or SEED line (R49). -/
def LineMode.isSeed : LineMode → Bool
  | .firstSeed => true
  | .seed => true
  | .detect => false

/-- The reading at column `c` (R15, R50): the low 12 bits of its sample. -/
def readingAt (k : Copy) (bytes : List Host.Cell) (c : Nat) : Nat :=
  let p := tapPosition k.tap k.w c
  ((lookupAt 0 bytes (2 * p)).toNat + 256 * (lookupAt 0 bytes (2 * p + 1)).toNat) % 4096

/-- A column is LIVE in the line's dead-column map (R51). -/
def Copy.live (k : Copy) (c : Nat) : Bool := !k.dead.contains c

/-- The nearest LIVE column below `c`, not below `first`; the argument counts the columns left to look at. -/
def liveBelow (k : Copy) (first c : Nat) : Nat → Option Nat
  | 0 => none
  | n + 1 => if k.live (first + n) ∧ first + n < c then some (first + n) else liveBelow k first c n

/-- The nearest LIVE column above `c`, not above `last` (R51). -/
def liveAbove (k : Copy) (c last : Nat) : Option Nat :=
  ((List.range (last - c)).map (· + (c + 1))).find? k.live

/-- The reading of an in-zone column after repair (R51); none for an unrepairable column (R52). -/
def repaired (k : Copy) (x : Nat → Nat) (z : Zone) (c : Nat) : Option Nat :=
  if k.live c then some (x c)
  else
    match liveBelow k z.first c (c - z.first), liveAbove k c z.last with
    | some a, some b => some ((x a + x b) / 2)
    | some a, none => some (x a)
    | none, some b => some (x b)
    | none, none => none

/-- The contrast of a reading against a background (R55). -/
def contrast (b x : Nat) : Nat := min 255 (256 * (b - 16 * x) / b)

/-- What the tests make of one in-zone column: its reading after repair, its background before the line, and its
contrast; an unrepairable column has neither reading nor contrast (R52 to R55). -/
structure Column where
  col : Nat
  reading : Option Nat
  background : Nat
  obscured : Bool
  q : Option Nat
  deriving DecidableEq, Repr

/-- A column is saturated when its reading after repair is 4095 (R53). -/
def Column.saturated (c : Column) : Bool := c.reading == some 4095

/-- One in-zone column through R51 to R55. -/
def examine (k : Copy) (x : Nat → Nat) (bg : Nat → Nat) (z : Zone) (c : Nat) : Column :=
  let b := bg c
  match repaired k x z c with
  | none => ⟨c, none, b, true, none⟩
  | some r =>
    let obscured := decide (b < 16 * k.detect.bgFloor)
    ⟨c, some r, b, obscured, some (if r = 4095 ∨ obscured then 0 else contrast b r)⟩

/-- The columns of a zone, in ascending order; an IGNORE zone has none that take part (R50). -/
def zoneColumns (k : Copy) (x : Nat → Nat) (bg : Nat → Nat) (z : Zone) : List Column :=
  match z.kind with
  | .ignore => []
  | .face => (List.range (z.last + 1 - z.first)).map fun n => examine k x bg z (z.first + n)
  | .corner => (List.range (z.last + 1 - z.first)).map fun n => examine k x bg z (z.first + n)

/-- The runs of a zone (R57): maximal stretches of consecutive columns with q ≥ T_LOW. The list is read from the
right, so that the first run of the answer is the one the present column joins; `extends?` says whether the column
just to the right belongs to it. -/
def zoneRuns (zone tLow : Nat) : List Column → List Segment × Bool
  | [] => ([], false)
  | c :: cs =>
    let (segs, joined) := zoneRuns zone tLow cs
    match c.q with
    | none => (segs, false)
    | some q =>
      if tLow ≤ q then
        match joined, segs with
        | true, s :: rest => (⟨zone, c.col, s.c1, max q s.peak, q + s.sum⟩ :: rest, true)
        | _, _ => (⟨zone, c.col, c.col, q, q⟩ :: segs, true)
      else (segs, false)

/-- The segments of a line in ascending column order: the runs of each zone that reach T_HIGH (R57). -/
def allSegments (k : Copy) (zones : List (List Column)) : List Segment :=
  (zones.zipIdx).flatMap fun zc =>
    ((zoneRuns zc.2 k.detect.tLow zc.1).1).filter fun s => decide (k.detect.tHigh ≤ s.peak)

/-- A column lies inside a segment. -/
def insideSegment (segs : List Segment) (c : Nat) : Bool := segs.any fun s => decide (s.c0 ≤ c) && decide (c ≤ s.c1)

/-- The update of R60 and R61: B + floor((16x − B) / 2^k), the floor toward minus infinity. -/
def backgroundStep (b x k : Nat) : Nat := ((b : Int) + ((16 * x : Int) - b).fdiv (2 ^ k)).toNat

/-- The new background of a column on a line that is not STATIONARY (R59 to R61). -/
def newBackground (mode : LineMode) (bgShift : Nat) (segs : List Segment) (c : Column) : Nat :=
  match c.reading with
  | none => c.background
  | some x =>
    if x = 4095 then c.background
    else
      match mode with
      | .firstSeed => 16 * x
      | .seed => backgroundStep c.background x 1
      | .detect => if insideSegment segs c.col then c.background else backgroundStep c.background x bgShift

/-- What the detection unit makes of a line (R63). -/
structure Detected where
  segments : List Segment
  overflow : Bool
  obscured : Nat
  uncovered : Bool
  background : List (Nat × Nat)
  deriving DecidableEq, Repr

/-- The arithmetic of one line, in the order of R63. -/
def detectLine (k : Copy) (bytes : List Host.Cell) (bg : List (Nat × Nat)) (mode : LineMode) (stationary : Bool) :
    Detected :=
  let zones := k.zones.map (zoneColumns k (readingAt k bytes) (lookupAt 0 bg))
  let cols := zones.flatten
  let segs := if mode.isSeed then [] else allSegments k zones
  let obscured := (cols.filter (·.obscured)).length
  { segments := segs.take 32
    overflow := decide (32 < segs.length)
    obscured := obscured
    uncovered := decide (cols.length = 0) || decide (k.obscureLimit * cols.length < 1000 * obscured)
    background :=
      if stationary then bg
      else cols.foldl (fun m c => storeAt 0 m c.col (newBackground mode k.detect.bgShift segs c)) bg }

/-- The ARM column of R66. -/
def Detection.atArm (d : Detection) : Detection := { d with background := [], segments := [] }

/-- The reset columns of R66; the dead-column map is kept or made all LIVE. -/
def Detection.atReset (d : Detection) (keep : Bool) : Detection :=
  { Detection.initial with dead := if keep then d.dead else [] }

end Sys2Proof.Machine
end

