-- ==== Sys2Proof/Machine/Tracks.lean ====
section
/-!
DEFINITION. Crack tracks (chapter 5): matching, extension, merging, opening, ageing and closing on a line, and the
split at a cut.
-/

namespace Sys2Proof.Machine

/-- Sum of segment sums, saturating (R67). -/
def satSum (a b : Nat) : Nat := satAdd 16777215 a b

/-- The least span holding both spans. -/
def joinSpan (a b : Nat × Nat) : Nat × Nat := (min a.1 b.1, max a.2 b.2)

/-- A segment matches a track (R71): same zone, and the segment shares a column with the reference span widened by
LINK_GAP. -/
def Track.matches (t : Track) (linkGap : Nat) (g : Segment) : Bool :=
  t.zone == g.zone && decide (t.r0 ≤ g.c1 + linkGap) && decide (g.c0 ≤ t.r1 + linkGap)

/-- A segment added to a track (R73). -/
def Track.add (t : Track) (g : Segment) (testLine : Bool) : Track :=
  { t with
    newSpan := some (match t.newSpan with
      | none => (g.c0, g.c1)
      | some s => joinSpan s (g.c0, g.c1))
    colMin := min t.colMin g.c0
    colMax := max t.colMax g.c1
    peak := max t.peak g.peak
    sum := satSum t.sum g.sum
    test := t.test || testLine }

/-- Track `u` merged into survivor `t` (R74). -/
def Track.merge (t u : Track) : Track :=
  { t with
    start := min t.start u.start
    stop := max t.stop u.stop
    lines := satAdd 65535 t.lines u.lines
    colMin := min t.colMin u.colMin
    colMax := max t.colMax u.colMax
    r0 := min t.r0 u.r0
    r1 := max t.r1 u.r1
    newSpan := match t.newSpan, u.newSpan with
      | none, b => b
      | a, none => a
      | some a, some b => some (joinSpan a b)
    peak := max t.peak u.peak
    sum := satSum t.sum u.sum
    gap := min t.gap u.gap
    merged := satAdd 255 t.merged (1 + u.merged)
    splitTail := t.splitTail || u.splitTail
    test := t.test || u.test }

/-- The serial after `n` (R68): 4,294,967,295 wraps to 1. -/
def serialAfter (n : Nat) : Nat := if top32 ≤ n then 1 else n + 1

/-- The serial a new track takes (R68): the first one from `n` on that no open entry holds. At most 24 entries are
open, so 25 tries are enough. -/
def freeSerial (used : List Nat) : Nat → Nat → Nat
  | 0, n => n
  | fuel + 1, n => if used.contains n then freeSerial used fuel (serialAfter n) else n

/-- The table while the segments of one line are handled: the tracks open before the line, in age order; the tracks
the line has opened, in age order; the next serial; the TRACK_FULL counter. -/
structure LineTable where
  old : List Track
  fresh : List Track
  nextSerial : Nat
  trackFull : Nat
  deriving DecidableEq, Repr

/-- A new track for a segment that matches none (R72). Its reference span is set at the end of the line (R76). -/
def openTrack (serial coord billetStart : Nat) (testLine : Bool) (g : Segment) : Track :=
  let start := max coord billetStart
  { serial := serial, zone := g.zone, start := start, stop := start, lines := 0, colMin := g.c0, colMax := g.c1
    r0 := g.c0, r1 := g.c1, newSpan := some (g.c0, g.c1), peak := g.peak, sum := g.sum, gap := 0, merged := 0
    splitTail := false, test := testLine }

/-- The open tracks after a segment that matches one of them (R73, R74): the oldest it matches stays in its place, with
every later one it matches merged into it in age order and the segment then added; those leave. -/
def extendOldest (linkGap : Nat) (testLine : Bool) (g : Segment) : List Track → Option (List Track)
  | [] => none
  | t :: ts =>
    if t.matches linkGap g then
      some (((ts.filter fun u => u.matches linkGap g).foldl Track.merge t).add g testLine ::
        ts.filter fun u => !u.matches linkGap g)
    else (extendOldest linkGap testLine g ts).map (t :: ·)

/-- One segment of a detecting line (R72 to R74). -/
def LineTable.take (linkGap coord billetStart : Nat) (testLine : Bool) (m : LineTable) (g : Segment) : LineTable :=
  match extendOldest linkGap testLine g m.old with
  | some old => { m with old := old }
  | none =>
    if m.old.length + m.fresh.length < 24 then
      let serial := freeSerial ((m.old ++ m.fresh).map (·.serial)) 25 m.nextSerial
      { m with
        fresh := m.fresh ++ [openTrack serial coord billetStart testLine g]
        nextSerial := serialAfter serial }
    else { m with trackFull := bump m.trackFull }

/-- A track extended on the line (R76). -/
def Track.endLine (t : Track) (coord : Nat) (span : Nat × Nat) : Track :=
  { t with gap := 0, lines := satAdd 65535 t.lines 1, stop := max t.stop coord, r0 := span.1, r1 := span.2
           newSpan := none }

/-- The end-of-line update of one track: extended (R76) or aged (R77). -/
def Track.update (coord : Nat) (t : Track) : Track :=
  match t.newSpan with
  | some span => t.endLine coord span
  | none => { t with gap := t.gap + 1 }

/-- A track closes when it was aged and its Gap now exceeds GAP_LINES (R77). -/
def Track.closes (gapLines : Nat) (t : Track) : Bool := decide (gapLines < t.gap)

/-- The table after a line that is not STATIONARY, and the tracks it closes, in age order (R70 to R77). -/
def TrackTable.line (m : TrackTable) (d : Detect) (coord billetStart : Nat) (testLine : Bool) (segs : List Segment) :
    TrackTable × List Track :=
  let taken := segs.foldl (LineTable.take d.linkGap coord billetStart testLine) ⟨m.tracks, [], m.nextSerial, m.trackFull⟩
  let updated := (taken.old ++ taken.fresh).map (Track.update coord)
  (⟨updated.filter (fun t => !t.closes d.gapLines), taken.nextSerial, taken.trackFull⟩,
    updated.filter (fun t => t.closes d.gapLines))

/-- The head of a split (R83): End becomes the lesser of End and b − 1. -/
def Track.head (b : Nat) (t : Track) : Track := { t with stop := min t.stop (b - 1) }

/-- The tail of a split (R84). -/
def Track.tail (b : Nat) (t : Track) : Track :=
  { t with start := b, stop := max t.stop b, lines := 0, colMin := t.r0, colMax := t.r1, peak := 0, sum := 0, merged := 0
           splitTail := true, test := false }

/-- The table after an accepted cut at `b`: every track that starts below `b` is replaced by its tail (R79). -/
def TrackTable.split (b : Nat) (m : TrackTable) : TrackTable :=
  { m with tracks := m.tracks.map fun t => if t.start < b then t.tail b else t }

/-- The heads of an accepted cut at `b`, in age order (R79, R83). -/
def TrackTable.heads (b : Nat) (m : TrackTable) : List Track :=
  (m.tracks.filter fun t => decide (t.start < b)).map (Track.head b)

/-- The LANE_RESET column of R88: the tracks are discarded, the next serial stands. -/
def TrackTable.atLaneReset (m : TrackTable) : TrackTable := ⟨[], m.nextSerial, 0⟩

end Sys2Proof.Machine
end

