-- ==== Sys2Proof/Machine/Marking.lean ====
section
/-!
DEFINITION. Surface marking (chapter 8): the offer of a record, firing, the pulse end, and the change of a record's mark
state wherever the record is still held.
-/

namespace Sys2Proof.Machine

/-- A record is the one an entry refers to (R131). -/
def Defect.isNamed (d : Defect) (lane : Fin 12) (serial start : Nat) : Bool :=
  d.lane == lane && d.serial == serial && d.start == start

/-- Sets the mark state of a record if it is the one referred to. -/
def Defect.remark (d : Defect) (lane : Fin 12) (serial start : Nat) (m : Mark) : Defect :=
  if d.isNamed lane serial start then { d with mark := m } else d

/-- The same in a job of strand `k`. -/
def Job.remark (k : Fin 6) (lane : Fin 12) (serial start : Nat) (m : Mark) (j : Job) : Job :=
  if j.billet.strand = k then { j with group := j.group.map fun d => d.remark lane serial start m } else j

/-- The same in a record not yet written by the writer. -/
def Rec.remark (k : Fin 6) (lane : Fin 12) (serial start : Nat) (m : Mark) : Rec → Rec
  | .defect d => if d.strand = k then .defect (d.remark lane serial start m) else .defect d
  | .billet b => .billet b
  | .event e => .event e

/-- The same in the writer's plan (R131, R161). -/
def Writer.remark (k : Fin 6) (lane : Fin 12) (serial start : Nat) (m : Mark) : Writer → Writer
  | .writing todo n => .writing (todo.map (Rec.remark k lane serial start m)) n
  | .idle => .idle
  | .publishing v t => .publishing v t

/-- Sets the mark state of the record an entry refers to, in the pending list of its strand and in the jobs of its
strand whose record is not yet written (R131). A record found nowhere is not changed. -/
def remarkRecord (k : Fin 6) (e : MarkEntry) (m : Mark) (s : State) : State :=
  let t := s.strand k
  let s := s.setStrand k { t with billet := { t.billet with
    waiting := t.billet.waiting.map fun d => d.remark e.lane e.serial e.start m } }
  { s with report := { s.report with
      jobs := s.report.jobs.map (Job.remark k e.lane e.serial e.start m)
      writer := s.report.writer.remark k e.lane e.serial e.start m } }

/-- Changes the marker unit of strand `k`. -/
def State.modMarker (s : State) (k : Fin 6) (f : Marker → Marker) : State :=
  s.setStrand k { s.strand k with marker := f (s.strand k).marker }

/-- Fires an entry that has been removed from the queue (R128). -/
def fireEntry (k : Fin 6) (e : MarkEntry) (s : State) : State :=
  let s := s.modMarker k fun m =>
    { m with pulsing := true, pulseStart := s.clock, lastFired := some e.fire, fired := bump m.fired }
  remarkRecord k e .fired s

/-- The two coordinates are less than `h` apart (R125). -/
def within (h a b : Nat) : Bool := decide (max a b - min a b < h)

/-- The offer falls within MARK_HOLDOFF of a queued entry or of the last mark fired (R125). -/
def Marker.coalesces (m : Marker) (holdoff f : Nat) : Bool :=
  m.queue.any (fun e => within holdoff f e.fire) ||
  match m.lastFired with
  | none => false
  | some x => within holdoff f x

/-- Inserts an entry after every entry at or below its fire coordinate (R126). -/
def insertMark (e : MarkEntry) : List MarkEntry → List MarkEntry
  | [] => [e]
  | x :: xs => if x.fire ≤ e.fire then x :: insertMark e xs else e :: x :: xs

/-- An entry with fire coordinate `f` would stand at the head of the queue (R126). -/
def Marker.headAt (m : Marker) (f : Nat) : Bool :=
  match m.queue with
  | [] => true
  | x :: _ => decide (f < x.fire)

/-- The offer of a record graded for marking (R125 to R127): the mark state returned, and the state after it. An entry
inserted at the head in IDLE, with its fire coordinate at or below the coordinate, fires within the offer. -/
def offerMark (k : Fin 6) (c : MarkSettings) (d : Defect) (s : State) : Mark × State :=
  let m := (s.strand k).marker
  let coord := (s.strand k).motion.coord
  let f := d.start + c.dist
  let e : MarkEntry := ⟨f, d.lane, d.serial, d.start, d.grade⟩
  if m.coalesces c.holdoff f then (.shared, s)
  else if f + c.lateMax < coord then (.late, s.modMarker k fun m => { m with late := bump m.late })
  else if 16 ≤ m.queue.length then (.lost, s.modMarker k fun m => { m with lost := bump m.lost })
  else if m.headAt f = true ∧ m.pulsing = false ∧ f ≤ coord then
    (.fired, fireEntry k e s)
  else (.queued, s.modMarker k fun m => { m with queue := insertMark e m.queue })

/-- A coordinate advance offered to the marker unit (R127): in IDLE it fires a head that is due. -/
def markAdvance (k : Fin 6) (s : State) : State :=
  let t := s.strand k
  match t.marker.queue with
  | [] => s
  | e :: es =>
    if t.marker.pulsing = false ∧ e.fire ≤ t.motion.coord then
      fireEntry k e (s.modMarker k fun m => { m with queue := es })
    else s

/-- What a pulse end finds in the queue (R129): the heads removed as late, the entry that fires, the rest. -/
def pulseScan (coord lateMax : Nat) : List MarkEntry → List MarkEntry × Option MarkEntry × List MarkEntry
  | [] => ([], none, [])
  | e :: es =>
    if coord < e.fire then ([], none, e :: es)
    else if coord ≤ e.fire + lateMax then ([], some e, es)
    else
      let r := pulseScan coord lateMax es
      (e :: r.1, r.2)

/-- The pulse of strand `k` has lasted its duration (R35, R129). -/
def pulseDue (k : Fin 6) (c : MarkSettings) (s : State) : Bool :=
  decide (c.pulse * 1000 ≤ (s.clock + 2 ^ 48 - (s.strand k).marker.pulseStart) % 2 ^ 48)

/-- Removes one head as late (R129 case 3). -/
def removeLate (k : Fin 6) (s : State) (e : MarkEntry) : State :=
  remarkRecord k e .late (s.modMarker k fun m => { m with late := bump m.late })

/-- The pulse-end event (R129). -/
def endPulse (k : Fin 6) (c : MarkSettings) (s : State) : State :=
  let t := s.strand k
  let r := pulseScan t.motion.coord c.lateMax t.marker.queue
  let s := r.1.foldl (removeLate k) (s.modMarker k fun m => { m with queue := r.2.2 })
  match r.2.1 with
  | some e => fireEntry k e s
  | none => s.modMarker k fun m => { m with pulsing := false }

/-- The pulse-end event of strand `k`, if its pulse has lasted its duration (R35, R129). -/
def endDuePulse (k : Fin 6) (s : State) : State :=
  match (s.strand k).marker.settings with
  | some c => if (s.strand k).marker.pulsing = true ∧ pulseDue k c s = true then endPulse k c s else s
  | none => s

/-- PULSE_END (R129): the marker pulse duration of the strand has expired at the last increment of the bay clock; the
next increment brings the event if no command has (log 8). In any other state there is no pulse end (log 1). -/
def execPulseEnd (k : Fin 6) (s : State) : Host.Outcome State Fault Refusal :=
  if s.global = .running then .next (endDuePulse k s) else .next s

/-- The bay reset columns of R134. -/
def Marker.atBayReset (m : Marker) (keep : Bool) : Marker :=
  { Marker.initial with settings := if keep then m.settings else none }

end Sys2Proof.Machine
end

