-- ==== Sys2Proof/Machine/Grading.lean ====
section
/-!
DEFINITION. Defect classification and grading (chapter 6), and the pending defect list the records of closed tracks
enter (7.2).
-/

namespace Sys2Proof.Machine

/-- Wd and the zone width of R93: a count of columns in 0.1 mm. -/
def columnsWidth (columns pitch : Nat) : Nat := columns * pitch / 100

/-- What a closed track is measured with (R91 to R93). -/
structure Measure where
  length : Nat
  width : Nat
  zoneWidth : Nat
  corner : Bool
  deriving DecidableEq, Repr

/-- The measurements of a closed track of a lane (R92, R93). -/
def measure (g : Geometry) (zones : List Zone) (countsPerM : Nat) (t : Track) : Measure :=
  let z := zones.getD t.zone ⟨0, 0, .ignore⟩
  { length := toLength (t.stop - t.start) countsPerM
    width := columnsWidth (t.colMax - t.colMin + 1) g.pitch
    zoneWidth := columnsWidth (z.last - z.first + 1) g.pitch
    corner := z.kind == .corner }

/-- The class (R95): the first condition that applies. -/
def classOf (aspect : Nat) (m : Measure) : Class :=
  if m.corner then .corner
  else if aspect * m.width ≤ m.length then .longitudinal
  else if aspect * m.length ≤ m.width then .transverse
  else .mesh

/-- A TRANSVERSE track is an oscillation mark (R96). -/
def isOscillation (c : Classify) (m : Measure) (cls : Class) (peak : Nat) : Bool :=
  cls == .transverse && decide (c.oscSpanPct * m.zoneWidth ≤ m.width * 100) && decide (peak ≤ c.oscPeakMax)

/-- The grade (R97). -/
def gradeOf (c : Classify) (cls : Class) (length peak : Nat) : Nat :=
  let base := (if c.g1 ≤ peak then 1 else 0) + (if c.g2 ≤ peak then 1 else 0) + (if c.g3 ≤ peak then 1 else 0)
  min 3 (base + (if c.longLen ≤ length then 1 else 0) + (if cls = .corner then 1 else 0))

/-- The defect record of a graded track (R98), with mark state NONE (R99). -/
def defectOf (i : Fin 12) (k : Fin 6) (m : Measure) (cls : Class) (grade time : Nat) (reason : CloseReason)
    (head : Bool) (t : Track) : Defect where
  lane := i
  strand := k
  serial := t.serial
  cls := cls
  grade := grade
  start := t.start
  stop := t.stop
  length := m.length
  width := m.width
  colMin := t.colMin
  colMax := t.colMax
  zone := t.zone
  lines := t.lines
  peak := t.peak
  sum := t.sum
  merged := t.merged
  time := time
  reason := reason
  splitHead := head
  splitTail := t.splitTail
  straddle := false
  test := t.test
  mark := .none

/-- Changes the open billet of strand `k`. -/
def State.modBillet (s : State) (k : Fin 6) (f : OpenBillet → OpenBillet) : State :=
  s.setStrand k { s.strand k with billet := { (s.strand k).billet with current := f (s.strand k).billet.current } }

/-- Offers a record for marking when it is graded for marking (R101); the record takes the state returned. -/
def offerIfGraded (k : Fin 6) (d : Defect) (s : State) : Defect × State :=
  match (s.strand k).marker.settings with
  | none => (d, s)
  | some c =>
    if c.grade ≤ d.grade then
      let r := offerMark k c d s
      ({ d with mark := r.1 }, r.2)
    else (d, s)

/-- One closed track through the steps 1 to 7 of R90: the record made, if any, and the state after it. Noise and
oscillation marks are counted against the strand's open billet (R94, R96). A closed track's lane has its geometry. -/
def gradeTrack (i : Fin 12) (minLines : Nat) (reason : CloseReason) (head : Bool) (t : Track) (s : State) :
    Option Defect × State :=
  match (s.lane i).control.geometry with
  | none => (none, s)
  | some g =>
    let k := g.strand
    let m := measure g ((s.lane i).control.zones.getD []) (s.strand k).setupOrZero.countsPerM t
    let cls := classOf s.classify.aspect m
    if t.lines < minLines then (none, s.modBillet k fun b => { b with noise := satAdd 65535 b.noise 1 })
    else if isOscillation s.classify m cls t.peak then
      (none, s.modBillet k fun b => { b with osc := satAdd 65535 b.osc 1 })
    else
      let d := defectOf i k m cls (gradeOf s.classify cls m.length t.peak) s.clock reason head t
      let r := offerIfGraded k d s
      (some r.1, r.2)

/-! ### The pending defect list (R108 to R110) -/

/-- The key order of R108: Start, then lane, then serial. -/
def Defect.keyLt (a b : Defect) : Bool :=
  decide (a.start < b.start) ||
    (a.start == b.start && (decide (a.lane < b.lane) || (a.lane == b.lane && decide (a.serial < b.serial))))

/-- The two records have equal keys. -/
def Defect.sameKey (a b : Defect) : Bool := a.isNamed b.lane b.serial b.start

/-- Inserts a record after every record whose key is not greater (R108, R116). -/
def insertByKey (d : Defect) : List Defect → List Defect
  | [] => [d]
  | x :: xs => if d.keyLt x then d :: x :: xs else x :: insertByKey d xs

/-- The lowest grade in a list. -/
def lowestGrade : List Defect → Nat
  | [] => 0
  | [d] => d.grade
  | d :: ds => min d.grade (lowestGrade ds)

/-- Removes the record of grade `g` with the greatest key: the last of that grade in key order (R109). -/
def dropLastOfGrade (g : Nat) : List Defect → List Defect
  | [] => []
  | d :: ds => if d.grade = g ∧ ¬ ds.any (fun x => x.grade == g) then ds else d :: dropLastOfGrade g ds

/-- A record for the pending list (R108, R109): the list after it, and whether a record was dropped. A key already held
refuses the record even at a list of 64 and a grade above the lowest (the model's choice, log 36). -/
def insertWaiting (d : Defect) (l : List Defect) : List Defect × Bool :=
  if l.any (fun x => x.sameKey d) then (l, true)
  else if l.length < 64 then (insertByKey d l, false)
  else if lowestGrade l < d.grade then (insertByKey d (dropLastOfGrade (lowestGrade l) l), true)
  else (l, true)

/-- Hands a record to the pending list of its strand; a record refused or displaced is counted dropped (R110). -/
def toPending (k : Fin 6) (d : Defect) (s : State) : State :=
  let t := s.strand k
  let r := insertWaiting d t.billet.waiting
  s.setStrand k { t with billet :=
    { waiting := r.1
      current := if r.2 then { t.billet.current with dropped := satAdd 65535 t.billet.current.dropped 1 }
        else t.billet.current } }

/-- A track that closes by gap or drain: graded, and its record handed to the pending list (R90, R100). -/
def closeToPending (i : Fin 12) (minLines : Nat) (reason : CloseReason) (s : State) (t : Track) : State :=
  match gradeTrack i minLines reason false t s with
  | (none, s) => s
  | (some d, s) => toPending d.strand d s

/-- Every open track of the lane drains (R86), in age order. -/
def drainTracks (i : Fin 12) (minLines : Nat) (s : State) : State :=
  let l := s.lane i
  (l.table.tracks).foldl (closeToPending i minLines .drain)
    (s.setLane i { l with table := { l.table with tracks := [] } })

end Sys2Proof.Machine
end

