-- ==== Sys2Proof/Machine/Billets.lean ====
section
/-!
DEFINITION. Billets, coverage and verdicts (chapter 7): coverage runs, the open billet, and the cut.
-/

namespace Sys2Proof.Machine

/-! ### Coverage runs (R111, R112, R117, R118) -/

/-- Adds the interval [c, c + span) to a run list (R111, R112): it extends the newest run when `c` is at or below its
end; otherwise a new run is made, the two oldest being merged first when the list holds 16. -/
def addRun (c span : Nat) (runs : List Run) : List Run :=
  match runs.getLast? with
  | none => [⟨c, c + span, false⟩]
  | some e =>
    if c ≤ e.stop then runs.dropLast ++ [{ e with stop := max e.stop (c + span) }]
    else
      match runs with
      | a :: b :: rest =>
        if 16 ≤ runs.length then ⟨a.start, b.stop, true⟩ :: rest ++ [⟨c, c + span, false⟩]
        else runs ++ [⟨c, c + span, false⟩]
      | _ => runs ++ [⟨c, c + span, false⟩]

/-- The counts of [start, stop) that a run covers (R117). -/
def Run.covers (r : Run) (start stop : Nat) : Nat := min r.stop stop - max r.start start

/-- The coverage figure of a lane over [start, stop) (R117). -/
def coverageOf (i : Fin 12) (runs : List Run) (start stop : Nat) : CoverEntry where
  lane := i
  perMille := min 1000 (1000 * (runs.map fun r => r.covers start stop).sum / (stop - start))
  approx := runs.any fun r => r.approx && decide (0 < r.covers start stop)

/-- The run list trimmed at `b` (R118). -/
def trimRuns (b : Nat) (runs : List Run) : List Run :=
  (runs.filter fun r => decide (b < r.stop)).map fun r => if r.start < b then { r with start := b } else r

/-! ### The open billet (R105 to R107, R121) -/

/-- Adds a lane to a set of lanes in ascending order. -/
def insertLane : List (Fin 12) → Fin 12 → List (Fin 12)
  | [], i => [i]
  | a :: m, i => if i < a then i :: a :: m else if i = a then a :: m else a :: insertLane m i

/-- A bound lane leaves OFF at ARM (R107). -/
def OpenBillet.join (b : OpenBillet) (i : Fin 12) : OpenBillet := { b with active := insertLane b.active i }

/-- The bound lanes out of OFF (R107). -/
def activeLanes (s : State) (k : Fin 6) : List (Fin 12) :=
  (boundLanes s k).filter fun i => decide ((s.lane i).control.state ≠ .off)

/-- A bound lane is in TEST (R107). -/
def testLane (s : State) (k : Fin 6) : Bool :=
  (boundLanes s k).any fun i => decide ((s.lane i).control.state = .test)

/-- The billet that opens at `b` after the closed billet (R121). -/
def OpenBillet.next (old : OpenBillet) (b : Nat) (active : List (Fin 12)) (testSeen : Bool) : OpenBillet :=
  ⟨wrap32 old.serial, b, false, testSeen, false, active, 0, 0, 0⟩

/-! ### The cut (R114 to R121) -/

/-- The lanes whose tables split at `b` act one after another; a head that becomes a record joins the group (R115
step 1). MIN_LINES is that in force (R91). -/
def splitLane (b : Nat) (acc : List Defect × State) (i : Fin 12) : List Defect × State :=
  let l := acc.2.lane i
  let minLines := (l.control.detect.getD Detect.zero).minLines
  let s := acc.2.setLane i { l with table := l.table.split b }
  (l.table.heads b).foldl (fun acc t =>
    match gradeTrack i minLines .cut true t acc.2 with
    | (none, s) => (acc.1, s)
    | (some d, s) => (acc.1 ++ [d], s)) (acc.1, s)

/-- A record removed from the pending list at a cut (R116). -/
def Defect.removedAt (b : Nat) (d : Defect) : Defect := if b ≤ d.stop then { d with straddle := true } else d

/-- How many records of the group have a class. -/
def classCount (c : Class) (group : List Defect) : Nat := (group.filter fun d => decide (d.cls = c)).length

/-- The greatest grade of the group; 0 when it is empty (R119). -/
def maxGrade (group : List Defect) : Nat := group.foldl (fun g d => max g d.grade) 0

/-- The verdict (R120). -/
def verdictOf (c : StrandSetup) (group : List Defect) (coverage : List CoverEntry) (approx test : Bool)
    (dropped : Nat) : Verdict :=
  if group.any (fun d => decide (c.rejectGrade ≤ d.grade)) then .defective
  else if coverage.isEmpty || coverage.any (fun e => decide (e.perMille < c.coverMin)) || approx || test ||
      decide (0 < dropped) then .unverified
  else .clean

/-- The billet record (R119, R120). -/
def billetRecord (k : Fin 6) (c : StrandSetup) (o : OpenBillet) (b time : Nat) (group : List Defect)
    (coverage : List CoverEntry) : BilletRecord :=
  let test := o.testSeen || group.any (·.test)
  let approx := o.laneLeft || coverage.any (·.approx)
  { strand := k
    serial := o.serial
    start := o.start
    stop := b
    length := toLength (b - o.start) c.countsPerM
    time := time
    corner := classCount .corner group
    longitudinal := classCount .longitudinal group
    transverse := classCount .transverse group
    mesh := classCount .mesh group
    osc := o.osc
    noise := o.noise
    dropped := o.dropped
    condensed := 0
    maxGrade := maxGrade group
    coverage := coverage
    partialHead := o.partialHead
    test := test
    approx := approx
    verdict := verdictOf c group coverage approx test o.dropped }

/-- A billet job arrives at the report unit (R160): queued, or lost when 8 are queued. -/
def ReportUnit.loseJob (r : ReportUnit) (strand : Fin 6) : ReportUnit :=
  { r with lostJobs := bump r.lostJobs }.raise .reportLost strand.val

def ReportUnit.takeJob (r : ReportUnit) (j : Job) : ReportUnit :=
  if r.jobs.length < 8 then { r with jobs := r.jobs ++ [j] } else r.loseJob j.billet.strand

/-- Trims the run lists of the lanes bound to strand `k` (R118). -/
def trimLanes (b : Nat) (s : State) (i : Fin 12) : State :=
  s.setLane i { s.lane i with runs := trimRuns b (s.lane i).runs }

/-- The lanes of strand `k` whose tables hold a track below `b`, in the order they take the cut (log 12). -/
def splittingLanes (s : State) (k : Fin 6) (b : Nat) : List (Fin 12) :=
  (boundLanes s k).filter fun i => !((s.lane i).table.heads b).isEmpty

/-- An accepted cut of strand `k` at boundary `b` (R115): steps 1 to 6. -/
def acceptCut (k : Fin 6) (c : StrandSetup) (b : Nat) (s : State) : State :=
  let lanes := splittingLanes s k b
  let s1 := if lanes.length ≤ 1 then s else { s with choice := s.choice + lanes.length }
  -- step 1
  let r := (anyOrder s.choice lanes).foldl (splitLane b) ([], s1)
  let s := r.2
  let t := s.strand k
  let o := t.billet.current
  -- step 2
  let removed := (t.billet.waiting.filter fun d => decide (d.start < b)).map (Defect.removedAt b)
  let group := r.1.foldl (fun l d => insertByKey d l) removed
  -- step 3
  let coverage := (o.active.filter fun i => decide ((s.lane i).binding = some k)).map
    fun i => coverageOf i (s.lane i).runs o.start b
  -- step 4
  let s := (boundLanes s k).foldl (trimLanes b) s
  -- step 5
  let record := billetRecord k c o b s.clock group coverage
  -- step 6
  let s := s.setStrand k { t with billet :=
    { waiting := t.billet.waiting.filter fun d => !decide (d.start < b)
      current := o.next b (activeLanes s k) (testLane s k) } }
  { s with report := s.report.takeJob ⟨record, group⟩ }

/-- The cut of strand `k` at the coordinate as it stands is judged (R114). -/
def judgeCut (k : Fin 6) (c : StrandSetup) (s : State) : State :=
  let coord := (s.strand k).motion.coord
  let start := (s.strand k).billet.current.start
  if c.cutDist ≤ coord ∧ start < coord - c.cutDist then acceptCut k c (coord - c.cutDist) s
  else s.emit (.cutRefused k coord c.cutDist start s.clock)

end Sys2Proof.Machine
end

