-- ==== Sys2Proof/Machine/Motion.lean ====
section
/-!
DEFINITION. Strand motion and the bay clock (chapter 3). The rows of the table split what one sample does: the
increment of the clock takes the samples, and what a sample shows of a strand (a step, an encoder error, a rise or a fall
of the cut input) is a command of its own, before the next increment (log 7).
-/

namespace Sys2Proof.Machine

/-- What a sampled pair shows against the reference pair (R37). -/
inductive Decoded where
  | noChange | forward | reverse | error
  deriving DecidableEq, Repr

/-- The pair that follows in the forward order (0,0) → (1,0) → (1,1) → (0,1) → (0,0) (R37). -/
def forwardPair : Pair → Pair
  | ⟨false, false⟩ => ⟨true, false⟩
  | ⟨true, false⟩ => ⟨true, true⟩
  | ⟨true, true⟩ => ⟨false, true⟩
  | ⟨false, true⟩ => ⟨false, false⟩

/-- The decoding of R37: no change, the next pair in forward order, the next in reverse order, or both channels
changed. -/
def decodePair (ref sampled : Pair) : Decoded :=
  if sampled = ref then .noChange
  else if sampled = forwardPair ref then .forward
  else if ref = forwardPair sampled then .reverse
  else .error

/-- The greatest coordinate (R38). -/
def topCoord : Nat := 2 ^ 40 - 1

/-- Changes the motion channel of strand `k`. -/
def State.modMotion (s : State) (k : Fin 6) (f : Motion → Motion) : State :=
  s.setStrand k { s.strand k with motion := f (s.strand k).motion }

/-- The sample of strand `k` that is still to be decoded is the pair `p` and shows `d`: the part is RUNNING (R36) and
the pair shows it against the reference pair (R37). -/
def State.sampleShows (s : State) (k : Fin 6) (p : Pair) (d : Decoded) : Bool :=
  decide (s.global = .running ∧ (s.strand k).motion.pairDue = some p ∧
    decodePair (s.strand k).motion.refPair p = d)

/-- A forward step (R38): it repays one count of debt, or raises the coordinate, which is then offered to the marker
unit; a saturated coordinate stands. -/
def stepForward (k : Fin 6) (s : State) : State :=
  let m := (s.strand k).motion
  if 0 < m.debt then
    s.modMotion k fun m => { m with debt := m.debt - 1, reportArmed := if m.debt = 1 then true else m.reportArmed }
  else if m.coord < topCoord then markAdvance k (s.modMotion k fun m => { m with coord := m.coord + 1 })
  else s

/-- The reverse report test of R41, after a step that raised the debt. -/
def testReverseReport (k : Fin 6) (s : State) : State :=
  let t := s.strand k
  match t.setup with
  | none => s
  | some c =>
    if t.motion.reportArmed = true ∧ c.reverseLimit ≤ t.motion.debt then
      (s.modMotion k fun m => { m with reportArmed := false }).emit
        (.reverseTravel k t.motion.coord t.motion.debt s.clock)
    else s

/-- A reverse step (R39): the debt rises by 1, saturating at 65,535; a step that raised it is tested (R41). -/
def stepReverse (k : Fin 6) (s : State) : State :=
  if (s.strand k).motion.debt < 65535 then
    testReverseReport k (s.modMotion k fun m => { m with debt := m.debt + 1 })
  else s

/-- An encoder error (R40): the error count rises, and no step is taken. -/
def countEncoderError (k : Fin 6) (s : State) : State := s.modMotion k fun m => { m with encErrors := bump m.encErrors }

/-- The sampled pair becomes the reference pair, and the pair is decoded (R37). -/
def takePair (k : Fin 6) (p : Pair) (s : State) : State :=
  s.modMotion k fun m => { m with refPair := p, pairDue := none }

/-- The pair of strand `k` that is still to be decoded is decoded against the reference pair (R37): a step, an error or
nothing. -/
def decodeDue (k : Fin 6) (s : State) : State :=
  match (s.strand k).motion.pairDue with
  | none => s
  | some p =>
    match decodePair (s.strand k).motion.refPair p with
    | .noChange => takePair k p s
    | .forward => stepForward k (takePair k p s)
    | .reverse => stepReverse k (takePair k p s)
    | .error => countEncoderError k (takePair k p s)

/-- FORWARD_STEP (R37, R38): the sample of the strand, the pair `p`, shows a forward step. Where the sample to be decoded
is another pair, or there is none, or it shows no forward step, there is no such event (log 1). -/
def execForwardStep (k : Fin 6) (p : Pair) (s : State) : Host.Outcome State Fault Refusal :=
  if s.sampleShows k p .forward then .next (decodeDue k s) else .next s

/-- REVERSE_STEP (R37, R39, R41). -/
def execReverseStep (k : Fin 6) (p : Pair) (s : State) : Host.Outcome State Fault Refusal :=
  if s.sampleShows k p .reverse then .next (decodeDue k s) else .next s

/-- ENCODER_ERROR (R37, R40): no step; the error count rises and the sampled pair becomes the reference pair. -/
def execEncoderError (k : Fin 6) (p : Pair) (s : State) : Host.Outcome State Fault Refusal :=
  if s.sampleShows k p .error then .next (decodeDue k s) else .next s

/-! ### The cut-complete input (R44) -/

/-- The cut input state of strand `k` becomes the sampled level. -/
def takeLevel (k : Fin 6) (high : Bool) (s : State) : State :=
  s.modMotion k fun m => { m with cutHigh := high, cutDue := none }

/-- The cut-complete level of strand `k` that is still to be compared is compared with the cut input state (R44): a rise
makes a cut event, while the strand's settings are set. -/
def compareDue (k : Fin 6) (s : State) : State :=
  match (s.strand k).motion.cutDue with
  | none => s
  | some level =>
    match level && !(s.strand k).motion.cutHigh, (s.strand k).setup with
    | true, some c => judgeCut k c (takeLevel k level s)
    | _, _ => takeLevel k level s

/-- CUT_EVENT (R44, R114): the sample of the strand shows a rise of its cut-complete input. A step of the same sample is
taken before the cut is judged. Where the sample shows no rise, or the part is not RUNNING, there is none (log 1).
R45, R114's list and R122 say that a cut taken after a bay reset with KEEP is refused, CUT_DIST 0 included. Where the bay
reset is taken between the increment and an advance of the sample that shows the rise, and CUT_DIST is 0, R42, R44, R106
and R114's table give a boundary one above the new billet start, and the cut is accepted: the model judges by that table
(the model's choice, log 39). -/
def execCutEvent (k : Fin 6) (s : State) : Host.Outcome State Fault Refusal :=
  if s.global = .running ∧ (s.strand k).motion.cutDue = some true ∧ (s.strand k).motion.cutHigh = false then
    .next (compareDue k (decodeDue k s))
  else .next s

/-- CUT_INPUT_FALL (R44): the cut input is sampled low and its state returns to LOW. -/
def execCutInputFall (k : Fin 6) (s : State) : Host.Outcome State Fault Refusal :=
  if s.global = .running ∧ (s.strand k).motion.cutDue = some false then .next (compareDue k s) else .next s

/-! ### The bay clock (R34 to R36) -/

/-- In LOADING and PASS_ONLY the samples become the reference pairs and the cut input states (R36). -/
def adoptSamples (samples : Vector Sample 6) (s : State) : State :=
  { s with strands := buildStrands fun k =>
      { s.strand k with motion := { (s.strand k).motion with
          refPair := (samples.get k).pair, cutHigh := (samples.get k).cut } } }

/-- The bay clock rises by 1 and wraps after 2^48 − 1 (R34). -/
def tickClock (s : State) : State := { s with clock := (s.clock + 1) % 2 ^ 48 }

/-- What the last increment left for strand `k` and no command has brought yet comes about: the step or error and the
cut of its sample (R36, R44), and the end of a pulse whose duration has passed (R35, R129). -/
def finishSample (s : State) (k : Fin 6) : State := endDuePulse k (compareDue k (decodeDue k s))

/-- The samples of the strands' inputs in RUNNING (R36), still to be decoded. -/
def holdSamples (samples : Vector Sample 6) (s : State) : State :=
  { s with strands := buildStrands fun k =>
      { s.strand k with motion := { (s.strand k).motion with
          pairDue := some (samples.get k).pair, cutDue := some (samples.get k).cut } } }

/-- BAY_CLOCK_INCREMENT (R34 to R36). In RUNNING every event of the last increment is over before the next one, so a
strand has one sample and a pulse ends at the first increment that reaches its duration (log 7, log 8). Of the two
values that R34 lets an event at the moment of an increment read, the events of the increment (what its samples show and
the pulse ends) read the one after it (the model's choice, log 38). While the reset line is asserted the clock stands at 0
and no samples are taken (R46). -/
def execBayClockIncrement (samples : Vector Sample 6) (s : State) : Host.Outcome State Fault Refusal :=
  match s.global with
  | .held => .next s
  | .loading => .next (adoptSamples samples (tickClock s))
  | .passOnly => .next (adoptSamples samples (tickClock s))
  | .running => .next (holdSamples samples (tickClock (allStrands.foldl finishSample s)))

/-- The bay reset column of R46. -/
def Motion.atBayReset (m : Motion) : Motion := { m with encErrors := 0 }

end Sys2Proof.Machine
end

