-- ==== Sys2Proof/Machine/LaneControl.lean ====
section
/-!
DEFINITION. Lane states (chapter 9) and the line-processed event (R24, R63, R139): arming, seeding, tracking, parking,
stopping, and lane reset.
-/

namespace Sys2Proof.Machine

/-- Changes lane control of lane `i`. -/
def State.modControl (s : State) (i : Fin 12) (f : Control → Control) : State :=
  s.setLane i { s.lane i with control := f (s.lane i).control }

/-- The state that governs a line: for a STOPPING lane the state it left (R27, R49). -/
def Control.governing (c : Control) : LaneState :=
  match c.state with
  | .stopping => c.stateLeft.getD .off
  | st => st

/-- The status of a processed line's trailer (R27): the first that applies. -/
def processedStatus (governing : LaneState) (stationary : Bool) : TrailerStatus :=
  if stationary then .stationary
  else
    match governing with
    | .test => .test
    | .armed => .seed
    | .seeding => .seed
    | .off => .ok
    | .tracking => .ok
    | .parked => .ok
    | .stopping => .ok

/-- The track table's action on a line (R70): none for a STATIONARY line; the tracks it closes go to grading with the
line's MIN_LINES (R77, R78, R91). -/
def processTracks (i : Fin 12) (k : Fin 6) (line : Line) (copy : Copy) (det : Detected) (testLine stationary : Bool)
    (s : State) : State :=
  if stationary then s
  else
    let l := s.lane i
    let r := l.table.line copy.detect line.coord (s.strand k).billet.current.start testLine det.segments
    r.2.foldl (closeToPending i copy.detect.minLines .gap) (s.setLane i { l with table := r.1 })

/-- The coverage a line gives (R111). -/
def processCoverage (i : Fin 12) (g : Geometry) (line : Line) (det : Detected) (stationary : Bool) (s : State) : State :=
  if stationary || det.uncovered then s
  else s.setLane i { s.lane i with runs := addRun line.coord g.span (s.lane i).runs }

/-- Lane control's second act at a line-processed event (R139, R140). STOPPING is left by `finishStopping`. -/
def advanceState (i : Fin 12) (line : Line) (d : Detect) (stationary : Bool) (s : State) : State :=
  let c := (s.lane i).control
  match c.state with
  | .armed =>
    if stationary then s
    else changeLaneState i .seeding .firstLine line.seq (s.modControl i fun c => { c with seed := 1 })
  | .seeding =>
    if stationary then s
    else if d.seedLines ≤ c.seed + 1 then
      changeLaneState i .tracking .seeded line.seq (s.modControl i fun c => { c with seed := c.seed + 1, stall := 0 })
    else s.modControl i fun c => { c with seed := c.seed + 1 }
  | .test =>
    if stationary then s
    else if c.seed < d.seedLines then s.modControl i fun c => { c with seed := c.seed + 1 }
    else s
  | .tracking =>
    if stationary then
      if d.stallLines ≤ c.stall + 1 then
        changeLaneState i .parked .stalled line.seq (s.modControl i fun c => { c with stall := c.stall + 1 })
      else s.modControl i fun c => { c with stall := c.stall + 1 }
    else s.modControl i fun c => { c with stall := 0 }
  | .parked =>
    if stationary then s
    else changeLaneState i .tracking .moving line.seq (s.modControl i fun c => { c with stall := 0 })
  | .off => s
  | .stopping => s

/-- A DISARM held on lane `i` completes with DONE (R143, R154). -/
def completeDisarm (i : Fin 12) (s : State) : State :=
  match s.command.cond with
  | .executing _ (some (.disarm j)) => if j = i then retire .done s else s
  | _ => s

/-- The end of STOPPING (R86, R143): the open tracks drain, the lane goes OFF with cause STOPPED, and DISARM
completes. -/
def finishStopping (i : Fin 12) (line : Line) (d : Detect) (s : State) : State :=
  completeDisarm i (changeLaneState i .off .stopped line.seq (drainTracks i d.minLines s))

/-- The capture and detection units at the line-processed event (R24 steps 1 and 2, R58, R63). -/
def Lane.afterLine (l : Lane) (line : Line) (det : Detected) (stationary : Bool) : Lane :=
  { l with
    capture := { l.capture with
      statRef := if stationary then l.capture.statRef else some line.coord
      counters := { l.capture.counters with
        processed := bump l.capture.counters.processed
        stationary := if stationary then bump l.capture.counters.stationary else l.capture.counters.stationary } }
    detection := { l.detection with
      background := det.background
      segments := det.segments
      segOverflow := if det.overflow then bump l.detection.segOverflow else l.detection.segOverflow } }

/-- The line-processed event of lane `i` for the line in processing, in the order of R24, R63 and R139. -/
def processLine (i : Fin 12) (g : Geometry) (line : Line) (copy : Copy) (s : State) : State :=
  let l := s.lane i
  let governing := l.control.governing
  let mode := lineMode governing l.control.seed copy.detect.seedLines
  let stationary := judgeStationary copy.detect.minAdvance line.coord l.capture.statRef
  let det := detectLine copy line.bytes l.detection.background mode stationary
  let s := s.setLane i (l.afterLine line det stationary)
  let s := makeTrailer i line (processedStatus governing stationary) det.segments.length det.obscured det.overflow
    det.uncovered s
  let s := processTracks i g.strand line copy det (decide (governing = .test)) stationary s
  let s := processCoverage i g line det stationary s
  let stopping := decide (l.control.state = .stopping)
  let s := s.modCapture i fun c => c.nextLine stopping (s.lane i).settingsCopy
  if stopping then finishStopping i line copy.detect s else advanceState i line copy.detect stationary s

/-- LINE_PROCESSED (R24): the detection unit of the lane finishes the line in processing. With no line in processing
there is no such event (log 1). -/
def execLineProcessed (i : Fin 12) (s : State) : Host.Outcome State Fault Refusal :=
  match (s.lane i).capture.inProcessing, (s.lane i).control.geometry with
  | some (line, copy), some g => if s.global = .running then .next (processLine i g line copy s) else .next s
  | _, _ => .next s

/-! ### Arming, reseeding, testing, disarming (R138, R141 to R143) -/

/-- The settings-complete set of R137. -/
def settingsComplete (i : Fin 12) (s : State) : Bool :=
  (s.lane i).control.zones.isSome && (s.lane i).control.detect.isSome && s.report.settings.isSome &&
  match (s.lane i).control.geometry with
  | none => false
  | some g => (s.strand g.strand).setup.isSome

/-- The lane's blocks take their ARM values (R138). -/
def Lane.atArm (l : Lane) : Lane :=
  { l with
    control := { l.control with stateLeft := none, seed := 0, stall := 0 }
    capture := l.capture.atArm
    detection := l.detection.atArm
    table := { l.table with tracks := [] }
    runs := [] }

/-- Changes the open billet of the strand a lane is bound to. -/
def modBoundBillet (i : Fin 12) (f : OpenBillet → OpenBillet) (s : State) : State :=
  match (s.lane i).binding with
  | none => s
  | some k => s.modBillet k f

/-- ARM as lane control takes it (R138). -/
def doArm (i : Fin 12) (s : State) : Status × State :=
  if s.global ≠ .running then (.refused, s)
  else if (s.lane i).control.state ≠ .off then (.refused, s)
  else if settingsComplete i s = false then (.incomplete, s)
  else
    let s := s.setLane i (s.lane i).atArm
    let s := modBoundBillet i (fun b => b.join i) s
    (.done, changeLaneState i .armed .arm 0 s)

/-- RESEED as lane control takes it (R141). -/
def doReseed (i : Fin 12) (s : State) : Status × State :=
  match (s.lane i).control.state with
  | .off => (.refused, s)
  | .stopping => (.refused, s)
  | .armed => (.done, s.modControl i fun c => { c with seed := 0 })
  | .seeding => (.done, s.modControl i fun c => { c with seed := 0 })
  | .test => (.done, s.modControl i fun c => { c with seed := 0 })
  | .tracking => (.done, changeLaneState i .seeding .reseed 0 (s.modControl i fun c => { c with seed := 0 }))
  | .parked => (.done, changeLaneState i .seeding .reseed 0 (s.modControl i fun c => { c with seed := 0 }))

/-- The pattern parameters brought into range (R142). -/
def TestParams.clamped (p : TestParams) (w : Nat) : TestParams where
  base := clamp 0 4094 p.base
  depth := clamp 0 4095 p.depth
  col := clamp 0 (w - 1) p.col
  width := clamp 1 w p.width
  period := clamp 1 255 p.period
  lines := clamp 1 (clamp 1 255 p.period) p.lines

/-- DONE when nothing was replaced, DONE_CLAMPED otherwise. -/
def clampStatus {α : Type} [DecidableEq α] (asked held : α) : Status := if held = asked then .done else .doneClamped

/-- The lane with an accepted TEST ON's parameters: seed count and pattern phase 0 (R30, R142). -/
def Lane.withTest (l : Lane) (p : TestParams) : Lane :=
  { l with
    control := { l.control with test := some p, seed := 0 }
    capture := { l.capture with phase := 0, phaseFresh := true } }

/-- TEST ON as lane control takes it (R142). -/
def doTestOn (i : Fin 12) (p : TestParams) (s : State) : Status × State :=
  let q := p.clamped (((s.lane i).control.geometry.map (·.w)).getD 0)
  match (s.lane i).control.state with
  | .off => (.refused, s)
  | .stopping => (.refused, s)
  | .test => (clampStatus p q, s.setLane i ((s.lane i).withTest q))
  | .armed | .seeding | .tracking | .parked =>
    let s := s.setLane i ((s.lane i).withTest q)
    let s := modBoundBillet i (fun b => { b with testSeen := true }) s
    (clampStatus p q, changeLaneState i .test .testOn 0 s)

/-- TEST OFF as lane control takes it (R142). -/
def doTestOff (i : Fin 12) (s : State) : Status × State :=
  match (s.lane i).control.state with
  | .off => (.refused, s)
  | .stopping => (.refused, s)
  | .test => (.done, changeLaneState i .seeding .testOff 0 (s.modControl i fun c => { c with seed := 0 }))
  | .armed | .seeding | .tracking | .parked => (.done, s)

/-- TEST with its action code (R142, R170): a lane that would refuse it refuses it whatever the code; otherwise a code
outside the table is BAD_VALUE. -/
def doTest (i : Fin 12) (action : Nat) (p : TestParams) (s : State) : Status × State :=
  if (s.lane i).control.state = .off ∨ (s.lane i).control.state = .stopping then (.refused, s)
  else if action = 1 then doTestOn i p s
  else if action = 0 then doTestOff i s
  else (.badValue, s)

/-- DISARM as lane control takes it (R143): its status, or none while it waits for the line in processing. -/
def doDisarm (i : Fin 12) (s : State) : Option Status × State :=
  let l := s.lane i
  if l.control.state = .off then (some .done, s)
  else if l.capture.busy then
    let s := s.setLane i { l with
      capture := l.capture.atDisarm
      control := { l.control with stateLeft := some l.control.state } }
    (none, changeLaneState i .stopping .disarm 0 s)
  else
    let minLines := (l.control.detect.getD Detect.zero).minLines
    let s := drainTracks i minLines (s.modCapture i Capture.atDisarm)
    (some .done, changeLaneState i .off .disarm 0 s)

/-! ### Lane reset (R149) -/

/-- The LANE_RESET columns of R33, R66, R88, R113 and R149. -/
def Lane.atLaneReset (l : Lane) : Lane where
  control := { Control.initial with geometry := l.control.geometry, zones := l.control.zones, detect := l.control.detect }
  capture := l.capture.atReset
  detection := l.detection.atReset true
  table := l.table.atLaneReset
  runs := []

/-- LANE_RESET as lane control takes it (R149): its trailer request leaves the wait list (R12); LANE_STATE is emitted
if the lane was armed. -/
def doLaneReset (i : Fin 12) (s : State) : Status × State :=
  let l := s.lane i
  let s := { s.setLane i l.atLaneReset with path := s.path.withdraw (.lane i) }
  if l.control.state = .off then (.done, s)
  else (.done, s.emit (.laneState i l.binding l.control.state .off .laneReset 0 s.clock))

/-- The bay reset columns of the lane's blocks (R33, R66, R88, R113, R149). -/
def Lane.atBayReset (l : Lane) (keep : Bool) : Lane where
  control :=
    if keep then
      { Control.initial with geometry := l.control.geometry, zones := l.control.zones, detect := l.control.detect }
    else Control.initial
  capture := l.capture.atReset
  detection := l.detection.atReset keep
  table := TrackTable.initial
  runs := []

end Sys2Proof.Machine
end

