-- ==== Sys2Proof/Machine/Settings.lean ====
section
/-!
DEFINITION. The settings commands (R64, R65, R103, R132, R145 to R148, R157): acceptance, clamping and refusal.
-/

namespace Sys2Proof.Machine

/-- The ring [base, base + length) meets the control block (R146, R157). -/
def meetsControlBlock (s : State) (base stop : Nat) : Bool :=
  match s.command.base with
  | none => false
  | some cb => intervalsMeet base stop cb (cb + 4096)

/-- The interval meets the report ring where the report settings are set (R146). -/
def meetsReportRing (s : State) (base stop : Nat) : Bool :=
  match s.report.settings with
  | none => false
  | some r => intervalsMeet base stop r.base (r.base + 64 * r.size)

/-- The interval meets the ring of lane `j` where its GEOMETRY is complete (R146, R157). -/
def meetsLaneRing (s : State) (base stop : Nat) (j : Fin 12) : Bool :=
  match (s.lane j).control.geometry with
  | none => false
  | some g => intervalsMeet base stop g.base (ringEnd g)

/-- The geometry that LANE_GEOMETRY asks for, where its values are valid (R146): none stands for BAD_VALUE. -/
def geometryOf (i : Fin 12) (p : GeometryParams) (s : State) : Option Geometry :=
  match tapOfCode p.tap with
  | none => none
  | some tap =>
    if h : p.strand < 6 then
      let k : Fin 6 := ⟨p.strand, h⟩
      let stop := p.base + p.n * slotSize p.w
      if 64 ≤ p.w ∧ p.w ≤ 2048 ∧ p.w % 16 = 0 ∧ 4 ≤ p.n ∧ p.n ≤ 1024 ∧ p.base % 64 = 0 ∧ stop ≤ 2 ^ 40 ∧
          meetsControlBlock s p.base stop = false ∧ meetsReportRing s p.base stop = false ∧
          (allLanes.any fun j => decide (j ≠ i) && meetsLaneRing s p.base stop j) = false ∧
          ((boundLanes s k).filter (· ≠ i)).length < 4 then
        some ⟨k, p.w, p.n, p.base, tap, clamp 50 2000 p.pitch, clamp 1 4095 p.span, clamp 1 1000 p.obscureLimit,
          decide (p.trailers ≠ 0)⟩
      else none
    else none

/-- A lane that is active in the open billet of the strand it leaves is taken out of it, and Lane left is set
(R113). -/
def leaveBillet (i : Fin 12) (new : Fin 6) (s : State) : State :=
  match (s.lane i).binding with
  | none => s
  | some k =>
    if k ≠ new ∧ i ∈ (s.strand k).billet.current.active then
      s.modBillet k fun b => { b with laneLeft := true, active := b.active.filter (· ≠ i) }
    else s

/-- The lane with an accepted geometry (R146): ZONES is cleared when W changes (R137), the runs are emptied (R113). -/
def Lane.withGeometry (l : Lane) (g : Geometry) : Lane :=
  { l with
    control := { l.control with
      geometry := some g
      zones := if l.control.geometry.map (·.w) = some g.w then l.control.zones else none }
    runs := [] }

/-- LANE_GEOMETRY (R145, R146). -/
def doLaneGeometry (i : Fin 12) (p : GeometryParams) (s : State) : Status × State :=
  if (s.lane i).control.state ≠ .off then (.refused, s)
  else
    match geometryOf i p s with
    | none => (.badValue, s)
    | some g =>
      let st := if g.pitch = p.pitch ∧ g.span = p.span ∧ g.obscureLimit = p.obscureLimit then .done else .doneClamped
      let s := leaveBillet i g.strand s
      (st, s.setLane i ((s.lane i).withGeometry g))

/-- The zones asked for, where every kind is in the table. -/
def zonesKinds : List ZoneParams → Option (List Zone)
  | [] => some []
  | z :: zs =>
    match zoneKindOfCode z.kind, zonesKinds zs with
    | some k, some rest => some (⟨z.first, z.last, k⟩ :: rest)
    | _, _ => none

/-- Each zone lies in order within W, above the zone before it (R147); `lo` is the least column the next zone may
begin at. -/
def zonesInOrder (w : Nat) : Nat → List Zone → Bool
  | _, [] => true
  | lo, z :: zs => decide (lo ≤ z.first) && decide (z.first ≤ z.last) && decide (z.last < w) && zonesInOrder w (z.last + 1) zs

/-- LANE_ZONES (R145, R147). -/
def doLaneZones (i : Fin 12) (count : Nat) (zones : List ZoneParams) (s : State) : Status × State :=
  if (s.lane i).control.state ≠ .off then (.refused, s)
  else
    match (s.lane i).control.geometry with
    | none => (.refused, s)
    | some g =>
      if count < 1 ∨ 8 < count then (.badValue, s)
      else
        match zonesKinds zones with
        | none => (.badValue, s)
        | some zs =>
          if zonesInOrder g.w 0 zs then (.done, s.modControl i fun c => { c with zones := some zs })
          else (.badValue, s)

/-- The dead-column map after MARK or CLEAR of [first, first + count) (R65). -/
def markColumns (dead : List Nat) (first count : Nat) (mark : Bool) : List Nat :=
  if mark then (List.range count).foldl (fun m n => insertNum m (first + n)) dead
  else dead.filter fun c => !(decide (first ≤ c) && decide (c < first + count))

/-- LANE_DEAD_COLUMNS (R65, R145, R170): accepted in every lane state; an action outside the table is BAD_VALUE. -/
def doDeadColumns (i : Fin 12) (first count action : Nat) (s : State) : Status × State :=
  if 2 ≤ action ∨ count = 0 ∨ 2048 < first + count then (.badValue, s)
  else
    (.done, s.setLane i { s.lane i with detection := { (s.lane i).detection with
      dead := markColumns (s.lane i).detection.dead first count (action = 1) } })

/-- The ten detection settings brought into range, in the order of R64. -/
def Detect.clamped (d : Detect) : Detect where
  tLow := clamp 1 254 d.tLow
  tHigh := clamp (clamp 1 254 d.tLow) 255 d.tHigh
  bgShift := clamp 2 7 d.bgShift
  bgFloor := clamp 1 1023 d.bgFloor
  seedLines := clamp 4 64 d.seedLines
  linkGap := clamp 0 7 d.linkGap
  gapLines := clamp 0 15 d.gapLines
  minLines := clamp 1 64 d.minLines
  minAdvance := clamp 0 255 d.minAdvance
  stallLines := clamp 1 255 d.stallLines

/-- LANE_DETECT (R64, R145): accepted in every lane state. -/
def doLaneDetect (i : Fin 12) (d : Detect) (s : State) : Status × State :=
  (clampStatus d d.clamped, s.modControl i fun c => { c with detect := some d.clamped })

/-- The strand settings brought into range (R148). -/
def StrandSetup.clamped (c : StrandSetup) : StrandSetup where
  countsPerM := clamp 1000 100000 c.countsPerM
  cutDist := clamp 0 16777215 c.cutDist
  reverseLimit := clamp 1 65535 c.reverseLimit
  coverMin := clamp 0 1000 c.coverMin
  rejectGrade := clamp 1 3 c.rejectGrade

/-- STRAND_SETUP (R145, R148): refused while a lane bound to the strand is armed. -/
def doStrandSetup (k : Fin 6) (c : StrandSetup) (s : State) : Status × State :=
  if (boundLanes s k).any (fun i => decide ((s.lane i).control.state ≠ .off)) then (.refused, s)
  else (clampStatus c c.clamped, s.setStrand k { s.strand k with setup := some c.clamped })

/-- The marker settings brought into range (R132). -/
def MarkSettings.clamped (c : MarkSettings) : MarkSettings where
  dist := clamp 0 16777215 c.dist
  grade := clamp 1 4 c.grade
  holdoff := clamp 0 65535 c.holdoff
  pulse := clamp 1 1000 c.pulse
  lateMax := clamp 0 65535 c.lateMax

/-- STRAND_MARKING (R132): taken on the state that the offers and the pulse end of the last increment leave, should no
command have brought them yet (log 7, log 8); refused while the marker queue holds an entry or the unit is in PULSE. -/
def doStrandMarking (k : Fin 6) (c : MarkSettings) (s : State) : Status × State :=
  let s := finishSample s k
  if (s.strand k).marker.queue ≠ [] ∨ (s.strand k).marker.pulsing = true then (.refused, s)
  else (clampStatus c c.clamped, s.modMarker k fun m => { m with settings := some c.clamped })

/-- The classification settings with ASPECT, OSC_SPAN_PCT, OSC_PEAK_MAX and LONG_LEN brought into range (R103). -/
def Classify.clamped (c : Classify) : Classify :=
  { c with
    aspect := clamp 1 15 c.aspect
    oscSpanPct := clamp 10 100 c.oscSpanPct
    oscPeakMax := clamp 1 255 c.oscPeakMax
    longLen := clamp 1 65535 c.longLen }

/-- CLASSIFY_SETUP (R103): invalid thresholds change nothing. -/
def doClassifySetup (c : Classify) (s : State) : Status × State :=
  if 1 ≤ c.g1 ∧ c.g1 < c.g2 ∧ c.g2 < c.g3 ∧ c.g3 ≤ 255 then
    (clampStatus c c.clamped, { s with classify := c.clamped })
  else (.badValue, s)

/-- A power of two in 256-65,536 (R157). -/
def ringSizeValid (n : Nat) : Bool := [256, 512, 1024, 2048, 4096, 8192, 16384, 32768, 65536].contains n

/-- The values REPORT_SETUP may take (R157). -/
def reportSettingsValid (c : ReportSettings) (s : State) : Bool :=
  let stop := c.base + 64 * c.size
  ringSizeValid c.size && decide (c.base % 64 = 0) && decide (c.high < c.low) && decide (c.low ≤ c.size - 1) &&
  decide (stop ≤ 2 ^ 40) && !meetsControlBlock s c.base stop && !allLanes.any (meetsLaneRing s c.base stop)

/-- The report settings with CONDENSE_GRADE brought into range (R157). -/
def ReportSettings.clamped (c : ReportSettings) : ReportSettings := { c with condenseGrade := clamp 1 3 c.condenseGrade }

/-- The report unit with accepted settings (R157): positions 0, mode NORMAL; queued jobs and events stay. -/
def ReportUnit.withSettings (r : ReportUnit) (c : ReportSettings) : ReportUnit :=
  { r with settings := some c, writeIndex := 0, published := 0, consumer := 0, mode := .normal }

/-- REPORT_SETUP without its producer word write (R157). -/
def doReportSetup (c : ReportSettings) (s : State) : Status × State :=
  if allLanes.any (fun i => decide ((s.lane i).control.state ≠ .off)) ∨ s.report.writer ≠ .idle then (.refused, s)
  else if reportSettingsValid c s = false then (.badValue, s)
  else (clampStatus c c.clamped, { s with report := s.report.withSettings c.clamped })

end Sys2Proof.Machine
end

