-- ==== Sys2Proof/Machine/Report.lean ====
section
/-!
DEFINITION. The report ring (10.4): mode, consumer updates, the start of a job and of an event record, and what the
completion of the writer's writes does.
-/

namespace Sys2Proof.Machine

/-- The mode by the free count (R159). -/
def nextMode (m : Mode) (free : Nat) (c : ReportSettings) : Mode :=
  match m with
  | .normal => if free < c.high then .condensed else .normal
  | .condensed => if c.low ≤ free then .normal else .condensed

/-- A consumer update of value `v` (R158, R159); ignored while the report settings are unset (R157). -/
def ReportUnit.consumerUpdate (r : ReportUnit) (v : Nat) : ReportUnit :=
  match r.settings with
  | none => r
  | some c =>
    let asked := v % c.size
    let distance := (asked + c.size - r.consumer) % c.size
    let held := (r.published + c.size - r.consumer) % c.size
    let r := { r with consumer := if held < distance then r.published else asked }
    { r with mode := nextMode r.mode (freeCount r c) c }

/-- The plan of a job (R160): the billet record with its condensed and dropped counts settled, and the defects to be
written. -/
def planJob (mode : Mode) (c : ReportSettings) (free : Nat) (j : Job) : List Rec :=
  let condensed : List Defect := match mode with
    | .condensed => j.group.filter fun d => decide (d.grade < c.condenseGrade)
    | .normal => []
  let remaining : List Defect := match mode with
    | .condensed => j.group.filter fun d => !decide (d.grade < c.condenseGrade)
    | .normal => j.group
  let written := remaining.take (free - 1)
  .billet { j.billet with
      condensed := condensed.length
      dropped := satAdd 65535 j.billet.dropped (remaining.length - written.length) } ::
    written.map .defect

/-- The writer starts writing records, as a new run of work. -/
def ReportUnit.startWriting (r : ReportUnit) (todo : List Rec) : ReportUnit :=
  { r with writer := .writing todo 0, run := r.run + 1 }

/-- JOB_START (R160, R162): the IDLE writer takes the oldest billet job when no event can be written. The writer stands
still while a producer word write of 0 waits (R3, log 24). Otherwise no job starts (log 1). -/
def execJobStart (s : State) : Host.Outcome State Fault Refusal :=
  match s.report.settings, s.report.jobs with
  | some c, j :: rest =>
    let free := freeCount s.report c
    if s.global = .running ∧ s.report.writer = .idle ∧ s.report.zeros = 0 ∧ (s.report.events = [] ∨ free = 0) then
      let r := { s.report with jobs := rest, mode := nextMode s.report.mode free c }
      if free = 0 then .next { s with report := r.loseJob j.billet.strand }
      else .next (request .report { s with report := r.startWriting (planJob r.mode c free j) })
    else .next s
  | _, _ => .next s

/-- EVENT_RECORD_START (R162): the IDLE writer with free room writes the oldest queued event. Otherwise no event
record starts (log 1). -/
def execEventRecordStart (s : State) : Host.Outcome State Fault Refusal :=
  match s.report.settings, s.report.events with
  | some c, e :: rest =>
    if s.global = .running ∧ s.report.writer = .idle ∧ s.report.zeros = 0 ∧ 0 < freeCount s.report c then
      .next (request .report { s with report := { s.report with events := rest }.startWriting [.event e] })
    else .next s
  | _, _ => .next s

/-- A record write of run `run` has completed (R161): once every record write of the present work has, the writer
makes the producer word write. Completions of an abandoned run do nothing (R12). -/
def ReportUnit.recordDone (r : ReportUnit) (run : Nat) : ReportUnit :=
  if run = r.run then
    match r.writer with
    | .writing [] (n + 1) => if n = 0 then { r with writer := .publishing r.writeIndex false } else { r with writer := .writing [] n }
    | .writing todo (n + 1) => { r with writer := .writing todo n }
    | _ => r
  else r

/-- The producer word write of run `run` has completed (R161): the published producer takes the value written and the
writer is IDLE. -/
def ReportUnit.producerDone (r : ReportUnit) (run value : Nat) : ReportUnit :=
  if run = r.run then
    match r.writer with
    | .publishing _ true => { r with published := value, writer := .idle }
    | _ => r
  else r

/-- The report unit makes a producer word write of 0 (R157, R163, R167). -/
def writeZeroProducer (s : State) : State :=
  request .report { s with report := { s.report with zeros := s.report.zeros + 1 } }

/-- The bay reset columns of R163. -/
def ReportUnit.atBayReset (r : ReportUnit) (keep : Bool) : ReportUnit :=
  { ReportUnit.initial with
    settings := if keep then r.settings else none
    run := r.run + 1
    fault := r.fault
    detail := r.detail
    suppressed := r.suppressed }

end Sys2Proof.Machine
end

