-- ==== Sys2Proof/Machine/Commands.lean ====
section
/-!
DEFINITION. The command unit (chapter 10): the host's writes to the control block, the fetched entry, and the meanings of
the host command rows. Each row carries out the entry that the unit holds in EXECUTING when its code is the row's;
otherwise no such command is being carried out and the state stands (log 1).
-/

namespace Sys2Proof.Machine

/-! ### Host writes to the control block (R150, R151) -/

/-- The write shares a byte address with the control block (log 15). -/
def touchesControlBlock (base : Nat) (r : Request) : Bool :=
  intervalsMeet r.addr (r.addr + 32 * r.len) base (base + 4096)

/-- The control block offsets of the bytes a write enables. -/
def enabledOffsets (base : Nat) (r : Request) : List Nat :=
  (List.range (32 * r.len)).filterMap fun n =>
    if (r.enables.getD (n / 32) 0).getLsbD (n % 32) ∧ base ≤ r.addr + n ∧ r.addr + n < base + 4096 then
      some (r.addr + n - base)
    else none

/-- All four bytes of the word at `off` are enabled. -/
def wordFull (offsets : List Nat) (off : Nat) : Bool :=
  offsets.contains off && offsets.contains (off + 1) && offsets.contains (off + 2) && offsets.contains (off + 3)

/-- At least one byte of the word at `off` is enabled. -/
def wordTouched (offsets : List Nat) (off : Nat) : Bool := offsets.any fun o => decide (off ≤ o) && decide (o < off + 4)

/-- The value a write gives the word at `off`. -/
def wordValue (base : Nat) (r : Request) (off : Nat) : Nat := fieldAt r.data (base + off - r.addr) 4

/-- A control-master write is counted foreign: it enables part of a host word, or a byte of the command consumer word,
the report producer word or the status area (R150). -/
def countsForeign (offsets : List Nat) : Bool :=
  (wordTouched offsets 48 && !wordFull offsets 48) || (wordTouched offsets 60 && !wordFull offsets 60) ||
  offsets.any fun o => (decide (52 ≤ o) && decide (o < 60)) || (decide (64 ≤ o) && decide (48 ≤ o % 64))

/-- The command unit takes a producer value (R151). -/
def takeProducer (v : Nat) (s : State) : State :=
  request .command { s with command := { s.command with producer := v % 64 }.beginNext }

/-- The foreign-write counter rises (R150). -/
def countForeign (s : State) : State := { s with command := { s.command with foreign := bump s.command.foreign } }

/-- A pass-through write that completed with OKAY is offered to the command unit (R8, R150); it acts only in
RUNNING (R13). -/
def offerCompleted (master : Fin 16) (r : Request) (s : State) : State :=
  match s.global, s.command.base, s.command.master with
  | .running, some base, some control =>
    if touchesControlBlock base r then
      if master = control then
        let offsets := enabledOffsets base r
        let s := if wordFull offsets 60 then
            { s with report := s.report.consumerUpdate (wordValue base r 60) } else s
        let s := if countsForeign offsets then countForeign s else s
        if wordFull offsets 48 then takeProducer (wordValue base r 48) s else s
      else countForeign s
    else s
  | _, _, _ => s

/-- The entry read has completed (R152, R10). -/
def fetchDone (okay : Bool) (data : List Byte) (s : State) : State :=
  match s.command.cond with
  | .fetching true =>
    if okay then { s with command := { s.command with cond := .executing (commandPart data) none } }
    else retire .fetchError (s.raise .fetchError s.command.consumer)
  | _ => s

/-! ### The command in hand (R153, R154) -/

/-- The command being carried out: the unit is EXECUTING and not held. -/
def inHand (s : State) : Option Command :=
  match s.command.cond with
  | .executing e none => some (decodeEntry e)
  | _ => none

/-- A lane target outside 0-11 gives BAD_TARGET (R153). -/
def onLane (target : Nat) (f : Fin 12 → State → Status × State) (s : State) : Status × State :=
  if h : target < 12 then f ⟨target, h⟩ s else (.badTarget, s)

/-- A strand target outside 0-5 gives BAD_TARGET (R153). -/
def onStrand (target : Nat) (f : Fin 6 → State → Status × State) (s : State) : Status × State :=
  if h : target < 6 then f ⟨target, h⟩ s else (.badTarget, s)

/-- A command that has its status retires (R154). -/
def conclude (r : Status × State) : Host.Outcome State Fault Refusal := .next (retire r.1 r.2)

/-- The unit stays in EXECUTING with the command in hand, held (R154). -/
def hold (h : Held) (s : State) : State :=
  match s.command.cond with
  | .executing e _ => { s with command := { s.command with cond := .executing e (some h) } }
  | _ => s

/-- LANE_GEOMETRY (R146). -/
def execLaneGeometry (s : State) : Host.Outcome State Fault Refusal :=
  match inHand s with
  | some (.laneGeometry t p) => conclude (onLane t (fun i => doLaneGeometry i p) s)
  | _ => .next s

/-- LANE_ZONES (R147). -/
def execLaneZones (s : State) : Host.Outcome State Fault Refusal :=
  match inHand s with
  | some (.laneZones t count zones) => conclude (onLane t (fun i => doLaneZones i count zones) s)
  | _ => .next s

/-- LANE_DEAD_COLUMNS with action MARK (R65); an action outside the table is answered here as well (log 16). -/
def execDeadColumnsMark (s : State) : Host.Outcome State Fault Refusal :=
  match inHand s with
  | some (.deadColumns t first count action) =>
    if action ≠ 0 then conclude (onLane t (fun i => doDeadColumns i first count action) s) else .next s
  | _ => .next s

/-- LANE_DEAD_COLUMNS with action CLEAR (R65); an action outside the table is answered here as well (log 16). -/
def execDeadColumnsClear (s : State) : Host.Outcome State Fault Refusal :=
  match inHand s with
  | some (.deadColumns t first count action) =>
    if action ≠ 1 then conclude (onLane t (fun i => doDeadColumns i first count action) s) else .next s
  | _ => .next s

/-- LANE_DETECT (R64). -/
def execLaneDetect (s : State) : Host.Outcome State Fault Refusal :=
  match inHand s with
  | some (.laneDetect t d) => conclude (onLane t (fun i => doLaneDetect i d) s)
  | _ => .next s

/-- STRAND_SETUP (R148). -/
def execStrandSetup (s : State) : Host.Outcome State Fault Refusal :=
  match inHand s with
  | some (.strandSetup t c) => conclude (onStrand t (fun k => doStrandSetup k c) s)
  | _ => .next s

/-- STRAND_MARKING (R132). -/
def execStrandMarking (s : State) : Host.Outcome State Fault Refusal :=
  match inHand s with
  | some (.strandMarking t c) => conclude (onStrand t (fun k => doStrandMarking k c) s)
  | _ => .next s

/-- CLASSIFY_SETUP (R103). -/
def execClassifySetup (s : State) : Host.Outcome State Fault Refusal :=
  match inHand s with
  | some (.classifySetup c) => conclude (doClassifySetup c s)
  | _ => .next s

/-- REPORT_SETUP (R157): an accepted one makes a producer word write of 0 before it retires. Where both must wait for a
place, the report unit joins the wait list before the command unit (R3 leaves the order open; the model's choice,
log 34). -/
def execReportSetup (s : State) : Host.Outcome State Fault Refusal :=
  match inHand s with
  | some (.reportSetup c) =>
    let r := doReportSetup c s
    match r.1 with
    | .done | .doneClamped => conclude (r.1, writeZeroProducer r.2)
    | _ => conclude r
  | _ => .next s

/-- ARM (R138). -/
def execArm (s : State) : Host.Outcome State Fault Refusal :=
  match inHand s with
  | some (.arm t) => conclude (onLane t doArm s)
  | _ => .next s

/-- DISARM (R143): with a line in processing the command stays in hand, held. -/
def execDisarm (s : State) : Host.Outcome State Fault Refusal :=
  match inHand s with
  | some (.disarm t) =>
    if h : t < 12 then
      match doDisarm ⟨t, h⟩ s with
      | (some st, s) => conclude (st, s)
      | (none, s) => .next (hold (.disarm ⟨t, h⟩) s)
    else conclude (.badTarget, s)
  | _ => .next s

/-- RESEED (R141). -/
def execReseed (s : State) : Host.Outcome State Fault Refusal :=
  match inHand s with
  | some (.reseed t) => conclude (onLane t doReseed s)
  | _ => .next s

/-- TEST with action ON (R142); an action outside the table is answered here as well (log 16). -/
def execTestOn (s : State) : Host.Outcome State Fault Refusal :=
  match inHand s with
  | some (.test t action p) => if action ≠ 0 then conclude (onLane t (fun i => doTest i action p) s) else .next s
  | _ => .next s

/-- TEST with action OFF (R142); an action outside the table is answered here as well (log 16). -/
def execTestOff (s : State) : Host.Outcome State Fault Refusal :=
  match inHand s with
  | some (.test t action p) => if action ≠ 1 then conclude (onLane t (fun i => doTest i action p) s) else .next s
  | _ => .next s

/-- SNAPSHOT (R155): the values are captured, the area writes are made in rising address order, and the command has
its status once the last of them has been taken. -/
def execSnapshot (s : State) : Host.Outcome State Fault Refusal :=
  match inHand s with
  | some .snapshot =>
    let writes := snapshotWrites s
    let s := hold .snapshot s
    .next (request .command { s with command := { s.command with writes := writes }, choice := s.choice + 1 })
  | _ => .next s

/-- The report unit after CLEAR_FAULT (R156). -/
def ReportUnit.cleared (r : ReportUnit) : ReportUnit := { r with fault := .none, detail := 0, suppressed := 0 }

/-- CLEAR_FAULT (R156). -/
def execClearFault (s : State) : Host.Outcome State Fault Refusal :=
  match inHand s with
  | some .clearFault => conclude (.done, { s with report := s.report.cleared })
  | _ => .next s

/-- LANE_RESET (R149). -/
def execLaneReset (s : State) : Host.Outcome State Fault Refusal :=
  match inHand s with
  | some (.laneReset t) => conclude (onLane t doLaneReset s)
  | _ => .next s

/-- A strand after a bay reset (R46, R106, R134, R148). -/
def Strand.atBayReset (t : Strand) (keep : Bool) : Strand where
  setup := if keep then t.setup else none
  motion := t.motion.atBayReset
  billet := ⟨OpenBillet.first t.motion.coord, []⟩
  marker := t.marker.atBayReset keep

/-- Every block as its own rule gives for bay reset (R163); the wait list loses every block, since each of the blocks
that make requests is reset (R3, R12). -/
def bayReset (keep : Bool) (s : State) : State :=
  { s with
    path := { s.path with waitList := [] }
    lanes := buildLanes fun i => (s.lane i).atBayReset keep
    strands := buildStrands fun k => (s.strand k).atBayReset keep
    report := s.report.atBayReset keep
    command := { s.command with writes := [] } }

/-- BAY_RESET (R163): the reset, one producer word write of 0, then it retires as any command does. Where both must wait
for a place, the report unit joins the wait list before the command unit (R3 leaves the order open; the model's choice,
log 34). -/
def execBayReset (s : State) : Host.Outcome State Fault Refusal :=
  match inHand s with
  | some (.bayReset keep) => conclude (.done, writeZeroProducer (bayReset keep s))
  | _ => .next s

/-- UNKNOWN_COMMAND: a code that is not a command gives UNKNOWN (R153, R170). -/
def execUnknownCommand (s : State) : Host.Outcome State Fault Refusal :=
  match inHand s with
  | some (.unknown _) => conclude (.unknown, s)
  | _ => .next s

/-! ### Presets (R166) -/

/-- A DISARM preset: every lane is OFF, so it is never held. -/
def presetDisarm (i : Fin 12) (s : State) : Status × State :=
  match doDisarm i s with
  | (some st, s) => (st, s)
  | (none, _) => (.refused, s)

/-- A preset is carried out as a fetched entry, but SNAPSHOT and BAY_RESET are refused, and REPORT_SETUP makes no
producer word write (R166). ARM, RESEED and TEST are refused by their own rules. -/
def carryPreset (c : Command) (s : State) : Status × State :=
  match c with
  | .laneGeometry t p => onLane t (fun i => doLaneGeometry i p) s
  | .laneZones t count zones => onLane t (fun i => doLaneZones i count zones) s
  | .deadColumns t first count action => onLane t (fun i => doDeadColumns i first count action) s
  | .laneDetect t d => onLane t (fun i => doLaneDetect i d) s
  | .strandSetup t c => onStrand t (fun k => doStrandSetup k c) s
  | .strandMarking t c => onStrand t (fun k => doStrandMarking k c) s
  | .classifySetup c => doClassifySetup c s
  | .reportSetup c => doReportSetup c s
  | .arm t => onLane t doArm s
  | .disarm t => onLane t presetDisarm s
  | .reseed t => onLane t doReseed s
  | .test t action p => onLane t (fun i => doTest i action p) s
  | .snapshot => (.refused, s)
  | .clearFault => (.done, { s with report := s.report.cleared })
  | .laneReset t => onLane t doLaneReset s
  | .bayReset _ => (.refused, s)
  | .unknown _ => (.unknown, s)

end Sys2Proof.Machine
end

