-- ==== Sys2Proof/Machine/Startup.lean ====
section
/-!
DEFINITION. Start-up and the reset sources (chapter 11, R11): power-on, the reset line, the read of the serial store, the
presets and the entry to RUNNING.
-/

namespace Sys2Proof.Machine

/-! ### Power-on and the reset line (R11, R164) -/

/-- The answer to a pass-through request held at a reset (R11): ERROR with its master ID and tag. The data bytes of a
READ's answer are free values (log 10). -/
def resetAnswer (choice : Nat) (e : PassEntry) : UpResponse :=
  ⟨e.master, e.tag, false,
    match e.req.kind with
    | .read => (List.range (32 * e.req.len)).map (Config.resetReadByte choice)
    | .write => []⟩

/-- The answers given at a reset, in take order (R11). -/
def resetAnswers : Nat → List PassEntry → List UpResponse
  | _, [] => []
  | n, e :: es => resetAnswer n e :: resetAnswers (n + 1) es

/-- The requests issued and not yet answered (R11). -/
def issuedCount (p : Path) : Nat :=
  (p.pass.filter fun e => e.issue.isSome).length + (p.injected.filter fun e => e.issue.isSome).length

/-- Every block at its power-on value; the ports have given the reset answers. The queue of commands stands. -/
def resetBlocks (s : State) : State :=
  { State.reset with
    ports := { s.ports with upstream := s.ports.upstream ++ resetAnswers s.choice s.path.pass }
    choice := s.choice + s.path.pass.length
    pending := s.pending }

/-- The responses still owed to requests issued before a reset (R11): those already to be absorbed, and those to the
requests ISSUED at the reset (log 9). -/
def owedResponses (p : Path) : Nat := p.absorb + issuedCount p

/-- POWER_ON (R11, R164): every block takes its power-on value and the loader starts reading. The absorb count is 0
where the frame-memory controller is reset by the same power-on, and otherwise the number of responses still owed
(log 32). A power-on begins with the reset line not asserted (log 33). -/
def execPowerOn (s : State) : Host.Outcome State Fault Refusal :=
  .next { resetBlocks s with
    path := { Path.initial with absorb := if Config.controllerSharesPowerOn then 0 else owedResponses s.path } }

/-- RESET_LINE_ASSERT (R11, R164): as power-on, and the part stays reset; the absorb count is the number of requests
issued and not yet answered, those still to be absorbed included (log 9). The chip select is deasserted. -/
def execResetLineAssert (s : State) : Host.Outcome State Fault Refusal :=
  .next { resetBlocks s with
    global := .held
    path := { Path.initial with absorb := owedResponses s.path }
    loader := { Loader.reading with chipSelect := false, spiSent := [] } }

/-- RESET_LINE_RELEASE (R164): the part enters LOADING and the loader starts reading. A line that is not asserted
cannot be released (log 1). -/
def execResetLineRelease (s : State) : Host.Outcome State Fault Refusal :=
  if s.global = .held then .next { s with global := .loading, loader := Loader.reading } else .next s

/-! ### The entry to RUNNING (R167) -/

/-- The part enters RUNNING: the command unit is IDLE and makes the preset section and the consumer word 0, and the
report unit makes the producer word 0, in this order. -/
def enterRunning (s : State) : State :=
  let base := s.controlBase
  let s := { s with
    global := .running
    loader := { s.loader with state := .finished }
    command := { s.command with
      cond := .idle
      consumer := 0
      producer := 0
      writes := [presetSectionWrite base s.loader.partition s.loader.presets.length s.loader.statuses,
        consumerWordWrite base 0] } }
  writeZeroProducer (request .command s)

/-- The last preset has run, or there is none: the part enters RUNNING (R166). -/
def runIfPresetsDone (s : State) : State :=
  if s.loader.presets.length ≤ s.loader.statuses.length then enterRunning s else s

/-! ### The read of the store (R164, R165, R168) -/

/-- Byte `n` of the store; a byte it does not drive reads 0xFF (R164). -/
def storeByte (bytes : List Byte) (n : Nat) : Byte := bytes.getD n 0xFF

/-- The partition the signature selects, and where its image begins (R165). -/
def partitionOf (signature : Byte) : Option (Partition × Nat) :=
  if signature = 0x5A then some (.first, 0x010)
  else if signature = 0xA5 then some (.second, 0x810)
  else none

/-- `len` bytes of the store from `off` on. -/
def storeSlice (bytes : List Byte) (off len : Nat) : List Byte :=
  (List.range len).map fun j => storeByte bytes (off + j)

/-- The header of the image at `off` (12.6). -/
def headerAt (bytes : List Byte) (off : Nat) : Header :=
  ⟨fromLe (storeSlice bytes off 5), (storeByte bytes (off + 5)).toNat, (storeByte bytes (off + 6)).toNat⟩

/-- The header is valid (R165). -/
def Header.valid (h : Header) : Bool :=
  decide (h.base % 4096 = 0) && decide (h.base + 4096 ≤ 2 ^ 40) && decide (h.master ≤ 15) && decide (h.count ≤ 31)

/-- The preset places of an image (R165, 12.6). -/
def presetPlaces (bytes : List Byte) (off count : Nat) : List (List Byte) :=
  (List.range count).map fun k => storeSlice bytes (off + 32 + 64 * k) 64

/-- The part enters PASS_ONLY (R168). Of a header judged not valid the loader keeps no values (the model's choice,
log 37). -/
def enterPassOnly (partition : Partition) (s : State) : State :=
  { s with
    global := .passOnly
    loader := { s.loader with state := .finished, partition := partition, chipSelect := false } }

/-- The part enters PRESETS with a valid image (R165, R166). -/
def enterPresets (partition : Partition) (h : Header) (places : List (List Byte)) (s : State) : State :=
  { s with
    loader := { s.loader with
      state := .presets, partition := partition, header := some h, presets := places, statuses := [], chipSelect := false }
    command := { s.command with base := some h.base, master := some (Fin.ofNat 16 h.master) } }

/-- STORE_READ_END (R165): the signature and the header are judged. With no read in progress there is no end of one
(log 1). -/
def execStoreReadEnd (bytes : List Byte) (s : State) : Host.Outcome State Fault Refusal :=
  if s.global = .loading ∧ s.loader.state = .reading then
    match partitionOf (storeByte bytes 0) with
    | none => .next (enterPassOnly .none s)
    | some (p, off) =>
      let h := headerAt bytes off
      if h.valid then .next (runIfPresetsDone (enterPresets p h (presetPlaces bytes off h.count) s))
      else .next (enterPassOnly p s)
  else .next s

/-! ### Presets (R166) -/

/-- A preset whose status is neither DONE nor DONE_CLAMPED raises PRESET_FAILED with its index (R156, R166). -/
def presetFault (st : Status) (index : Nat) (s : State) : State :=
  match st with
  | .done => s
  | .doneClamped => s
  | .refused | .badValue | .badTarget | .incomplete | .unknown | .fetchError => s.raise .presetFailed index

/-- The preset at `index` is carried out and its status appended to the preset status list (R166). -/
def runPreset (place : List Byte) (index : Nat) (s : State) : State :=
  let r := carryPreset (decodeEntry (commandPart place)) s
  let s := { r.2 with loader := { r.2.loader with statuses := r.2.loader.statuses ++ [r.1] } }
  presetFault r.1 index s

/-- PRESET_HANDOVER (R166, R167): the next preset runs, and after the last one the part enters RUNNING. With no preset
left to hand over there is no such event (log 1). -/
def execPresetHandover (s : State) : Host.Outcome State Fault Refusal :=
  let index := s.loader.statuses.length
  match s.loader.presets[index]? with
  | none => .next s
  | some place =>
    if s.global = .loading ∧ s.loader.state = .presets then .next (runIfPresetsDone (runPreset place index s))
    else .next s

end Sys2Proof.Machine
end

