-- ==== Sys2Proof/Machine/PathUnit.lean ====
section
/-!
DEFINITION. The path unit's events (chapter 1): the take of an upstream request, an issue opportunity, a downstream
response.
-/

namespace Sys2Proof.Machine

/-! ### The take (R2, R7) -/

/-- Makes room for a place `n` in the take order among the injected requests taken at the same event (R2, log 11). -/
def shiftOrders (n : Nat) (q : List InjEntry) : List InjEntry :=
  q.map fun e => if n ≤ e.order then { e with order := e.order + 1 } else e

/-- Takes an offered request into the pass-through queue (R2, R7). Its place among the `m` injected requests taken at
the same event is a free value (log 11). -/
def takeRequest (u : UpRequest) (s : State) : State :=
  let acc : TakeAcc := match u.req.kind with
    | .write => offerWrite u.req s
    | .read => ⟨s, u.req.data, []⟩
  let p := acc.s.path
  let m := p.nextOrder - s.path.nextOrder
  let order := s.path.nextOrder + (if m = 0 then 0 else Config.takeRank acc.s.choice % (m + 1))
  { acc.s with
    choice := if m = 0 then acc.s.choice else acc.s.choice + 1
    path := { p with
      pass := p.pass ++ [⟨{ u.req with data := acc.data }, u.master, u.tag, acc.fed, order, none⟩]
      injected := if m = 0 then p.injected else shiftOrders order p.injected
      nextOrder := p.nextOrder + 1 } }

/-- UPSTREAM_REQUEST_TAKE (R2, R11): while the pass-through queue holds 32, and while the reset line is held, the port
accepts no request and the interconnect holds it. -/
def execUpstreamRequestTake (u : UpRequest) (s : State) : Host.Outcome State Fault Refusal :=
  if s.global ≠ .held ∧ s.path.pass.length < 32 then .next (takeRequest u s) else .next s

/-! ### The arbiter (R4, R5) -/

/-- Two requests share a beat (R4). -/
def requestsOverlap (a b : Request) : Bool :=
  intervalsMeet a.addr (a.addr + 32 * a.len) b.addr (b.addr + 32 * b.len)

/-- The head of the pass-through queue (R4): its oldest WAITING request. -/
def Path.passHead (p : Path) : Option PassEntry := p.pass.find? fun e => e.issue.isNone

/-- The head of the injected queue (R4). -/
def Path.injHead (p : Path) : Option InjEntry := p.injected.find? fun e => e.issue.isNone

/-- The pass-through head is issuable (R4): no earlier injected request that overlaps it is held. -/
def Path.passIssuable (p : Path) : Bool :=
  match p.passHead with
  | none => false
  | some h => p.injected.all fun e => !(requestsOverlap h.req e.req && decide (e.order < h.order))

/-- The injected head is issuable (R4). -/
def Path.injIssuable (p : Path) : Bool :=
  match p.injHead with
  | none => false
  | some h => p.pass.all fun e => !(requestsOverlap h.req e.req && decide (e.order < h.order))

/-- Marks the oldest WAITING request ISSUED. -/
def issuePass (n : Nat) : List PassEntry → List PassEntry
  | [] => []
  | e :: es => if e.issue.isNone then { e with issue := some n } :: es else e :: issuePass n es

/-- Marks the oldest WAITING injected request ISSUED. -/
def issueInj (n : Nat) : List InjEntry → List InjEntry
  | [] => []
  | e :: es => if e.issue.isNone then { e with issue := some n } :: es else e :: issueInj n es

/-- The queue the arbiter grants (R5), and the turn afterwards. -/
def arbiter (pass injected : Bool) (turn : Turn) : Option Turn × Turn :=
  match pass, injected, turn with
  | false, false, t => (none, t)
  | true, false, t => (some .pass, t)
  | false, true, t => (some .injected, t)
  | true, true, .pass => (some .pass, .injected)
  | true, true, .injected => (some .injected, .pass)

/-- The request leaves on the downstream port (R1). -/
def Ports.issue (p : Ports) (r : Option Request) : Ports :=
  { p with downstream := p.downstream ++ r.toList }

/-- ISSUE_OPPORTUNITY (R5): the head of the granted queue is issued. -/
def execIssueOpportunity (s : State) : Host.Outcome State Fault Refusal :=
  let p := s.path
  let grant := arbiter p.passIssuable p.injIssuable p.turn
  match grant.1 with
  | none => .next s
  | some .pass =>
    .next { s with
      path := { p with pass := issuePass p.nextIssue p.pass, turn := grant.2, nextIssue := p.nextIssue + 1 }
      ports := s.ports.issue (p.passHead.map (·.req)) }
  | some .injected =>
    .next { s with
      path := { p with injected := issueInj p.nextIssue p.injected, turn := grant.2, nextIssue := p.nextIssue + 1 }
      ports := s.ports.issue (p.injHead.map (·.req)) }

/-! ### Responses (R1, R6, R8 to R12) -/

/-- The maker of an injected write, as the detail of INJECT_WRITE_ERROR names it (R156). -/
def Purpose.maker : Purpose → Nat
  | .trailer i => i.val
  | .entryRead => 12
  | .commandWrite => 12
  | .record _ => 13
  | .producer _ _ => 13
  | .producerZero => 13

/-- A pass-through request completes (R1, R6, R8, R9, R13). The error notices of one write reach their lines in the order
in which the write fed them (the manual states none; the model's choice, log 35). -/
def completePass (e : PassEntry) (okay : Bool) (data : List Byte) (s : State) : State :=
  let answer : UpResponse := ⟨e.master, e.tag, okay,
    match e.req.kind with
    | .read => data
    | .write => []⟩
  let s := { s with
    path := { s.path with pass := s.path.pass.tail }
    ports := { s.ports with upstream := s.ports.upstream ++ [answer] } }
  match e.req.kind with
  | .read => s
  | .write =>
    if okay then offerCompleted e.master e.req s
    else if s.global = .running then e.fed.foldl lineErrorNotice s
    else s

/-- The completion reaches the block that made the request (R6). -/
def deliver (e : InjEntry) (okay : Bool) (data : List Byte) (s : State) : State :=
  match e.purpose with
  | .entryRead => fetchDone okay data s
  | .record run => request .report { s with report := s.report.recordDone run }
  | .producer run value => { s with report := s.report.producerDone run value }
  | .trailer _ => s
  | .commandWrite => s
  | .producerZero => s

/-- An injected request completes (R6, R10): its place is freed for the wait list, an ERROR on a write raises
INJECT_WRITE_ERROR, and the completion is delivered. -/
def completeInj (e : InjEntry) (okay : Bool) (data : List Byte) (s : State) : State :=
  let s := serveWaiting { s with path := { s.path with injected := s.path.injected.tail } }
  let s := if okay = false ∧ e.req.kind = .write then s.raise .injectWriteError e.purpose.maker else s
  deliver e okay data s

/-- The oldest ISSUED request of the pass-through queue: requests of one queue are issued in the order taken, so it is
the first (1.2). -/
def Path.oldestPass (p : Path) : Option (PassEntry × Nat) :=
  match p.pass with
  | [] => none
  | e :: _ => e.issue.map fun n => (e, n)

/-- The oldest ISSUED request of the injected queue. -/
def Path.oldestInj (p : Path) : Option (InjEntry × Nat) :=
  match p.injected with
  | [] => none
  | e :: _ => e.issue.map fun n => (e, n)

/-- DOWNSTREAM_RESPONSE (R6, R11): a response to a request issued before a reset is absorbed; otherwise it completes
the request that was issued first. With nothing issued no response can return (log 1). -/
def execDownstreamResponse (okay : Bool) (data : List Byte) (s : State) : Host.Outcome State Fault Refusal :=
  if s.path.absorb ≠ 0 then .next { s with path := { s.path with absorb := s.path.absorb - 1 } }
  else
    match s.path.oldestPass, s.path.oldestInj with
    | none, none => .next s
    | some (e, _), none => .next (completePass e okay data s)
    | none, some (e, _) => .next (completeInj e okay data s)
    | some (e, a), some (j, b) => if a < b then .next (completePass e okay data s) else .next (completeInj j okay data s)

end Sys2Proof.Machine
end

