-- ==== Sys2Proof/Machine/Dispatch.lean ====
section
/-!
DEFINITION. One arm per command, in the order of spec/opcode_table.json.
-/

namespace Sys2Proof.Machine

def exec (i : Instr) (s : State) : Host.Outcome State Fault Refusal :=
  match i with
  | .powerOn => Sys2Proof.Machine.execPowerOn s
  | .resetLineAssert => Sys2Proof.Machine.execResetLineAssert s
  | .resetLineRelease => Sys2Proof.Machine.execResetLineRelease s
  | .storeReadEnd bytes => Sys2Proof.Machine.execStoreReadEnd bytes s
  | .presetHandover => Sys2Proof.Machine.execPresetHandover s
  | .upstreamRequestTake offered => Sys2Proof.Machine.execUpstreamRequestTake offered s
  | .issueOpportunity => Sys2Proof.Machine.execIssueOpportunity s
  | .downstreamResponse okay data => Sys2Proof.Machine.execDownstreamResponse okay data s
  | .jobStart => Sys2Proof.Machine.execJobStart s
  | .eventRecordStart => Sys2Proof.Machine.execEventRecordStart s
  | .lineProcessed lane => Sys2Proof.Machine.execLineProcessed lane s
  | .forwardStep strand sampled => Sys2Proof.Machine.execForwardStep strand sampled s
  | .reverseStep strand sampled => Sys2Proof.Machine.execReverseStep strand sampled s
  | .encoderError strand sampled => Sys2Proof.Machine.execEncoderError strand sampled s
  | .cutEvent strand => Sys2Proof.Machine.execCutEvent strand s
  | .cutInputFall strand => Sys2Proof.Machine.execCutInputFall strand s
  | .pulseEnd strand => Sys2Proof.Machine.execPulseEnd strand s
  | .laneGeometry => Sys2Proof.Machine.execLaneGeometry s
  | .laneZones => Sys2Proof.Machine.execLaneZones s
  | .deadColumnsMark => Sys2Proof.Machine.execDeadColumnsMark s
  | .deadColumnsClear => Sys2Proof.Machine.execDeadColumnsClear s
  | .laneDetect => Sys2Proof.Machine.execLaneDetect s
  | .strandSetup => Sys2Proof.Machine.execStrandSetup s
  | .strandMarking => Sys2Proof.Machine.execStrandMarking s
  | .classifySetup => Sys2Proof.Machine.execClassifySetup s
  | .reportSetup => Sys2Proof.Machine.execReportSetup s
  | .arm => Sys2Proof.Machine.execArm s
  | .disarm => Sys2Proof.Machine.execDisarm s
  | .reseed => Sys2Proof.Machine.execReseed s
  | .testOn => Sys2Proof.Machine.execTestOn s
  | .testOff => Sys2Proof.Machine.execTestOff s
  | .snapshot => Sys2Proof.Machine.execSnapshot s
  | .clearFault => Sys2Proof.Machine.execClearFault s
  | .laneReset => Sys2Proof.Machine.execLaneReset s
  | .bayReset => Sys2Proof.Machine.execBayReset s
  | .unknownCommand => Sys2Proof.Machine.execUnknownCommand s
  | .bayClockIncrement samples => Sys2Proof.Machine.execBayClockIncrement samples s

end Sys2Proof.Machine
end

