-- ==== Sys2Proof/Safety.lean ====
section
/-!
DEFINITION. What the statements about the machine speak of: the sizes and orders that every step keeps, the changes of
a lane's state that the manual lists, and the conditions under which a block makes its requests at once.
-/

namespace Sys2Proof.Machine

/-! ### Sizes -/

/-- The lists of a lane are within their sizes (R58, R67, R111). -/
structure Lane.Sized (l : Lane) : Prop where
  segments : l.detection.segments.length ≤ 32
  tracks : l.table.tracks.length ≤ 24
  runs : l.runs.length ≤ 16

/-- The numbers and lists of a strand are within their sizes (R38, R39, R108, R126). -/
structure Strand.Sized (t : Strand) : Prop where
  coord : t.motion.coord ≤ topCoord
  debt : t.motion.debt ≤ 65535
  queue : t.marker.queue.length ≤ 16
  waiting : t.billet.waiting.length ≤ 64

/-- Every queue, list and bounded number of the part is within its size (R2, R3, R34, R156, R160, R162). -/
structure State.Sized (s : State) : Prop where
  pass : s.path.pass.length ≤ 32
  injected : s.path.injected.length ≤ 16
  clock : s.clock < 2 ^ 48
  jobs : s.report.jobs.length ≤ 8
  events : s.report.events.length ≤ 16
  suppressed : s.report.suppressed ≤ 255
  lanes : ∀ i, (s.lane i).Sized
  strands : ∀ k, (s.strand k).Sized

/-! ### Orders and canonical forms -/

/-- A held line's bytes and beat coverage are in their canonical form (R18, R22). -/
def Line.tidy (l : Line) : Bool := canonical 0 l.bytes && risingFrom 0 l.coverage

/-- A buffer holds no line, or a tidy one. -/
def Buffer.tidy : Buffer → Bool
  | .free => true
  | .assembling l => l.tidy
  | .waiting l => l.tidy
  | .processing l _ => l.tidy

/-- The addressed buffers of a lane are in canonical form: the two line buffers (R22), the background array and the
dead-column map (R65, R66). -/
structure Lane.Tidy (l : Lane) : Prop where
  bufA : l.capture.bufA.tidy = true
  bufB : l.capture.bufB.tidy = true
  background : canonical 0 l.detection.background = true
  dead : risingFrom 0 l.detection.dead = true

/-- The pending list is in strict ascending key order (R108) and the marker queue in ascending fire coordinate
(R126). -/
structure Strand.Ordered (t : Strand) : Prop where
  waiting : t.billet.waiting.Pairwise (fun a b => a.keyLt b = true)
  queue : t.marker.queue.Pairwise (fun a b => a.fire ≤ b.fire)

/-- The lists of every lane and strand are in their orders. -/
structure State.Ordered (s : State) : Prop where
  lanes : ∀ i, (s.lane i).Tidy
  strands : ∀ k, (s.strand k).Ordered

/-- The ISSUED requests of a queue are older than its WAITING ones (1.2): `issues` are the issue marks of the queue,
oldest first. -/
def issuedFirst (issues : List (Option Nat)) : Prop :=
  issues.Pairwise (fun a b => a = none → b = none)

/-- Both queues of the path unit hold their ISSUED requests first. -/
def Path.IssuedFirst (p : Path) : Prop :=
  issuedFirst (p.pass.map (·.issue)) ∧ issuedFirst (p.injected.map (·.issue))

/-- The four states of a buffer (R22). -/
inductive Role where
  | free | assembling | waiting | processing
  deriving DecidableEq, Repr

def Buffer.role : Buffer → Role
  | .free => .free
  | .assembling _ => .assembling
  | .waiting _ => .waiting
  | .processing _ _ => .processing

/-- At most one buffer is ASSEMBLING, at most one WAITING, at most one PROCESSING (R22). -/
def Capture.RolesDiffer (c : Capture) : Prop := c.bufA.role = c.bufB.role → c.bufA.role = .free

/-- Every background value lies in 0 to 65,504 (R61). -/
def Detection.InRange (d : Detection) : Prop := ∀ c, lookupAt 0 d.background c ≤ 65504

/-- The runs of a lane are ascending, disjoint and not empty (R111). -/
structure RunsDisjoint (runs : List Run) : Prop where
  apart : runs.Pairwise (fun a b => a.stop ≤ b.start)
  filled : ∀ r ∈ runs, r.start < r.stop

/-! ### Runs of a line (R57) -/

/-- `sg` is a run of zone `z`, number `n`, by the contrast `q`: consecutive columns with q ≥ T_LOW that cannot be
extended at either end within the zone, with its greatest q and its sum (R57). -/
structure IsRun (z : Zone) (n tLow : Nat) (q : Nat → Nat) (sg : Segment) : Prop where
  zone : sg.zone = n
  first : z.first ≤ sg.c0
  order : sg.c0 ≤ sg.c1
  last : sg.c1 ≤ z.last
  reach : ∀ c, sg.c0 ≤ c → c ≤ sg.c1 → tLow ≤ q c ∧ q c ≤ sg.peak
  left : sg.c0 = z.first ∨ q (sg.c0 - 1) < tLow
  right : sg.c1 = z.last ∨ q (sg.c1 + 1) < tLow
  peak : ∃ c, sg.c0 ≤ c ∧ c ≤ sg.c1 ∧ q c = sg.peak
  sum : sg.sum = ((List.range (sg.c1 + 1 - sg.c0)).map fun m => q (sg.c0 + m)).sum

/-! ### Changes of a lane's state -/

/-- The changes of the table of R136, the change to OFF of power-on, the reset line and bay reset included. -/
def legalChange : LaneState → LaneState → Bool
  | _, .off => true
  | .off, .armed => true
  | .armed, .seeding => true
  | .seeding, .tracking => true
  | .parked, .tracking => true
  | .tracking, .parked => true
  | .tracking, .seeding => true
  | .parked, .seeding => true
  | .test, .seeding => true
  | .armed, .test => true
  | .seeding, .test => true
  | .tracking, .test => true
  | .parked, .test => true
  | .armed, .stopping => true
  | .seeding, .stopping => true
  | .tracking, .stopping => true
  | .parked, .stopping => true
  | .test, .stopping => true
  | _, _ => false

/-- The state, seed count and stall count of a lane after a processed line (R139, R140), for a lane that is not
STOPPING. -/
def advanced (st : LaneState) (seed stall : Nat) (d : Detect) (stationary : Bool) : LaneState × Nat × Nat :=
  match st, stationary with
  | .armed, false => (.seeding, 1, stall)
  | .seeding, false => if d.seedLines ≤ seed + 1 then (.tracking, seed + 1, 0) else (.seeding, seed + 1, stall)
  | .test, false => (.test, if seed < d.seedLines then seed + 1 else seed, stall)
  | .tracking, true => if d.stallLines ≤ stall + 1 then (.parked, seed, stall + 1) else (.tracking, seed, stall + 1)
  | .tracking, false => (.tracking, seed, 0)
  | .parked, false => (.tracking, seed, 0)
  | st, _ => (st, seed, stall)

/-! ### Making requests at once -/

/-- No block waits, and the injected queue has at least `n` free places (R3). -/
def Room (n : Nat) (s : State) : Prop := s.path.waitList = [] ∧ s.path.injected.length + n ≤ 16

/-- The oldest ISSUED request of the part is `e`, the first of the pass-through queue (R6). -/
def NextIsPass (e : PassEntry) (s : State) : Prop :=
  s.path.absorb = 0 ∧ s.path.pass.head? = some e ∧
    ∃ n, e.issue = some n ∧ ∀ j m, s.path.injected.head? = some j → j.issue = some m → n < m

/-- The oldest ISSUED request of the part is `e`, the first of the injected queue (R6). -/
def NextIsInjected (e : InjEntry) (s : State) : Prop :=
  s.path.absorb = 0 ∧ s.path.injected.head? = some e ∧
    ∃ n, e.issue = some n ∧ ∀ p m, s.path.pass.head? = some p → p.issue = some m → n ≤ m

/-- The oldest pass-through request has completed and its answer has gone upstream (R1, R6). -/
def answered (e : PassEntry) (okay : Bool) (data : List Byte) (s : State) : State :=
  { s with
    path := { s.path with pass := s.path.pass.tail }
    ports := { s.ports with upstream := s.ports.upstream ++ [⟨e.master, e.tag, okay, data⟩] } }

/-- The oldest injected request has completed (R6). -/
def freed (s : State) : State := { s with path := { s.path with injected := s.path.injected.tail } }

/-- The two ranges share no address. -/
def apart (a b c d : Nat) : Prop := b ≤ c ∨ d ≤ a

/-- The write enables the byte at address `a` (2.2, R150). -/
def Enables (r : Request) (a : Nat) : Prop :=
  ∃ n, n < 32 * r.len ∧ r.addr + n = a ∧ (r.enables.getD (n / 32) 0).getLsbD (n % 32) = true

/-- The bytes hold these fields, each given by its offset, its size and its value, least significant byte first (R169). -/
def HoldsFields (bytes : List Byte) (fields : List (Nat × Nat × Nat)) : Prop :=
  ∀ x ∈ fields, (bytes.drop x.1).take x.2.1 = le x.2.1 x.2.2

/-- The report unit after the completion of an injected write by the block of detail `maker`: an ERROR is
INJECT_WRITE_ERROR (R10), or the suppressed count where a fault is held (R156). -/
def afterWriteBy (maker : Nat) (okay : Bool) (r : ReportUnit) : ReportUnit :=
  if okay then r
  else if r.fault = .none then { r with fault := .injectWriteError, detail := maker }
  else { r with suppressed := min 255 (r.suppressed + 1) }

end Sys2Proof.Machine
end

