-- ==== Sys2Proof/Certificates/Slice0/Obligations.lean ====
section
/-!
DEFINITION. The statements for the provers. Each is about all states unless it says otherwise; "next" means that the
command answers a next state.
-/

open Sys2Proof Sys2Proof.Machine

/-! ### The whole part -/

/-- A step runs the command at the front of the queue on the state with the queue's rest; on an empty queue the part
idles (the model's choice, log 2). -/
def Obligations.StepRunsFrontCommand : Prop :=
  (∀ (c : Instr) (rest : List Instr) (s : State),
    step { s with pending := c :: rest } = exec c { s with pending := rest }) ∧
  (∀ s : State, s.pending = [] → step s = .next s)

/-- The values the manual gives right after power-on (R11, R33, R34, R46, R66, R88, R104, R106, R134, R149, R163,
R164). Registers whose power-on value is the model's choice (log 4, log 19) are left out. -/
def Obligations.ResetHasManualValues : Prop :=
  let s := State.reset
  s.global = .loading ∧ s.clock = 0 ∧
  s.path.pass = [] ∧ s.path.injected = [] ∧ s.path.waitList = [] ∧ s.path.turn = .pass ∧ s.path.absorb = 0 ∧
  s.classify = ⟨3, 60, 40, 48, 96, 160, 500⟩ ∧
  (∀ i : Fin 12,
    (s.lane i).control = ⟨.off, none, 0, 0, none, none, none, none⟩ ∧
    (s.lane i).capture.assembler = .noSlot ∧ (s.lane i).capture.bufA = .free ∧ (s.lane i).capture.bufB = .free ∧
    (s.lane i).capture.nextSeq = 1 ∧ (s.lane i).capture.arming = 0 ∧ (s.lane i).capture.statRef = none ∧
    (s.lane i).capture.phase = 0 ∧ (s.lane i).capture.counters = ⟨0, 0, 0, 0, 0, 0, 0, 0⟩ ∧
    (∀ c, lookupAt 0 (s.lane i).detection.background c = 0) ∧ (s.lane i).detection.dead = [] ∧
    (s.lane i).detection.segments = [] ∧ (s.lane i).detection.segOverflow = 0 ∧
    (s.lane i).table = ⟨[], 1, 0⟩ ∧ (s.lane i).runs = []) ∧
  (∀ k : Fin 6,
    (s.strand k).setup = none ∧ (s.strand k).motion.coord = 0 ∧ (s.strand k).motion.debt = 0 ∧
    (s.strand k).motion.reportArmed = true ∧ (s.strand k).motion.encErrors = 0 ∧
    (s.strand k).billet = ⟨⟨1, 0, true, false, false, [], 0, 0, 0⟩, []⟩ ∧
    (s.strand k).marker.queue = [] ∧ (s.strand k).marker.pulsing = false ∧ (s.strand k).marker.lastFired = none ∧
    (s.strand k).marker.settings = none ∧ (s.strand k).marker.fired = 0 ∧ (s.strand k).marker.lost = 0 ∧
    (s.strand k).marker.late = 0) ∧
  s.command.cond = .loading ∧ s.command.base = none ∧ s.command.master = none ∧ s.command.consumer = 0 ∧
  s.command.producer = 0 ∧ s.command.foreign = 0 ∧
  s.report.settings = none ∧ s.report.writeIndex = 0 ∧ s.report.published = 0 ∧ s.report.consumer = 0 ∧
  s.report.mode = .normal ∧ s.report.writer = .idle ∧ s.report.jobs = [] ∧ s.report.events = [] ∧
  s.report.lostJobs = 0 ∧ s.report.lostEvents = 0 ∧ s.report.fault = .none ∧ s.report.detail = 0 ∧
  s.report.suppressed = 0 ∧
  s.loader.state = .reading ∧ s.loader.partition = .none ∧ s.loader.presets = [] ∧ s.loader.statuses = []

/-- Every step keeps these within their sizes: 32 pass-through and 16 injected requests, 8 jobs, 16 events, and of each lane
and strand 24 tracks, 16 runs, 32 segments, 64 pending records, 16 marks; the 40-bit coordinate, the debt of 65,535, the
suppressed count of 255, the 48-bit clock. -/
def Obligations.StepKeepsSizes : Prop :=
  ∀ s t : State, s.Sized → step s = .next t → t.Sized

/-- Every step keeps the pending lists in strict key order (R108) and the marker queues in ascending fire coordinate (R126),
and the line buffers, the background arrays and the dead-column maps in the canonical form in which the model holds them (the
model's choice, log 30). -/
def Obligations.StepKeepsListOrders : Prop :=
  ∀ s t : State, s.Ordered → step s = .next t → t.Ordered

/-- Every step keeps the ISSUED requests of each queue older than its WAITING ones (1.2). -/
def Obligations.StepKeepsIssuedFirst : Prop :=
  ∀ s t : State, s.path.IssuedFirst → step s = .next t → t.path.IssuedFirst

/-- Every step keeps at most one buffer of a lane ASSEMBLING, one WAITING, one PROCESSING. -/
def Obligations.StepKeepsBufferRoles : Prop :=
  ∀ s t : State, (∀ i, (s.lane i).capture.RolesDiffer) → step s = .next t → ∀ i, (t.lane i).capture.RolesDiffer

/-- Every step keeps every background value in 0 to 65,504 (R61), the background arrays being in the model's canonical form
(log 30), which every step keeps. -/
def Obligations.StepKeepsBackgroundRange : Prop :=
  ∀ s t : State, s.Ordered → (∀ i, (s.lane i).detection.InRange) → step s = .next t →
    ∀ i, (t.lane i).detection.InRange

/-- The state right after power-on meets the five invariants. -/
def Obligations.ResetMeetsInvariants : Prop :=
  State.reset.Sized ∧ State.reset.Ordered ∧ State.reset.path.IssuedFirst ∧
  (∀ i, (State.reset.lane i).capture.RolesDiffer) ∧ (∀ i, (State.reset.lane i).detection.InRange)

/-- No command but power-on and the assertion of the reset line lowers the coordinate of a strand. -/
def Obligations.CoordinateNeverFalls : Prop :=
  ∀ (c : Instr) (s t : State), c ≠ .powerOn → c ≠ .resetLineAssert → exec c s = .next t →
    ∀ k, (s.strand k).motion.coord ≤ (t.strand k).motion.coord

/-- Only an increment moves the bay clock forward, only power-on and the reset line set it to 0. -/
def Obligations.ClockMovesOnlyAtItsEvents : Prop :=
  ∀ (c : Instr) (s t : State), exec c s = .next t →
    (c = .powerOn ∨ c = .resetLineAssert → t.clock = 0) ∧
    ((∃ v, c = .bayClockIncrement v) → s.global ≠ .held → t.clock = (s.clock + 1) % 2 ^ 48) ∧
    ((∃ v, c = .bayClockIncrement v) → s.global = .held → t.clock = s.clock) ∧
    (c ≠ .powerOn → c ≠ .resetLineAssert → (∀ v, c ≠ .bayClockIncrement v) → t.clock = s.clock)

/-- Every change that one command makes of a lane's state is one of those of the table of R136, or the change to OFF
of a reset. -/
def Obligations.LaneStateChangesAreListed : Prop :=
  ∀ (c : Instr) (s t : State), exec c s = .next t →
    ∀ i, (t.lane i).control.state = (s.lane i).control.state ∨
      legalChange (s.lane i).control.state (t.lane i).control.state = true

/-- The classification settings take their defaults at power-on and the reset line, and every command but
CLASSIFY_SETUP, as a host command or as a preset, keeps them: bay reset, LANE_RESET, ARM and DISARM among them. -/
def Obligations.ClassificationDefaultsAndKeeping : Prop :=
  ∀ (c : Instr) (s t : State), exec c s = .next t →
    (c = .powerOn ∨ c = .resetLineAssert → t.classify = ⟨3, 60, 40, 48, 96, 160, 500⟩) ∧
    (c ≠ .powerOn → c ≠ .resetLineAssert → c ≠ .classifySetup → c ≠ .presetHandover → t.classify = s.classify) ∧
    (c = .presetHandover →
      t.classify = s.classify ∨
        ∃ place q, s.loader.presets[s.loader.statuses.length]? = some place ∧
          decodeEntry (commandPart place) = .classifySetup q ∧ t.classify = q.clamped)

/-! ### The path unit -/

/-- A READ, and a WRITE that lies outside the ring of every lane in a capturing state (R2, R7), is taken into the pass-through
queue as sent at the next place of the take order, feeds no line and changes nothing else; a request offered while the queue
holds 32, or while the reset line is held, is not taken (R2, R11). -/
def Obligations.RequestsOutsideRingsAreTakenAsSent : Prop :=
  ((∀ (u : UpRequest) (s : State), u.req.kind = .read → s.global ≠ .held → s.path.pass.length < 32 →
     exec (.upstreamRequestTake u) s = .next { s with path := { s.path with
       pass := s.path.pass ++ [⟨u.req, u.master, u.tag, [], s.path.nextOrder, none⟩]
       nextOrder := s.path.nextOrder + 1 } }) ∧
   (∀ (u : UpRequest) (s : State), s.global = .held ∨ 32 ≤ s.path.pass.length →
     exec (.upstreamRequestTake u) s = .next s)) ∧
  (∀ (u : UpRequest) (s : State), u.req.kind = .write → s.global ≠ .held → s.path.pass.length < 32 →
     (∀ i g, (s.lane i).control.state.capturing = true → (s.lane i).control.geometry = some g →
       apart u.req.addr (u.req.addr + 32 * u.req.len) g.base (ringEnd g)) →
     exec (.upstreamRequestTake u) s = .next { s with path := { s.path with
       pass := s.path.pass ++ [⟨u.req, u.master, u.tag, [], s.path.nextOrder, none⟩]
       nextOrder := s.path.nextOrder + 1 } })

/-- A request keeps its kind, address, length and byte enables at its take, and, while no lane is in TEST, its data. A WRITE
that lands in the ring of just one lane in a capturing state (R7, R14, R16): the next state, the data forwarded and the
lines named as fed are those that the parts of the write leave, handled one after another from the state as it stood; the
requests that the handling makes stand in their order, and the write takes the last place of the pass-through queue (its
rank in the take order among requests made at the same take is free, log 11). Its beats in the ring are those whose address
lies in [base, base + N × S), in rising order, each with the slot and the beat number that its address gives, its place in
the write and its enables; S is 2W + 32 rounded up to a multiple of 64. The parts cut them by slot: joined they are the
beats again, each is of one slot, and neighbours are of different slots. A part of which no beat is written is passed over,
and a trailer beat written behind data beats is counted on top of what those do. -/
def Obligations.TakenRequestIsForwardedAsSent : Prop :=
  (∀ (u : UpRequest) (s : State), s.global ≠ .held → s.path.pass.length < 32 →
    ∃ t e, exec (.upstreamRequestTake u) s = .next t ∧ t.path.pass = s.path.pass ++ [e] ∧
      e.master = u.master ∧ e.tag = u.tag ∧ e.issue = none ∧
      e.req.kind = u.req.kind ∧ e.req.addr = u.req.addr ∧ e.req.len = u.req.len ∧ e.req.enables = u.req.enables ∧
      e.req.data.length = u.req.data.length ∧
      ((∀ i, (s.lane i).control.state ≠ .test) → e.req.data = u.req.data)) ∧
  (∀ (u : UpRequest) (s : State) (i : Fin 12) (g : Geometry), u.req.kind = .write → s.global ≠ .held →
    s.path.pass.length < 32 → (s.lane i).control.state.capturing = true → (s.lane i).control.geometry = some g →
    (∃ j, j < u.req.len ∧ g.base ≤ u.req.addr + 32 * j ∧ u.req.addr + 32 * j < ringEnd g) →
    (∀ j o, j ≠ i → (s.lane j).control.state.capturing = true → (s.lane j).control.geometry = some o →
      apart u.req.addr (u.req.addr + 32 * u.req.len) o.base (ringEnd o)) →
    let acc := (slotParts (ringBeats g u.req)).foldl (handlePart i g) ⟨s, u.req.data, []⟩
    let asMade (q : List InjEntry) := q.map fun x => (x.req, x.purpose, x.issue)
    ∃ t e, exec (.upstreamRequestTake u) s = .next t ∧ t.path.pass = s.path.pass ++ [e] ∧
      e.req = { u.req with data := acc.data } ∧ e.fed = acc.fed ∧ e.master = u.master ∧ e.tag = u.tag ∧ e.issue = none ∧
      t = { acc.s with path := t.path, choice := t.choice } ∧
      t.path = { acc.s.path with
        pass := t.path.pass, injected := t.path.injected, nextOrder := acc.s.path.nextOrder + 1 } ∧
      asMade t.path.injected = asMade acc.s.path.injected ∧
      (acc.s.path.nextOrder = s.path.nextOrder →
        e.order = s.path.nextOrder ∧ t.path.injected = acc.s.path.injected ∧ t.choice = acc.s.choice)) ∧
  (∀ st : LaneState, st.capturing = true ↔ st ≠ .off ∧ st ≠ .stopping) ∧
  (∀ g : Geometry, ringEnd g = g.base + g.n * slotSize g.w ∧ 64 ∣ slotSize g.w ∧
    2 * g.w + 32 ≤ slotSize g.w ∧ slotSize g.w < 2 * g.w + 96) ∧
  (∀ (g : Geometry) (r : Request), (ringBeats g r).Pairwise (fun a b => a.pos < b.pos) ∧
    ∀ b, b ∈ ringBeats g r ↔ b.pos < r.len ∧ g.base ≤ r.addr + 32 * b.pos ∧ r.addr + 32 * b.pos < ringEnd g ∧
      b.slot = (r.addr + 32 * b.pos - g.base) / slotSize g.w ∧
      b.index = (r.addr + 32 * b.pos - g.base) % slotSize g.w / 32 ∧ b.enables = r.enables.getD b.pos 0) ∧
  (∀ beats : List RingBeat, (slotParts beats).flatMap (·.2) = beats ∧
    (∀ x ∈ slotParts beats, x.2 ≠ [] ∧ ∀ b ∈ x.2, b.slot = x.1) ∧
    ∀ n x y, (slotParts beats)[n]? = some x → (slotParts beats)[n + 1]? = some y → x.1 ≠ y.1) ∧
  (∀ (i : Fin 12) (g : Geometry) (slot : Nat) (acc : TakeAcc) (beats : List RingBeat) (x : RingBeat),
    ((∀ b ∈ beats, b.written = false) → handlePart i g acc (slot, beats) = acc) ∧
    (beats ≠ [] → (∀ b ∈ beats, b.written = true ∧ b.index < g.w / 16) → x.written = true → x.index = g.w / 16 →
      let r := handlePart i g acc (slot, beats)
      handlePart i g acc (slot, beats ++ [x]) = { r with s := r.s.modCapture i fun c => { c with
        counters := { c.counters with trailerWrites := min 4294967295 (c.counters.trailerWrites + 1) } } }))

/-- The table of R5: what one issue opportunity grants by which heads are issuable, and the turn afterwards. The head of a
queue is its oldest WAITING request; a grant makes exactly that one ISSUED, with the next issue number, and every other
request of its queue stands as it is; it leaves on the downstream port, and nothing else changes. A head is issuable exactly
when the other queue holds no request that overlaps it and was taken earlier; a queue without a head has none issuable (R4).
Two requests overlap exactly when their ranges share a byte, and so, at the addresses of 1.1, a beat, whatever their kinds
and byte enables. -/
def Obligations.IssueOpportunityFollowsArbiter : Prop :=
  (∀ s : State,
     let number := s.path.nextIssue
     let grantPass (turn : Turn) (pre : List PassEntry) (h : PassEntry) (post : List PassEntry) : State := { s with
       path := { s.path with
         pass := pre ++ { h with issue := some number } :: post, turn := turn, nextIssue := number + 1 }
       ports := { s.ports with downstream := s.ports.downstream ++ [h.req] } }
     let grantInj (turn : Turn) (pre : List InjEntry) (h : InjEntry) (post : List InjEntry) : State := { s with
       path := { s.path with
         injected := pre ++ { h with issue := some number } :: post, turn := turn, nextIssue := number + 1 }
       ports := { s.ports with downstream := s.ports.downstream ++ [h.req] } }
     (s.path.passIssuable = false → s.path.injIssuable = false → exec .issueOpportunity s = .next s) ∧
     (∀ pre h post, s.path.pass = pre ++ h :: post → (∀ e ∈ pre, e.issue ≠ none) → h.issue = none →
       s.path.passIssuable = true →
       (s.path.injIssuable = false → exec .issueOpportunity s = .next (grantPass s.path.turn pre h post)) ∧
       (s.path.injIssuable = true → s.path.turn = .pass →
         exec .issueOpportunity s = .next (grantPass .injected pre h post))) ∧
     (∀ pre h post, s.path.injected = pre ++ h :: post → (∀ e ∈ pre, e.issue ≠ none) → h.issue = none →
       s.path.injIssuable = true →
       (s.path.passIssuable = false → exec .issueOpportunity s = .next (grantInj s.path.turn pre h post)) ∧
       (s.path.passIssuable = true → s.path.turn = .injected →
         exec .issueOpportunity s = .next (grantInj .pass pre h post)))) ∧
  (∀ p : Path,
    (∀ pre h post, p.pass = pre ++ h :: post → (∀ e ∈ pre, e.issue ≠ none) → h.issue = none →
      p.passHead = some h ∧
      (p.passIssuable = true ↔ ∀ e ∈ p.injected, e.order < h.order → requestsOverlap h.req e.req = false)) ∧
    ((∀ e ∈ p.pass, e.issue ≠ none) → p.passHead = none ∧ p.passIssuable = false) ∧
    (∀ pre h post, p.injected = pre ++ h :: post → (∀ e ∈ pre, e.issue ≠ none) → h.issue = none →
      p.injHead = some h ∧
      (p.injIssuable = true ↔ ∀ e ∈ p.pass, e.order < h.order → requestsOverlap h.req e.req = false)) ∧
    ((∀ e ∈ p.injected, e.issue ≠ none) → p.injHead = none ∧ p.injIssuable = false)) ∧
  (∀ a b : Request,
    (requestsOverlap a b = true ↔
      ∃ x, (a.addr ≤ x ∧ x < a.addr + 32 * a.len) ∧ (b.addr ≤ x ∧ x < b.addr + 32 * b.len)) ∧
    (a.addr % 32 = 0 → b.addr % 32 = 0 → (requestsOverlap a b = true ↔
      ∃ m n, m < a.len ∧ n < b.len ∧ a.addr + 32 * m = b.addr + 32 * n)))

/-- Downstream responses (R1, R3, R6, R8 to R11, R13, R25): one to a request issued before a reset is absorbed; one to a
pass-through READ goes upstream with its master ID and tag, its OKAY or ERROR and its data, and frees the place; one to a
trailer write, a write of the command unit or a producer word write of 0 frees its place, and with ERROR raises
INJECT_WRITE_ERROR with its maker (the lane, 12 or 13) as detail, or the suppressed count where a fault is held. Where a
block waits, the one at the front has its request taken and leaves the wait list, and joins its back if it has a further
one. A pass-through WRITE by any master with OKAY that lies apart from the control block, and, while the part is not
RUNNING, any pass-through WRITE, OKAY or ERROR, is answered upstream and changes nothing else. An ERROR on a write in
RUNNING, answered, gives one notice for each line the write fed, each on the state the one before leaves, in the order in
which the write fed them at its take (the model's choice, log 35). One notice raises the lane's memory-error counter, marks
the line if it is ASSEMBLING, drops it if it is WAITING, with its MEM_ERROR trailer made at once or waited for where
trailers are enabled, and does no more if it is neither. Nothing else changes. A request made joins the back of the injected
queue as WAITING, with the next place in the take order. A lane asks for its oldest trailer write; the command unit for the
area writes left, then, as its condition says, the entry read, the status write or the consumer word write; the report unit
for a producer word write of 0, then a record write, then the run's producer word write. -/
def Obligations.ResponsesCompleteTheirRequests : Prop :=
  ((∀ (okay : Bool) (data : List Byte) (s : State), s.path.absorb ≠ 0 →
     exec (.downstreamResponse okay data) s = .next { s with path := { s.path with absorb := s.path.absorb - 1 } }) ∧
   (∀ (okay : Bool) (data : List Byte) (e : PassEntry) (s : State), NextIsPass e s → e.req.kind = .read →
     exec (.downstreamResponse okay data) s = .next (answered e okay data s))) ∧
  (∀ (okay : Bool) (data : List Byte) (e : InjEntry) (maker : Nat) (s : State), NextIsInjected e s → e.req.kind = .write →
     (∃ i : Fin 12, e.purpose = .trailer i ∧ maker = i.val) ∨ (e.purpose = .commandWrite ∧ maker = 12) ∨
       (e.purpose = .producerZero ∧ maker = 13) →
     (s.path.waitList = [] →
       (okay = true → exec (.downstreamResponse okay data) s = .next (freed s)) ∧
       (okay = false → s.report.fault = .none → exec (.downstreamResponse okay data) s =
         .next { freed s with report := { s.report with fault := .injectWriteError, detail := maker } }) ∧
       (okay = false → s.report.fault ≠ .none → exec (.downstreamResponse okay data) s =
         .next { freed s with report := { s.report with suppressed := min 255 (s.report.suppressed + 1) } })) ∧
     (∀ (b : Block) (rest : List Block) (w : Request × Purpose), s.path.waitList = b :: rest → wanted b s = some w →
       let served : State := made b { s with
         path := { s.path with injected := s.path.injected.tail, waitList := rest }.inject w }
       let after (u : State) : State := { u with report := afterWriteBy maker okay u.report }
       (wanted b served = none → exec (.downstreamResponse okay data) s = .next (after served)) ∧
       (wanted b served ≠ none → exec (.downstreamResponse okay data) s =
         .next (after { served with path := { served.path with waitList := rest ++ [b] } })))) ∧
  (∀ (e : PassEntry) (data : List Byte) (s : State), NextIsPass e s → e.req.kind = .write →
     (s.global = .running →
       exec (.downstreamResponse false data) s = .next (e.fed.foldl lineErrorNotice (answered e false [] s))) ∧
     (s.global ≠ .running → ∀ okay, exec (.downstreamResponse okay data) s = .next (answered e okay [] s)) ∧
     (∀ base m, s.command.base = some base → s.command.master = some m →
       apart e.req.addr (e.req.addr + 32 * e.req.len) base (base + 4096) →
       exec (.downstreamResponse true data) s = .next (answered e true [] s))) ∧
  (∀ (n : LineId) (s : State),
     let r := lineErrorNotice s n
     let c := (s.lane n.lane).capture
     let counted : Counters := { c.counters with memErrors := min 4294967295 (c.counters.memErrors + 1) }
     let names (l : Line) : Prop := l.arming = n.arming ∧ l.seq = n.seq
     let noticed (c : Capture) : State :=
       s.setLane n.lane { s.lane n.lane with capture := { c with counters := counted } }
     let drops (l : Line) (c : Capture) : Prop := ∀ g, (s.lane n.lane).control.geometry = some g →
       let w := trailerWrite g l .memError 0 0 false false
       let waiting := noticed { c with trailers := c.trailers ++ [w] }
       (g.trailers = false → r = noticed c) ∧
       (g.trailers = true → Room 1 s → c.trailers = [] →
         r = { noticed c with path := s.path.inject (w, .trailer n.lane) }) ∧
       (g.trailers = true → .lane n.lane ∉ s.path.waitList → s.path.waitList ≠ [] ∨ 16 ≤ s.path.injected.length →
         r = { waiting with path := s.path.joinWait (.lane n.lane) }) ∧
       (g.trailers = true → .lane n.lane ∈ s.path.waitList → r = waiting)
     (∀ l, c.bufA = .assembling l → names l → r = noticed { c with bufA := .assembling { l with memError := true } }) ∧
     (∀ l, c.bufB = .assembling l → names l → (∀ a, c.bufA ≠ .assembling a) →
       r = noticed { c with bufB := .assembling { l with memError := true } }) ∧
     (∀ l, c.bufA = .waiting l → names l → (∀ a, c.bufB = .assembling a → ¬ names a) → drops l { c with bufA := .free }) ∧
     (∀ l, c.bufB = .waiting l → names l → (∀ a, c.bufA = .assembling a → ¬ names a) → (∀ a, c.bufA ≠ .waiting a) →
       drops l { c with bufB := .free }) ∧
     ((∀ l, c.assemblingLine = some l ∨ c.waitingLine = some l → ¬ names l) → r = noticed c)) ∧
  (∀ (p : Path) (w : Request × Purpose) (b : Block),
     p.inject w = { p with injected := p.injected ++ [⟨w.1, w.2, p.nextOrder, none⟩], nextOrder := p.nextOrder + 1 } ∧
     p.joinWait b = { p with waitList := p.waitList ++ [b] }) ∧
  (∀ (s : State) (i : Fin 12), ((s.lane i).capture.trailers = [] → wanted (.lane i) s = none) ∧
     ∀ r more, (s.lane i).capture.trailers = r :: more → wanted (.lane i) s = some (r, .trailer i) ∧
       made (.lane i) s = s.setLane i { s.lane i with capture := { (s.lane i).capture with trailers := more } }) ∧
  (∀ s : State,
     let u := s.command
     let next := (u.consumer + 1) % 64
     let turned (c : CommandUnit) : State := { s with command := c }
     (∀ r more, u.writes = r :: more → wanted .command s = some (r, .commandWrite) ∧
       (more ≠ [] ∨ (∀ e, u.cond ≠ .executing e (some .snapshot)) →
         made .command s = turned { u with writes := more }) ∧
       (∀ e, more = [] → u.cond = .executing e (some .snapshot) →
         made .command s = turned { u with writes := [], cond := .retiring .done false })) ∧
     (u.writes = [] →
       (u.cond = .fetching false → wanted .command s = some (entryRead s.controlBase u.consumer, .entryRead) ∧
         made .command s = turned { u with cond := .fetching true }) ∧
       (∀ st, u.cond = .retiring st false →
         wanted .command s = some (statusWrite s.controlBase u.consumer st, .commandWrite) ∧
         made .command s = turned { u with cond := .retiring st true }) ∧
       (∀ st, u.cond = .retiring st true →
         wanted .command s = some (consumerWordWrite s.controlBase next, .commandWrite) ∧
         made .command s = turned { u with
           consumer := next, cond := if next = u.producer then .idle else .fetching false }) ∧
       (u.cond = .idle ∨ u.cond = .loading ∨ u.cond = .fetching true ∨ (∃ e h, u.cond = .executing e h) →
         wanted .command s = none))) ∧
  (∀ s : State,
     let r := s.report
     (r.zeros ≠ 0 → wanted .report s = some (producerWordWrite s.controlBase 0, .producerZero) ∧
       made .report s = { s with report := { r with zeros := r.zeros - 1, published := 0 } }) ∧
     (r.zeros = 0 →
       (∀ v, r.writer = .publishing v false →
         wanted .report s = some (producerWordWrite s.controlBase v, .producer r.run v) ∧
         made .report s = { s with report := { r with writer := .publishing v true } }) ∧
       (∀ v n, r.writer = .idle ∨ r.writer = .publishing v true ∨ r.writer = .writing [] n →
         wanted .report s = none)))

/-- Host writes to the control block, completed with OKAY (R150, R151, R158). By the control master: a one-beat write of the
whole command producer word makes its value modulo 64 the producer copy, and an IDLE unit behind it makes the read of the
entry at its consumer index and is FETCHING, while a unit in EXECUTING, or level with it, changes nothing but the copy; a
one-beat write of the whole report consumer word is a consumer update; a write into command entries only does nothing; a
write that enables a byte of another word or of the status area, or only part of a host word, raises the foreign-write
counter. A write of any form does all of these at once: each whole host word is acted on, and the counter rises by 1, once,
where any byte calls for it. A write by any other master whose address range meets the control block (whatever its enables:
the model's reading, log 15) raises it and is not acted on. A write by any master that completes with ERROR and fed no line
is only answered. -/
def Obligations.ControlBlockWritesAreActedOnOrCounted : Prop :=
  ((∀ (e : PassEntry) (s : State) (base v : Nat) (m : Fin 16), NextIsPass e s →
     s.global = .running → s.command.base = some base → s.command.master = some m → e.master = m →
     e.req = ⟨.write, base + 32, 1, [0x000F0000], zeroBytes 16 ++ le 4 v ++ zeroBytes 12⟩ → base % 4096 = 0 →
     v < 2 ^ 32 → Room 1 s → s.command.writes = [] →
     (s.command.cond = .idle → s.command.consumer ≠ v % 64 →
       exec (.downstreamResponse true []) s = .next { answered e true [] s with
         path := { s.path with pass := s.path.pass.tail }.inject (entryRead base s.command.consumer, .entryRead)
         command := { s.command with producer := v % 64, cond := .fetching true } }) ∧
     (s.command.cond = .idle → s.command.consumer = v % 64 →
       exec (.downstreamResponse true []) s = .next { answered e true [] s with
         command := { s.command with producer := v % 64 } }) ∧
     (∀ b h, s.command.cond = .executing b h →
       exec (.downstreamResponse true []) s = .next { answered e true [] s with
         command := { s.command with producer := v % 64 } })) ∧
   (∀ (e : PassEntry) (s : State) (base v : Nat) (m : Fin 16), NextIsPass e s →
     s.global = .running → s.command.base = some base → s.command.master = some m → e.master = m →
     e.req = ⟨.write, base + 32, 1, [0xF0000000], zeroBytes 28 ++ le 4 v⟩ → base % 4096 = 0 → v < 2 ^ 32 →
     exec (.downstreamResponse true []) s = .next { answered e true [] s with report := s.report.consumerUpdate v })) ∧
  (∀ (e : PassEntry) (s : State) (base : Nat) (m : Fin 16), NextIsPass e s → e.req.kind = .write →
     s.global = .running → s.command.base = some base → s.command.master = some m → e.master = m →
     ((∀ o, o < 4096 → Enables e.req (base + o) → o % 64 < 48) →
       exec (.downstreamResponse true []) s = .next (answered e true [] s)) ∧
     ((∃ o, o < 4096 ∧ 48 ≤ o % 64 ∧ Enables e.req (base + o)) →
       (∃ o, 48 ≤ o ∧ o < 52 ∧ ¬ Enables e.req (base + o)) → (∃ o, 60 ≤ o ∧ o < 64 ∧ ¬ Enables e.req (base + o)) →
       exec (.downstreamResponse true []) s = .next { answered e true [] s with
         command := { s.command with foreign := min 4294967295 (s.command.foreign + 1) } })) ∧
  (∀ (e : PassEntry) (s : State) (base : Nat) (m : Fin 16), NextIsPass e s → e.req.kind = .write →
     s.global = .running → s.command.base = some base → s.command.master = some m → e.master ≠ m →
     ¬ apart e.req.addr (e.req.addr + 32 * e.req.len) base (base + 4096) → 0 < e.req.len →
     exec (.downstreamResponse true []) s = .next { answered e true [] s with
       command := { s.command with foreign := min 4294967295 (s.command.foreign + 1) } }) ∧
  (∀ (e : PassEntry) (data : List Byte) (s : State), NextIsPass e s → e.req.kind = .write → e.fed = [] →
     exec (.downstreamResponse false data) s = .next (answered e false [] s)) ∧
  (∀ (e : PassEntry) (s : State) (base foreign : Nat) (m : Fin 16) (report : ReportUnit), NextIsPass e s →
     e.req.kind = .write → s.global = .running → s.command.base = some base → s.command.master = some m → e.master = m →
     let whole (off : Nat) : Prop := ∀ o, off ≤ o → o < off + 4 → Enables e.req (base + o)
     let word (off : Nat) : Nat := fromLe ((e.req.data.drop (base + off - e.req.addr)).take 4)
     let part (off : Nat) : Prop := ¬ whole off ∧ ∃ o, off ≤ o ∧ o < off + 4 ∧ Enables e.req (base + o)
     let counts : Prop := part 48 ∨ part 60 ∨
       ∃ o, o < 4096 ∧ (52 ≤ o ∧ o < 60 ∨ 64 ≤ o ∧ 48 ≤ o % 64) ∧ Enables e.req (base + o)
     (whole 60 → report = s.report.consumerUpdate (word 60)) → (¬ whole 60 → report = s.report) →
     (counts → foreign = min 4294967295 (s.command.foreign + 1)) → (¬ counts → foreign = s.command.foreign) →
     let u : State := { answered e true [] s with report := report, command := { s.command with foreign := foreign } }
     let v := word 48 % 64
     (¬ whole 48 → exec (.downstreamResponse true []) s = .next u) ∧
     (whole 48 → s.command.writes = [] → s.command.cond = .idle → s.command.consumer ≠ v → Room 1 s →
       exec (.downstreamResponse true []) s = .next { u with
         path := u.path.inject (entryRead base s.command.consumer, .entryRead)
         command := { u.command with producer := v, cond := .fetching true } }) ∧
     (whole 48 → s.command.writes = [] → s.command.cond = .idle ∧ s.command.consumer = v ∨
         (∃ b h, s.command.cond = .executing b h) ∨ s.command.cond = .fetching true →
       exec (.downstreamResponse true []) s = .next { u with command := { u.command with producer := v } }))

/-- The entry read completes (no block waiting): with OKAY the unit is EXECUTING the command part read; with ERROR the
fault FETCH_ERROR is raised with the entry index and the command retires with status FETCH_ERROR. -/
def Obligations.EntryReadCompletes : Prop :=
  ∀ (data : List Byte) (e : InjEntry) (s : State), NextIsInjected e s → e.purpose = .entryRead →
    e.req.kind = .read → s.path.waitList = [] → s.command.cond = .fetching true →
    exec (.downstreamResponse true data) s = .next { freed s with
      command := { s.command with cond := .executing (data.take 48) none } } ∧
    (s.report.fault = .none → exec (.downstreamResponse false data) s =
      .next (retire .fetchError { freed s with
        report := { s.report with fault := .fetchError, detail := s.command.consumer } }))

/-- The last record write of the writer's work completes: the producer word write of the write index is made. That write
completes: the published producer takes its value and the writer is IDLE. A record write that is not the last makes no
producer word write; where the report unit waits for a place with a record, the freed place takes it. The completion of a
record or producer word write of a run that a bay reset abandoned changes nothing of the writer's (R12; that the run number
tells them apart is the model's reading, log 25). An ERROR changes this by nothing but the fault: INJECT_WRITE_ERROR with
detail 13, or the suppressed count where a fault is held. -/
def Obligations.WriterPublishesAfterItsRecords : Prop :=
  (∀ (okay : Bool) (data : List Byte) (e : InjEntry) (s : State), NextIsInjected e s → e.req.kind = .write →
    e.purpose = .record s.report.run → Room 0 s → s.report.writer = .writing [] 1 → s.report.zeros = 0 →
    exec (.downstreamResponse okay data) s = .next { freed s with
      path := { s.path with injected := s.path.injected.tail }.inject
        (producerWordWrite s.controlBase s.report.writeIndex, .producer s.report.run s.report.writeIndex)
      report := { afterWriteBy 13 okay s.report with writer := .publishing s.report.writeIndex true } }) ∧
  (∀ (okay : Bool) (data : List Byte) (e : InjEntry) (s : State) (v w : Nat), NextIsInjected e s →
    e.req.kind = .write → e.purpose = .producer s.report.run v → s.path.waitList = [] →
    s.report.writer = .publishing w true →
    exec (.downstreamResponse okay data) s = .next { freed s with
      report := { afterWriteBy 13 okay s.report with published := v, writer := .idle } }) ∧
  (∀ (okay : Bool) (data : List Byte) (e : InjEntry) (s : State) (n : Nat), NextIsInjected e s → e.req.kind = .write →
    e.purpose = .record s.report.run → s.report.zeros = 0 →
    (s.path.waitList = [] → s.report.writer = .writing [] (n + 2) →
      exec (.downstreamResponse okay data) s = .next { freed s with
        report := { afterWriteBy 13 okay s.report with writer := .writing [] (n + 1) } }) ∧
    (∀ (c : ReportSettings) (x : Rec) (more : List Rec) (rest : List Block), s.report.settings = some c →
      s.report.writer = .writing (x :: more) (n + 1) → s.path.waitList = .report :: rest → Block.report ∉ rest →
      exec (.downstreamResponse okay data) s = .next { s with
        path := { s.path with
          injected := s.path.injected.tail, waitList := if more = [] then rest else rest ++ [Block.report] }.inject
          (recordWrite c.base s.report.writeIndex x, .record s.report.run)
        report := { afterWriteBy 13 okay s.report with
          writer := .writing more (n + 1), writeIndex := (s.report.writeIndex + 1) % c.size } })) ∧
  (∀ (okay : Bool) (data : List Byte) (e : InjEntry) (s : State) (run : Nat), NextIsInjected e s → e.req.kind = .write →
    run ≠ s.report.run → s.path.waitList = [] →
    (e.purpose = .record run → wanted .report s = none →
      exec (.downstreamResponse okay data) s = .next { freed s with report := afterWriteBy 13 okay s.report }) ∧
    (∀ v, e.purpose = .producer run v →
      exec (.downstreamResponse okay data) s = .next { freed s with report := afterWriteBy 13 okay s.report }))

/-! ### Start-up and the resets -/

/-- Power-on and the reset line (R11, R164): every block takes its power-on value; each pass-through request held is answered
ERROR, in take order, with its master ID and tag. The responses to be absorbed are those still owed, the requests ISSUED
among them (the model's reading, log 9), and after a power-on that resets the frame-memory controller too (the cabinet's
choice, left open, log 32) none. A power-on begins with the reset line not asserted (the model's choice, log 33); the
asserted line holds the part, in a state the model names (log 20). Its release starts the loading; a line that is not
asserted is not released (the model's choice, log 1). -/
def Obligations.PowerOnAndResetLineResetEveryBlock : Prop :=
  (∀ s : State, ∃ t, exec .powerOn s = .next t ∧
     t = { State.reset with
       path := { Path.initial with absorb := if Config.controllerSharesPowerOn then 0 else s.path.absorb +
         (s.path.pass.countP (fun e => e.issue.isSome) + s.path.injected.countP (fun e => e.issue.isSome)) }
       ports := t.ports, choice := t.choice, pending := s.pending } ∧
     t.ports.downstream = s.ports.downstream ∧
     ∃ answers, t.ports.upstream = s.ports.upstream ++ answers ∧
       answers.map (fun a => (a.master, a.tag, a.okay)) = s.path.pass.map (fun e => (e.master, e.tag, false))) ∧
  ((∀ s : State, ∃ t, exec .resetLineAssert s = .next t ∧
     t = { State.reset with
       global := .held
       path := { Path.initial with absorb := s.path.absorb +
         (s.path.pass.countP (fun e => e.issue.isSome) + s.path.injected.countP (fun e => e.issue.isSome)) }
       loader := { Loader.reading with chipSelect := false, spiSent := [] }
       ports := t.ports, choice := t.choice, pending := s.pending } ∧
     t.ports.downstream = s.ports.downstream ∧
     ∃ answers, t.ports.upstream = s.ports.upstream ++ answers ∧
       answers.map (fun a => (a.master, a.tag, a.okay)) = s.path.pass.map (fun e => (e.master, e.tag, false))) ∧
   (∀ s : State, s.global = .held →
     exec .resetLineRelease s = .next { s with global := .loading, loader := Loader.reading }) ∧
   (∀ s : State, s.global ≠ .held → exec .resetLineRelease s = .next s))

/-- The end of the store's read: a signature that is neither 0x5A nor 0xA5, or a header that is not valid, brings PASS_ONLY;
a valid image with presets brings PRESETS with the control block base and the control master; a valid image without presets
brings RUNNING, with the preset section, the consumer word 0 and the producer word 0 written. That the preset section is one
write of five beats, and that of a header not valid the loader keeps no values, are the model's choices (logs 13 and 40, log
37). The preset section holds the partition in use, the preset count and the statuses, with zero in the places beyond them.
A byte the store does not drive reads 0xFF (R164). -/
def Obligations.StoreReadEndJudgesImage : Prop :=
  (∀ (base : Nat) (p : Partition) (count : Nat) (statuses : List Status),
    let w := presetSectionWrite base p count statuses
    w.kind = .write ∧ w.addr = base + 224 ∧ w.len = 5 ∧ w.enables = [0xFFFF0000, 0, 0xFFFF0000, 0, 0xFFFF0000] ∧
    ([.none, .first, .second] : List Partition).map (·.code) = [0, 1, 2] ∧
    HoldsFields w.data [(16, 1, p.code), (17, 1, count)] ∧
    ∀ m, m < 46 → HoldsFields w.data [(64 * ((m + 2) / 16) + 16 + (m + 2) % 16, 1,
      ((statuses[m]?).map (·.code)).getD 0)]) ∧
  (∀ (bytes : List Byte) (off len : Nat), storeByte bytes off = bytes.getD off 0xFF ∧
    storeSlice bytes off len = (List.range len).map fun n => storeByte bytes (off + n)) ∧
  ∀ (bytes : List Byte) (s : State), s.global = .loading → s.loader.state = .reading →
    (storeByte bytes 0 ≠ 0x5A → storeByte bytes 0 ≠ 0xA5 →
      exec (.storeReadEnd bytes) s = .next { s with
        global := .passOnly
        loader := { s.loader with state := .finished, partition := .none, chipSelect := false } }) ∧
    (∀ p off, (storeByte bytes 0 = 0x5A ∧ p = Partition.first ∧ off = 0x010) ∨
        (storeByte bytes 0 = 0xA5 ∧ p = Partition.second ∧ off = 0x810) →
      let base := fromLe (storeSlice bytes off 5)
      let master := (storeByte bytes (off + 5)).toNat
      let count := (storeByte bytes (off + 6)).toNat
      let places := (List.range count).map fun k => storeSlice bytes (off + 32 + 64 * k) 64
      let valid := base % 4096 = 0 ∧ base + 4096 ≤ 2 ^ 40 ∧ master ≤ 15 ∧ count ≤ 31
      (¬ valid → exec (.storeReadEnd bytes) s = .next { s with
        global := .passOnly
        loader := { s.loader with state := .finished, partition := p, chipSelect := false } }) ∧
      (valid → 0 < count → exec (.storeReadEnd bytes) s = .next { s with
        loader := { s.loader with state := .presets, partition := p, header := some ⟨base, master, count⟩,
                                  presets := places, statuses := [], chipSelect := false }
        command := { s.command with base := some base, master := some (Fin.ofNat 16 master) } }) ∧
      (valid → count = 0 → Room 3 s → s.report.zeros = 0 → s.report.writer = .idle →
        exec (.storeReadEnd bytes) s = .next { s with
          global := .running
          loader := { s.loader with state := .finished, partition := p, header := some ⟨base, master, count⟩,
                                    presets := [], statuses := [], chipSelect := false }
          command := { s.command with base := some base, master := some (Fin.ofNat 16 master), cond := .idle,
                                      consumer := 0, producer := 0, writes := [] }
          report := { s.report with published := 0 }
          path := ((s.path.inject (presetSectionWrite base p 0 [], .commandWrite)).inject
            (consumerWordWrite base 0, .commandWrite)).inject (producerWordWrite base 0, .producerZero) }))

/-- A preset is carried out, its status joins the preset status list, and a status that is neither DONE nor DONE_CLAMPED
raises PRESET_FAILED with its index, or the suppressed count where a fault is held (R166). After the last one, with room,
the part enters RUNNING, the loader FINISHED, the command unit IDLE at indices 0, and the preset section with all the
statuses, the consumer word 0 and the producer word 0 are written (R167; that the section is one write is the model's
choice, logs 13 and 40). ARM, SNAPSHOT and BAY_RESET presets are REFUSED with no effect; so are RESEED and TEST presets of
an OFF lane. Any other preset has the status and the effect that its command has in RUNNING on the same state, where no
sample or pulse is due: the command retires with that status on that effect. An accepted REPORT_SETUP makes its producer
word write of 0 only there: at once with room, and else the report unit waits with it, before the command unit where that
waits too (the model's choice, log 34). -/
def Obligations.PresetIsCarriedOut : Prop :=
  (∀ (s : State) (place : List Byte) (st : Status) (u : State),
    s.global = .loading → s.loader.state = .presets → s.loader.presets[s.loader.statuses.length]? = some place →
    carryPreset (decodeEntry (commandPart place)) s = (st, u) →
    s.loader.statuses.length + 1 < s.loader.presets.length → u.loader = s.loader →
    let v : State := { u with loader := { s.loader with statuses := s.loader.statuses ++ [st] } }
    (st = .done ∨ st = .doneClamped → exec .presetHandover s = .next v) ∧
    (st ≠ .done → st ≠ .doneClamped → u.report.fault = .none → exec .presetHandover s =
      .next { v with report := { u.report with fault := .presetFailed, detail := s.loader.statuses.length } }) ∧
    (st ≠ .done → st ≠ .doneClamped → u.report.fault ≠ .none → exec .presetHandover s =
      .next { v with report := { u.report with suppressed := min 255 (u.report.suppressed + 1) } })) ∧
  (∀ (s : State) (place : List Byte) (st : Status) (u : State),
    s.global = .loading → s.loader.state = .presets → s.loader.presets[s.loader.statuses.length]? = some place →
    carryPreset (decodeEntry (commandPart place)) s = (st, u) →
    s.loader.statuses.length + 1 = s.loader.presets.length → u.loader = s.loader →
    Room 3 u → u.report.zeros = 0 → u.report.writer = .idle →
    let base := u.controlBase
    let statuses := s.loader.statuses ++ [st]
    let v : State := { u with
      global := .running
      loader := { s.loader with state := .finished, statuses := statuses }
      command := { u.command with cond := .idle, consumer := 0, producer := 0, writes := [] }
      report := { u.report with published := 0 }
      path := ((u.path.inject (presetSectionWrite base s.loader.partition s.loader.presets.length statuses, .commandWrite)
        ).inject (consumerWordWrite base 0, .commandWrite)).inject (producerWordWrite base 0, .producerZero) }
    (st = .done ∨ st = .doneClamped → exec .presetHandover s = .next v) ∧
    (st ≠ .done → st ≠ .doneClamped → u.report.fault = .none → exec .presetHandover s = .next { v with report :=
      { u.report with published := 0, fault := .presetFailed, detail := s.loader.statuses.length } }) ∧
    (st ≠ .done → st ≠ .doneClamped → u.report.fault ≠ .none → exec .presetHandover s = .next { v with report :=
      { u.report with published := 0, suppressed := min 255 (u.report.suppressed + 1) } })) ∧
  (∀ s : State, s.global = .loading →
    (∀ i : Fin 12, carryPreset (.arm i.val) s = (.refused, s)) ∧
    carryPreset .snapshot s = (.refused, s) ∧ (∀ keep, carryPreset (.bayReset keep) s = (.refused, s)) ∧
    (∀ (i : Fin 12) action p, (s.lane i).control.state = .off →
      carryPreset (.reseed i.val) s = (.refused, s) ∧ carryPreset (.test i.val action p) s = (.refused, s))) ∧
  (∀ (e : List Byte) (s : State), (∀ k, (s.strand k).motion.pairDue = none ∧ (s.strand k).motion.cutDue = none ∧
      (s.strand k).marker.pulsing = false) → (∀ i, (s.lane i).control.state = .off) →
    let c := decodeEntry e
    let r := carryPreset c s
    let inRunning (u : State) : State :=
      { u with global := .running, command := { u.command with cond := .executing e none } }
    let alike (row : Instr) : Prop := exec row (inRunning s) = .next (retire r.1 (inRunning r.2))
    (∀ t p, c = .laneGeometry t p → alike .laneGeometry) ∧ (∀ t n z, c = .laneZones t n z → alike .laneZones) ∧
    (∀ t f n a, c = .deadColumns t f n a → (a ≠ 0 → alike .deadColumnsMark) ∧ (a ≠ 1 → alike .deadColumnsClear)) ∧
    (∀ t a p, c = .test t a p → (a ≠ 0 → alike .testOn) ∧ (a ≠ 1 → alike .testOff)) ∧
    (∀ t, c = .reseed t → alike .reseed) ∧ (∀ t d, c = .laneDetect t d → alike .laneDetect) ∧
    (∀ t p, c = .strandSetup t p → alike .strandSetup) ∧ (∀ t p, c = .strandMarking t p → alike .strandMarking) ∧
    (∀ p, c = .classifySetup p → alike .classifySetup) ∧ (∀ t, c = .disarm t → alike .disarm) ∧
    (c = .clearFault → alike .clearFault) ∧ (∀ t, c = .laneReset t → alike .laneReset) ∧
    (∀ n, c = .unknown n → alike .unknownCommand) ∧
    (∀ p, c = .reportSetup p → (r.1 ≠ .done → r.1 ≠ .doneClamped → alike .reportSetup) ∧
      (r.1 = .done ∨ r.1 = .doneClamped →
        exec .reportSetup (inRunning s) = .next (retire r.1 (writeZeroProducer (inRunning r.2)))))) ∧
  (∀ s : State,
    (Room 1 s → s.report.zeros = 0 → s.report.writer = .idle → writeZeroProducer s = { s with
      path := s.path.inject (producerWordWrite s.controlBase 0, .producerZero)
      report := { s.report with published := 0 } }) ∧
    (.report ∉ s.path.waitList → s.path.waitList ≠ [] ∨ 16 ≤ s.path.injected.length → writeZeroProducer s = { s with
      path := s.path.joinWait .report, report := { s.report with zeros := s.report.zeros + 1 } }))

/-! ### Motion and the bay clock -/

/-- A forward step (R37, R38, R127, R128), shown by the strand's sample that is still to be decoded, the sampled pair
becoming the reference pair: it repays one count of debt, re-arming the reverse report when the debt is cleared; or raises
the coordinate by 1, which fires no mark when the marker unit is in PULSE or its head is not due; or leaves a saturated
coordinate. The advance that brings the coordinate up to the head's fire coordinate, in IDLE, fires the head: PULSE from the
bay time of the step, the entry out of the queue, the last fired coordinate the entry's, the fired counter raised, the mark
state of its record FIRED in the pending list, in the strand's queued jobs and in the job being written, where its write is
not yet made (R131), the record being the one of its lane, serial and start; every other record keeps its mark state. Lanes,
clock, traffic and the other strands are unchanged. That the sample taken at the increment is held until its command decodes
it is the model's reading of the rows (log 7), and that its events read the clock after the increment is the model's choice
(log 38). -/
def Obligations.ForwardStepRepaysAdvancesOrFires : Prop :=
  (∀ (k : Fin 6) (p : Pair) (s : State), s.global = .running → (s.strand k).motion.pairDue = some p →
     decodePair (s.strand k).motion.refPair p = .forward →
     let t := s.strand k
     (0 < t.motion.debt → exec (.forwardStep k p) s = .next (s.setStrand k { t with motion := { t.motion with
       refPair := p, pairDue := none, debt := t.motion.debt - 1
       reportArmed := t.motion.reportArmed || decide (t.motion.debt = 1) } })) ∧
     (t.motion.debt = 0 → t.motion.coord < 2 ^ 40 - 1 →
       (t.marker.pulsing = true ∨ ∀ e, t.marker.queue.head? = some e → t.motion.coord + 1 < e.fire) →
       exec (.forwardStep k p) s = .next (s.setStrand k { t with motion := { t.motion with
         refPair := p, pairDue := none, coord := t.motion.coord + 1 } })) ∧
     (t.motion.debt = 0 → t.motion.coord = 2 ^ 40 - 1 →
       exec (.forwardStep k p) s = .next (s.setStrand k { t with motion := { t.motion with
         refPair := p, pairDue := none } }))) ∧
  (∀ (k : Fin 6) (p : Pair) (s : State) (e : MarkEntry) (rest : List MarkEntry), s.global = .running →
     (s.strand k).motion.pairDue = some p → decodePair (s.strand k).motion.refPair p = .forward →
     (s.strand k).motion.debt = 0 →
     (s.strand k).motion.coord < 2 ^ 40 - 1 → (s.strand k).marker.pulsing = false →
     (s.strand k).marker.queue = e :: rest → e.fire ≤ (s.strand k).motion.coord + 1 →
     ∃ t, exec (.forwardStep k p) s = .next t ∧
       (t.strand k).motion = { (s.strand k).motion with
         refPair := p, pairDue := none, coord := (s.strand k).motion.coord + 1 } ∧
       (t.strand k).marker = { (s.strand k).marker with
         queue := rest, pulsing := true, pulseStart := s.clock, lastFired := some e.fire
         fired := min 4294967295 ((s.strand k).marker.fired + 1) } ∧
       (t.strand k).setup = (s.strand k).setup ∧ (t.strand k).billet.current = (s.strand k).billet.current ∧
       (t.strand k).billet.waiting = (s.strand k).billet.waiting.map (fun d =>
         if d.isNamed e.lane e.serial e.start = true then { d with mark := .fired } else d) ∧
       t.report.jobs = s.report.jobs.map (fun j =>
         if j.billet.strand = k then
           { j with group := j.group.map (fun d =>
               if d.isNamed e.lane e.serial e.start = true then { d with mark := .fired } else d) }
         else j) ∧
       ((∀ todo n, s.report.writer ≠ .writing todo n) → t.report.writer = s.report.writer) ∧
       (∀ todo n, s.report.writer = .writing todo n → t.report.writer = .writing (todo.map fun x =>
         match x with
         | .defect d => if d.strand = k ∧ d.isNamed e.lane e.serial e.start = true then .defect { d with mark := .fired }
           else x
         | .billet _ => x
         | .event _ => x) n) ∧
       (∀ j, j ≠ k → t.strand j = s.strand j) ∧
       t = { s with strands := t.strands, report := { s.report with jobs := t.report.jobs, writer := t.report.writer } }) ∧
  (∀ (d : Defect) (lane : Fin 12) (serial start : Nat),
     d.isNamed lane serial start = true ↔ d.lane = lane ∧ d.serial = serial ∧ d.start = start)

/-- A reverse step (R37, R39, R41), shown by the strand's sample that is still to be decoded: the debt rises by 1 and
saturates; the report is made once, at REVERSE_LIMIT, with the event's contents (where the event queue has room), and
disarms the flag; with the limit unset or not reached, or the flag disarmed, none is made. The coordinate is unchanged. That
the sample is held until its row decodes it is the model's reading of the rows (log 7), and that its events read the clock
after the increment is the model's choice (log 38). -/
def Obligations.ReverseStepRaisesDebt : Prop :=
  ∀ (k : Fin 6) (p : Pair) (s : State), s.global = .running → (s.strand k).motion.pairDue = some p →
    decodePair (s.strand k).motion.refPair p = .reverse →
    let t := s.strand k
    (t.motion.debt = 65535 →
      exec (.reverseStep k p) s = .next (s.setStrand k { t with motion := { t.motion with
        refPair := p, pairDue := none } })) ∧
    (t.motion.debt < 65535 → (t.motion.reportArmed = false ∨ t.setup = none ∨
        ∀ c, t.setup = some c → t.motion.debt + 1 < c.reverseLimit) →
      exec (.reverseStep k p) s = .next (s.setStrand k { t with motion := { t.motion with
        refPair := p, pairDue := none, debt := t.motion.debt + 1 } })) ∧
    (∀ c, t.motion.debt < 65535 → t.motion.reportArmed = true → t.setup = some c →
      c.reverseLimit ≤ t.motion.debt + 1 → s.report.events.length < 16 →
      exec (.reverseStep k p) s = .next { s.setStrand k { t with motion := { t.motion with
          refPair := p, pairDue := none, debt := t.motion.debt + 1, reportArmed := false } } with
        report := { s.report with events := s.report.events ++
          [.reverseTravel k t.motion.coord (t.motion.debt + 1) s.clock] } })

/-- The decoding of a sampled pair against the reference pair (R37): the forward order is (0,0), (1,0), (1,1), (0,1) and
back to (0,0); the next pair in it is a forward step, the one before a reverse step, the same pair no change, and a pair in
which both channels differ an encoder error. An encoder error (R40): no step, no event; the count rises by 1 and saturates;
the sampled pair becomes the reference pair. SNAPSHOT's bytes of the strand carry the count. That the sample is held until
its row decodes it is the model's reading of the rows (log 7). -/
def Obligations.EncoderErrorCountsAndTakesPair : Prop :=
  (∀ (r p : Pair),
    let ahead : List (Pair × Pair) := [(⟨false, false⟩, ⟨true, false⟩), (⟨true, false⟩, ⟨true, true⟩),
      (⟨true, true⟩, ⟨false, true⟩), (⟨false, true⟩, ⟨false, false⟩)]
    (decodePair r p = .forward ↔ (r, p) ∈ ahead) ∧ (decodePair r p = .reverse ↔ (p, r) ∈ ahead) ∧
    (decodePair r p = .noChange ↔ r = p) ∧ (decodePair r p = .error ↔ (r.a ≠ p.a ∧ r.b ≠ p.b))) ∧
  (∀ (k : Fin 6) (p : Pair) (s : State), s.global = .running → (s.strand k).motion.pairDue = some p →
    decodePair (s.strand k).motion.refPair p = .error →
    exec (.encoderError k p) s = .next (s.setStrand k { s.strand k with motion := { (s.strand k).motion with
      refPair := p, pairDue := none, encErrors := min 4294967295 ((s.strand k).motion.encErrors + 1) } })) ∧
  (∀ (t : Strand) (counts : List Nat), ((strandSection t counts).drop 8).take 4 = le 4 t.motion.encErrors)

/-- The cut input (R44, R114), by the level that the strand's sample shows: a low level returns its state to LOW; a rise
takes the step of the same sample first, then sets it HIGH, makes no cut event while the settings are unset, and a refused
cut (the coordinate below CUT_DIST, or the boundary at or below the open billet's start) queues CUT_REFUSED and changes
nothing else (where the event queue has room). That the sample is held until its rows take it is the model's reading of the
rows (log 7), and that its events read the clock after the increment is the model's choice (log 38); so is that a bay reset
taken between that increment and the step of the same sample does not by itself refuse the cut, which is judged by the
coordinate after the step (log 39). -/
def Obligations.CutInputFallsAndRefusedCuts : Prop :=
  (∀ (k : Fin 6) (s : State), s.global = .running →
    let m := (s.strand k).motion
    (m.pairDue = none → decodeDue k s = s) ∧
    ∀ p, m.pairDue = some p →
      (decodePair m.refPair p = .noChange → decodeDue k s = s.setStrand k { s.strand k with motion := { m with
        refPair := p, pairDue := none } }) ∧
      (decodePair m.refPair p = .forward → exec (.forwardStep k p) s = .next (decodeDue k s)) ∧
      (decodePair m.refPair p = .reverse → exec (.reverseStep k p) s = .next (decodeDue k s)) ∧
      (decodePair m.refPair p = .error → exec (.encoderError k p) s = .next (decodeDue k s))) ∧
  ∀ (k : Fin 6) (s : State), s.global = .running →
    let t := s.strand k
    let high := s.setStrand k { t with motion := { t.motion with cutHigh := true, cutDue := none } }
    (t.motion.cutDue = some false → exec (.cutInputFall k) s =
      .next (s.setStrand k { t with motion := { t.motion with cutHigh := false, cutDue := none } })) ∧
    (t.motion.cutHigh = false → t.motion.cutDue = some true →
      exec (.cutEvent k) s = exec (.cutEvent k) (decodeDue k s)) ∧
    (t.motion.cutHigh = false → t.motion.cutDue = some true → t.motion.pairDue = none → t.setup = none →
      exec (.cutEvent k) s = .next high) ∧
    (∀ c, t.motion.cutHigh = false → t.motion.cutDue = some true → t.motion.pairDue = none → t.setup = some c →
      s.report.events.length < 16 →
      (t.motion.coord < c.cutDist ∨ t.motion.coord - c.cutDist ≤ t.billet.current.start) →
      exec (.cutEvent k) s = .next { high with report := { s.report with events := s.report.events ++
        [.cutRefused k t.motion.coord c.cutDist t.billet.current.start s.clock] } })

/-- An accepted cut (R90, R91, R94, R101, R107, R114 to R121) with boundary b, shown by the strand's held sample (log 7) and
stamped with the clock after its increment (log 38), its step taken, a bay reset in between or not (log 39): the next billet
opens at b with the next serial, PARTIAL_HEAD and Lane left clear, tallies and dropped count 0, TEST seen by the bound lanes
in TEST, active lanes the bound ones out of OFF; the pending list keeps the records at or above b; of the bound lanes' runs
those that end at or below b are gone and the others start at b or above, with their ends and marks; no bound lane holds a
track below b, and nothing else of it changes; other lanes, other strands' billets and motion are unchanged. With room in
the job queue one job has joined it. Its group holds each pending record below b, marked STRADDLE when its End is at or
above b, and heads of the bound lanes' tracks below b; with no such track it holds exactly those records, in their order. It
stands in key order, a record of the list before a head of equal key (R116). A job that arrives with 8 queued is lost and
counted, and raises REPORT_LOST with the strand (R160). Each track below b gives one record of the group or raises the noise
or the oscillation tally by 1, and the dropped count is the open billet's. These are what the grading of the heads leaves,
one after another, each its track with End at most b - 1, closed by CUT as a split head, with the MIN_LINES in force: lane
by lane, in an order that is free (log 12), and in age order within a lane; the group inserts the records made in that
order, and marker unit, tallies, mark states and writer stand as the last judgement leaves them. With no track below b the
marker unit is unchanged; the strand's settings always are. Its billet record covers [a, b) with class counts and max grade
of the group, one coverage entry for each active lane still bound, TEST, APPROX and PARTIAL_HEAD, and the verdict by the
first condition that applies. -/
def Obligations.AcceptedCutClosesBillet : Prop :=
  ∀ (k : Fin 6) (c : StrandSetup) (s : State), s.global = .running → (s.strand k).motion.cutHigh = false →
    (s.strand k).motion.cutDue = some true → (s.strand k).motion.pairDue = none →
    (s.strand k).setup = some c → c.cutDist ≤ (s.strand k).motion.coord →
    let b := (s.strand k).motion.coord - c.cutDist
    let o := (s.strand k).billet.current
    let unmarked (d : Defect) : Defect := { d with mark := Mark.none }
    let taken (d : Defect) : Defect := { d with straddle := d.straddle || decide (b ≤ d.stop) }
    o.start < b →
    ∃ t, exec (.cutEvent k) s = .next t ∧
      (t.strand k).billet.current.serial = (o.serial + 1) % 2 ^ 32 ∧
      (t.strand k).billet.current.start = b ∧ (t.strand k).billet.current.partialHead = false ∧
      (t.strand k).billet.current.laneLeft = false ∧ (t.strand k).billet.current.osc = 0 ∧
      (t.strand k).billet.current.noise = 0 ∧ (t.strand k).billet.current.dropped = 0 ∧
      (t.strand k).billet.current.active = (allLanes.filter fun i =>
        decide ((s.lane i).binding = some k) && decide ((s.lane i).control.state ≠ .off)) ∧
      ((t.strand k).billet.current.testSeen = true ↔
        ∃ i, (s.lane i).binding = some k ∧ (s.lane i).control.state = .test) ∧
      (t.strand k).billet.waiting.map unmarked =
        ((s.strand k).billet.waiting.filter fun d => decide (b ≤ d.start)).map unmarked ∧
      (∀ i, (s.lane i).binding = some k → t.lane i = { s.lane i with
        runs := (s.lane i).runs.filterMap fun r => if r.stop ≤ b then none else some { r with start := max r.start b }
        table := { (s.lane i).table with
          tracks := (s.lane i).table.tracks.map fun x => if x.start < b then x.tail b else x } }) ∧
      (∀ i, (s.lane i).binding ≠ some k → t.lane i = s.lane i) ∧
      (∀ j, j ≠ k → t.strand j = s.strand j) ∧
      (t.strand k).motion = { (s.strand k).motion with cutHigh := true, cutDue := none } ∧
      t.clock = s.clock ∧ t.path = s.path ∧ t.command = s.command ∧
      t = { s with strands := t.strands, lanes := t.lanes, report := t.report, choice := t.choice } ∧
      (∃ lanes : List (Fin 12), lanes.Perm (allLanes.filter fun i => decide ((s.lane i).binding = some k)) ∧
        let high := s.setStrand k { s.strand k with motion := { (s.strand k).motion with cutHigh := true, cutDue := none } }
        let heads := lanes.flatMap fun i => (((s.lane i).table.tracks.filter fun x => decide (x.start < b)).map fun x =>
          (i, { x with stop := min x.stop (b - 1) }))
        let judge (acc : List Defect × State) (h : Fin 12 × Track) : List Defect × State :=
          let minLines := ((s.lane h.1).control.detect.map (·.minLines)).getD 0
          let r := gradeTrack h.1 minLines .cut true h.2 acc.2
          (acc.1 ++ r.1.toList, r.2)
        let insert (l : List Defect) (d : Defect) : List Defect :=
          l.takeWhile (fun x => !d.keyLt x) ++ d :: l.dropWhile fun x => !d.keyLt x
        let r := heads.foldl judge ([], high)
        let v := (r.2.strand k).billet
        let removed := (v.waiting.filter fun d => decide (d.start < b)).map taken
        (t.strand k).marker = (r.2.strand k).marker ∧
        (t.strand k).billet.waiting = v.waiting.filter (fun d => decide (b ≤ d.start)) ∧
        t.report.writer = r.2.report.writer ∧
        (8 ≤ s.report.jobs.length → t.report.jobs = r.2.report.jobs) ∧
        (s.report.jobs.length < 8 → ∃ j, t.report.jobs = r.2.report.jobs ++ [j] ∧
          j.group = r.1.foldl insert removed ∧ j.billet.osc = v.current.osc ∧ j.billet.noise = v.current.noise)) ∧
      (t.strand k).setup = (s.strand k).setup ∧
      ((∀ i, (s.lane i).binding = some k → ∀ x ∈ (s.lane i).table.tracks, b ≤ x.start) →
        (t.strand k).marker = (s.strand k).marker ∧ t.report.writer = s.report.writer) ∧
      t.report = { s.report with
        jobs := t.report.jobs, writer := t.report.writer, lostJobs := t.report.lostJobs, fault := t.report.fault
        detail := t.report.detail, suppressed := t.report.suppressed } ∧
      (8 ≤ s.report.jobs.length →
        (let cleared (j : Job) : Job := { j with group := j.group.map unmarked }
         t.report.jobs.map cleared = s.report.jobs.map cleared) ∧
        t.report.lostJobs = min 4294967295 (s.report.lostJobs + 1) ∧
        (s.report.fault = .none → t.report.fault = .reportLost ∧ t.report.detail = k.val ∧
          t.report.suppressed = s.report.suppressed) ∧
        (s.report.fault ≠ .none → t.report.fault = s.report.fault ∧ t.report.detail = s.report.detail ∧
          t.report.suppressed = min 255 (s.report.suppressed + 1))) ∧
      (s.report.jobs.length < 8 → t.report.lostJobs = s.report.lostJobs ∧ t.report.fault = s.report.fault ∧
        t.report.detail = s.report.detail ∧ t.report.suppressed = s.report.suppressed ∧
        ∃ j, t.report.jobs.length = s.report.jobs.length + 1 ∧ t.report.jobs.getLast? = some j ∧
        (∀ d ∈ (s.strand k).billet.waiting, d.start < b → unmarked (taken d) ∈ j.group.map unmarked) ∧
        (∀ d ∈ j.group, d.start < b ∧
          (unmarked d ∈ (s.strand k).billet.waiting.map (fun x => unmarked (taken x)) ∨
            (s.lane d.lane).binding = some k ∧ d.reason = .cut ∧ d.splitHead = true ∧ d.straddle = false ∧
              d.time = s.clock ∧ ∃ x ∈ (s.lane d.lane).table.tracks,
                x.serial = d.serial ∧ x.start = d.start ∧ d.stop = min x.stop (b - 1))) ∧
        ((∀ i, (s.lane i).binding = some k → ∀ x ∈ (s.lane i).table.tracks, b ≤ x.start) →
          j.group.map unmarked =
            ((s.strand k).billet.waiting.filter fun d => decide (d.start < b)).map (fun d => unmarked (taken d)) ∧
          j.billet.osc = o.osc ∧ j.billet.noise = o.noise) ∧
        ((s.strand k).billet.waiting.Pairwise (fun a d => a.keyLt d = true) →
          j.group.Pairwise fun a d => d.keyLt a = false ∧ (a.sameKey d = true → d.reason = .cut)) ∧
        j.billet.dropped = o.dropped ∧
        (let n := ((allLanes.filter fun i => decide ((s.lane i).binding = some k)).map fun i =>
           (s.lane i).table.tracks.countP fun x => decide (x.start < b)).sum
         o.osc + n ≤ 65535 → o.noise + n ≤ 65535 → o.osc ≤ j.billet.osc ∧ o.noise ≤ j.billet.noise ∧
           j.group.length + (j.billet.osc - o.osc) + (j.billet.noise - o.noise) =
             (s.strand k).billet.waiting.countP (fun d => decide (d.start < b)) + n) ∧
        j.billet.strand = k ∧ j.billet.serial = o.serial ∧ j.billet.start = o.start ∧ j.billet.stop = b ∧
        j.billet.time = s.clock ∧
        j.billet.length = min 4294967295 ((b - o.start) * 10000 / c.countsPerM) ∧
        j.billet.corner = j.group.countP (fun d => d.cls = .corner) ∧
        j.billet.longitudinal = j.group.countP (fun d => d.cls = .longitudinal) ∧
        j.billet.transverse = j.group.countP (fun d => d.cls = .transverse) ∧
        j.billet.mesh = j.group.countP (fun d => d.cls = .mesh) ∧
        (∀ d ∈ j.group, d.grade ≤ j.billet.maxGrade) ∧
        (j.group = [] → j.billet.maxGrade = 0) ∧ (j.group ≠ [] → ∃ d ∈ j.group, d.grade = j.billet.maxGrade) ∧
        j.billet.condensed = 0 ∧ j.billet.partialHead = o.partialHead ∧
        j.billet.coverage = (o.active.filter fun i => decide ((s.lane i).binding = some k)).map
          (fun i => coverageOf i (s.lane i).runs o.start b) ∧
        (j.billet.test = true ↔ o.testSeen = true ∨ ∃ d ∈ j.group, d.test = true) ∧
        (j.billet.approx = true ↔ o.laneLeft = true ∨ ∃ e ∈ j.billet.coverage, e.approx = true) ∧
        j.billet.verdict =
          if ∃ d ∈ j.group, c.rejectGrade ≤ d.grade then .defective
          else if j.billet.coverage = [] ∨ (∃ e ∈ j.billet.coverage, e.perMille < c.coverMin) ∨
            j.billet.approx = true ∨ j.billet.test = true ∨ 0 < j.billet.dropped then .unverified
          else .clean)

/-- The tail of a split (R84): it stays in the track's place with its serial, zone, reference span and Gap; its other
fields are as the table gives them. -/
def Obligations.TailOfSplitKeepsPlace : Prop :=
  ∀ (b : Nat) (m : TrackTable) (n : Nat) (t : Track), m.tracks[n]? = some t →
    (b ≤ t.start → (m.split b).tracks[n]? = some t) ∧
    (t.start < b → ∃ u, (m.split b).tracks[n]? = some u ∧
      u.serial = t.serial ∧ u.zone = t.zone ∧ u.start = b ∧ u.stop = max t.stop b ∧ u.lines = 0 ∧
      u.colMin = t.r0 ∧ u.colMax = t.r1 ∧ u.r0 = t.r0 ∧ u.r1 = t.r1 ∧ u.newSpan = t.newSpan ∧ u.peak = 0 ∧
      u.sum = 0 ∧ u.gap = t.gap ∧ u.merged = 0 ∧ u.splitTail = true ∧ u.test = false ∧
      ∃ h ∈ m.heads b, h.serial = t.serial ∧ h.start = t.start ∧ h.start < u.start ∧ h.stop = min t.stop (b - 1)) ∧
    (m.split b).nextSerial = m.nextSerial ∧ (m.split b).trackFull = m.trackFull

/-- The pulse end (R129), once MARK_PULSE milliseconds have passed: with nothing due the line is deasserted; a head that is
due and not too late fires and the unit stays in PULSE; a head passed beyond MARK_LATE_MAX is removed as late, and the new
head is looked at in its place. The record of an entry, named by its lane, serial and start, takes its mark state in the
strand's pending list, in the group of each of the strand's jobs, and in the job being written where its write is not yet
made (R131). Before the time there is no pulse end. That it is a command of its own, at any point before the next increment,
is the model's reading of the rows (log 8), and that it reads the clock after its increment is the model's choice (log 38).
-/
def Obligations.PulseEndIdlesOrFires : Prop :=
  (∀ (k : Fin 6) (s : State) (c : MarkSettings), s.global = .running → (s.strand k).marker.settings = some c →
    (s.strand k).marker.pulsing = true →
    let t := s.strand k
    let lasted := (s.clock + 2 ^ 48 - t.marker.pulseStart) % 2 ^ 48
    (lasted < 1000 * c.pulse → exec (.pulseEnd k) s = .next s) ∧
    (1000 * c.pulse ≤ lasted → (∀ e, t.marker.queue.head? = some e → t.motion.coord < e.fire) →
      exec (.pulseEnd k) s = .next (s.setStrand k { t with marker := { t.marker with pulsing := false } })) ∧
    (∀ e rest, 1000 * c.pulse ≤ lasted → t.marker.queue = e :: rest → e.fire ≤ t.motion.coord →
      t.motion.coord ≤ e.fire + c.lateMax →
      exec (.pulseEnd k) s = .next (remarkRecord k e .fired (s.setStrand k { t with marker := { t.marker with
        queue := rest, pulsing := true, pulseStart := s.clock, lastFired := some e.fire
        fired := min 4294967295 (t.marker.fired + 1) } }))) ∧
    (∀ e rest, 1000 * c.pulse ≤ lasted → t.marker.queue = e :: rest → e.fire + c.lateMax < t.motion.coord →
      exec (.pulseEnd k) s = exec (.pulseEnd k) (remarkRecord k e .late (s.setStrand k { t with
        marker := { t.marker with queue := rest, late := min 4294967295 (t.marker.late + 1) } })))) ∧
  (∀ (k : Fin 6) (e : MarkEntry) (m : Mark) (s : State),
    let marked (d : Defect) : Defect := if d.lane = e.lane ∧ d.serial = e.serial ∧ d.start = e.start then { d with mark := m }
      else d
    let t := s.strand k
    let v := remarkRecord k e m s
    v = { s with strands := v.strands, report := { s.report with jobs := v.report.jobs, writer := v.report.writer } } ∧
    (∀ j, j ≠ k → v.strand j = s.strand j) ∧
    v.strand k = { t with billet := { t.billet with waiting := t.billet.waiting.map marked } } ∧
    v.report.jobs = s.report.jobs.map (fun j =>
      if j.billet.strand = k then { j with group := j.group.map marked } else j) ∧
    ((∀ todo n, s.report.writer ≠ .writing todo n) → v.report.writer = s.report.writer) ∧
    (∀ todo n, s.report.writer = .writing todo n → v.report.writer = .writing (todo.map fun x => match x with
      | .defect d => .defect (if d.strand = k then marked d else d)
      | .billet b => .billet b
      | .event e => .event e) n))

/-- An offer of a record to the marker unit (R125, R127): the first case that applies decides the mark state, the queue
and the counters; an entry queued at the head of an IDLE unit that has reached it fires within the offer. -/
def Obligations.OfferedRecordIsJudged : Prop :=
  ∀ (k : Fin 6) (c : MarkSettings) (d : Defect) (s : State),
    let m := (s.strand k).marker
    let coord := (s.strand k).motion.coord
    let f := d.start + c.dist
    let near (x : Nat) : Prop := f < x + c.holdoff ∧ x < f + c.holdoff
    let shared := (∃ e ∈ m.queue, near e.fire) ∨ (∃ x, m.lastFired = some x ∧ near x)
    (shared → offerMark k c d s = (.shared, s)) ∧
    (¬ shared → f + c.lateMax < coord → offerMark k c d s =
      (.late, s.setStrand k { s.strand k with marker := { m with late := min 4294967295 (m.late + 1) } })) ∧
    (¬ shared → coord ≤ f + c.lateMax → 16 ≤ m.queue.length → offerMark k c d s =
      (.lost, s.setStrand k { s.strand k with marker := { m with lost := min 4294967295 (m.lost + 1) } })) ∧
    (¬ shared → coord ≤ f + c.lateMax → m.queue.length < 16 → (m.pulsing = true ∨ coord < f) →
      offerMark k c d s = (.queued, s.setStrand k { s.strand k with marker := { m with
        queue := m.queue.takeWhile (fun e => decide (e.fire ≤ f)) ++ [⟨f, d.lane, d.serial, d.start, d.grade⟩] ++
          m.queue.dropWhile (fun e => decide (e.fire ≤ f)) } })) ∧
    (¬ shared → coord ≤ f + c.lateMax → m.queue.length < 16 → m.pulsing = false → f ≤ coord →
      (∀ e, m.queue.head? = some e → f < e.fire) →
      offerMark k c d s = (.fired, remarkRecord k ⟨f, d.lane, d.serial, d.start, d.grade⟩ .fired (s.setStrand k
        { s.strand k with marker := { m with
          pulsing := true, pulseStart := s.clock, lastFired := some f, fired := min 4294967295 (m.fired + 1) } })))

/-- An increment of the bay clock (R34 to R36): the clock rises by 1 and wraps. In RUNNING every strand's sample is taken,
to be decoded by the commands that follow (the model's reading of the rows, log 7); with nothing left of the last increment
nothing else changes, and what is left comes about first: the sampled pair becomes the reference pair and its step is taken,
the sampled level becomes the cut input state, and a pulse that has lasted its duration has ended, or runs again from the
bay time before the increment (logs 7, 8, 38). The state in which the new samples are then held is the one that the rows of
what is due leave, strand by strand in ascending order (log 7), of each strand the step, the reverse report or the encoder
error of its sample, then the judgement of its cut, then the end of its pulse: what is due of a pair is what FORWARD_STEP,
REVERSE_STEP or ENCODER_ERROR answers, or the pair taken; of a level what CUT_EVENT or CUT_INPUT_FALL answers, or the level
taken; of a pulse what PULSE_END answers. In LOADING and PASS_ONLY the sample becomes the reference pair and the cut input
state. While the reset line is asserted nothing happens. -/
def Obligations.ClockIncrementSamplesWhileNotRunning : Prop :=
  ∀ (v : Vector Sample 6) (s : State),
    (s.global = .running → (∀ k, (s.strand k).motion.pairDue = none ∧ (s.strand k).motion.cutDue = none ∧
        ((s.strand k).marker.pulsing = true → ∀ c, (s.strand k).marker.settings = some c →
          (s.clock + 2 ^ 48 - (s.strand k).marker.pulseStart) % 2 ^ 48 < 1000 * c.pulse)) →
      ∃ t, exec (.bayClockIncrement v) s = .next t ∧
        t = { s with clock := (s.clock + 1) % 2 ^ 48, strands := t.strands } ∧
        ∀ k, t.strand k = { s.strand k with motion := { (s.strand k).motion with
          pairDue := some (v.get k).pair, cutDue := some (v.get k).cut } }) ∧
    (s.global = .running → ∃ t, exec (.bayClockIncrement v) s = .next t ∧ t.global = .running ∧
      t.clock = (s.clock + 1) % 2 ^ 48 ∧
      ∀ k, let m := (s.strand k).motion
        let m' := (t.strand k).motion
        m'.pairDue = some (v.get k).pair ∧ m'.cutDue = some (v.get k).cut ∧
        m'.cutHigh = m.cutDue.getD m.cutHigh ∧ m'.refPair = m.pairDue.getD m.refPair ∧
        (∀ p, m.pairDue = some p → decodePair m.refPair p = .forward → m.debt = 0 → m.coord < 2 ^ 40 - 1 →
          m'.coord = m.coord + 1) ∧
        ((∀ p, m.pairDue = some p → decodePair m.refPair p ≠ .forward) → m'.coord = m.coord) ∧
        (∀ c, (s.strand k).marker.settings = some c → (s.strand k).marker.pulsing = true →
          1000 * c.pulse ≤ (s.clock + 2 ^ 48 - (s.strand k).marker.pulseStart) % 2 ^ 48 →
          (t.strand k).marker.pulsing = false ∨ (t.strand k).marker.pulseStart = s.clock)) ∧
    (s.global = .running →
      let finish (u : State) (k : Fin 6) : State := endDuePulse k (compareDue k (decodeDue k u))
      let u := ([0, 1, 2, 3, 4, 5] : List (Fin 6)).foldl finish s
      ∃ t, exec (.bayClockIncrement v) s = .next t ∧
        t = { u with clock := (s.clock + 1) % 2 ^ 48, strands := t.strands } ∧
        ∀ k, t.strand k = { u.strand k with motion := { (u.strand k).motion with
          pairDue := some (v.get k).pair, cutDue := some (v.get k).cut } }) ∧
    (s.global = .running → ∀ k,
      let m := (s.strand k).motion
      let level (high : Bool) : State := s.setStrand k { s.strand k with motion := { m with
        cutHigh := high, cutDue := none } }
      (m.pairDue = none → decodeDue k s = s) ∧
      (∀ p, m.pairDue = some p →
        (decodePair m.refPair p = .noChange → decodeDue k s = s.setStrand k { s.strand k with motion := { m with
          refPair := p, pairDue := none } }) ∧
        (decodePair m.refPair p = .forward → exec (.forwardStep k p) s = .next (decodeDue k s)) ∧
        (decodePair m.refPair p = .reverse → exec (.reverseStep k p) s = .next (decodeDue k s)) ∧
        (decodePair m.refPair p = .error → exec (.encoderError k p) s = .next (decodeDue k s))) ∧
      (m.cutDue = none → compareDue k s = s) ∧
      (m.cutDue = some false → compareDue k s = level false ∧ exec (.cutInputFall k) s = .next (compareDue k s)) ∧
      (m.cutDue = some true → m.cutHigh = true → compareDue k s = level true) ∧
      (m.cutDue = some true → m.cutHigh = false →
        exec (.cutEvent k) s = .next (compareDue k (decodeDue k s)) ∧
        (m.pairDue = none → exec (.cutEvent k) s = .next (compareDue k s))) ∧
      exec (.pulseEnd k) s = .next (endDuePulse k s)) ∧
    (s.global = .held → exec (.bayClockIncrement v) s = .next s) ∧
    (s.global = .loading ∨ s.global = .passOnly → ∃ t, exec (.bayClockIncrement v) s = .next t ∧
      t = { s with clock := (s.clock + 1) % 2 ^ 48, strands := t.strands } ∧
      ∀ k, t.strand k = { s.strand k with motion := { (s.strand k).motion with
        refPair := (v.get k).pair, cutHigh := (v.get k).cut } })

/-! ### Lines -/

/-- The tap orders (R15): the column of a storage position by the table; each maps storage positions 0 to W − 1 one-to-one
onto columns 0 to W − 1, and `tapPosition` is the way back. -/
def Obligations.TapOrdersAreOneToOne : Prop :=
  (∀ w p : Nat, tapColumn .linear w p = p ∧
    (p < w / 2 → tapColumn .mirrored w p = p) ∧ (w / 2 ≤ p → tapColumn .mirrored w p = w - 1 - (p - w / 2)) ∧
    tapColumn .interleaved w (2 * p) = p ∧ tapColumn .interleaved w (2 * p + 1) = w / 2 + p) ∧
  ∀ (tap : TapOrder) (w p : Nat), w % 2 = 0 → p < w →
    tapColumn tap w p < w ∧ tapPosition tap w (tapColumn tap w p) = p ∧
    tapPosition tap w p < w ∧ tapColumn tap w (tapPosition tap w p) = p

/-- What a part that writes data-area beats does (R17 to R23, R28, R30, R31). It starts a line with no current slot or in
the slot after the current one, fills the current one, and in any other slot resyncs when it begins at a written beat 0 and
is out of sequence otherwise. A line start: the line takes the next sequence number, the strand's coordinate, the bay time
and the arming number, and buffer A if free, else buffer B; the sequence number rises and wraps; in TEST the pattern phase
advances but for the first line; with neither buffer free the line is dropped as OVERRUN, counted, and its trailer made. A
part substitutes at the phase that its own line start leaves (R30). Filling copies the enabled bytes, adds the beats to the
coverage and to the lines fed, and hands a full line on: into processing, WAITING while one is in processing, or dropped
with its trailer when marked MEM_ERROR. A trailer is made, where enabled, at once with room, or waited for (R3, R28). Beats
not written count for nothing, but that a part whose first beat is not written resyncs nothing (R16, R20). A COMPLETE slot
or an out-of-sequence part copies nothing and is counted once, padding included (log 26), a DISCARDING one not. Leaving an
incomplete line drops it as RUNT, a resync as SLIP with LINE_SLIP, with their counters and the dropped line's trailer. A
part of trailer or padding beats counts as such; so does a padding beat written behind data beats that do not themselves
count (the model's reading of R21, log 26; of a DISCARDING slot its choice, log 41). -/
def Obligations.PartsStartFillOrResyncLines : Prop :=
  (∀ (n slot c : Nat) (zero : Bool) (a : Assembler), 2 ≤ n → c < n →
     partAction .noSlot n slot zero = .start ∧
     (a = .assembling c ∨ a = .complete c ∨ a = .discarding c →
       (slot = c → partAction a n slot zero = .current) ∧
       (slot = (c + 1) % n → partAction a n slot zero = .start) ∧
       (slot ≠ c → slot ≠ (c + 1) % n → partAction a n slot true = .resync ∧ partAction a n slot false = .outOfSeq))) ∧
  (∀ (i : Fin 12) (g : Geometry) (slot : Nat) (s : State),
     let c := (s.lane i).capture
     let line : Line := ⟨c.nextSeq, (s.strand g.strand).motion.coord, s.clock, c.arming, slot, false, [], []⟩
     let after := ((startLine i g slot s).lane i).capture
     after.nextSeq = (c.nextSeq + 1) % 2 ^ 32 ∧ after.arming = c.arming ∧
     (∀ t, (s.lane i).control.state = .test → (s.lane i).control.test = some t →
       after.phase = (if c.phaseFresh then c.phase else (c.phase + 1) % t.period) ∧ after.phaseFresh = false) ∧
     ((s.lane i).control.state ≠ .test → after.phase = c.phase ∧ after.phaseFresh = c.phaseFresh) ∧
     let started : Capture := { c with nextSeq := after.nextSeq, phase := after.phase, phaseFresh := after.phaseFresh }
     let withCapture (c : Capture) : State := s.setLane i { s.lane i with capture := c }
     (c.bufA = .free → startLine i g slot s =
       withCapture { started with bufA := .assembling line, assembler := .assembling slot }) ∧
     (c.bufA ≠ .free → c.bufB = .free → startLine i g slot s =
       withCapture { started with bufB := .assembling line, assembler := .assembling slot }) ∧
     (c.bufA ≠ .free → c.bufB ≠ .free → startLine i g slot s = makeTrailer i line .overrun 0 0 false false
       (withCapture { started with
         assembler := .discarding slot
         counters := { c.counters with overrun := min 4294967295 (c.counters.overrun + 1) } })) ∧
     (∀ j, j ≠ i → (startLine i g slot s).lane j = s.lane j)) ∧
  (∀ (i : Fin 12) (line : Line) (status : TrailerStatus) (kept obscured : Nat) (overflow uncovered : Bool) (s : State)
     (g : Geometry), (s.lane i).control.geometry = some g →
     let c := (s.lane i).capture
     let w := trailerWrite g line status kept obscured overflow uncovered
     let r := makeTrailer i line status kept obscured overflow uncovered s
     (g.trailers = false → r = s) ∧
     (g.trailers = true → Room 1 s → c.trailers = [] → r = { s with path := s.path.inject (w, .trailer i) }) ∧
     (g.trailers = true → .lane i ∉ s.path.waitList → s.path.waitList ≠ [] ∨ 16 ≤ s.path.injected.length →
       r = { s.setLane i { s.lane i with capture := { c with trailers := c.trailers ++ [w] } } with
         path := s.path.joinWait (.lane i) }) ∧
     (.lane i ∈ s.path.waitList → g.trailers = true →
       r = s.setLane i { s.lane i with capture := { c with trailers := c.trailers ++ [w] } })) ∧
  (∀ (i : Fin 12) (g : Geometry) (slot : Nat) (beats : List RingBeat) (acc : TakeAcc),
     beats.Pairwise (fun a b => a.index < b.index) →
     handlePart i g acc (slot, beats) = handlePart i g acc (slot, beats.filter fun b => decide (b.enables ≠ 0))) ∧
  (∀ (l : Line) (beats : List RingBeat) (data : List Byte), l.tidy = true → (beats.map (·.index)).Nodup →
     let f := l.fill beats data
     f = { l with coverage := f.coverage, bytes := f.bytes } ∧ f.tidy = true ∧
     (∀ x, x ∈ f.coverage ↔ x ∈ l.coverage ∨ ∃ b ∈ beats, b.index = x) ∧
     (∀ b ∈ beats, ∀ j, j < 32 → lookupAt 0 f.bytes (32 * b.index + j) =
       if b.enables.getLsbD j then data.getD (32 * b.pos + j) 0 else lookupAt 0 l.bytes (32 * b.index + j)) ∧
     (∀ o, (∀ b ∈ beats, b.index ≠ o / 32) → lookupAt 0 f.bytes o = lookupAt 0 l.bytes o)) ∧
  (∀ (i : Fin 12) (g : Geometry) (slot : Nat) (beats : List RingBeat) (acc : TakeAcc), beats ≠ [] →
     (∀ x ∈ beats, x.written = true ∧ x.index < g.w / 16) →
     let l := acc.s.lane i
     let c := l.capture
     let data := substitute l g beats acc.data
     let zero : Bool := beats.head?.any fun x => x.index == 0
     let action := partAction c.assembler g.n slot zero
     let r := handlePart i g acc (slot, beats)
     let coord := (acc.s.strand g.strand).motion.coord
     (c.assembler = .discarding slot → r = { acc with data := data }) ∧
     (∀ line, c.assembler = .assembling slot → c.assemblingLine = some line →
       let f := line.fill beats data
       r.data = data ∧ r.fed = acc.fed ++ [⟨i, line.arming, line.seq⟩] ∧
       (f.coverage.length ≠ g.w / 16 → r.s = acc.s.modCapture i fun c => c.putAssembling (.assembling f)) ∧
       (f.coverage.length = g.w / 16 → line.memError = false → c.inProcessing = none →
         r.s = acc.s.modCapture i fun c =>
           { c.putAssembling (.processing f l.settingsCopy) with assembler := .complete slot }) ∧
       (f.coverage.length = g.w / 16 → line.memError = false → c.inProcessing ≠ none →
         r.s = acc.s.modCapture i fun c => { c.putAssembling (.waiting f) with assembler := .complete slot }) ∧
       (f.coverage.length = g.w / 16 → line.memError = true →
         r.s = makeTrailer i f .memError 0 0 false false
           (acc.s.modCapture i fun c => { c.putAssembling .free with assembler := .complete slot }))) ∧
     (let test := l.control.state = .test
      let phase : Nat := match l.control.test with
        | some t => if test ∧ c.phaseFresh = false then (c.phase + 1) % t.period else c.phase
        | none => c.phase
      let data := substitute { l with capture := { c with phase := phase } } g beats acc.data
      (action = .start ∨ action = .resync → r.data = data) ∧
      (action = .start → c.assemblingLine = none → c.bufA = .free →
        let f := Line.fill ⟨c.nextSeq, coord, acc.s.clock, c.arming, slot, false, [], []⟩ beats data
        let started : Capture := { c with
          nextSeq := (c.nextSeq + 1) % 2 ^ 32, phase := phase, phaseFresh := if test then false else c.phaseFresh }
        r.fed = acc.fed ++ [⟨i, c.arming, c.nextSeq⟩] ∧
        (f.coverage.length ≠ g.w / 16 → r.s = acc.s.modCapture i fun _ => { started with
          bufA := .assembling f, assembler := .assembling slot }) ∧
        (f.coverage.length = g.w / 16 → c.inProcessing = none → r.s = acc.s.modCapture i fun _ => { started with
          bufA := .processing f l.settingsCopy, assembler := .complete slot }) ∧
        (f.coverage.length = g.w / 16 → c.inProcessing ≠ none → r.s = acc.s.modCapture i fun _ => { started with
          bufA := .waiting f, assembler := .complete slot }))) ∧
     (∀ line, action = .start ∨ action = .resync → c.assemblingLine = some line → l.control.geometry = some g →
       g.trailers = true → Room 1 acc.s → c.trailers = [] →
       let status : TrailerStatus := if action = .start then .runt else .slip
       r.s.path = acc.s.path.inject (trailerWrite g line status 0 0 false false, .trailer i) ∧
       r.fed = acc.fed ++ [⟨i, c.arming, c.nextSeq⟩]) ∧
     (∀ line, action = .start → c.assemblingLine = some line →
       (r.s.lane i).capture.counters = { c.counters with runt := min 4294967295 (c.counters.runt + 1) }) ∧
     (action = .resync → c.assemblingLine ≠ none ∨ c.bufA = .free →
       (r.s.lane i).capture.counters = { c.counters with slip := min 4294967295 (c.counters.slip + 1) }) ∧
     (action = .resync → acc.s.report.events.length < 16 → r.s.report.events =
       acc.s.report.events ++ [.lineSlip i g.strand slot c.nextSeq coord acc.s.clock])) ∧
  (∀ (i : Fin 12) (g : Geometry) (slot : Nat) (beats : List RingBeat) (acc : TakeAcc),
     (∀ x ∈ beats, x.written = true ∧ x.index ≠ g.w / 16) → (∃ x ∈ beats, x.index < g.w / 16) →
     let l := acc.s.lane i
     let c := l.capture
     let zero : Bool := beats.head?.any fun x => x.index == 0
     partAction c.assembler g.n slot zero = .outOfSeq ∨ c.assembler = .complete slot →
     handlePart i g acc (slot, beats) = { acc with
       data := substitute l g (beats.filter fun x => decide (x.index < g.w / 16)) acc.data
       s := acc.s.modCapture i fun c => { c with counters := { c.counters with
         outOfSeq := min 4294967295 (c.counters.outOfSeq + 1) } } }) ∧
  (∀ (i : Fin 12) (g : Geometry) (slot : Nat) (beats : List RingBeat) (pad : RingBeat) (acc : TakeAcc), beats ≠ [] →
     (∀ x ∈ beats, x.written = true ∧ x.index < g.w / 16) → pad.written = true → g.w / 16 < pad.index →
     let a := (acc.s.lane i).capture.assembler
     let zero : Bool := beats.head?.any fun x => x.index == 0
     partAction a g.n slot zero ≠ .outOfSeq → a ≠ .complete slot →
     let r := handlePart i g acc (slot, beats)
     handlePart i g acc (slot, beats ++ [pad]) = { r with s := r.s.modCapture i fun c => { c with
       counters := { c.counters with outOfSeq := min 4294967295 (c.counters.outOfSeq + 1) } } }) ∧
  (∀ (i : Fin 12) (g : Geometry) (slot : Nat) (beats : List RingBeat) (acc : TakeAcc), beats ≠ [] →
     (∀ x ∈ beats, x.written = true ∧ g.w / 16 ≤ x.index) →
     ((∃ x ∈ beats, x.index = g.w / 16) → handlePart i g acc (slot, beats) = { acc with
       s := acc.s.modCapture i fun c => { c with counters := { c.counters with
         trailerWrites := min 4294967295 (c.counters.trailerWrites + 1) } } }) ∧
     ((∀ x ∈ beats, x.index ≠ g.w / 16) → handlePart i g acc (slot, beats) = { acc with
       s := acc.s.modCapture i fun c => { c with counters := { c.counters with
         outOfSeq := min 4294967295 (c.counters.outOfSeq + 1) } } }))

/-- The TEST pattern (R29): in TEST every enabled byte of the part's data-area beats carries the pattern byte of its place,
and every other byte of the write is as sent; out of TEST every byte is. The pattern value of a column is PAT_BASE less
PAT_DEPTH, at least 0, from PAT_COL on for PAT_WIDTH columns while the phase is below PAT_LINES, else PAT_BASE; its low byte
stands at the even offset of its sample and its high byte at the odd one. -/
def Obligations.SubstitutionTouchesEnabledBytesOnly : Prop :=
  (∀ (g : Geometry) (t : TestParams) (phase p : Nat),
    let c := tapColumn g.tap g.w p
    let v := if t.col ≤ c ∧ c < t.col + t.width ∧ phase < t.lines then t.base - t.depth else t.base
    patternByte g t phase (2 * p) = BitVec.ofNat 8 v ∧ patternByte g t phase (2 * p + 1) = BitVec.ofNat 8 (v / 256)) ∧
  ∀ (l : Lane) (g : Geometry) (beats : List RingBeat) (data : List Byte), (beats.map (·.pos)).Nodup →
    (substitute l g beats data).length = data.length ∧
    (l.control.state ≠ .test → substitute l g beats data = data) ∧
    (∀ t j, l.control.state = .test → l.control.test = some t → j < data.length →
      (∀ b ∈ beats, b.pos = j / 32 → b.enables.getLsbD (j % 32) = true →
        (substitute l g beats data)[j]? = some (patternByte g t l.capture.phase (32 * b.index + j % 32))) ∧
      ((∀ b ∈ beats, b.pos = j / 32 → b.enables.getLsbD (j % 32) = false) →
        (substitute l g beats data)[j]? = data[j]?))

/-- The line arithmetic. The contrast (R55) of a background above 0: with d = B − 16x where that is above 0, it is the floor
of 256d / B, 256 becoming 255; it lies in 0 to 255, is 0 where 16x is at or above B and 255 where x is 0. The background
step (R60, R61) moves B towards 16x by the difference over 2^k, the floor taken toward minus infinity, and stays between the
two. Column repair (R51, R52): a LIVE column keeps its reading; a DEAD one takes the floor of the mean of its nearest LIVE
neighbours in the zone, the one there is, or none. The mode by lane state and seed count (R49). A line over disjoint zones:
a column's contrast is 0 when it is saturated (R53) or obscured, its background below 16 BG_FLOOR (R54); the obscured count
takes in the unrepairable ones; the line is UNCOVERED by R56. On a detecting line the segments found are exactly the runs of
q ≥ T_LOW that reach T_HIGH, in ascending order, of which the first 32 are kept and any more overflow (R57, R58); a seed
line has none. The background (R59 to R62) of a STATIONARY line stands; of others, that of columns out of every zone,
unrepairable or saturated stands, a FIRST_SEED line sets 16x, a SEED line steps with k = 1, a detecting line with BG_SHIFT,
but inside a segment found, kept or dropped, it stands. -/
def Obligations.ContrastAndBackgroundStayInRange : Prop :=
  (∀ b x : Nat, 0 < b →
    contrast b x ≤ 255 ∧ (b ≤ 16 * x → contrast b x = 0) ∧ (x = 0 → contrast b x = 255) ∧
    (16 * x < b → contrast b x =
      if 256 * (b - 16 * x) / b = 256 then 255 else 256 * (b - 16 * x) / b)) ∧
  (∀ b x k : Nat, 1 ≤ k →
    min b (16 * x) ≤ backgroundStep b x k ∧ backgroundStep b x k ≤ max b (16 * x) ∧
    (b ≤ 16 * x → backgroundStep b x k = b + (16 * x - b) / 2 ^ k) ∧
    (16 * x < b → backgroundStep b x k = b - ((b - 16 * x) + (2 ^ k - 1)) / 2 ^ k ∧ backgroundStep b x k < b)) ∧
  (∀ (k : Copy) (x : Nat → Nat) (z : Zone) (c : Nat), z.first ≤ c → c ≤ z.last →
    let left (a : Nat) : Prop := z.first ≤ a ∧ a < c ∧ a ∉ k.dead ∧ ∀ j, a < j → j < c → j ∈ k.dead
    let right (a : Nat) : Prop := c < a ∧ a ≤ z.last ∧ a ∉ k.dead ∧ ∀ j, c < j → j < a → j ∈ k.dead
    (c ∉ k.dead → repaired k x z c = some (x c)) ∧
    (c ∈ k.dead →
      (∀ a e, left a → right e → repaired k x z c = some ((x a + x e) / 2)) ∧
      (∀ a, left a → (∀ e, ¬ right e) → repaired k x z c = some (x a)) ∧
      (∀ e, (∀ a, ¬ left a) → right e → repaired k x z c = some (x e)) ∧
      ((∀ a, ¬ left a) → (∀ e, ¬ right e) → repaired k x z c = none))) ∧
  (∀ (st : LaneState) (seed n : Nat),
    (st = .armed ∨ st = .seeding → lineMode st seed n = if seed = 0 then .firstSeed else .seed) ∧
    (st = .test → lineMode st seed n = if seed = 0 then .firstSeed else if seed < n then .seed else .detect) ∧
    (st = .tracking ∨ st = .parked → lineMode st seed n = .detect)) ∧
  (∀ (k : Copy) (bytes : List Host.Cell) (bg : List (Nat × Nat)) (mode : LineMode) (stationary : Bool),
    canonical 0 bg = true → 1 ≤ k.detect.tLow → (∀ z ∈ k.zones, z.first ≤ z.last) →
    k.zones.Pairwise (fun a b => a.last < b.first) →
    let d := detectLine k bytes bg mode stationary
    let b (c : Nat) : Nat := lookupAt 0 bg c
    let x (c : Nat) : Nat :=
      let p := tapPosition k.tap k.w c
      ((lookupAt 0 bytes (2 * p)).toNat + 256 * (lookupAt 0 bytes (2 * p + 1)).toNat) % 4096
    let r (z : Zone) (c : Nat) : Option Nat := repaired k x z c
    let q (z : Zone) (c : Nat) : Nat :=
      match r z c with
      | none => 0
      | some v => if v = 4095 ∨ b c < 16 * k.detect.bgFloor then 0 else contrast (b c) v
    let zones := k.zones.filter fun z => decide (z.kind ≠ .ignore)
    let width := (zones.map fun z => z.last + 1 - z.first).sum
    let inZone (z : Zone) (c : Nat) : Prop := z ∈ zones ∧ z.first ≤ c ∧ c ≤ z.last
    d.obscured = (zones.map fun z => (List.range (z.last + 1 - z.first)).countP fun n =>
      (r z (z.first + n)).isNone || decide (b (z.first + n) < 16 * k.detect.bgFloor)).sum ∧
    (d.uncovered = true ↔ width = 0 ∨ k.obscureLimit * width < 1000 * d.obscured) ∧
    (stationary = true → d.background = bg) ∧
    (stationary = false →
      (∀ c, (∀ z, ¬ inZone z c) → lookupAt 0 d.background c = b c) ∧
      (∀ z c, inZone z c → r z c = none ∨ r z c = some 4095 → lookupAt 0 d.background c = b c)) ∧
    (mode ≠ .detect → d.segments = [] ∧ d.overflow = false ∧
      ∀ z c v, stationary = false → inZone z c → r z c = some v → v ≠ 4095 →
        lookupAt 0 d.background c = if mode = .firstSeed then 16 * v else backgroundStep (b c) v 1) ∧
    (mode = .detect → ∃ found : List Segment, found.Pairwise (fun s t => s.c1 < t.c0) ∧
      (∀ sg, sg ∈ found ↔ k.detect.tHigh ≤ sg.peak ∧
        ∃ n z, k.zones[n]? = some z ∧ z.kind ≠ .ignore ∧ IsRun z n k.detect.tLow (q z) sg) ∧
      d.segments = found.take 32 ∧ (d.overflow = true ↔ 32 < found.length) ∧
      ∀ z c v, stationary = false → inZone z c → r z c = some v → v ≠ 4095 →
        ((∃ sg ∈ found, sg.c0 ≤ c ∧ c ≤ sg.c1) → lookupAt 0 d.background c = b c) ∧
        ((∀ sg ∈ found, ¬ (sg.c0 ≤ c ∧ c ≤ sg.c1)) →
          lookupAt 0 d.background c = backgroundStep (b c) v k.detect.bgShift)))

/-- LINE_PROCESSED (R24, R26, R58, R61 to R63, R70 to R77, R111). Of the lane: counters, stationary reference, background,
segments, overflow counter, track table and coverage runs after the line; the processed line's buffer is FREE, a WAITING
line PROCESSING (in STOPPING FREE), an ASSEMBLING line stands. The trailer is the one request made, or waits: the lane joins
the wait list, or is on it; it comes before a STOPPING lane's held DISARM retires (R32). Unchanged are the lane's settings,
dead columns, line numbers and state left (after STOPPING the model's reading, log 27), other lanes and strands, motion,
setup, marker settings, the open billet but for its tallies, the ring's positions, the command unit (of a lane not STOPPING)
and the rest, but for the state, counts and event of O37. Strand and jobs are as the tracks that the line closes leave them,
graded by GAP in age order, then, of a STOPPING lane, those still open by DRAIN (R78, R86, R100). The track table after a
line that is not STATIONARY: each segment acts on the table the one before left, and matches no track of this line; one that
matches none opens one at the end, with the first serial from the next on that is not held (R68), or with 24 entries is
counted TRACK_FULL; one that matches tracks grows the new span of the oldest and leaves its reference, but for the younger
ones first merged into it, which widen it. Then each extended track gains one line, its new span its reference; the others
age, and those whose Gap exceeds GAP_LINES close. A segment matches a track of its zone whose reference span, widened by
LINK_GAP on both sides in plain integers, shares a column with it. A line is STATIONARY (R26) when MIN_ADVANCE is not 0, the
reference is set and the coordinate has gained less than MIN_ADVANCE on it. The governing state is the lane's, in STOPPING
that left; the trailer's status (R27) is the first of STATIONARY, TEST, SEED, OK that applies. A trailer is one beat behind
its slot's data, with its fields. -/
def Obligations.LineProcessedActsOnTheLane : Prop :=
  (∀ (i : Fin 12) (s : State) (line : Line) (copy : Copy) (g : Geometry), s.global = .running →
    (s.lane i).capture.inProcessing = some (line, copy) → (s.lane i).control.geometry = some g →
    let l := s.lane i
    let governing := l.control.governing
    let mode := lineMode governing l.control.seed copy.detect.seedLines
    let stationary := judgeStationary copy.detect.minAdvance line.coord l.capture.statRef
    let det := detectLine copy line.bytes l.detection.background mode stationary
    let acted := l.table.line copy.detect line.coord (s.strand g.strand).billet.current.start
      (decide (governing = .test)) det.segments
    let table := acted.1
    let graded := (if stationary then [] else acted.2).foldl (closeToPending i copy.detect.minLines .gap) s
    let drained := (if stationary then l.table else table).tracks.foldl (closeToPending i copy.detect.minLines .drain) graded
    let closed := if l.control.state = .stopping then drained else graded
    let next : Buffer → Buffer
      | .processing _ _ => .free
      | .waiting x => if l.control.state = .stopping then .free else .processing x l.settingsCopy
      | .assembling x => .assembling x
      | .free => .free
    let w := trailerWrite g line (processedStatus governing stationary) det.segments.length det.obscured det.overflow
      det.uncovered
    let placed (p : Path) (waiting : List Request) : Prop :=
      (g.trailers = false → p = s.path ∧ waiting = l.capture.trailers) ∧
      (g.trailers = true → Room 1 s → l.capture.trailers = [] → p = s.path.inject (w, .trailer i) ∧ waiting = []) ∧
      (g.trailers = true → .lane i ∉ s.path.waitList → s.path.waitList ≠ [] ∨ 16 ≤ s.path.injected.length →
        p = s.path.joinWait (.lane i) ∧ waiting = l.capture.trailers ++ [w]) ∧
      (g.trailers = true → .lane i ∈ s.path.waitList → p = s.path ∧ waiting = l.capture.trailers ++ [w])
    ∃ t, exec (.lineProcessed i) s = .next t ∧
      (t.lane i).capture.counters = { l.capture.counters with
        processed := min 4294967295 (l.capture.counters.processed + 1)
        stationary := if stationary then min 4294967295 (l.capture.counters.stationary + 1)
          else l.capture.counters.stationary } ∧
      (t.lane i).capture.statRef = (if stationary then l.capture.statRef else some line.coord) ∧
      (t.lane i).detection = { l.detection with
        background := det.background, segments := det.segments
        segOverflow := if det.overflow then min 4294967295 (l.detection.segOverflow + 1) else l.detection.segOverflow } ∧
      (stationary = true → det.background = l.detection.background) ∧
      (l.control.state ≠ .stopping → (t.lane i).table = if stationary then l.table else table) ∧
      (l.control.state = .stopping →
        (t.lane i).table = { (if stationary then l.table else table) with tracks := [] }) ∧
      (t.lane i).runs = (if stationary || det.uncovered then l.runs else addRun line.coord g.span l.runs) ∧
      (t.lane i).control = { l.control with
        state := (t.lane i).control.state, seed := (t.lane i).control.seed, stall := (t.lane i).control.stall } ∧
      (t.lane i).capture.nextSeq = l.capture.nextSeq ∧ (t.lane i).capture.arming = l.capture.arming ∧
      (t.lane i).capture.assembler = l.capture.assembler ∧
      (l.capture.RolesDiffer → (t.lane i).capture.bufA = next l.capture.bufA ∧
        (t.lane i).capture.bufB = next l.capture.bufB) ∧
      (t.lane i).capture.phase = l.capture.phase ∧ (t.lane i).capture.phaseFresh = l.capture.phaseFresh ∧
      (∀ j, j ≠ i → t.lane j = s.lane j) ∧ (∀ j, j ≠ g.strand → t.strand j = s.strand j) ∧
      t.strand g.strand = closed.strand g.strand ∧ t.report.jobs = closed.report.jobs ∧
      t.report.writer = closed.report.writer ∧
      (t.strand g.strand).motion = (s.strand g.strand).motion ∧
      (t.strand g.strand).setup = (s.strand g.strand).setup ∧
      (t.strand g.strand).marker.settings = (s.strand g.strand).marker.settings ∧
      (t.strand g.strand).billet.current = { (s.strand g.strand).billet.current with
        osc := (t.strand g.strand).billet.current.osc, noise := (t.strand g.strand).billet.current.noise
        dropped := (t.strand g.strand).billet.current.dropped } ∧
      t.global = s.global ∧ t.clock = s.clock ∧ t.ports = s.ports ∧ t.classify = s.classify ∧ t.loader = s.loader ∧
      t.choice = s.choice ∧ t.pending = s.pending ∧
      t.report = { s.report with
        jobs := t.report.jobs, writer := t.report.writer, events := t.report.events, lostEvents := t.report.lostEvents
        fault := t.report.fault, detail := t.report.detail, suppressed := t.report.suppressed } ∧
      t.path.pass = s.path.pass ∧ (l.control.state ≠ .stopping → t.command = s.command) ∧
      (l.control.state ≠ .stopping → placed t.path (t.lane i).capture.trailers) ∧
      (l.control.state = .stopping → ∃ u, u.command = s.command ∧
        ((∀ e, s.command.cond ≠ .executing e (some (.disarm i))) → t = u) ∧
        (∀ e, s.command.cond = .executing e (some (.disarm i)) → t = retire .done u) ∧
        placed u.path (u.lane i).capture.trailers ∧ placed u.path (t.lane i).capture.trailers)) ∧
  (∀ (m : TrackTable) (d : Detect) (coord first : Nat) (test : Bool), (∀ x ∈ m.tracks, x.newSpan = none) →
    let aged (l : List Track) := l.map fun x => { x with gap := x.gap + 1 }
    let kept (l : List Track) := (aged l).filter fun x => decide (x.gap ≤ d.gapLines)
    let closed (l : List Track) := (aged l).filter fun x => decide (d.gapLines < x.gap)
    m.line d coord first test [] = ({ m with tracks := kept m.tracks }, closed m.tracks) ∧
    (∀ sg : Segment, (∀ x ∈ m.tracks, x.matches d.linkGap sg = false) →
      (24 ≤ m.tracks.length → m.line d coord first test [sg] =
        ({ m with tracks := kept m.tracks, trackFull := min 4294967295 (m.trackFull + 1) }, closed m.tracks)) ∧
      (m.tracks.length < 24 → (∀ x ∈ m.tracks, x.serial ≠ m.nextSerial) → m.line d coord first test [sg] =
        ({ m with
            tracks := kept m.tracks ++ [{
              serial := m.nextSerial, zone := sg.zone, start := max coord first, stop := max coord first, lines := 1
              colMin := sg.c0, colMax := sg.c1, r0 := sg.c0, r1 := sg.c1, newSpan := none, peak := sg.peak
              sum := sg.sum, gap := 0, merged := 0, splitTail := false, test := test }]
            nextSerial := if 4294967295 ≤ m.nextSerial then 1 else m.nextSerial + 1 }, closed m.tracks))) ∧
    (∀ (sg : Segment) (x : Track) (pre post : List Track), m.tracks = pre ++ x :: post →
      x.matches d.linkGap sg = true → (∀ y ∈ pre ++ post, y.matches d.linkGap sg = false) →
      m.line d coord first test [sg] =
        ({ m with tracks := kept pre ++ { x with
            stop := max x.stop coord, lines := min 65535 (x.lines + 1), colMin := min x.colMin sg.c0
            colMax := max x.colMax sg.c1, r0 := sg.c0, r1 := sg.c1, peak := max x.peak sg.peak
            sum := min 16777215 (x.sum + sg.sum), gap := 0, test := x.test || test } :: kept post },
          closed pre ++ closed post)) ∧
    (∀ (sg : Segment) (x y : Track) (pre mid post : List Track), m.tracks = pre ++ x :: mid ++ y :: post →
      x.matches d.linkGap sg = true → y.matches d.linkGap sg = true →
      (∀ z ∈ pre ++ mid ++ post, z.matches d.linkGap sg = false) →
      m.line d coord first test [sg] =
        ({ m with tracks := kept pre ++ { x with
            start := min x.start y.start, stop := max (max x.stop y.stop) coord
            lines := min 65535 (min 65535 (x.lines + y.lines) + 1)
            colMin := min (min x.colMin y.colMin) sg.c0, colMax := max (max x.colMax y.colMax) sg.c1
            r0 := sg.c0, r1 := sg.c1, peak := max (max x.peak y.peak) sg.peak
            sum := min 16777215 (min 16777215 (x.sum + y.sum) + sg.sum), gap := 0
            merged := min 255 (x.merged + (1 + y.merged)), splitTail := x.splitTail || y.splitTail
            test := x.test || y.test || test } :: kept mid ++ kept post },
          closed pre ++ closed mid ++ closed post))) ∧
  (∀ (m : TrackTable) (d : Detect) (coord first : Nat) (test : Bool) (segs : List Segment),
    let taken := segs.foldl (LineTable.take d.linkGap coord first test) ⟨m.tracks, [], m.nextSerial, m.trackFull⟩
    let ended (x : Track) : Track := match x.newSpan with
      | none => { x with gap := x.gap + 1 }
      | some span => { x with stop := max x.stop coord, lines := min 65535 (x.lines + 1), r0 := span.1, r1 := span.2
                              newSpan := none, gap := 0 }
    let all := (taken.old ++ taken.fresh).map ended
    m.line d coord first test segs = (⟨all.filter fun x => decide (x.gap ≤ d.gapLines), taken.nextSerial, taken.trackFull⟩,
      all.filter fun x => decide (d.gapLines < x.gap))) ∧
  (∀ (m : LineTable) (gap coord first : Nat) (test : Bool) (sg : Segment),
    let after (n : Nat) : Nat := if 4294967295 ≤ n then 1 else n + 1
    let held (n : Nat) : Prop := ∃ x ∈ m.old ++ m.fresh, x.serial = n
    let hull (a b : Nat × Nat) : Nat × Nat := (min a.1 b.1, max a.2 b.2)
    let merged (x y : Track) : Track := { x with
      start := min x.start y.start, stop := max x.stop y.stop, lines := min 65535 (x.lines + y.lines)
      colMin := min x.colMin y.colMin, colMax := max x.colMax y.colMax, r0 := min x.r0 y.r0, r1 := max x.r1 y.r1
      newSpan := match x.newSpan, y.newSpan with
        | some a, some b => some (hull a b)
        | some a, none => some a
        | none, b => b
      peak := max x.peak y.peak, sum := min 16777215 (x.sum + y.sum), gap := min x.gap y.gap
      merged := min 255 (x.merged + (1 + y.merged)), splitTail := x.splitTail || y.splitTail, test := x.test || y.test }
    ((∀ x ∈ m.old, x.matches gap sg = false) →
      (24 ≤ m.old.length + m.fresh.length →
        m.take gap coord first test sg = { m with trackFull := min 4294967295 (m.trackFull + 1) }) ∧
      (m.old.length + m.fresh.length < 24 → ∃ k, ¬ held (after^[k] m.nextSerial) ∧ (∀ j < k, held (after^[j] m.nextSerial)) ∧
        let serial := after^[k] m.nextSerial
        m.take gap coord first test sg = { m with
          fresh := m.fresh ++ [{
            serial := serial, zone := sg.zone, start := max coord first, stop := max coord first, lines := 0
            colMin := sg.c0, colMax := sg.c1, r0 := sg.c0, r1 := sg.c1, newSpan := some (sg.c0, sg.c1), peak := sg.peak
            sum := sg.sum, gap := 0, merged := 0, splitTail := false, test := test }]
          nextSerial := after serial })) ∧
    (∀ (x : Track) (pre post : List Track), m.old = pre ++ x :: post → x.matches gap sg = true →
      (∀ y ∈ pre, y.matches gap sg = false) →
      let u := (post.filter fun y => y.matches gap sg).foldl merged x
      m.take gap coord first test sg = { m with
        old := pre ++ { u with
          newSpan := some (match u.newSpan with
            | none => (sg.c0, sg.c1)
            | some span => hull span (sg.c0, sg.c1))
          colMin := min u.colMin sg.c0, colMax := max u.colMax sg.c1, peak := max u.peak sg.peak
          sum := min 16777215 (u.sum + sg.sum), test := u.test || test } ::
            post.filter fun y => !y.matches gap sg })) ∧
  (∀ (x : Track) (gap : Nat) (sg : Segment), x.r0 ≤ x.r1 → sg.c0 ≤ sg.c1 →
    (x.matches gap sg = true ↔ sg.zone = x.zone ∧
      ∃ n : Int, sg.c0 ≤ n ∧ n ≤ sg.c1 ∧ (x.r0 : Int) - gap ≤ n ∧ n ≤ x.r1 + gap)) ∧
  (∀ (least coord : Nat) (ref : Option Nat), judgeStationary least coord ref = true ↔
    least ≠ 0 ∧ ∃ r, ref = some r ∧ coord < r + least) ∧
  (∀ c : Control, (c.state ≠ .stopping → c.governing = c.state) ∧
    (∀ x, c.state = .stopping → c.stateLeft = some x → c.governing = x)) ∧
  (∀ (st : LaneState) (stationary : Bool), processedStatus st stationary =
    if stationary then .stationary else if st = .test then .test
    else if st = .armed ∨ st = .seeding then .seed else .ok) ∧
  (∀ (g : Geometry) (l : Line) (status : TrailerStatus) (kept obscured : Nat) (overflow uncovered : Bool),
    let w := trailerWrite g l status kept obscured overflow uncovered
    w.kind = .write ∧ w.addr = g.base + l.slot * slotSize g.w + 2 * g.w ∧ w.len = 1 ∧ w.enables = [0xFFFFFFFF] ∧
    w.data.length = 32 ∧ ([.ok, .runt, .overrun, .slip, .memError, .stationary, .seed, .test] :
      List TrailerStatus).map (·.code) = [0, 1, 2, 3, 4, 5, 6, 7] ∧
    HoldsFields w.data [(0, 4, l.seq), (4, 5, l.coord), (9, 6, l.time), (15, 1, status.code),
      (16, 2, obscured), (18, 1, kept), (19, 1, overflow.toNat + 2 * uncovered.toNat), (20, 12, 0)])

/-- Lane control after a processed line (R136, R139, R140, R143, R154): the tables of the manual for a lane that is not
STOPPING; a STOPPING lane goes OFF with its table empty. Each change of state queues its LANE_STATE event with its cause and
the line's number and no change queues none; with 16 events queued it is lost and counted and raises EVENT_LOST with its
kind (R162). A WAITING line is taken into processing, or discarded in STOPPING. The DISARM held on a lane that was STOPPING
retires with DONE; any other command in hand stands. A line taken into processing brings the settings copy (R48): the lane's
detection settings, dead columns, zones, W, tap order and OBSCURE_LIMIT as they stand. The line that is ASSEMBLING, WAITING
or in processing is the one in the buffer of that role. -/
def Obligations.LineProcessedAdvancesLaneState : Prop :=
  (∀ (i : Fin 12) (s : State) (line : Line) (copy : Copy) (g : Geometry), s.global = .running →
    (s.lane i).capture.inProcessing = some (line, copy) → (s.lane i).control.geometry = some g →
    (s.lane i).capture.RolesDiffer →
    let l := s.lane i
    let stationary := judgeStationary copy.detect.minAdvance line.coord l.capture.statRef
    let event (new : LaneState) (cause : Cause) : Event :=
      .laneState i (some g.strand) l.control.state new cause line.seq s.clock
    ∃ t, exec (.lineProcessed i) s = .next t ∧
      (l.control.state ≠ .stopping →
        ((t.lane i).control.state, (t.lane i).control.seed, (t.lane i).control.stall) =
          advanced l.control.state l.control.seed l.control.stall copy.detect stationary) ∧
      (l.control.state ≠ .stopping → s.report.events.length < 16 →
        t.report.events = s.report.events ++
          match l.control.state, (t.lane i).control.state with
          | .armed, .seeding => [event .seeding .firstLine]
          | .seeding, .tracking => [event .tracking .seeded]
          | .tracking, .parked => [event .parked .stalled]
          | .parked, .tracking => [event .tracking .moving]
          | _, _ => []) ∧
      (l.control.state = .stopping → (t.lane i).control.state = .off ∧ (t.lane i).table.tracks = [] ∧
        (t.lane i).capture.inProcessing = none ∧ (t.lane i).capture.waitingLine = none) ∧
      (l.control.state = .stopping → s.report.events.length < 16 →
        t.report.events = s.report.events ++ [event .off .stopped]) ∧
      (l.control.state = .stopping → (t.lane i).control.seed = l.control.seed ∧ (t.lane i).control.stall = l.control.stall) ∧
      (s.report.events.length < 16 ∨ (t.lane i).control.state = l.control.state →
        t.report.lostEvents = s.report.lostEvents ∧ t.report.fault = s.report.fault ∧
        t.report.detail = s.report.detail ∧ t.report.suppressed = s.report.suppressed) ∧
      (16 ≤ s.report.events.length → t.report.events = s.report.events ∧
        ((t.lane i).control.state ≠ l.control.state →
          t.report.lostEvents = min 4294967295 (s.report.lostEvents + 1) ∧
          (s.report.fault = .none → t.report.fault = .eventLost ∧ t.report.detail = 1 ∧
            t.report.suppressed = s.report.suppressed) ∧
          (s.report.fault ≠ .none → t.report.fault = s.report.fault ∧ t.report.detail = s.report.detail ∧
            t.report.suppressed = min 255 (s.report.suppressed + 1)))) ∧
      (∀ e, l.control.state = .stopping → s.command.cond = .executing e (some (.disarm i)) →
        ∃ u, t = retire .done u ∧ u.command = s.command ∧ (u.lane i).control.state = .off) ∧
      ((∀ e, s.command.cond ≠ .executing e (some (.disarm i))) → t.command = s.command) ∧
      (l.control.state ≠ .stopping → (t.lane i).capture.waitingLine = none ∧
        (t.lane i).capture.inProcessing = l.capture.waitingLine.map (fun w => (w, l.settingsCopy)))) ∧
  (∀ (c : Capture) (l : Line), c.RolesDiffer →
    (c.waitingLine = some l ↔ c.bufA = .waiting l ∨ c.bufB = .waiting l) ∧
    (c.assemblingLine = some l ↔ c.bufA = .assembling l ∨ c.bufB = .assembling l) ∧
    ∀ k, c.inProcessing = some (l, k) ↔ c.bufA = .processing l k ∨ c.bufB = .processing l k) ∧
  (∀ (l : Lane) (g : Geometry) (d : Detect) (z : List Zone), l.control.geometry = some g → l.control.detect = some d →
    l.control.zones = some z → l.settingsCopy = { detect := d, dead := l.detection.dead, zones := z, w := g.w, tap := g.tap
                                                  obscureLimit := g.obscureLimit })

/-- A coverage run list (R111, R112). A line's interval starts an empty list; at or below the end of the newest run it
extends that run; above it, it is a new run after it, for which a list of 16 first merges its two oldest runs into one that
is APPROX. This keeps the list ascending, disjoint and within 16 runs. A run covers as many coordinates of [a, b) as it has
there, a figure is APPROX when a run that covers any is, and the covered count of disjoint runs never exceeds the billet, so
the limit of 1000 per mille never takes effect (R117). -/
def Obligations.CoverageRunsStayDisjoint : Prop :=
  (∀ (c span : Nat) (runs : List Run), 1 ≤ span → RunsDisjoint runs → runs.length ≤ 16 →
    RunsDisjoint (addRun c span runs) ∧ (addRun c span runs).length ≤ 16) ∧
  (∀ c span : Nat,
    let new : Run := ⟨c, c + span, false⟩
    addRun c span [] = [new] ∧
    (∀ (l : List Run) (e : Run), c ≤ e.stop → addRun c span (l ++ [e]) = l ++ [{ e with stop := max e.stop (c + span) }]) ∧
    (∀ (l : List Run) (e : Run), e.stop < c → l.length < 15 → addRun c span (l ++ [e]) = l ++ [e, new]) ∧
    (∀ (x y : Run) (l : List Run) (e : Run), e.stop < c → l.length = 13 →
      addRun c span (x :: y :: l ++ [e]) = ⟨x.start, y.stop, true⟩ :: l ++ [e, new])) ∧
  (∀ (i : Fin 12) (runs : List Run) (a b : Nat),
    (∀ r : Run, r.covers a b = (List.range (b - a)).countP fun n => decide (r.start ≤ a + n) && decide (a + n < r.stop)) ∧
    (coverageOf i runs a b).lane = i ∧
    ((coverageOf i runs a b).approx = true ↔
      ∃ r ∈ runs, r.approx = true ∧ ∃ x, r.start ≤ x ∧ x < r.stop ∧ a ≤ x ∧ x < b)) ∧
  (∀ (i : Fin 12) (runs : List Run) (a b : Nat), a < b → RunsDisjoint runs →
    (runs.map fun r => r.covers a b).sum ≤ b - a ∧
    (coverageOf i runs a b).perMille = 1000 * (runs.map fun r => r.covers a b).sum / (b - a))

/-! ### Grading -/

/-- The class and the grade (R95, R97), and what becomes of a closed track (R90 to R101), with L, Wd and the zone width by
R92 and R93: with Lines below MIN_LINES it raises the noise tally of the strand's open billet; else, TRANSVERSE, at least
OSC_SPAN_PCT of the zone wide and not above OSC_PEAK_MAX, the oscillation tally; both make no record and change nothing
more. Any other makes the record of R98 with mark state NONE, which, with the marker settings set and its grade at or above
MARK_GRADE, is offered to the marker unit and takes the state returned. A track closed by GAP or DRAIN has its record handed
to the pending list of its strand, a record refused or displaced there counted dropped (R100, R110). -/
def Obligations.ClassAndGradeFollowManual : Prop :=
  (∀ (aspect : Nat) (m : Measure),
    (m.corner = true → classOf aspect m = .corner) ∧
    (m.corner = false → aspect * m.width ≤ m.length → classOf aspect m = .longitudinal) ∧
    (m.corner = false → m.length < aspect * m.width → aspect * m.length ≤ m.width → classOf aspect m = .transverse) ∧
    (m.corner = false → m.length < aspect * m.width → m.width < aspect * m.length → classOf aspect m = .mesh)) ∧
  (∀ (c : Classify) (cls : Machine.Class) (length peak : Nat), c.g1 < c.g2 → c.g2 < c.g3 →
    gradeOf c cls length peak = min 3
      ((if peak < c.g1 then 0 else if peak < c.g2 then 1 else if peak < c.g3 then 2 else 3) +
        (if c.longLen ≤ length then 1 else 0) + (if cls = .corner then 1 else 0))) ∧
  (∀ (i : Fin 12) (minLines : Nat) (reason : CloseReason) (head : Bool) (t : Track) (s : State) (g : Geometry)
     (zones : List Zone) (z : Zone) (c : StrandSetup),
     (s.lane i).control.geometry = some g → (s.lane i).control.zones = some zones → zones[t.zone]? = some z →
     (s.strand g.strand).setup = some c →
     let u := s.strand g.strand
     let o := u.billet.current
     let withBillet (o : OpenBillet) : State := s.setStrand g.strand { u with billet := { u.billet with current := o } }
     let len := min 4294967295 ((t.stop - t.start) * 10000 / c.countsPerM)
     let wid := (t.colMax - t.colMin + 1) * g.pitch / 100
     let zoneWid := (z.last - z.first + 1) * g.pitch / 100
     let cls := classOf s.classify.aspect ⟨len, wid, zoneWid, decide (z.kind = .corner)⟩
     let shallow := cls = .transverse ∧ s.classify.oscSpanPct * zoneWid ≤ wid * 100 ∧ t.peak ≤ s.classify.oscPeakMax
     let d : Defect := {
       lane := i, strand := g.strand, serial := t.serial, cls := cls, grade := gradeOf s.classify cls len t.peak
       start := t.start, stop := t.stop, length := len, width := wid, colMin := t.colMin, colMax := t.colMax
       zone := t.zone, lines := t.lines, peak := t.peak, sum := t.sum, merged := t.merged, time := s.clock
       reason := reason, splitHead := head, splitTail := t.splitTail, straddle := false, test := t.test, mark := .none }
     let r := gradeTrack i minLines reason head t s
     (t.lines < minLines → r = (none, withBillet { o with noise := min 65535 (o.noise + 1) })) ∧
     (minLines ≤ t.lines → shallow → r = (none, withBillet { o with osc := min 65535 (o.osc + 1) })) ∧
     (minLines ≤ t.lines → ¬ shallow → u.marker.settings = none → r = (some d, s)) ∧
     (∀ m, minLines ≤ t.lines → ¬ shallow → u.marker.settings = some m →
       (d.grade < m.grade → r = (some d, s)) ∧
       (m.grade ≤ d.grade →
         r = (some { d with mark := (offerMark g.strand m d s).1 }, (offerMark g.strand m d s).2)))) ∧
  (∀ (i : Fin 12) (minLines : Nat) (reason : CloseReason) (t : Track) (s v : State),
     (gradeTrack i minLines reason false t s = (none, v) → closeToPending i minLines reason s t = v) ∧
     (∀ d, gradeTrack i minLines reason false t s = (some d, v) →
       let b := (v.strand d.strand).billet
       let l := insertWaiting d b.waiting
       closeToPending i minLines reason s t = v.setStrand d.strand { v.strand d.strand with billet := {
         waiting := l.1
         current := if l.2 then { b.current with dropped := min 65535 (b.current.dropped + 1) } else b.current } }))

/-- A record for the pending list (R108, R109): a key already held refuses it, at 64 records and a grade above the lowest
too (the model's choice where two cases of R108 meet, log 36); with room it is inserted; a full list refuses it unless its
grade is above the lowest, and then loses the record of the lowest grade with the greatest key. The key is the start, then
the lane, then the serial. The list keeps its strict key order and its size. -/
def Obligations.PendingListAdmitsByGrade : Prop :=
  (∀ a b : Defect,
    (a.keyLt b = true ↔ a.start < b.start ∨
      (a.start = b.start ∧ (a.lane < b.lane ∨ (a.lane = b.lane ∧ a.serial < b.serial)))) ∧
    (a.sameKey b = true ↔ a.start = b.start ∧ a.lane = b.lane ∧ a.serial = b.serial)) ∧
  ∀ (d : Defect) (l : List Defect), l.Pairwise (fun a b => a.keyLt b = true) → l.length ≤ 64 →
    let r := insertWaiting d l
    r.1.Pairwise (fun a b => a.keyLt b = true) ∧ r.1.length ≤ 64 ∧
    ((∃ x ∈ l, x.sameKey d = true) → r = (l, true)) ∧
    ((∀ x ∈ l, x.sameKey d = false) → l.length < 64 →
      r.2 = false ∧ r.1.length = l.length + 1 ∧ ∀ x, x ∈ r.1 ↔ x = d ∨ x ∈ l) ∧
    ((∀ x ∈ l, x.sameKey d = false) → l.length = 64 → (∀ x ∈ l, d.grade ≤ x.grade) → r = (l, true)) ∧
    ((∀ x ∈ l, x.sameKey d = false) → l.length = 64 → (∃ x ∈ l, x.grade < d.grade) →
      r.2 = true ∧ r.1.length = 64 ∧
      ∃ x ∈ l, (∀ y ∈ l, x.grade ≤ y.grade) ∧ (∀ y ∈ l, y.grade = x.grade → y = x ∨ y.keyLt x = true) ∧
        ∀ y, y ∈ r.1 ↔ y = d ∨ (y ∈ l ∧ y ≠ x))

/-! ### The report unit -/

/-- The starts of the IDLE writer with its settings set and no producer word write of 0 waiting (R160 to R162). A job start,
with no event that could be written: with free 0 the job is lost and REPORT_LOST raised with its strand; a job with an empty
group, with room for its write, has its billet record written to the slot at the write index; the mode is re-evaluated
either way. With free room, no event and no block waiting, the records of the plan of the job (R160, R161) that find places
in the injected queue are written at once, in the order of the plan, to the slots from the write index on, which advances by
one for each; for the rest the report unit waits, and each is written to the slot at the write index, in the mark state in
which it stands when its write is taken (R131). An event record start: with free room the oldest event is written as one
event record, before any job; with free 0 it waits. A record write is two whole beats in the slot, with the fields of the
tables of 12.5 and the codes of 12.1. -/
def Obligations.WriterStartsEventsThenJobs : Prop :=
  (∀ (s : State) (c : ReportSettings) (j : Job) (rest : List Job), s.global = .running →
     s.report.settings = some c → s.report.jobs = j :: rest → s.report.writer = .idle → s.report.zeros = 0 →
     let free := freeCount s.report c
     (free = 0 → s.report.fault = .none → exec .jobStart s = .next { s with report := { s.report with
       jobs := rest, mode := nextMode s.report.mode free c, lostJobs := min 4294967295 (s.report.lostJobs + 1)
       fault := .reportLost, detail := j.billet.strand.val } }) ∧
     (0 < free → s.report.events = [] → j.group = [] → Room 1 s → exec .jobStart s = .next { s with
       path := s.path.inject (recordWrite c.base s.report.writeIndex
         (.billet { j.billet with condensed := 0, dropped := min 65535 j.billet.dropped }), .record (s.report.run + 1))
       report := { s.report with
         jobs := rest, mode := nextMode s.report.mode free c, run := s.report.run + 1, writer := .writing [] 1
         writeIndex := (s.report.writeIndex + 1) % c.size } }) ∧
     (0 < free → s.report.events = [] → s.path.waitList = [] → s.path.injected.length ≤ 16 →
       s.report.writeIndex < c.size →
       let plan := planJob (nextMode s.report.mode free c) c free j
       let n := min plan.length (16 - s.path.injected.length)
       ∃ t made, exec .jobStart s = .next t ∧ t.path.injected = s.path.injected ++ made ∧
         made.map (fun e => (e.req, e.purpose, e.issue)) = (plan.take n).zipIdx.map (fun (x, m) =>
           (recordWrite c.base ((s.report.writeIndex + m) % c.size) x, .record (s.report.run + 1), none)) ∧
         t = { s with
           path := { s.path with
             injected := t.path.injected, nextOrder := s.path.nextOrder + n
             waitList := if n < plan.length then [.report] else [] }
           report := { s.report with
             jobs := rest, mode := nextMode s.report.mode free c, run := s.report.run + 1
             writer := .writing (plan.drop n) n, writeIndex := (s.report.writeIndex + n) % c.size } })) ∧
  (∀ (s : State) (c : ReportSettings) (x : Rec) (rest : List Rec) (n : Nat), s.report.settings = some c →
     s.report.zeros = 0 → s.report.writer = .writing (x :: rest) n →
     wanted .report s = some (recordWrite c.base s.report.writeIndex x, .record s.report.run) ∧
     made .report s = { s with report := { s.report with
       writer := .writing rest (n + 1), writeIndex := (s.report.writeIndex + 1) % c.size } }) ∧
  (∀ (s : State) (c : ReportSettings) (e : Event) (rest : List Event), s.global = .running →
     s.report.settings = some c → s.report.events = e :: rest → s.report.writer = .idle → s.report.zeros = 0 →
     (freeCount s.report c = 0 → exec .eventRecordStart s = .next s) ∧
     (0 < freeCount s.report c → Room 1 s → exec .eventRecordStart s = .next { s with
       path := s.path.inject (recordWrite c.base s.report.writeIndex (.event e), .record (s.report.run + 1))
       report := { s.report with
         events := rest, run := s.report.run + 1, writer := .writing [] 1
         writeIndex := (s.report.writeIndex + 1) % c.size } }) ∧
     (0 < freeCount s.report c → exec .jobStart s = .next s)) ∧
  (∀ (base n : Nat) (x : Rec), recordWrite base n x =
      { kind := .write, addr := base + 64 * n, len := 2, enables := [0xFFFFFFFF, 0xFFFFFFFF], data := recBytes x } ∧
    (recBytes x).length = 64) ∧
  (([.corner, .longitudinal, .transverse, .mesh] : List Machine.Class).map (·.code) = [0, 1, 2, 3] ∧
    ([.gap, .drain, .cut] : List CloseReason).map (·.code) = [0, 1, 2] ∧
    ([.none, .queued, .shared, .fired, .lost, .late] : List Mark).map (·.code) = [0, 1, 2, 3, 4, 5] ∧
    ([.clean, .unverified, .defective] : List Verdict).map (·.code) = [0, 1, 2] ∧
    ([.arm, .firstLine, .seeded, .stalled, .moving, .reseed, .testOn, .testOff, .disarm, .stopped, .laneReset] :
      List Cause).map (·.code) = [1, 2, 3, 4, 5, 6, 7, 8, 9, 10, 11]) ∧
  (∀ b : BilletRecord, HoldsFields (recBytes (.billet b)) [(0, 1, 1), (1, 1, b.strand.val), (2, 1, b.verdict.code),
      (3, 1, b.maxGrade), (4, 1, b.partialHead.toNat + 2 * b.test.toNat + 4 * b.approx.toNat), (5, 1, b.coverage.length),
      (6, 2, 0), (8, 4, b.serial), (12, 4, b.length), (16, 5, b.start), (21, 5, b.stop), (26, 6, b.time),
      (32, 1, b.corner), (33, 1, b.longitudinal), (34, 1, b.transverse), (35, 1, b.mesh), (36, 2, b.osc),
      (38, 2, b.noise), (40, 2, b.dropped), (42, 2, b.condensed), (44, 4, 0)] ∧
    ∀ n, n < 4 → (∀ e, b.coverage[n]? = some e → HoldsFields (recBytes (.billet b)) [(48 + 4 * n, 1, e.lane.val),
        (49 + 4 * n, 1, e.approx.toNat), (50 + 4 * n, 2, e.perMille)]) ∧
      (b.coverage[n]? = none → HoldsFields (recBytes (.billet b)) [(48 + 4 * n, 4, 0)])) ∧
  (∀ d : Defect, HoldsFields (recBytes (.defect d)) [(0, 1, 2), (1, 1, d.lane.val), (2, 1, d.strand.val),
    (3, 1, d.cls.code), (4, 1, d.grade), (5, 1, d.zone), (6, 1, d.reason.code), (7, 1, d.mark.code), (8, 4, d.serial),
    (12, 4, d.length), (16, 5, d.start), (21, 5, d.stop), (26, 6, d.time), (32, 4, d.width), (36, 2, d.colMin),
    (38, 2, d.colMax), (40, 2, d.lines), (42, 1, d.peak), (43, 1, d.merged), (44, 3, d.sum),
    (47, 1, d.splitHead.toNat + 2 * d.splitTail.toNat + 4 * d.straddle.toNat + 8 * d.test.toNat +
      16 * (decide (0 < d.merged)).toNat), (48, 16, 0)]) ∧
  (∀ (i : Fin 12) (k : Fin 6) (bound : Option (Fin 6)) (old new : LaneState) (cause : Cause) (x y z time : Nat),
    let strand : Nat := match bound with
      | none => 255
      | some k => k.val
    HoldsFields (recBytes (.event (.laneState i bound old new cause x time))) [(0, 1, 3), (1, 1, 1), (2, 1, i.val),
      (3, 1, strand), (4, 6, time), (10, 6, 0), (16, 1, old.code), (17, 1, new.code), (18, 1, cause.code), (19, 1, 0),
      (20, 4, x), (24, 40, 0)] ∧
    HoldsFields (recBytes (.event (.lineSlip i k x y z time))) [(0, 1, 3), (1, 1, 2), (2, 1, i.val), (3, 1, k.val),
      (4, 6, time), (10, 6, 0), (16, 2, x), (18, 2, 0), (20, 4, y), (24, 5, z), (29, 35, 0)] ∧
    HoldsFields (recBytes (.event (.cutRefused k x y z time))) [(0, 1, 3), (1, 1, 3), (2, 1, 255), (3, 1, k.val),
      (4, 6, time), (10, 6, 0), (16, 5, x), (21, 3, 0), (24, 4, y), (28, 4, 0), (32, 5, z), (37, 27, 0)] ∧
    HoldsFields (recBytes (.event (.reverseTravel k x y time))) [(0, 1, 3), (1, 1, 4), (2, 1, 255), (3, 1, k.val),
      (4, 6, time), (10, 6, 0), (16, 5, x), (21, 3, 0), (24, 2, y), (26, 38, 0)])

/-- The plan of a job (R160): the billet record first, then the defects in group order; in CONDENSED those below
CONDENSE_GRADE are counted condensed; of the rest the first free − 1 are written and the others counted dropped, the count
saturating. The plan never needs more than the free slots, and every record of the group is written, condensed or dropped. -/
def Obligations.JobPlanAccountsForEveryDefect : Prop :=
  ∀ (mode : Mode) (c : ReportSettings) (free : Nat) (j : Job), 1 ≤ free →
    let remaining := if mode = .condensed then j.group.filter (fun d => decide (c.condenseGrade ≤ d.grade)) else j.group
    let written := remaining.take (free - 1)
    ∃ b : BilletRecord, planJob mode c free j = .billet b :: written.map .defect ∧
      (planJob mode c free j).length ≤ free ∧
      (mode = .normal → b.condensed = 0) ∧
      (mode = .condensed → b.condensed = j.group.countP (fun d => d.grade < c.condenseGrade)) ∧
      b.dropped = min 65535 (j.billet.dropped + (remaining.length - written.length)) ∧
      (j.billet.dropped + j.group.length ≤ 65535 →
        written.length + b.condensed + (b.dropped - j.billet.dropped) = j.group.length) ∧
      { b with condensed := j.billet.condensed, dropped := j.billet.dropped } = j.billet

/-- The free count (R158) is size − 1 less the distance of the write index ahead of the consumer copy, modulo size. The mode
(R159) goes from NORMAL to CONDENSED when the free count is below HIGH_WATER, back when it is at or above LOW_WATER, and
stands otherwise. A consumer update (R158, R159): the copy moves to the value modulo the ring size when that lies between
the copy and the published producer, and to the published producer otherwise; the records between never grow, and the mode
follows the free count. While the settings are unset it is ignored. -/
def Obligations.ConsumerUpdateIsClamped : Prop :=
  (∀ (r : ReportUnit) (v : Nat), r.settings = none → r.consumerUpdate v = r) ∧
  (∀ (r : ReportUnit) (c : ReportSettings), r.writeIndex < c.size → r.consumer < c.size →
    (r.consumer ≤ r.writeIndex → freeCount r c = c.size - 1 - (r.writeIndex - r.consumer)) ∧
    (r.writeIndex < r.consumer → freeCount r c = c.size - 1 - (r.writeIndex + c.size - r.consumer)) ∧
    freeCount r c ≤ c.size - 1 ∧ (r.writeIndex + 1 + freeCount r c) % c.size = r.consumer) ∧
  (∀ (c : ReportSettings) (free : Nat),
    (free < c.high → nextMode .normal free c = .condensed) ∧ (c.high ≤ free → nextMode .normal free c = .normal) ∧
    (free < c.low → nextMode .condensed free c = .condensed) ∧ (c.low ≤ free → nextMode .condensed free c = .normal)) ∧
  (∀ (r : ReportUnit) (c : ReportSettings) (v : Nat), r.settings = some c → 0 < c.size → r.published < c.size →
    r.consumer < c.size →
    let dist (x : Nat) := (x + c.size - r.consumer) % c.size
    let r' := r.consumerUpdate v
    (dist (v % c.size) ≤ dist r.published → r'.consumer = v % c.size) ∧
    (dist r.published < dist (v % c.size) → r'.consumer = r.published) ∧
    (r'.published + c.size - r'.consumer) % c.size ≤ dist r.published ∧
    r'.mode = nextMode r.mode (freeCount r' c) c ∧ r' = { r with consumer := r'.consumer, mode := r'.mode })

/-- Faults and events (R156, R162): the first fault is held with its detail, a later one raises the suppressed count; an
event joins a queue of fewer than 16, and is lost, counted and raises EVENT_LOST with its kind otherwise. CLEAR_FAULT sets
the code to NONE, the detail and the suppressed count to 0, deasserts the FAULT line and completes DONE. -/
def Obligations.FaultsAndEventsAreHeldAndCleared : Prop :=
  (∀ (r : ReportUnit),
     (∀ code d, r.fault = .none → r.raise code d = { r with fault := code, detail := d }) ∧
     (∀ code d, r.fault ≠ .none → r.raise code d = { r with suppressed := min 255 (r.suppressed + 1) }) ∧
     (∀ e, r.events.length < 16 → r.emit e = { r with events := r.events ++ [e] }) ∧
     (∀ e, 16 ≤ r.events.length → r.fault = .none → r.emit e =
       { r with lostEvents := min 4294967295 (r.lostEvents + 1), fault := .eventLost, detail := e.kindCode }) ∧
     (∀ e, 16 ≤ r.events.length → r.fault ≠ .none → r.emit e =
       { r with lostEvents := min 4294967295 (r.lostEvents + 1), suppressed := min 255 (r.suppressed + 1) })) ∧
  (∀ s : State, inHand s = some .clearFault →
     let u : State := { s with report := { s.report with fault := .none, detail := 0, suppressed := 0 } }
     exec .clearFault s = .next (retire .done u) ∧ faultLine u = false)

/-! ### The host commands -/

/-- Retiring (R154): with room the status write and the consumer word write are made, in this order, the consumer index
advances modulo 64 and the unit is IDLE, or, where more entries are outstanding, makes the next entry read; where blocks
wait, or the queue is full or fills up, the unit joins the wait list with the rest. The status write is one beat with the
entry's two status bytes enabled, a word write one beat with the word's four bytes enabled, and the entry read takes the
whole place of 64 bytes. -/
def Obligations.RetireWritesStatusThenConsumer : Prop :=
  (∀ base n v : Nat, ∀ st : Status,
    (let w := statusWrite base n st
     w.kind = .write ∧ w.addr = base + 64 * n ∧ w.len = 1 ∧ w.enables = [0x0000000C] ∧ w.data.length = 32 ∧
     HoldsFields w.data [(2, 2, st.code)]) ∧
    (let w := consumerWordWrite base v
     w.kind = .write ∧ w.addr = base + 32 ∧ w.len = 1 ∧ w.enables = [0x00F00000] ∧ w.data.length = 32 ∧
     HoldsFields w.data [(20, 4, v)]) ∧
    (let w := producerWordWrite base v
     w.kind = .write ∧ w.addr = base + 32 ∧ w.len = 1 ∧ w.enables = [0x0F000000] ∧ w.data.length = 32 ∧
     HoldsFields w.data [(24, 4, v)]) ∧
    entryRead base n = { kind := .read, addr := base + 64 * n, len := 2, enables := [], data := [] } ∧
    ([.done, .doneClamped, .refused, .badValue, .badTarget, .incomplete, .unknown, .fetchError] : List Status).map
      (·.code) = [1, 2, 3, 4, 5, 6, 7, 8]) ∧
  ∀ (st : Status) (s : State), s.command.writes = [] →
    let base := s.controlBase
    let n := s.command.consumer
    let n' := (n + 1) % 64
    let p := (s.path.inject (statusWrite base n st, .commandWrite)).inject (consumerWordWrite base n', .commandWrite)
    (Room 2 s → s.command.producer = n' →
      retire st s = { s with path := p, command := { s.command with cond := .idle, consumer := n' } }) ∧
    (Room 3 s → s.command.producer ≠ n' →
      retire st s = { s with path := p.inject (entryRead base n', .entryRead)
                             command := { s.command with cond := .fetching true, consumer := n' } }) ∧
    (s.path.waitList = [] → s.path.injected.length = 14 → s.command.producer ≠ n' →
      retire st s = { s with path := p.joinWait .command
                             command := { s.command with cond := .fetching false, consumer := n' } }) ∧
    (s.path.waitList = [] → s.path.injected.length = 15 →
      retire st s = { s with path := (s.path.inject (statusWrite base n st, .commandWrite)).joinWait .command
                             command := { s.command with cond := .retiring st true } }) ∧
    (.command ∉ s.path.waitList → s.path.waitList ≠ [] ∨ 16 ≤ s.path.injected.length →
      retire st s = { s with path := s.path.joinWait .command
                             command := { s.command with cond := .retiring st false } })

/-- The command in hand is the one that the entry of an EXECUTING unit spells by the table of 12.4: the code is byte 0, the
target byte 1, and each parameter the unsigned integer, least significant byte first, of the bytes the table gives it; of
LANE_ZONES the zones within a count of at most 8. A code of 0 or of 0x11 and above is no command and gives UNKNOWN, and a
target out of range gives BAD_TARGET (R153, R170); nothing else is done. An entry of LANE_DEAD_COLUMNS or TEST whose action
is outside its table is answered by either row, the one of the other action doing nothing (the model's choice, log 16). -/
def Obligations.BadTargetAndUnknownDoNothing : Prop :=
  (fromLe [] = 0 ∧ (∀ (b : Byte) (bs : List Byte), fromLe (b :: bs) = b.toNat + 256 * fromLe bs) ∧
    (∀ place : List Byte, commandPart place = place.take 48) ∧
    (∀ (s : State) (c : Command), inHand s = some c ↔ ∃ e, s.command.cond = .executing e none ∧ decodeEntry e = c)) ∧
  (∀ e : List Byte,
    let f (off len : Nat) : Nat := fromLe ((e.drop off).take len)
    let t := f 1 1
    (f 0 1 = 0 ∨ 0x11 ≤ f 0 1 → decodeEntry e = .unknown (f 0 1)) ∧
    (f 0 1 = 0x01 → decodeEntry e = .laneGeometry t { strand := f 4 1, tap := f 5 1, trailers := f 6 1, w := f 8 2
                                                      n := f 10 2, base := f 12 5, pitch := f 18 2, span := f 20 2
                                                      obscureLimit := f 22 2 }) ∧
    (f 0 1 = 0x02 → (8 < f 4 1 → decodeEntry e = .laneZones t (f 4 1) []) ∧
      (f 4 1 ≤ 8 → decodeEntry e = .laneZones t (f 4 1) ((List.range (f 4 1)).map fun z =>
        { first := f (8 + 5 * z) 2, last := f (8 + 5 * z + 2) 2, kind := f (8 + 5 * z + 4) 1 }))) ∧
    (f 0 1 = 0x03 → decodeEntry e = .deadColumns t (f 4 2) (f 6 2) (f 8 1)) ∧
    (f 0 1 = 0x04 → decodeEntry e = .laneDetect t { tLow := f 4 1, tHigh := f 5 1, bgShift := f 6 1, seedLines := f 7 1
                                                    bgFloor := f 8 2, linkGap := f 10 1, gapLines := f 11 1
                                                    minLines := f 12 1, minAdvance := f 13 1, stallLines := f 14 1 }) ∧
    (f 0 1 = 0x05 → decodeEntry e = .strandSetup t { countsPerM := f 4 4, cutDist := f 8 4, reverseLimit := f 12 2
                                                     coverMin := f 14 2, rejectGrade := f 16 1 }) ∧
    (f 0 1 = 0x06 → decodeEntry e = .strandMarking t { dist := f 4 4, grade := f 8 1, holdoff := f 10 2
                                                       pulse := f 12 2, lateMax := f 14 2 }) ∧
    (f 0 1 = 0x07 → decodeEntry e = .classifySetup { aspect := f 4 1, oscSpanPct := f 5 1, oscPeakMax := f 6 1
                                                     g1 := f 7 1, g2 := f 8 1, g3 := f 9 1, longLen := f 10 2 }) ∧
    (f 0 1 = 0x08 → decodeEntry e = .reportSetup { base := f 4 5, size := f 12 4, high := f 16 2, low := f 18 2
                                                   condenseGrade := f 20 1 }) ∧
    (f 0 1 = 0x09 → decodeEntry e = .arm t) ∧ (f 0 1 = 0x0A → decodeEntry e = .disarm t) ∧
    (f 0 1 = 0x0B → decodeEntry e = .reseed t) ∧
    (f 0 1 = 0x0C → decodeEntry e = .test t (f 4 1) { base := f 6 2, depth := f 8 2, col := f 10 2, width := f 12 2
                                                      lines := f 14 1, period := f 15 1 }) ∧
    (f 0 1 = 0x0D → decodeEntry e = .snapshot) ∧ (f 0 1 = 0x0E → decodeEntry e = .clearFault) ∧
    (f 0 1 = 0x0F → decodeEntry e = .laneReset t) ∧
    (f 0 1 = 0x10 → decodeEntry e = .bayReset (decide (f 4 1 ≠ 0))) ∧
    (∀ s : State, s.command.cond = .executing e none → f 0 1 = 0 ∨ 0x11 ≤ f 0 1 →
      exec .unknownCommand s = .next (retire .unknown s))) ∧
  ∀ (s : State) (t : Nat),
    (12 ≤ t →
      (∀ p, inHand s = some (.laneGeometry t p) → exec .laneGeometry s = .next (retire .badTarget s)) ∧
      (∀ n z, inHand s = some (.laneZones t n z) → exec .laneZones s = .next (retire .badTarget s)) ∧
      (∀ f n a, inHand s = some (.deadColumns t f n a) →
        exec .deadColumnsMark s = .next (if a = 0 then s else retire .badTarget s) ∧
        exec .deadColumnsClear s = .next (if a = 1 then s else retire .badTarget s)) ∧
      (∀ d, inHand s = some (.laneDetect t d) → exec .laneDetect s = .next (retire .badTarget s)) ∧
      (inHand s = some (.arm t) → exec .arm s = .next (retire .badTarget s)) ∧
      (inHand s = some (.disarm t) → exec .disarm s = .next (retire .badTarget s)) ∧
      (inHand s = some (.reseed t) → exec .reseed s = .next (retire .badTarget s)) ∧
      (∀ a p, inHand s = some (.test t a p) →
        exec .testOn s = .next (if a = 0 then s else retire .badTarget s) ∧
        exec .testOff s = .next (if a = 1 then s else retire .badTarget s)) ∧
      (inHand s = some (.laneReset t) → exec .laneReset s = .next (retire .badTarget s))) ∧
    (6 ≤ t →
      (∀ c, inHand s = some (.strandSetup t c) → exec .strandSetup s = .next (retire .badTarget s)) ∧
      (∀ c, inHand s = some (.strandMarking t c) → exec .strandMarking s = .next (retire .badTarget s)))

/-- A geometry is accepted exactly when none of the conditions of R146 refuses it: strand, W, N, base, tap order, the
ring within 2^40 and clear of the control block, the report ring and the other lanes' rings, and fewer than four other
lanes bound to the strand. -/
def Obligations.GeometryIsAcceptedByItsConditions : Prop :=
  (∀ (i : Fin 12) (p : GeometryParams) (s : State) (g : Geometry),
    geometryOf i p s = some g ↔
      (p.strand = g.strand.val ∧ 64 ≤ p.w ∧ p.w ≤ 2048 ∧ p.w % 16 = 0 ∧ 4 ≤ p.n ∧ p.n ≤ 1024 ∧ p.base % 64 = 0 ∧
        tapOfCode p.tap = some g.tap ∧ p.base + p.n * slotSize p.w ≤ 2 ^ 40 ∧
        (∀ b, s.command.base = some b → apart p.base (p.base + p.n * slotSize p.w) b (b + 4096)) ∧
        (∀ r, s.report.settings = some r → 0 < r.size →
          apart p.base (p.base + p.n * slotSize p.w) r.base (r.base + 64 * r.size)) ∧
        (∀ j o, j ≠ i → (s.lane j).control.geometry = some o → 0 < o.n →
          apart p.base (p.base + p.n * slotSize p.w) o.base (ringEnd o)) ∧
        ((boundLanes s g.strand).filter (fun j => decide (j ≠ i))).length < 4) ∧
      g.w = p.w ∧ g.n = p.n ∧ g.base = p.base ∧ g.pitch = max 50 (min 2000 p.pitch) ∧
      g.span = max 1 (min 4095 p.span) ∧ g.obscureLimit = max 1 (min 1000 p.obscureLimit) ∧
      g.trailers = decide (p.trailers ≠ 0)) ∧
  (∀ (n : Nat) (tap : TapOrder), tapOfCode n = some tap ↔
    (n = 0 ∧ tap = .linear) ∨ (n = 1 ∧ tap = .mirrored) ∨ (n = 2 ∧ tap = .interleaved)) ∧
  (∀ (s : State) (k : Fin 6), (boundLanes s k).Pairwise (· < ·) ∧
    ∀ j, j ∈ boundLanes s k ↔ ∃ o, (s.lane j).control.geometry = some o ∧ o.strand = k)

/-- LANE_GEOMETRY (R145, R146, R113): refused while the lane is not OFF; BAD_VALUE when a condition fails; otherwise the
geometry is replaced, the runs are emptied, ZONES is cleared when W changes, and a lane that leaves a strand in whose
open billet it is active is taken out of it with Lane left set. Nothing else changes. -/
def Obligations.LaneGeometryReplacesOffLane : Prop :=
  ∀ (s : State) (i : Fin 12) (p : GeometryParams), inHand s = some (.laneGeometry i.val p) →
    let l := s.lane i
    ((s.lane i).control.state ≠ .off → exec .laneGeometry s = .next (retire .refused s)) ∧
    ((s.lane i).control.state = .off → geometryOf i p s = none → exec .laneGeometry s = .next (retire .badValue s)) ∧
    (∀ g, (s.lane i).control.state = .off → geometryOf i p s = some g →
      let st := if 50 ≤ p.pitch ∧ p.pitch ≤ 2000 ∧ 1 ≤ p.span ∧ p.span ≤ 4095 ∧ 1 ≤ p.obscureLimit ∧
        p.obscureLimit ≤ 1000 then Status.done else Status.doneClamped
      let new : Lane := { l with
        control := { l.control with
          geometry := some g
          zones := if (∃ o, l.control.geometry = some o ∧ o.w = g.w) then l.control.zones else none }
        runs := [] }
      ((∀ o, l.control.geometry = some o → o.strand = g.strand ∨ i ∉ (s.strand o.strand).billet.current.active) →
        exec .laneGeometry s = .next (retire st (s.setLane i new))) ∧
      (∀ o, l.control.geometry = some o → o.strand ≠ g.strand → i ∈ (s.strand o.strand).billet.current.active →
        exec .laneGeometry s = .next (retire st ((s.setLane i new).setStrand o.strand { s.strand o.strand with
          billet := { (s.strand o.strand).billet with current := { (s.strand o.strand).billet.current with
            laneLeft := true
            active := (s.strand o.strand).billet.current.active.filter (· ≠ i) } } }))))

/-- LANE_ZONES (R145, R147): refused while the lane is not OFF or has no geometry; a count outside 1 to 8, a kind outside
the table, a zone with First above Last or Last beyond W, or a First not above the Last before it give BAD_VALUE; otherwise
the zone table is replaced. -/
def Obligations.LaneZonesReplacesTable : Prop :=
  ∀ (s : State) (i : Fin 12) (count : Nat) (zones : List ZoneParams),
    inHand s = some (.laneZones i.val count zones) →
    ((s.lane i).control.state ≠ .off ∨ (s.lane i).control.geometry = none →
      exec .laneZones s = .next (retire .refused s)) ∧
    (∀ g, (s.lane i).control.state = .off → (s.lane i).control.geometry = some g →
      (count = 0 ∨ 8 < count → exec .laneZones s = .next (retire .badValue s)) ∧
      ((∃ z ∈ zones, 3 ≤ z.kind ∨ z.last < z.first ∨ g.w ≤ z.last) →
        exec .laneZones s = .next (retire .badValue s)) ∧
      ((∃ n a b, zones[n]? = some a ∧ zones[n + 1]? = some b ∧ b.first ≤ a.last) →
        exec .laneZones s = .next (retire .badValue s)) ∧
      (1 ≤ count → count ≤ 8 → (∀ z ∈ zones, z.kind < 3 ∧ z.first ≤ z.last ∧ z.last < g.w) →
        zones.Pairwise (fun a b => a.last < b.first) →
        exec .laneZones s = .next (retire .done (s.setLane i { s.lane i with control := { (s.lane i).control with
          zones := some (zones.map fun z => ⟨z.first, z.last,
            if z.kind = 0 then .face else if z.kind = 1 then .corner else .ignore⟩) } }))))

/-- LANE_DEAD_COLUMNS (R65), in every lane state: a count of 0 or a run beyond column 2047 gives BAD_VALUE; otherwise MARK
makes the columns of the run DEAD and CLEAR makes them LIVE, and every other column keeps its flag. An action that is
neither (R170) gives BAD_VALUE, whatever the run; that either row answers it is the model's choice (log 16). LANE_DETECT
(R64, R145), in every lane state: each value is replaced by the nearest end of its range, T_HIGH against T_LOW after its own
replacement; DONE_CLAMPED when a value was replaced. Nothing else changes. -/
def Obligations.DetectionSettingsAreReplaced : Prop :=
  (∀ (s : State) (i : Fin 12) (first count : Nat),
     let d := (s.lane i).detection
     let withDead (m : List Nat) : State := s.setLane i { s.lane i with detection := { d with dead := m } }
     (inHand s = some (.deadColumns i.val first count 1) →
       (count = 0 ∨ 2048 < first + count → exec .deadColumnsMark s = .next (retire .badValue s)) ∧
       (1 ≤ count → first + count ≤ 2048 → ∃ m, exec .deadColumnsMark s = .next (retire .done (withDead m)) ∧
         ∀ c, c ∈ m ↔ c ∈ d.dead ∨ (first ≤ c ∧ c < first + count))) ∧
     (inHand s = some (.deadColumns i.val first count 0) →
       (count = 0 ∨ 2048 < first + count → exec .deadColumnsClear s = .next (retire .badValue s)) ∧
       (1 ≤ count → first + count ≤ 2048 → ∃ m, exec .deadColumnsClear s = .next (retire .done (withDead m)) ∧
         ∀ c, c ∈ m ↔ c ∈ d.dead ∧ ¬ (first ≤ c ∧ c < first + count))) ∧
     (∀ action, 2 ≤ action → inHand s = some (.deadColumns i.val first count action) →
       exec .deadColumnsMark s = .next (retire .badValue s) ∧ exec .deadColumnsClear s = .next (retire .badValue s))) ∧
  (∀ (s : State) (i : Fin 12) (d : Detect), inHand s = some (.laneDetect i.val d) →
     let low := max 1 (min 254 d.tLow)
     let h : Detect := ⟨low, max low (min 255 d.tHigh), max 2 (min 7 d.bgShift), max 1 (min 1023 d.bgFloor),
       max 4 (min 64 d.seedLines), min 7 d.linkGap, min 15 d.gapLines, max 1 (min 64 d.minLines), min 255 d.minAdvance,
       max 1 (min 255 d.stallLines)⟩
     exec .laneDetect s = .next (retire (if h = d then .done else .doneClamped)
       (s.setLane i { s.lane i with control := { (s.lane i).control with detect := some h } })))

/-- STRAND_SETUP (R145, R148) and STRAND_MARKING (R132): refused while a bound lane is not OFF, or while the marker queue
holds an entry or the unit is in PULSE; otherwise each value is brought into range and the settings are set. A STRAND_MARKING
is taken on the state that the strand's offers and pulse end leave: what is still due of the last increment (the model's held
sample, log 7, and pulse end, log 8) comes about first, whether or not its own command has brought a part of it, and where
nothing is due the state stands. -/
def Obligations.StrandSettingsAreClampedOrRefused : Prop :=
  ∀ (s : State) (k : Fin 6),
    (∀ c, inHand s = some (.strandSetup k.val c) →
      let h : StrandSetup := ⟨max 1000 (min 100000 c.countsPerM), min 16777215 c.cutDist,
        max 1 (min 65535 c.reverseLimit), min 1000 c.coverMin, max 1 (min 3 c.rejectGrade)⟩
      ((∃ i, (s.lane i).binding = some k ∧ (s.lane i).control.state ≠ .off) →
        exec .strandSetup s = .next (retire .refused s)) ∧
      ((∀ i, (s.lane i).binding = some k → (s.lane i).control.state = .off) →
        exec .strandSetup s = .next (retire (if h = c then .done else .doneClamped)
          (s.setStrand k { s.strand k with setup := some h })))) ∧
    (∀ c, inHand s = some (.strandMarking k.val c) →
      let h : MarkSettings := ⟨min 16777215 c.dist, max 1 (min 4 c.grade), min 65535 c.holdoff,
        max 1 (min 1000 c.pulse), min 65535 c.lateMax⟩
      let u := finishSample s k
      ((u.strand k).marker.queue ≠ [] ∨ (u.strand k).marker.pulsing = true →
        exec .strandMarking s = .next (retire .refused u)) ∧
      ((u.strand k).marker.queue = [] → (u.strand k).marker.pulsing = false →
        exec .strandMarking s = .next (retire (if h = c then .done else .doneClamped)
          (u.setStrand k { u.strand k with marker := { (u.strand k).marker with settings := some h } })))) ∧
    ((s.strand k).motion.pairDue = none → (s.strand k).motion.cutDue = none →
      ((s.strand k).marker.pulsing = true → ∀ m, (s.strand k).marker.settings = some m →
        (s.clock + 2 ^ 48 - (s.strand k).marker.pulseStart) % 2 ^ 48 < 1000 * m.pulse) → finishSample s k = s) ∧
    (s.global = .running → (s.strand k).motion.pairDue = none → (s.strand k).motion.cutDue = none →
      exec (.pulseEnd k) s = .next (finishSample s k)) ∧
    (∀ v, (∃ p, exec (.forwardStep k p) s = .next v) ∨ exec (.cutEvent k) s = .next v →
      finishSample v k = finishSample s k)

/-- CLASSIFY_SETUP (R103): invalid thresholds give BAD_VALUE and change nothing; otherwise the seven values replace the
settings, the other four brought into range. The defaults are those of the rule's table. -/
def Obligations.ClassifySetupChecksThresholds : Prop :=
  State.reset.classify = ⟨3, 60, 40, 48, 96, 160, 500⟩ ∧
  ∀ (s : State) (c : Classify), inHand s = some (.classifySetup c) →
    let valid := 1 ≤ c.g1 ∧ c.g1 < c.g2 ∧ c.g2 < c.g3 ∧ c.g3 ≤ 255
    let h : Classify := ⟨max 1 (min 15 c.aspect), max 10 (min 100 c.oscSpanPct), max 1 (min 255 c.oscPeakMax), c.g1, c.g2,
      c.g3, max 1 (min 65535 c.longLen)⟩
    (¬ valid → exec .classifySetup s = .next (retire .badValue s)) ∧
    (valid → exec .classifySetup s = .next (retire (if h = c then .done else .doneClamped) { s with classify := h }))

/-- REPORT_SETUP (R157): refused while a lane is not OFF or the writer is not IDLE; BAD_VALUE when a condition fails: the
size, the base, the water marks, the end beyond 2^40, an overlap with the control block or with a lane's ring. Otherwise the
settings are replaced, CONDENSE_GRADE brought into range, the positions are 0, the mode is NORMAL, the queued jobs and
events stay, a producer word write of 0 is made, at once where there is room, or the report unit waits with it, before the
command unit where that waits too (the model's choice, log 34), and the command retires. -/
def Obligations.ReportSetupStartsTheRing : Prop :=
  ∀ (s : State) (c : ReportSettings), inHand s = some (.reportSetup c) →
    ((∃ i, (s.lane i).control.state ≠ .off) ∨ s.report.writer ≠ .idle →
      exec .reportSetup s = .next (retire .refused s)) ∧
    ((∀ i, (s.lane i).control.state = .off) → s.report.writer = .idle →
      ((c.size ∉ [256, 512, 1024, 2048, 4096, 8192, 16384, 32768, 65536] ∨ c.base % 64 ≠ 0 ∨ c.low ≤ c.high ∨
          c.size ≤ c.low ∨ 2 ^ 40 < c.base + 64 * c.size ∨
          (∃ b, s.command.base = some b ∧ ¬ apart c.base (c.base + 64 * c.size) b (b + 4096)) ∨
          (∃ i g, (s.lane i).control.geometry = some g ∧ 0 < g.n ∧
            ¬ apart c.base (c.base + 64 * c.size) g.base (ringEnd g))) →
        exec .reportSetup s = .next (retire .badValue s)) ∧
      (c.size ∈ [256, 512, 1024, 2048, 4096, 8192, 16384, 32768, 65536] → c.base % 64 = 0 → c.high < c.low →
        c.low ≤ c.size - 1 → c.base + 64 * c.size ≤ 2 ^ 40 →
        (∀ b, s.command.base = some b → apart c.base (c.base + 64 * c.size) b (b + 4096)) →
        (∀ i g, (s.lane i).control.geometry = some g → apart c.base (c.base + 64 * c.size) g.base (ringEnd g)) →
        let h : ReportSettings := { c with condenseGrade := max 1 (min 3 c.condenseGrade) }
        let st := if h = c then Status.done else Status.doneClamped
        (∃ u, exec .reportSetup s = .next (retire st u) ∧
          u = { s with path := u.path, report := { s.report with
            settings := some h, writeIndex := 0, published := 0, consumer := 0, mode := .normal
            zeros := u.report.zeros } }) ∧
        (Room 1 s → s.report.zeros = 0 → exec .reportSetup s = .next (retire st { s with
          path := s.path.inject (producerWordWrite s.controlBase 0, .producerZero)
          report := { s.report with
            settings := some h, writeIndex := 0, published := 0, consumer := 0, mode := .normal } })) ∧
        (let waits (p : Path) : State := { s with
           path := p
           report := { s.report with
             settings := some h, writeIndex := 0, published := 0, consumer := 0, mode := .normal
             zeros := s.report.zeros + 1 } }
         (.report ∉ s.path.waitList → s.path.waitList ≠ [] ∨ 16 ≤ s.path.injected.length →
           exec .reportSetup s = .next (retire st (waits (s.path.joinWait .report)))) ∧
         (.report ∈ s.path.waitList → exec .reportSetup s = .next (retire st (waits s.path))))))

/-- ARM (R138, R33, R66): REFUSED unless the part is RUNNING and the lane OFF; INCOMPLETE while a member of the
settings-complete set is missing; otherwise the lane passes to ARMED with its blocks at their ARM values, joins the active
lanes of its strand's open billet (those that were and this one, kept ascending) and emits LANE_STATE (where the event queue
has room). -/
def Obligations.ArmPreparesTheLane : Prop :=
  (∀ (s : State) (i : Fin 12), inHand s = some (.arm i.val) →
    let l := s.lane i
    (s.global ≠ .running ∨ l.control.state ≠ .off → exec .arm s = .next (retire .refused s)) ∧
    (s.global = .running → l.control.state = .off →
      (l.control.geometry = none ∨ l.control.zones = none ∨ l.control.detect = none ∨ s.report.settings = none ∨
        (∃ g, l.control.geometry = some g ∧ (s.strand g.strand).setup = none)) →
      exec .arm s = .next (retire .incomplete s)) ∧
    (∀ g, s.global = .running → l.control.state = .off → l.control.geometry = some g → l.control.zones ≠ none →
      l.control.detect ≠ none → s.report.settings ≠ none → (s.strand g.strand).setup ≠ none →
      s.report.events.length < 16 →
      let t := s.strand g.strand
      exec .arm s = .next (retire .done { (s.setLane i { l with
          control := { l.control with state := .armed, stateLeft := none, seed := 0, stall := 0 }
          capture := { l.capture with assembler := .noSlot, bufA := .free, bufB := .free, nextSeq := 1
                                      arming := (l.capture.arming + 1) % 2 ^ 32, statRef := none }
          detection := { l.detection with background := [], segments := [] }
          table := { l.table with tracks := [] }
          runs := [] }).setStrand g.strand { t with billet := { t.billet with current :=
            { t.billet.current with active := insertLane t.billet.current.active i } } } with
        report := { s.report with events := s.report.events ++
          [.laneState i (some g.strand) .off .armed .arm 0 s.clock] } }))) ∧
  (∀ (l : List (Fin 12)) (i : Fin 12), (∀ j, j ∈ insertLane l i ↔ j = i ∨ j ∈ l) ∧
    (l.Pairwise (· < ·) → (insertLane l i).Pairwise (· < ·)))

/-- DISARM (R143, R32, R86): an OFF lane is DONE with no change; a lane with no line in processing goes OFF with its
assembly abandoned and its open tracks drained: each is graded with reason DRAIN and handed to the pending list, in age
order; with none open nothing else changes; a lane with a line in processing goes to STOPPING with the state left recorded,
and the command is held (where the event queue has room). Of the buffers the one that is ASSEMBLING becomes FREE, and a lane
with none loses none. -/
def Obligations.DisarmStopsTheLane : Prop :=
  (∀ (s : State) (i : Fin 12) (e : List Byte), s.command.cond = .executing e none → decodeEntry e = .disarm i.val →
    let l := s.lane i
    let event (new : LaneState) : Event := .laneState i l.binding l.control.state new .disarm 0 s.clock
    (l.control.state = .off → exec .disarm s = .next (retire .done s)) ∧
    (l.control.state ≠ .off → l.capture.inProcessing = none → l.table.tracks = [] → s.report.events.length < 16 →
      exec .disarm s = .next (retire .done { s.setLane i { l with
          control := { l.control with state := .off }
          capture := { l.capture.putAssembling .free with assembler := .noSlot } } with
        report := { s.report with events := s.report.events ++ [event .off] } })) ∧
    (∀ d, l.control.state ≠ .off → l.capture.inProcessing = none → l.control.detect = some d →
      s.report.events.length < 16 →
      let u := l.table.tracks.foldl (closeToPending i d.minLines .drain) (s.setLane i { l with
        capture := { l.capture.putAssembling .free with assembler := .noSlot }
        table := { l.table with tracks := [] } })
      exec .disarm s = .next (retire .done { u.setLane i { u.lane i with
          control := { (u.lane i).control with state := .off } } with
        report := { u.report with events := s.report.events ++ [event .off] } })) ∧
    (∀ line copy, l.control.state ≠ .off → l.capture.inProcessing = some (line, copy) → s.report.events.length < 16 →
      exec .disarm s = .next { s.setLane i { l with
          control := { l.control with state := .stopping, stateLeft := some l.control.state }
          capture := { l.capture.putAssembling .free with assembler := .noSlot } } with
        report := { s.report with events := s.report.events ++ [event .stopping] }
        command := { s.command with cond := .executing e (some (.disarm i)) } })) ∧
  (∀ (c : Capture) (b : Buffer),
    (∀ l, c.bufA = .assembling l → c.putAssembling b = { c with bufA := b }) ∧
    (∀ l, (∀ x, c.bufA ≠ .assembling x) → c.bufB = .assembling l → c.putAssembling b = { c with bufB := b }) ∧
    ((∀ l, c.bufA ≠ .assembling l ∧ c.bufB ≠ .assembling l) → c.putAssembling b = c))

/-- RESEED (R141) is refused in OFF and STOPPING; the seed count becomes 0; TRACKING and PARKED pass to SEEDING; the other
states stay and emit nothing. TEST (R142) is refused in OFF and STOPPING; ON brings the six parameters into range, clears
seed count and pattern phase and enters TEST with TEST seen set in the strand's open billet, or replaces the parameters of a
lane in TEST; OFF takes a lane in TEST to SEEDING and changes no other. An action that is neither (R170) is REFUSED in OFF
and STOPPING and gives BAD_VALUE in every other state; that either row answers it is the model's choice (log 16). LANE_STATE
is queued where a state changes (where the event queue has room). -/
def Obligations.ReseedAndTestChangeTheLane : Prop :=
  (∀ (s : State) (i : Fin 12), inHand s = some (.reseed i.val) →
     let l := s.lane i
     (l.control.state = .off ∨ l.control.state = .stopping → exec .reseed s = .next (retire .refused s)) ∧
     (l.control.state = .armed ∨ l.control.state = .seeding ∨ l.control.state = .test →
       exec .reseed s = .next (retire .done (s.setLane i { l with control := { l.control with seed := 0 } }))) ∧
     (l.control.state = .tracking ∨ l.control.state = .parked → s.report.events.length < 16 →
       exec .reseed s = .next (retire .done { s.setLane i { l with control :=
           { l.control with seed := 0, state := .seeding } } with
         report := { s.report with events := s.report.events ++
           [.laneState i l.binding l.control.state .seeding .reseed 0 s.clock] } }))) ∧
  (∀ (s : State) (i : Fin 12) (p : TestParams) (g : Geometry), (s.lane i).control.geometry = some g →
     let l := s.lane i
     let h : TestParams := ⟨min 4094 p.base, min 4095 p.depth, min (g.w - 1) p.col, max 1 (min g.w p.width),
       max 1 (min (max 1 (min 255 p.period)) p.lines), max 1 (min 255 p.period)⟩
     let st := if h = p then Status.done else Status.doneClamped
     let on : Lane := { l with control := { l.control with test := some h, seed := 0 }
                               capture := { l.capture with phase := 0, phaseFresh := true } }
     let t := s.strand g.strand
     (inHand s = some (.test i.val 1 p) →
       (l.control.state = .off ∨ l.control.state = .stopping → exec .testOn s = .next (retire .refused s)) ∧
       (l.control.state = .test → exec .testOn s = .next (retire st (s.setLane i on))) ∧
       (l.control.state ≠ .off → l.control.state ≠ .stopping → l.control.state ≠ .test → s.report.events.length < 16 →
         exec .testOn s = .next (retire st { (s.setLane i { on with control := { on.control with state := .test }
             }).setStrand g.strand { t with billet := { t.billet with current :=
               { t.billet.current with testSeen := true } } } with
           report := { s.report with events := s.report.events ++
             [.laneState i (some g.strand) l.control.state .test .testOn 0 s.clock] } }))) ∧
     (inHand s = some (.test i.val 0 p) →
       (l.control.state = .off ∨ l.control.state = .stopping → exec .testOff s = .next (retire .refused s)) ∧
       (l.control.state = .test → s.report.events.length < 16 →
         exec .testOff s = .next (retire .done { s.setLane i { l with control :=
             { l.control with seed := 0, state := .seeding } } with
           report := { s.report with events := s.report.events ++
             [.laneState i (some g.strand) .test .seeding .testOff 0 s.clock] } })) ∧
       (l.control.state ≠ .off → l.control.state ≠ .stopping → l.control.state ≠ .test →
         exec .testOff s = .next (retire .done s)))) ∧
  (∀ (s : State) (i : Fin 12) (action : Nat) (p : TestParams), 2 ≤ action → inHand s = some (.test i.val action p) →
     let st := if (s.lane i).control.state = .off ∨ (s.lane i).control.state = .stopping then Status.refused else .badValue
     exec .testOn s = .next (retire st s) ∧ exec .testOff s = .next (retire st s))

/-- SNAPSHOT (R154, R155), with none waiting and no entry outstanding after it: the requests made are the area writes of the
values captured at this event, then the status write and the consumer word write, as far as the injected queue has places.
Where the places run out the command unit is on the wait list with what is left: the area writes still to be made in
EXECUTING, or the status or the consumer word write in RETIRING; otherwise it is IDLE at the next entry. Nothing outside the
path unit and the command unit changes (but the model's choice counter). That each area write begins and ends with a beat of
which it enables bytes is the model's choice (log 40). -/
def Obligations.SnapshotMakesItsAreaWrites : Prop :=
  ∀ (s : State), inHand s = some .snapshot → s.command.writes = [] → s.path.waitList = [] →
    s.path.injected.length ≤ 16 → s.command.producer = (s.command.consumer + 1) % 64 →
    ∃ t made, exec .snapshot s = .next t ∧
      t = { s with path := t.path, command := t.command, choice := s.choice + 1 } ∧
      t.path.injected = s.path.injected ++ made ∧ t.path.pass = s.path.pass ∧
      made.map (·.req) = (snapshotWrites s ++ [statusWrite s.controlBase s.command.consumer .done,
        consumerWordWrite s.controlBase ((s.command.consumer + 1) % 64)]).take (16 - s.path.injected.length) ∧
      (∀ e ∈ made, e.purpose = .commandWrite ∧ e.issue = none) ∧
      (let area := snapshotWrites s
       let room := 16 - s.path.injected.length
       ∀ e, s.command.cond = .executing e none → (t.path.waitList, t.command) =
         if room < area.length then
           ([.command], { s.command with writes := area.drop room, cond := .executing e (some .snapshot) })
         else if room = area.length then ([.command], { s.command with cond := .retiring .done false })
         else if room = area.length + 1 then ([.command], { s.command with cond := .retiring .done true })
         else ([], { s.command with cond := .idle, consumer := (s.command.consumer + 1) % 64 }))

/-- The area writes of a SNAPSHOT (R155, R169, R170), however they are cut: they come in rising address order, none reaching
the next; each has 1 to 16 beats and enables only stripe bytes of places outside the preset section, each with the value
captured, and every status byte of those places is in one of the writes. That place 63, which no section names, is written
with its zero bytes is the model's choice (log 13); so is where a write begins and ends (log 40). The captured bay, lane and
strand sections hold the fields of the table of 12.3 and the codes of 12.1. -/
def Obligations.SnapshotWritesStripesOnly : Prop :=
  (∀ (s : State) (i : Fin 12) (k : Fin 6),
    let r := s.report
    let l := s.lane i
    let c := l.capture.counters
    let t := s.strand k
    let o := 80 + 48 * i.val
    let p := 656 + 56 * k.val
    let counts := (allLanes.filter fun j => decide ((s.lane j).binding = some k)).map fun j => (s.lane j).runs.length
    let strand : Nat := match l.control.geometry with
      | none => 255
      | some g => g.strand.val
    (snapshotArea s).length = 1008 ∧
    ([.off, .armed, .seeding, .tracking, .parked, .test, .stopping] : List LaneState).map (·.code) =
      [0, 1, 2, 3, 4, 5, 6] ∧
    ([.none, .injectWriteError, .fetchError, .reportLost, .eventLost, .presetFailed] : List FaultCode).map (·.code) =
      [0, 1, 2, 3, 4, 5] ∧
    ([.normal, .condensed] : List Mode).map (·.code) = [0, 1] ∧
    HoldsFields (snapshotArea s) [(0, 6, s.clock), (6, 1, s.command.consumer), (7, 1, r.mode.code),
      (8, 4, s.command.foreign), (12, 2, r.writeIndex), (14, 2, r.published), (16, 2, r.consumer), (18, 1, r.jobs.length),
      (19, 1, r.events.length), (20, 4, r.lostJobs), (24, 4, r.lostEvents), (28, 1, r.fault.code), (29, 1, r.detail),
      (30, 1, r.suppressed), (31, 1, 0), (992, 16, 0)] ∧
    HoldsFields (snapshotArea s) [(o, 1, l.control.state.code), (o + 1, 1, strand), (o + 2, 1, l.control.seed),
      (o + 3, 1, l.control.stall), (o + 4, 4, c.processed), (o + 8, 4, c.runt), (o + 12, 4, c.overrun),
      (o + 16, 4, c.slip), (o + 20, 4, c.outOfSeq), (o + 24, 4, c.trailerWrites), (o + 28, 4, c.memErrors),
      (o + 32, 4, c.stationary), (o + 36, 4, l.detection.segOverflow), (o + 40, 4, l.table.trackFull),
      (o + 44, 1, l.table.tracks.length), (o + 45, 3, 0)] ∧
    HoldsFields (snapshotArea s) [(p, 5, t.motion.coord), (p + 5, 1, t.marker.pulsing.toNat), (p + 6, 2, t.motion.debt),
      (p + 8, 4, t.motion.encErrors), (p + 12, 4, t.billet.current.serial), (p + 16, 5, t.billet.current.start),
      (p + 21, 1, t.billet.waiting.length), (p + 22, 2, t.billet.current.osc), (p + 24, 2, t.billet.current.noise),
      (p + 26, 2, t.billet.current.dropped), (p + 28, 1, counts.getD 0 255), (p + 29, 1, counts.getD 1 255),
      (p + 30, 1, counts.getD 2 255), (p + 31, 1, counts.getD 3 255), (p + 32, 5, t.marker.lastFired.getD 0),
      (p + 37, 1, t.marker.lastFired.isSome.toNat), (p + 38, 1, t.marker.queue.length), (p + 39, 1, 0),
      (p + 40, 4, t.marker.fired), (p + 44, 4, t.marker.lost), (p + 48, 4, t.marker.late), (p + 52, 4, 0)]) ∧
  ∀ (s : State),
    (snapshotWrites s).Pairwise (fun a b => a.addr + 32 * a.len ≤ b.addr) ∧
    (∀ w ∈ snapshotWrites s, w.kind = .write ∧ 1 ≤ w.len ∧ w.len ≤ 16 ∧ w.enables.length = w.len ∧
      w.data.length = 32 * w.len ∧ s.controlBase ≤ w.addr ∧
      ∀ n, n < 32 * w.len → (w.enables.getD (n / 32) 0).getLsbD (n % 32) = true →
        let o := w.addr - s.controlBase + n
        48 ≤ o % 64 ∧ 1 ≤ o / 64 ∧ o / 64 ≤ 63 ∧ (o / 64 < 3 ∨ 5 < o / 64) ∧
        w.data.getD n 0 = (snapshotArea s).getD (16 * (o / 64 - 1) + (o % 64 - 48)) 0) ∧
    (∀ sb, sb < 1008 → sb < 32 ∨ 80 ≤ sb → ∃ w ∈ snapshotWrites s, ∃ n, n < 32 * w.len ∧
      w.addr + n = s.controlBase + statusOffset sb ∧ (w.enables.getD (n / 32) 0).getLsbD (n % 32) = true)

/-- LANE_RESET (R149, R33, R66, R88, R113): the lane is OFF with its settings and its next track serial kept and
everything else of it at the reset values, its trailer request withdrawn from the wait list; LANE_STATE is emitted if the
lane was armed (where the event queue has room). Marker, open billet and the other lanes are unchanged. -/
def Obligations.LaneResetKeepsSettings : Prop :=
  ∀ (s : State) (i : Fin 12), inHand s = some (.laneReset i.val) →
    let l := s.lane i
    let new : Lane := {
      control := ⟨.off, none, 0, 0, l.control.geometry, l.control.zones, l.control.detect, none⟩
      capture := { Capture.initial with arming := (l.capture.arming + 1) % 2 ^ 32 }
      detection := ⟨[], l.detection.dead, [], 0⟩
      table := ⟨[], l.table.nextSerial, 0⟩
      runs := [] }
    let u : State := { s.setLane i new with
      path := { s.path with waitList := s.path.waitList.filter (· ≠ .lane i) } }
    (l.control.state = .off → exec .laneReset s = .next (retire .done u)) ∧
    (l.control.state ≠ .off → s.report.events.length < 16 → exec .laneReset s = .next (retire .done { u with
      report := { s.report with events := s.report.events ++
        [.laneState i l.binding l.control.state .off .laneReset 0 s.clock] } }))

/-- BAY_RESET (R163 and the tables it names): with a place free the producer word write of 0 is made, and with none the
report unit waits with it, before the command unit (the model's choice, log 34); then the command retires DONE. Every lane
is OFF, empty and with its arming number raised; settings stay only with KEEP; every strand keeps its coordinate, debt,
reference pair and reverse report and opens billet 1 there; the report unit is emptied with its fault kept; traffic, clock,
classification settings and command unit are unchanged. -/
def Obligations.BayResetResetsTheBay : Prop :=
  ∀ (s : State) (keep : Bool), inHand s = some (.bayReset keep) →
    ∃ u, exec .bayReset s = .next (retire .done u) ∧
      (s.path.injected.length < 16 →
        u.path = { s.path with waitList := [] }.inject (producerWordWrite s.controlBase 0, .producerZero)) ∧
      (16 ≤ s.path.injected.length → u.path = { s.path with waitList := [.report] }) ∧
      (∀ i, u.lane i = {
        control := ⟨.off, none, 0, 0, if keep then (s.lane i).control.geometry else none,
          if keep then (s.lane i).control.zones else none, if keep then (s.lane i).control.detect else none, none⟩
        capture := { Capture.initial with arming := ((s.lane i).capture.arming + 1) % 2 ^ 32 }
        detection := ⟨[], if keep then (s.lane i).detection.dead else [], [], 0⟩
        table := ⟨[], 1, 0⟩
        runs := [] }) ∧
      (∀ k, (u.strand k).setup = (if keep then (s.strand k).setup else none) ∧
        (u.strand k).motion = { (s.strand k).motion with encErrors := 0 } ∧
        (u.strand k).billet = ⟨⟨1, (s.strand k).motion.coord, true, false, false, [], 0, 0, 0⟩, []⟩ ∧
        (u.strand k).marker = { Marker.initial with settings := if keep then (s.strand k).marker.settings else none }) ∧
      u.report = { ReportUnit.initial with
        settings := if keep then s.report.settings else none
        zeros := if s.path.injected.length < 16 then 0 else 1
        run := s.report.run + 1
        fault := s.report.fault, detail := s.report.detail, suppressed := s.report.suppressed } ∧
      u.global = s.global ∧ u.clock = s.clock ∧ u.ports = s.ports ∧ u.classify = s.classify ∧ u.loader = s.loader ∧
      u.choice = s.choice ∧ u.pending = s.pending ∧ u.command = { s.command with writes := [] }
end

