-- ==== Sys2Proof/Laws/Sparse.lean ====
section
/-!
SUPPORT. The laws of the addressed buffers held as lists: a read after a write gives the value written, a write leaves
every other place alone, and a write keeps the canonical form. The same for the sets of numbers held as rising lists.
-/

namespace Sys2Proof.Machine

section Keyed

variable {α : Type} [DecidableEq α] (d : α)

/-- Below the bound of a canonical list every key is unlisted. -/
theorem lookupAt_below (m : List (Nat × α)) (lo k : Nat) (h : canonicalFrom d lo m = true) (hk : k < lo) :
    lookupAt d m k = d := by
  induction m generalizing lo with
  | nil => rfl
  | cons q m ih =>
    obtain ⟨b, w⟩ := q
    simp only [canonicalFrom, Bool.and_eq_true, decide_eq_true_eq] at h
    have : ¬ b = k := by omega
    simp only [lookupAt, if_neg this]
    exact ih (b + 1) h.2 (by omega)

/-- A read after a write: the value written at its key, what was there before at every other. -/
theorem lookupAt_storeAt (m : List (Nat × α)) (k j : Nat) (v : α) (lo : Nat) (h : canonicalFrom d lo m = true) :
    lookupAt d (storeAt d m k v) j = if j = k then v else lookupAt d m j := by
  induction m generalizing lo with
  | nil => simp only [storeAt]; split <;> simp only [lookupAt] <;> grind
  | cons p m ih =>
    obtain ⟨a, w⟩ := p
    simp only [canonicalFrom, Bool.and_eq_true, decide_eq_true_eq] at h
    have past := lookupAt_below d m (a + 1) k h.2
    have ih := ih (a + 1) h.2
    simp only [storeAt]
    split
    · split <;> simp only [lookupAt] <;> grind
    · split
      · have here := lookupAt_below d m (a + 1) a h.2
        split <;> simp only [lookupAt] <;> grind
      · simp only [lookupAt]; grind

/-- A write keeps the canonical form above a bound that its key meets. -/
theorem canonicalFrom_storeAt (m : List (Nat × α)) (lo k : Nat) (v : α) (hk : lo ≤ k)
    (h : canonicalFrom d lo m = true) : canonicalFrom d lo (storeAt d m k v) = true := by
  have weaken : ∀ (m : List (Nat × α)) a b, b ≤ a → canonicalFrom d a m = true → canonicalFrom d b m = true := by
    intro m a b hab hm
    cases m with
    | nil => rfl
    | cons q m => simp_all [canonicalFrom]; omega
  induction m generalizing lo with
  | nil => by_cases hv : v = d <;> simp [storeAt, canonicalFrom, hv, hk]
  | cons p m ih =>
    obtain ⟨a, w⟩ := p
    have h' := h
    simp only [canonicalFrom, Bool.and_eq_true, decide_eq_true_eq] at h
    simp only [storeAt]
    by_cases h1 : k < a
    · by_cases hv : v = d
      · simp [h1, hv, h']
      · simp [h1, hv, canonicalFrom, hk, h.1.2, h.2]
    · by_cases h2 : k = a
      · subst h2
        by_cases hv : v = d
        · simp [hv, weaken m (k + 1) lo (by omega) h.2]
        · simp [hv, canonicalFrom, hk, h.2]
      · simp only [if_neg h1, if_neg h2, canonicalFrom, Bool.and_eq_true, decide_eq_true_eq]
        exact ⟨h.1, ih (a + 1) (by omega) h.2⟩

/-- A write keeps the canonical form. -/
theorem canonical_storeAt (m : List (Nat × α)) (k : Nat) (v : α) (h : canonical d m = true) :
    canonical d (storeAt d m k v) = true := canonicalFrom_storeAt d m 0 k v (Nat.zero_le k) h

/-- A read after a write of a list in canonical form. -/
theorem lookupAt_storeAt_of_canonical (m : List (Nat × α)) (k j : Nat) (v : α) (h : canonical d m = true) :
    lookupAt d (storeAt d m k v) j = if j = k then v else lookupAt d m j := lookupAt_storeAt d m k j v 0 h

end Keyed

/-- The members after an insertion. -/
@[simp] theorem mem_insertNum (m : List Nat) (k c : Nat) : c ∈ insertNum m k ↔ c = k ∨ c ∈ m := by
  induction m with
  | nil => simp [insertNum]
  | cons a m ih =>
    simp only [insertNum]
    split
    · simp
    · split
      · next h => subst h; simp
      · simp [ih]; tauto

/-- An insertion keeps the list rising. -/
theorem risingFrom_insertNum (m : List Nat) (lo k : Nat) (hk : lo ≤ k) (h : risingFrom lo m = true) :
    risingFrom lo (insertNum m k) = true := by
  induction m generalizing lo with
  | nil => simp [insertNum, risingFrom, hk]
  | cons a m ih =>
    simp only [risingFrom, Bool.and_eq_true, decide_eq_true_eq] at h
    simp only [insertNum]
    split
    · simp [risingFrom, hk, h.2]; try omega
    · split
      · simp [risingFrom, h]
      · simp only [risingFrom, Bool.and_eq_true, decide_eq_true_eq]; exact ⟨h.1, ih (a + 1) (by omega) h.2⟩

/-- Taking members out keeps the list rising. -/
theorem risingFrom_filter (p : Nat → Bool) (m : List Nat) (lo : Nat) (h : risingFrom lo m = true) :
    risingFrom lo (m.filter p) = true := by
  have weaken : ∀ (m : List Nat) a b, b ≤ a → risingFrom a m = true → risingFrom b m = true := by
    intro m a b hab hm
    cases m with
    | nil => rfl
    | cons q m => simp_all [risingFrom]; omega
  induction m generalizing lo with
  | nil => rfl
  | cons a m ih =>
    simp only [risingFrom, Bool.and_eq_true, decide_eq_true_eq] at h
    by_cases hp : p a
    · simp [hp, risingFrom, h.1, ih (a + 1) h.2]
    · simp [hp]; exact weaken _ (a + 1) lo (by omega) (ih (a + 1) h.2)

end Sys2Proof.Machine
end

