-- ==== Sys2Proof/Laws/Contrast.lean ====
section
/-!
SUPPORT. Laws of the line arithmetic (chapter 4): what column repair finds, what the runs of a zone are, and what the
background update leaves.
-/

namespace Sys2Proof.Machine

/-! ### Column repair (R51) -/

/-- The search below `c` finds the greatest LIVE column among `first + n - 1` down to `first`. -/
theorem liveBelow_spec (k : Copy) (first c n : Nat) (hn : first + n ≤ c) :
    match liveBelow k first c n with
    | some a => first ≤ a ∧ a < first + n ∧ k.live a = true ∧ ∀ j, a < j → j < first + n → k.live j = false
    | none => ∀ j, first ≤ j → j < first + n → k.live j = false := by
  induction n with
  | zero => simp only [liveBelow]; intro j h1 h2; omega
  | succ n ih =>
    have ih := ih (by omega)
    simp only [liveBelow]
    by_cases hl : k.live (first + n) = true
    · rw [if_pos ⟨hl, by omega⟩]
      exact ⟨by omega, by omega, hl, fun j h1 h2 => by omega⟩
    · rw [if_neg fun h => hl h.1]
      have hl : k.live (first + n) = false := by simpa using hl
      cases hb : liveBelow k first c n with
      | none =>
        rw [hb] at ih
        intro j h1 h2
        by_cases e : j = first + n
        · rw [e]; exact hl
        · exact ih j h1 (by omega)
      | some a =>
        rw [hb] at ih
        obtain ⟨h1, h2, h3, h4⟩ := ih
        refine ⟨h1, by omega, h3, fun j h5 h6 => ?_⟩
        by_cases e : j = first + n
        · rw [e]; exact hl
        · exact h4 j h5 (by omega)

/-- The search above `c` finds the least LIVE column among `c + 1` to `last`. -/
theorem liveAbove_spec (k : Copy) (c last : Nat) :
    match liveAbove k c last with
    | some b => c < b ∧ b ≤ last ∧ k.live b = true ∧ ∀ j, c < j → j < b → k.live j = false
    | none => ∀ j, c < j → j ≤ last → k.live j = false := by
  have e : (List.range (last - c)).map (· + (c + 1)) = List.range' (c + 1) (last - c) := by
    rw [List.range_eq_range', show (fun x => x + (c + 1)) = ((c + 1) + ·) from funext fun x => Nat.add_comm x (c + 1),
      List.map_add_range']
  have key : ∀ n a, match (List.range' a n).find? k.live with
      | some b => a ≤ b ∧ b < a + n ∧ k.live b = true ∧ ∀ j, a ≤ j → j < b → k.live j = false
      | none => ∀ j, a ≤ j → j < a + n → k.live j = false := by
    intro n
    induction n with
    | zero => intro a; simp only [List.range'_zero, List.find?_nil]; intro j h1 h2; omega
    | succ n ih =>
      intro a
      have ih := ih (a + 1)
      rw [List.range'_succ, List.find?_cons]
      cases hl : k.live a with
      | true => exact ⟨Nat.le_refl a, by omega, hl, fun j h1 h2 => by omega⟩
      | false =>
        cases hf : (List.range' (a + 1) n).find? k.live with
        | none =>
          rw [hf] at ih
          simp only
          intro j h1 h2
          by_cases h : j = a
          · rw [h]; exact hl
          · exact ih j (by omega) (by omega)
        | some b =>
          rw [hf] at ih
          simp only
          obtain ⟨h1, h2, h3, h4⟩ := ih
          refine ⟨by omega, by omega, h3, fun j h5 h6 => ?_⟩
          by_cases h : j = a
          · rw [h]; exact hl
          · exact h4 j (by omega) h6
  have h := key (last - c) (c + 1)
  rw [liveAbove, e]
  cases hf : (List.range' (c + 1) (last - c)).find? k.live with
  | none => rw [hf] at h; intro j h1 h2; exact h j (by omega) (by omega)
  | some b =>
    rw [hf] at h
    obtain ⟨h1, h2, h3, h4⟩ := h
    exact ⟨by omega, by omega, h3, fun j h5 h6 => h4 j (by omega) h6⟩

/-! ### Runs (R57) -/

/-- Two runs of one zone that start at one column are the same. -/
theorem IsRun.eq_of_c0 {z : Zone} {n tLow : Nat} {q : Nat → Nat} {s t : Segment} (hs : IsRun z n tLow q s)
    (ht : IsRun z n tLow q t) (h : s.c0 = t.c0) : s = t := by
  have side : ∀ {s t : Segment}, IsRun z n tLow q s → IsRun z n tLow q t → s.c0 = t.c0 → t.c1 ≤ s.c1 := by
    intro s t hs ht h
    rcases hs.right with e | e
    · have := ht.last; omega
    · by_cases hlt : s.c1 < t.c1
      · have := (ht.reach (s.c1 + 1) (by have := hs.order; omega) (by omega)).1; omega
      · omega
  have e1 : s.c1 = t.c1 := Nat.le_antisymm (side ht hs h.symm) (side hs ht h)
  have side2 : ∀ {s t : Segment}, IsRun z n tLow q s → IsRun z n tLow q t → s.c0 = t.c0 → s.c1 = t.c1 →
      s.peak ≤ t.peak := by
    intro s t hs ht h h'
    obtain ⟨c, h1, h2, h3⟩ := hs.peak
    have := (ht.reach c (by omega) (by omega)).2
    omega
  have e2 := Nat.le_antisymm (side2 hs ht h e1) (side2 ht hs h.symm e1.symm)
  have e3 : s.sum = t.sum := by rw [hs.sum, ht.sum, h, e1]
  have e4 : s.zone = t.zone := hs.zone.trans ht.zone.symm
  cases s; cases t
  simp_all

/-- The runs of the `n` columns from `a` on: what `zoneRuns` answers is the list of them, in ascending order, and whether
the first column belongs to one. An unrepairable column stands with contrast 0, below T_LOW. -/
theorem zoneRuns_spec (zone tLow : Nat) (kind : ZoneKind) (f : Nat → Column) (hlow : 1 ≤ tLow)
    (hf : ∀ c, (f c).col = c) (n a : Nat) :
    let q (c : Nat) := (f c).q.getD 0
    let r := zoneRuns zone tLow ((List.range' a n).map f)
    (r.2 = true ↔ 0 < n ∧ tLow ≤ q a) ∧
    (r.2 = true → ∃ s rest, r.1 = s :: rest ∧ s.c0 = a) ∧
    r.1.Pairwise (fun s t => s.c1 < t.c0) ∧
    ∀ sg, sg ∈ r.1 ↔ 0 < n ∧ IsRun ⟨a, a + n - 1, kind⟩ zone tLow q sg := by
  intro q
  induction n generalizing a with
  | zero => simp [zoneRuns]
  | succ n ih =>
    obtain ⟨i1, i2, i3, i4⟩ := ih (a + 1)
    rw [List.range'_succ, List.map_cons]
    generalize hr : zoneRuns zone tLow ((List.range' (a + 1) n).map f) = r at i1 i2 i3 i4
    obtain ⟨segs, joined⟩ := r
    simp only at i1 i2 i3 i4
    -- A run that begins beyond `a` is a run of the columns from `a + 1` on.
    have shift : ∀ sg : Segment, a < sg.c0 → (sg.c0 = a + 1 → q a < tLow) →
        (0 < n ∧ IsRun ⟨a + 1, a + 1 + n - 1, kind⟩ zone tLow q sg ↔ IsRun ⟨a, a + (n + 1) - 1, kind⟩ zone tLow q sg) := by
      intro sg h1 h2
      constructor
      · rintro ⟨hn, h⟩
        refine ⟨h.zone, by have := h.first; simp only at this ⊢; omega, h.order,
          by have := h.last; simp only at this ⊢; omega, h.reach, ?_, ?_, h.peak, h.sum⟩
        · rcases h.left with e | e
          · simp only at e; right; rw [e, Nat.add_sub_cancel]; exact h2 e
          · exact Or.inr e
        · rcases h.right with e | e
          · left; simp only at e ⊢; omega
          · exact Or.inr e
      · intro h
        have hl := h.last
        have ho := h.order
        simp only at hl
        refine ⟨by omega, h.zone, by simp only; omega, h.order, by simp only; omega, h.reach, ?_, ?_, h.peak, h.sum⟩
        · rcases h.left with e | e
          · simp only at e; omega
          · exact Or.inr e
        · rcases h.right with e | e
          · left; simp only at e ⊢; omega
          · exact Or.inr e
    by_cases hq : tLow ≤ q a
    · -- Column `a` belongs to a run.
      have hqa : ∃ v, (f a).q = some v ∧ q a = v := by
        cases e : (f a).q with
        | none => simp only [q, e, Option.getD_none] at hq; omega
        | some v => exact ⟨v, rfl, by simp only [q, e, Option.getD_some]⟩
      obtain ⟨v, hv, hqv⟩ := hqa
      -- The run that begins at `a`, by the run found beyond it, if any.
      have own : ∀ (s : Segment) (rest : List Segment),
          s.c0 = a → IsRun ⟨a, a + (n + 1) - 1, kind⟩ zone tLow q s →
          (∀ sg, sg ∈ rest ↔ sg.c0 ≠ a + 1 ∧ sg ∈ segs) → (∀ sg ∈ rest, s.c1 < sg.c0) →
          rest.Pairwise (fun s t => s.c1 < t.c0) →
          (∀ sg, a < sg.c0 → sg.c0 = a + 1 → ¬ IsRun ⟨a, a + (n + 1) - 1, kind⟩ zone tLow q sg) →
          (((s :: rest, true) : List Segment × Bool).2 = true ↔ 0 < n + 1 ∧ tLow ≤ q a) ∧
          (((s :: rest, true) : List Segment × Bool).2 = true → ∃ s' rest', (s :: rest) = s' :: rest' ∧ s'.c0 = a) ∧
          (s :: rest).Pairwise (fun s t => s.c1 < t.c0) ∧
          ∀ sg, sg ∈ s :: rest ↔ 0 < n + 1 ∧ IsRun ⟨a, a + (n + 1) - 1, kind⟩ zone tLow q sg := by
        intro s rest h0 hrun hmem hlt hpw hno
        refine ⟨by simp [hq], fun _ => ⟨s, rest, rfl, h0⟩, List.pairwise_cons.2 ⟨hlt, hpw⟩, fun sg => ?_⟩
        rw [List.mem_cons, hmem]
        constructor
        · rintro (rfl | ⟨h1, h2⟩)
          · exact ⟨Nat.succ_pos n, hrun⟩
          · have h3 := (i4 sg).1 h2
            have h4 := h3.2.first
            simp only at h4
            exact ⟨Nat.succ_pos n, (shift sg (by omega) (fun e => absurd e h1)).1 h3⟩
        · rintro ⟨-, h⟩
          by_cases e0 : sg.c0 = a
          · exact Or.inl (h.eq_of_c0 hrun (e0.trans h0.symm))
          · have h5 := h.first
            simp only at h5
            by_cases e1 : sg.c0 = a + 1
            · exact absurd h (hno sg (by omega) e1)
            · exact Or.inr ⟨e1, (i4 sg).2 ((shift sg (by omega) (fun e => absurd e e1)).2 h)⟩
      have notNext : ∀ sg : Segment, a < sg.c0 → sg.c0 = a + 1 → ¬ IsRun ⟨a, a + (n + 1) - 1, kind⟩ zone tLow q sg := by
        intro sg h1 h2 h
        rcases h.left with e | e
        · simp only at e; omega
        · rw [h2, Nat.add_sub_cancel] at e; omega
      cases hj : joined with
      | true =>
        obtain ⟨s, rest, hs, h0⟩ := i2 hj
        subst hs
        obtain ⟨hn, hsr⟩ := (i4 s).1 (List.mem_cons_self ..)
        have hp := List.pairwise_cons.1 i3
        have hord := hsr.order
        have e : zoneRuns zone tLow (f a :: (List.range' (a + 1) n).map f) =
            (⟨zone, a, s.c1, max v s.peak, v + s.sum⟩ :: rest, true) := by
          simp only [zoneRuns, hr, hj, hv, if_pos (hqv ▸ hq : tLow ≤ v), hf]
        rw [e]
        refine own _ rest rfl ?_ ?_ hp.1 hp.2 notNext
        · refine ⟨rfl, Nat.le_refl a, by simp only; omega, by have := hsr.last; simp only at this ⊢; omega, ?_,
            Or.inl rfl, ?_, ?_, ?_⟩
          · intro c h1 h2
            simp only at h1 h2 ⊢
            by_cases ec : c = a
            · subst ec; omega
            · have := hsr.reach c (by omega) h2; omega
          · rcases hsr.right with e | e
            · left; simp only at e ⊢; omega
            · exact Or.inr e
          · obtain ⟨c, h1, h2, h3⟩ := hsr.peak
            rcases Nat.le_total v s.peak with h | h
            · exact ⟨c, by simp only; omega, h2, by simp only; omega⟩
            · exact ⟨a, Nat.le_refl a, by simp only; omega, by simp only; omega⟩
          · have hlen : s.c1 + 1 - a = (s.c1 + 1 - s.c0) + 1 := by omega
            simp only [hlen, List.range_succ_eq_map, List.map_cons, List.map_map, List.sum_cons, Nat.add_zero, hqv]
            rw [hsr.sum, h0]
            congr 2
            apply List.map_congr_left
            intro m _
            simp only [Function.comp, Nat.succ_eq_add_one]
            congr 1; omega
        · intro sg
          rw [List.mem_cons]
          constructor
          · intro h; have := hp.1 sg h; exact ⟨by omega, Or.inr h⟩
          · rintro ⟨h1, rfl | h2⟩
            · exact absurd h0 h1
            · exact h2
      | false =>
        have e : zoneRuns zone tLow (f a :: (List.range' (a + 1) n).map f) = (⟨zone, a, a, v, v⟩ :: segs, true) := by
          simp only [zoneRuns, hr, hj, hv, if_pos (hqv ▸ hq : tLow ≤ v), hf]
        have hnj : n = 0 ∨ q (a + 1) < tLow := by
          rcases Nat.eq_zero_or_pos n with h | h
          · exact Or.inl h
          · right
            by_contra hh
            have := i1.2 ⟨h, by omega⟩
            rw [hj] at this; cases this
        have hgt : ∀ sg ∈ segs, a + 1 < sg.c0 := by
          intro sg h
          obtain ⟨h1, h2⟩ := (i4 sg).1 h
          have h3 := h2.first
          simp only at h3
          rcases Nat.lt_or_ge (a + 1) sg.c0 with h4 | h4
          · exact h4
          · have := (h2.reach sg.c0 (Nat.le_refl _) h2.order).1
            have e5 : sg.c0 = a + 1 := by omega
            rw [e5] at this
            omega
        rw [e]
        refine own _ segs rfl ?_ ?_ (fun sg h => by have := hgt sg h; simp only; omega) i3 notNext
        · refine ⟨rfl, Nat.le_refl a, Nat.le_refl a, by simp only; omega, ?_, Or.inl rfl, ?_, ⟨a, Nat.le_refl a, Nat.le_refl a, hqv⟩, ?_⟩
          · intro c h1 h2
            simp only at h1 h2 ⊢
            have : c = a := by omega
            subst this; omega
          · rcases hnj with h | h
            · left; simp only; omega
            · exact Or.inr h
          · simp [hqv, List.range_succ_eq_map]
        · intro sg
          exact ⟨fun h => ⟨by have := hgt sg h; omega, h⟩, fun h => h.2⟩
    · -- Column `a` belongs to none.
      have e : zoneRuns zone tLow (f a :: (List.range' (a + 1) n).map f) = (segs, false) := by
        cases hv : (f a).q with
        | none => simp only [zoneRuns, hr, hv]
        | some v =>
          have : ¬ tLow ≤ v := by simpa only [q, hv, Option.getD_some] using hq
          simp only [zoneRuns, hr, hv, if_neg this]
      rw [e]
      refine ⟨by simp [hq], nofun, i3, fun sg => ?_⟩
      constructor
      · intro h
        have h3 := (i4 sg).1 h
        have h4 := h3.2.first
        simp only at h4
        exact ⟨Nat.succ_pos n, (shift sg (by omega) fun _ => by omega).1 h3⟩
      · rintro ⟨-, h⟩
        have h5 := h.first
        simp only at h5
        rcases Nat.lt_or_ge a sg.c0 with h6 | h6
        · exact (i4 sg).2 ((shift sg h6 fun _ => by omega).2 h)
        · have := (h.reach sg.c0 (Nat.le_refl _) h.order).1
          have e6 : sg.c0 = a := by omega
          rw [e6] at this
          omega

/-! ### The columns of a zone (R50 to R55) -/

/-- What a column gives: its repaired reading, its background, whether it is obscured, and its contrast. -/
theorem examine_eq (k : Copy) (x bg : Nat → Nat) (z : Zone) (c : Nat) : examine k x bg z c = ⟨c, repaired k x z c, bg c,
    (repaired k x z c).isNone || decide (bg c < 16 * k.detect.bgFloor),
    (repaired k x z c).map fun v => if v = 4095 ∨ bg c < 16 * k.detect.bgFloor then 0 else contrast (bg c) v⟩ := by
  simp only [examine]
  cases repaired k x z c <;> simp

/-- The columns examined are those of the zones that are not IGNORE. -/
theorem mem_zoneColumns (k : Copy) (x bg : Nat → Nat) (z : Zone) (y : Column) :
    y ∈ zoneColumns k x bg z ↔ z.kind ≠ .ignore ∧ ∃ c, z.first ≤ c ∧ c ≤ z.last ∧ y = examine k x bg z c := by
  cases h : z.kind <;> simp only [zoneColumns, h, List.mem_map, List.mem_range, ne_eq, not_true, not_false_eq_true,
    true_and, false_and, List.not_mem_nil, reduceCtorEq]
  all_goals
    constructor
    · rintro ⟨n, hn, rfl⟩; exact ⟨z.first + n, by omega, by omega, rfl⟩
    · rintro ⟨c, h1, h2, rfl⟩; exact ⟨c - z.first, by omega, by rw [show z.first + (c - z.first) = c by omega]⟩

/-! ### The background update (R59 to R61) -/

/-- Storing one new value for each of some columns: each of them reads its own, every other column reads as before. -/
theorem storeColumns_lookup (v : Column → Nat) (cols : List Column) (m : List (Nat × Nat)) (hm : canonical 0 m = true)
    (hn : (cols.map (·.col)).Nodup) :
    let m' := cols.foldl (fun m c => storeAt 0 m c.col (v c)) m
    canonical 0 m' = true ∧ (∀ x ∈ cols, lookupAt 0 m' x.col = v x) ∧
    ∀ c, (∀ x ∈ cols, x.col ≠ c) → lookupAt 0 m' c = lookupAt 0 m c := by
  induction cols generalizing m with
  | nil => exact ⟨hm, nofun, fun _ _ => rfl⟩
  | cons y ys ih =>
    rw [List.map_cons, List.nodup_cons] at hn
    obtain ⟨h1, h2, h3⟩ := ih (storeAt 0 m y.col (v y)) (canonical_storeAt _ _ _ _ hm) hn.2
    refine ⟨h1, fun x hx => ?_, fun c hc => ?_⟩
    · rcases List.mem_cons.1 hx with rfl | hx
      · rw [List.foldl_cons, h3 _ fun z hz e => hn.1 (List.mem_map.2 ⟨z, hz, e⟩),
          lookupAt_storeAt_of_canonical _ _ _ _ _ hm, if_pos rfl]
      · exact h2 x hx
    · rw [List.foldl_cons, h3 c fun x hx => hc x (List.mem_cons_of_mem _ hx),
        lookupAt_storeAt_of_canonical _ _ _ _ _ hm, if_neg fun e => hc y (List.mem_cons_self ..) e.symm]

end Sys2Proof.Machine
end

