-- ==== Sys2Proof/Laws/Formats.lean ====
section
/-!
SUPPORT. The lengths of what the part writes (R169, R170), numbers read back from their bytes, and bytes read out of
structures laid end to end.
-/

namespace Sys2Proof.Machine

@[simp] theorem le_length (k v : Nat) : (le k v).length = k := by
  induction k generalizing v with
  | zero => rfl
  | succ k ih => simp [le, ih]

@[simp] theorem zeroBytes_length (n : Nat) : (zeroBytes n).length = n := List.length_replicate ..

/-- A number that fits `k` bytes is read back from them. -/
theorem fromLe_le (k v : Nat) (h : v < 256 ^ k) : fromLe (le k v) = v := by
  induction k generalizing v with
  | zero => simp at h; simp [le, fromLe, h]
  | succ k ih =>
    have := ih (v / 256) (by rw [Nat.div_lt_iff_lt_mul (by decide)]; rw [Nat.pow_succ] at h; exact h)
    simp only [le, fromLe, this, BitVec.toNat_ofNat]
    omega

theorem trailerBytes_length (l : Line) (st : TrailerStatus) (n m : Nat) (a b : Bool) :
    (trailerBytes l st n m a b).length = 32 := by
  simp [trailerBytes]

theorem coverBytes_length (e : CoverEntry) : (coverBytes e).length = 4 := by simp [coverBytes]

theorem billetBytes_length (b : BilletRecord) : (billetBytes b).length = 64 := by simp [billetBytes]

theorem defectBytes_length (d : Defect) : (defectBytes d).length = 64 := by simp [defectBytes]

theorem eventContents_length (e : Event) : (eventContents e).length = 48 := by cases e <;> simp [eventContents]

theorem eventBytes_length (e : Event) : (eventBytes e).length = 64 := by simp [eventBytes, eventContents_length]

/-- Every record of the report ring has 64 bytes (R158). -/
theorem recBytes_length (r : Rec) : (recBytes r).length = 64 := by
  cases r
  · exact billetBytes_length _
  · exact defectBytes_length _
  · exact eventBytes_length _

theorem baySection_length (s : State) : (baySection s).length = 32 := by simp [baySection]

theorem presetSection_length (p : Partition) (n : Nat) (l : List Status) : (presetSection p n l).length = 48 := by
  simp [presetSection]

theorem laneSection_length (l : Lane) : (laneSection l).length = 48 := by simp [laneSection]

theorem strandSection_length (t : Strand) (counts : List Nat) : (strandSection t counts).length = 56 := by
  simp [strandSection]

/-- The status area has 1,008 bytes (12.3). -/
theorem snapshotArea_length (s : State) : (snapshotArea s).length = 1008 := by
  simp [snapshotArea, baySection_length, laneSection_length, strandSection_length, allLanes, allStrands]

/-- A stripe within the status area has 16 bytes. -/
theorem stripeBytes_length (area : List Byte) (p : Nat) (h1 : 1 ≤ p) (h2 : 16 * p ≤ area.length) :
    (stripeBytes area p).length = 16 := by
  simp [stripeBytes]; omega

/-- Bytes within the middle one of three runs of bytes. -/
theorem drop_take_middle (pre mid post : List Byte) (n len : Nat) (h : n + len ≤ mid.length) :
    ((pre ++ mid ++ post).drop (pre.length + n)).take len = (mid.drop n).take len := by
  rw [List.append_assoc, List.drop_append, List.drop_eq_nil_of_le (by omega), List.nil_append,
    Nat.add_sub_cancel_left, List.drop_append_of_le_length (by omega), List.take_append_of_le_length (by simp; omega)]

/-- Bytes within one of several sections of one width, laid end to end. -/
theorem drop_take_section {α : Type} (f : α → List Byte) (w : Nat) (hw : ∀ a, (f a).length = w) (l : List α) (n : Nat)
    (a : α) (ha : l[n]? = some a) (o len : Nat) (h : o + len ≤ w) :
    ((l.flatMap f).drop (w * n + o)).take len = ((f a).drop o).take len := by
  induction l generalizing n with
  | nil => simp at ha
  | cons b l ih =>
    rw [List.flatMap_cons]
    cases n with
    | zero =>
      simp only [List.getElem?_cons_zero, Option.some.injEq] at ha
      subst ha
      rw [Nat.mul_zero, Nat.zero_add, List.drop_append_of_le_length (by rw [hw]; omega),
        List.take_append_of_le_length (by simp [hw]; omega)]
    | succ n =>
      have := hw b
      rw [Nat.mul_succ, show w * n + w + o = (f b).length + (w * n + o) by omega, List.drop_append,
        List.drop_eq_nil_of_le (by omega), List.nil_append, Nat.add_sub_cancel_left]
      exact ih n (by simpa using ha)

end Sys2Proof.Machine
end

