-- ==== Sys2Proof/Laws/State.lean ====
section
/-!
SUPPORT. The small lemmas of the state's accessors and updates: what each update leaves alone, one lemma a field, and
what a lane or a strand reads after each of them.
-/

namespace Sys2Proof.Machine

/-! ### Vectors of lanes and strands -/

theorem get_set {α : Type} {n : Nat} (v : Vector α n) (i j : Fin n) (x : α) :
    (v.set i x).get j = if j = i then x else v.get j := by
  simp only [Vector.get_eq_getElem, Vector.getElem_set, Fin.ext_iff, eq_comm]

theorem ext_get {α : Type} {n : Nat} {v w : Vector α n} (h : ∀ i, v.get i = w.get i) : v = w := by
  apply Vector.ext; intro i hi; exact h ⟨i, hi⟩

@[simp] theorem buildLanes_get {α : Type} (f : Fin 12 → α) (i : Fin 12) : (buildLanes f).get i = f i := by
  match i with
  | 0 | 1 | 2 | 3 | 4 | 5 | 6 | 7 | 8 | 9 | 10 | 11 => rfl

@[simp] theorem buildStrands_get {α : Type} (f : Fin 6 → α) (k : Fin 6) : (buildStrands f).get k = f k := by
  match k with
  | 0 | 1 | 2 | 3 | 4 | 5 => rfl

theorem mem_allLanes (i : Fin 12) : i ∈ allLanes := by decide +revert

theorem mem_boundLanes (s : State) (k : Fin 6) (i : Fin 12) : i ∈ boundLanes s k ↔ (s.lane i).binding = some k := by
  simp [boundLanes, mem_allLanes, State.lane, Lane.binding]

/-! ### The state as its fields -/

@[simp] theorem State.lanes_get (s : State) (i : Fin 12) : s.lanes.get i = s.lane i := rfl
@[simp] theorem State.strands_get (s : State) (k : Fin 6) : s.strands.get k = s.strand k := rfl

/-- A lane of a state written as its fields. -/
@[simp] theorem State.mk_lane (g c p o) (ls : Vector Lane 12) (ts y m r d x q) (i : Fin 12) :
    (State.mk g c p o ls ts y m r d x q).lane i = ls.get i := rfl

/-- A strand of a state written as its fields. -/
@[simp] theorem State.mk_strand (g c p o ls) (ts : Vector Strand 6) (y m r d x q) (k : Fin 6) :
    (State.mk g c p o ls ts y m r d x q).strand k = ts.get k := rfl

/-- Two states that agree in every field but the lanes and strands, and in every lane and strand, are equal. -/
theorem State.ext_lanes_strands {s t : State} (hg : s.global = t.global) (hc : s.clock = t.clock) (hp : s.path = t.path)
    (ho : s.ports = t.ports) (hl : ∀ i, s.lane i = t.lane i) (hs : ∀ k, s.strand k = t.strand k)
    (hy : s.classify = t.classify) (hm : s.command = t.command) (hr : s.report = t.report) (hd : s.loader = t.loader)
    (hx : s.choice = t.choice) (hq : s.pending = t.pending) : s = t := by
  cases s; cases t
  simp only [State.mk.injEq]
  exact ⟨hg, hc, hp, ho, ext_get hl, ext_get hs, hy, hm, hr, hd, hx, hq⟩

/-! ### Replacing a lane or a strand -/

variable (s : State) (i j : Fin 12) (k m : Fin 6) (l a : Lane) (t u : Strand)

@[simp] theorem State.setLane_lane : (s.setLane i l).lane j = if j = i then l else s.lane j := get_set ..
@[simp] theorem State.setStrand_strand : (s.setStrand k t).strand m = if m = k then t else s.strand m := get_set ..
theorem State.setLane_lane_self : (s.setLane i l).lane i = l := by simp
theorem State.setStrand_strand_self : (s.setStrand k t).strand k = t := by simp
@[simp] theorem State.setLane_strand : (s.setLane i l).strand k = s.strand k := rfl
@[simp] theorem State.setStrand_lane : (s.setStrand k t).lane i = s.lane i := rfl
@[simp] theorem State.setLane_setLane : (s.setLane i a).setLane i l = s.setLane i l := by simp [State.setLane]
@[simp] theorem State.setStrand_setStrand : (s.setStrand k u).setStrand k t = s.setStrand k t := by
  simp [State.setStrand]
@[simp] theorem State.setLane_self : s.setLane i (s.lane i) = s := by
  simp [State.setLane, State.lane, Vector.get_eq_getElem]
@[simp] theorem State.setStrand_self : s.setStrand k (s.strand k) = s := by
  simp [State.setStrand, State.strand, Vector.get_eq_getElem]
theorem State.setStrand_setLane : (s.setStrand k t).setLane i l = (s.setLane i l).setStrand k t := rfl

@[simp] theorem State.setLane_global : (s.setLane i l).global = s.global := rfl
@[simp] theorem State.setLane_clock : (s.setLane i l).clock = s.clock := rfl
@[simp] theorem State.setLane_path : (s.setLane i l).path = s.path := rfl
@[simp] theorem State.setLane_ports : (s.setLane i l).ports = s.ports := rfl
@[simp] theorem State.setLane_strands : (s.setLane i l).strands = s.strands := rfl
@[simp] theorem State.setLane_classify : (s.setLane i l).classify = s.classify := rfl
@[simp] theorem State.setLane_command : (s.setLane i l).command = s.command := rfl
@[simp] theorem State.setLane_report : (s.setLane i l).report = s.report := rfl
@[simp] theorem State.setLane_loader : (s.setLane i l).loader = s.loader := rfl
@[simp] theorem State.setLane_choice : (s.setLane i l).choice = s.choice := rfl
@[simp] theorem State.setLane_pending : (s.setLane i l).pending = s.pending := rfl

@[simp] theorem State.setStrand_global : (s.setStrand k t).global = s.global := rfl
@[simp] theorem State.setStrand_clock : (s.setStrand k t).clock = s.clock := rfl
@[simp] theorem State.setStrand_path : (s.setStrand k t).path = s.path := rfl
@[simp] theorem State.setStrand_ports : (s.setStrand k t).ports = s.ports := rfl
@[simp] theorem State.setStrand_lanes : (s.setStrand k t).lanes = s.lanes := rfl
@[simp] theorem State.setStrand_classify : (s.setStrand k t).classify = s.classify := rfl
@[simp] theorem State.setStrand_command : (s.setStrand k t).command = s.command := rfl
@[simp] theorem State.setStrand_report : (s.setStrand k t).report = s.report := rfl
@[simp] theorem State.setStrand_loader : (s.setStrand k t).loader = s.loader := rfl
@[simp] theorem State.setStrand_choice : (s.setStrand k t).choice = s.choice := rfl
@[simp] theorem State.setStrand_pending : (s.setStrand k t).pending = s.pending := rfl

/-! ### A fault raised, an event queued -/

@[simp] theorem State.raise_global (c : FaultCode) (d : Nat) : (s.raise c d).global = s.global := rfl
@[simp] theorem State.raise_clock (c : FaultCode) (d : Nat) : (s.raise c d).clock = s.clock := rfl
@[simp] theorem State.raise_path (c : FaultCode) (d : Nat) : (s.raise c d).path = s.path := rfl
@[simp] theorem State.raise_ports (c : FaultCode) (d : Nat) : (s.raise c d).ports = s.ports := rfl
@[simp] theorem State.raise_lanes (c : FaultCode) (d : Nat) : (s.raise c d).lanes = s.lanes := rfl
@[simp] theorem State.raise_strands (c : FaultCode) (d : Nat) : (s.raise c d).strands = s.strands := rfl
@[simp] theorem State.raise_classify (c : FaultCode) (d : Nat) : (s.raise c d).classify = s.classify := rfl
@[simp] theorem State.raise_command (c : FaultCode) (d : Nat) : (s.raise c d).command = s.command := rfl
@[simp] theorem State.raise_loader (c : FaultCode) (d : Nat) : (s.raise c d).loader = s.loader := rfl
@[simp] theorem State.raise_choice (c : FaultCode) (d : Nat) : (s.raise c d).choice = s.choice := rfl
@[simp] theorem State.raise_pending (c : FaultCode) (d : Nat) : (s.raise c d).pending = s.pending := rfl

@[simp] theorem State.raise_report (c : FaultCode) (d : Nat) : (s.raise c d).report = s.report.raise c d := rfl
@[simp] theorem State.raise_lane (c : FaultCode) (d : Nat) : (s.raise c d).lane i = s.lane i := rfl
@[simp] theorem State.raise_strand (c : FaultCode) (d : Nat) : (s.raise c d).strand k = s.strand k := rfl

@[simp] theorem State.emit_global (e : Event) : (s.emit e).global = s.global := rfl
@[simp] theorem State.emit_clock (e : Event) : (s.emit e).clock = s.clock := rfl
@[simp] theorem State.emit_path (e : Event) : (s.emit e).path = s.path := rfl
@[simp] theorem State.emit_ports (e : Event) : (s.emit e).ports = s.ports := rfl
@[simp] theorem State.emit_lanes (e : Event) : (s.emit e).lanes = s.lanes := rfl
@[simp] theorem State.emit_strands (e : Event) : (s.emit e).strands = s.strands := rfl
@[simp] theorem State.emit_classify (e : Event) : (s.emit e).classify = s.classify := rfl
@[simp] theorem State.emit_command (e : Event) : (s.emit e).command = s.command := rfl
@[simp] theorem State.emit_loader (e : Event) : (s.emit e).loader = s.loader := rfl
@[simp] theorem State.emit_choice (e : Event) : (s.emit e).choice = s.choice := rfl
@[simp] theorem State.emit_pending (e : Event) : (s.emit e).pending = s.pending := rfl

@[simp] theorem State.emit_report (e : Event) : (s.emit e).report = s.report.emit e := rfl
@[simp] theorem State.emit_lane (e : Event) : (s.emit e).lane i = s.lane i := rfl
@[simp] theorem State.emit_strand (e : Event) : (s.emit e).strand k = s.strand k := rfl

/-! ### Changes of one part of a lane or a strand -/

@[simp] theorem State.modCapture_global (f : Capture → Capture) : (s.modCapture i f).global = s.global := rfl
@[simp] theorem State.modCapture_clock (f : Capture → Capture) : (s.modCapture i f).clock = s.clock := rfl
@[simp] theorem State.modCapture_path (f : Capture → Capture) : (s.modCapture i f).path = s.path := rfl
@[simp] theorem State.modCapture_ports (f : Capture → Capture) : (s.modCapture i f).ports = s.ports := rfl
@[simp] theorem State.modCapture_strands (f : Capture → Capture) : (s.modCapture i f).strands = s.strands := rfl
@[simp] theorem State.modCapture_classify (f : Capture → Capture) : (s.modCapture i f).classify = s.classify := rfl
@[simp] theorem State.modCapture_command (f : Capture → Capture) : (s.modCapture i f).command = s.command := rfl
@[simp] theorem State.modCapture_report (f : Capture → Capture) : (s.modCapture i f).report = s.report := rfl
@[simp] theorem State.modCapture_loader (f : Capture → Capture) : (s.modCapture i f).loader = s.loader := rfl
@[simp] theorem State.modCapture_choice (f : Capture → Capture) : (s.modCapture i f).choice = s.choice := rfl
@[simp] theorem State.modCapture_pending (f : Capture → Capture) : (s.modCapture i f).pending = s.pending := rfl

@[simp] theorem State.modCapture_lane (f : Capture → Capture) : (s.modCapture i f).lane j =
    if j = i then { s.lane i with capture := f (s.lane i).capture } else s.lane j := get_set ..
@[simp] theorem State.modCapture_strand (f : Capture → Capture) : (s.modCapture i f).strand k = s.strand k := rfl

@[simp] theorem State.modControl_global (f : Control → Control) : (s.modControl i f).global = s.global := rfl
@[simp] theorem State.modControl_clock (f : Control → Control) : (s.modControl i f).clock = s.clock := rfl
@[simp] theorem State.modControl_path (f : Control → Control) : (s.modControl i f).path = s.path := rfl
@[simp] theorem State.modControl_ports (f : Control → Control) : (s.modControl i f).ports = s.ports := rfl
@[simp] theorem State.modControl_strands (f : Control → Control) : (s.modControl i f).strands = s.strands := rfl
@[simp] theorem State.modControl_classify (f : Control → Control) : (s.modControl i f).classify = s.classify := rfl
@[simp] theorem State.modControl_command (f : Control → Control) : (s.modControl i f).command = s.command := rfl
@[simp] theorem State.modControl_report (f : Control → Control) : (s.modControl i f).report = s.report := rfl
@[simp] theorem State.modControl_loader (f : Control → Control) : (s.modControl i f).loader = s.loader := rfl
@[simp] theorem State.modControl_choice (f : Control → Control) : (s.modControl i f).choice = s.choice := rfl
@[simp] theorem State.modControl_pending (f : Control → Control) : (s.modControl i f).pending = s.pending := rfl

@[simp] theorem State.modControl_lane (f : Control → Control) : (s.modControl i f).lane j =
    if j = i then { s.lane i with control := f (s.lane i).control } else s.lane j := get_set ..
@[simp] theorem State.modControl_strand (f : Control → Control) : (s.modControl i f).strand k = s.strand k := rfl

@[simp] theorem State.modMarker_global (f : Marker → Marker) : (s.modMarker k f).global = s.global := rfl
@[simp] theorem State.modMarker_clock (f : Marker → Marker) : (s.modMarker k f).clock = s.clock := rfl
@[simp] theorem State.modMarker_path (f : Marker → Marker) : (s.modMarker k f).path = s.path := rfl
@[simp] theorem State.modMarker_ports (f : Marker → Marker) : (s.modMarker k f).ports = s.ports := rfl
@[simp] theorem State.modMarker_lanes (f : Marker → Marker) : (s.modMarker k f).lanes = s.lanes := rfl
@[simp] theorem State.modMarker_classify (f : Marker → Marker) : (s.modMarker k f).classify = s.classify := rfl
@[simp] theorem State.modMarker_command (f : Marker → Marker) : (s.modMarker k f).command = s.command := rfl
@[simp] theorem State.modMarker_report (f : Marker → Marker) : (s.modMarker k f).report = s.report := rfl
@[simp] theorem State.modMarker_loader (f : Marker → Marker) : (s.modMarker k f).loader = s.loader := rfl
@[simp] theorem State.modMarker_choice (f : Marker → Marker) : (s.modMarker k f).choice = s.choice := rfl
@[simp] theorem State.modMarker_pending (f : Marker → Marker) : (s.modMarker k f).pending = s.pending := rfl

@[simp] theorem State.modMarker_strand (f : Marker → Marker) : (s.modMarker k f).strand m =
    if m = k then { s.strand k with marker := f (s.strand k).marker } else s.strand m := get_set ..
@[simp] theorem State.modMarker_lane (f : Marker → Marker) : (s.modMarker k f).lane i = s.lane i := rfl

@[simp] theorem State.modMotion_global (f : Motion → Motion) : (s.modMotion k f).global = s.global := rfl
@[simp] theorem State.modMotion_clock (f : Motion → Motion) : (s.modMotion k f).clock = s.clock := rfl
@[simp] theorem State.modMotion_path (f : Motion → Motion) : (s.modMotion k f).path = s.path := rfl
@[simp] theorem State.modMotion_ports (f : Motion → Motion) : (s.modMotion k f).ports = s.ports := rfl
@[simp] theorem State.modMotion_lanes (f : Motion → Motion) : (s.modMotion k f).lanes = s.lanes := rfl
@[simp] theorem State.modMotion_classify (f : Motion → Motion) : (s.modMotion k f).classify = s.classify := rfl
@[simp] theorem State.modMotion_command (f : Motion → Motion) : (s.modMotion k f).command = s.command := rfl
@[simp] theorem State.modMotion_report (f : Motion → Motion) : (s.modMotion k f).report = s.report := rfl
@[simp] theorem State.modMotion_loader (f : Motion → Motion) : (s.modMotion k f).loader = s.loader := rfl
@[simp] theorem State.modMotion_choice (f : Motion → Motion) : (s.modMotion k f).choice = s.choice := rfl
@[simp] theorem State.modMotion_pending (f : Motion → Motion) : (s.modMotion k f).pending = s.pending := rfl

@[simp] theorem State.modMotion_strand (f : Motion → Motion) : (s.modMotion k f).strand m =
    if m = k then { s.strand k with motion := f (s.strand k).motion } else s.strand m := get_set ..
@[simp] theorem State.modMotion_lane (f : Motion → Motion) : (s.modMotion k f).lane i = s.lane i := rfl

@[simp] theorem State.modBillet_global (f : OpenBillet → OpenBillet) : (s.modBillet k f).global = s.global := rfl
@[simp] theorem State.modBillet_clock (f : OpenBillet → OpenBillet) : (s.modBillet k f).clock = s.clock := rfl
@[simp] theorem State.modBillet_path (f : OpenBillet → OpenBillet) : (s.modBillet k f).path = s.path := rfl
@[simp] theorem State.modBillet_ports (f : OpenBillet → OpenBillet) : (s.modBillet k f).ports = s.ports := rfl
@[simp] theorem State.modBillet_lanes (f : OpenBillet → OpenBillet) : (s.modBillet k f).lanes = s.lanes := rfl
@[simp] theorem State.modBillet_classify (f : OpenBillet → OpenBillet) : (s.modBillet k f).classify = s.classify := rfl
@[simp] theorem State.modBillet_command (f : OpenBillet → OpenBillet) : (s.modBillet k f).command = s.command := rfl
@[simp] theorem State.modBillet_report (f : OpenBillet → OpenBillet) : (s.modBillet k f).report = s.report := rfl
@[simp] theorem State.modBillet_loader (f : OpenBillet → OpenBillet) : (s.modBillet k f).loader = s.loader := rfl
@[simp] theorem State.modBillet_choice (f : OpenBillet → OpenBillet) : (s.modBillet k f).choice = s.choice := rfl
@[simp] theorem State.modBillet_pending (f : OpenBillet → OpenBillet) : (s.modBillet k f).pending = s.pending := rfl

@[simp] theorem State.modBillet_strand (f : OpenBillet → OpenBillet) : (s.modBillet k f).strand m =
    if m = k then { s.strand k with billet := { (s.strand k).billet with current := f (s.strand k).billet.current } } else s.strand m := get_set ..
@[simp] theorem State.modBillet_lane (f : OpenBillet → OpenBillet) : (s.modBillet k f).lane i = s.lane i := rfl

/-! ### The path unit's updates -/

variable (p : Path) (w : Request × Purpose) (b : Block)

@[simp] theorem Path.inject_pass : (p.inject w).pass = p.pass := rfl
@[simp] theorem Path.inject_injected : (p.inject w).injected = p.injected ++ [⟨w.1, w.2, p.nextOrder, none⟩] := rfl
@[simp] theorem Path.inject_waitList : (p.inject w).waitList = p.waitList := rfl
@[simp] theorem Path.inject_turn : (p.inject w).turn = p.turn := rfl
@[simp] theorem Path.inject_nextOrder : (p.inject w).nextOrder = p.nextOrder + 1 := rfl
@[simp] theorem Path.inject_nextIssue : (p.inject w).nextIssue = p.nextIssue := rfl
@[simp] theorem Path.inject_absorb : (p.inject w).absorb = p.absorb := rfl
@[simp] theorem Path.joinWait_pass : (p.joinWait b).pass = p.pass := rfl
@[simp] theorem Path.joinWait_injected : (p.joinWait b).injected = p.injected := rfl
@[simp] theorem Path.joinWait_waitList : (p.joinWait b).waitList = p.waitList ++ [b] := rfl
@[simp] theorem Path.joinWait_turn : (p.joinWait b).turn = p.turn := rfl
@[simp] theorem Path.joinWait_nextOrder : (p.joinWait b).nextOrder = p.nextOrder := rfl
@[simp] theorem Path.joinWait_nextIssue : (p.joinWait b).nextIssue = p.nextIssue := rfl
@[simp] theorem Path.joinWait_absorb : (p.joinWait b).absorb = p.absorb := rfl
@[simp] theorem Path.withdraw_pass : (p.withdraw b).pass = p.pass := rfl
@[simp] theorem Path.withdraw_injected : (p.withdraw b).injected = p.injected := rfl
@[simp] theorem Path.withdraw_waitList : (p.withdraw b).waitList = p.waitList.filter (· ≠ b) := rfl
@[simp] theorem Path.withdraw_turn : (p.withdraw b).turn = p.turn := rfl
@[simp] theorem Path.withdraw_nextOrder : (p.withdraw b).nextOrder = p.nextOrder := rfl
@[simp] theorem Path.withdraw_nextIssue : (p.withdraw b).nextIssue = p.nextIssue := rfl
@[simp] theorem Path.withdraw_absorb : (p.withdraw b).absorb = p.absorb := rfl

/-! ### A block whose request has been taken -/

@[simp] theorem Lane.trailerMade_control : l.trailerMade.control = l.control := rfl
@[simp] theorem Lane.trailerMade_detection : l.trailerMade.detection = l.detection := rfl
@[simp] theorem Lane.trailerMade_table : l.trailerMade.table = l.table := rfl
@[simp] theorem Lane.trailerMade_runs : l.trailerMade.runs = l.runs := rfl
@[simp] theorem Lane.trailerMade_capture :
    l.trailerMade.capture = { l.capture with trailers := l.capture.trailers.tail } := rfl

end Sys2Proof.Machine
end

