-- ==== Sys2Proof/Laws/Ops.lean ====
section
/-!
SUPPORT. One lemma for each shared operation that says what it can do: making requests, retiring, grading and marking, and
changing a lane's state. Two relations carry the frames: `Requested` (requests were made, nothing else changed) and
`Marked` (records were graded, offered and marked, nothing else changed).
-/

namespace Sys2Proof.Machine

/-! ### The report unit's faults, events and jobs -/

section Report

variable (r : ReportUnit) (c : FaultCode) (n : Nat) (e : Event) (j : Job)

/-- What raising a fault leaves alone: everything but the fault code, the detail and the suppressed count. -/
theorem ReportUnit.raise_frame : r.raise c n =
    { r with fault := (r.raise c n).fault, detail := (r.raise c n).detail, suppressed := (r.raise c n).suppressed } := by
  simp only [ReportUnit.raise]; split <;> rfl

theorem ReportUnit.raise_suppressed_le (h : r.suppressed ≤ 255) : (r.raise c n).suppressed ≤ 255 := by
  simp only [ReportUnit.raise, satAdd]; split
  · exact h
  · exact Nat.min_le_left ..

/-- What queueing an event leaves alone: everything but the events, the lost events and the fault. -/
theorem ReportUnit.emit_frame : r.emit e =
    { r with events := (r.emit e).events, lostEvents := (r.emit e).lostEvents, fault := (r.emit e).fault
             detail := (r.emit e).detail, suppressed := (r.emit e).suppressed } := by
  simp only [ReportUnit.emit]; split
  · rfl
  · rw [ReportUnit.raise_frame]

theorem ReportUnit.emit_events : (r.emit e).events = if r.events.length < 16 then r.events ++ [e] else r.events := by
  simp only [ReportUnit.emit]; split
  · rfl
  · rw [ReportUnit.raise_frame]

/-- What taking a job leaves alone: everything but the jobs, the lost jobs and the fault. -/
theorem ReportUnit.takeJob_frame : r.takeJob j =
    { r with jobs := (r.takeJob j).jobs, lostJobs := (r.takeJob j).lostJobs, fault := (r.takeJob j).fault
             detail := (r.takeJob j).detail, suppressed := (r.takeJob j).suppressed } := by
  simp only [ReportUnit.takeJob, ReportUnit.loseJob]; split
  · rfl
  · rw [ReportUnit.raise_frame]

theorem ReportUnit.takeJob_jobs : (r.takeJob j).jobs = if r.jobs.length < 8 then r.jobs ++ [j] else r.jobs := by
  simp only [ReportUnit.takeJob, ReportUnit.loseJob]; split
  · rfl
  · rw [ReportUnit.raise_frame]

end Report

/-! ### Making requests (R3) -/

/-- Requests have been made, or have joined the wait list, and nothing else has changed: the queue of injected requests
grew at its end by WAITING requests and kept its size, and of the blocks only what tells the requests still to be made
is different. -/
structure Requested (s t : State) : Prop where
  global : t.global = s.global
  clock : t.clock = s.clock
  ports : t.ports = s.ports
  strands : t.strands = s.strands
  classify : t.classify = s.classify
  loader : t.loader = s.loader
  choice : t.choice = s.choice
  pending : t.pending = s.pending
  pass : t.path.pass = s.path.pass
  turn : t.path.turn = s.path.turn
  nextIssue : t.path.nextIssue = s.path.nextIssue
  absorb : t.path.absorb = s.path.absorb
  injected : ∃ new : List InjEntry, t.path.injected = s.path.injected ++ new ∧ ∀ e ∈ new, e.issue = none
  room : t.path.injected.length ≤ max 16 s.path.injected.length
  lanes : ∀ i, ∃ trailers,
    t.lane i = { s.lane i with capture := { (s.lane i).capture with trailers := trailers } }
  command : ∃ cond consumer writes,
    t.command = { s.command with cond := cond, consumer := consumer, writes := writes }
  report : ∃ writer zeros writeIndex published,
    t.report = { s.report with writer := writer, zeros := zeros, writeIndex := writeIndex, published := published }

theorem Requested.refl (s : State) : Requested s s where
  global := rfl
  clock := rfl
  ports := rfl
  strands := rfl
  classify := rfl
  loader := rfl
  choice := rfl
  pending := rfl
  pass := rfl
  turn := rfl
  nextIssue := rfl
  absorb := rfl
  injected := ⟨[], by simp⟩
  room := Nat.le_max_right ..
  lanes := fun _ => ⟨_, rfl⟩
  command := ⟨_, _, _, rfl⟩
  report := ⟨_, _, _, _, rfl⟩

theorem Requested.trans {s t u : State} (a : Requested s t) (b : Requested t u) : Requested s u where
  global := b.global.trans a.global
  clock := b.clock.trans a.clock
  ports := b.ports.trans a.ports
  strands := b.strands.trans a.strands
  classify := b.classify.trans a.classify
  loader := b.loader.trans a.loader
  choice := b.choice.trans a.choice
  pending := b.pending.trans a.pending
  pass := b.pass.trans a.pass
  turn := b.turn.trans a.turn
  nextIssue := b.nextIssue.trans a.nextIssue
  absorb := b.absorb.trans a.absorb
  injected := by
    obtain ⟨x, hx, hx'⟩ := a.injected
    obtain ⟨y, hy, hy'⟩ := b.injected
    refine ⟨x ++ y, by rw [hy, hx, List.append_assoc], ?_⟩
    intro e he
    rcases List.mem_append.1 he with h | h
    · exact hx' e h
    · exact hy' e h
  room := by have := a.room; have := b.room; omega
  lanes := by
    intro i
    obtain ⟨x, hx⟩ := a.lanes i
    obtain ⟨y, hy⟩ := b.lanes i
    exact ⟨y, by rw [hy, hx]⟩
  command := by
    obtain ⟨_, _, _, hx⟩ := a.command
    obtain ⟨_, _, _, hy⟩ := b.command
    exact ⟨_, _, _, by rw [hy, hx]⟩
  report := by
    obtain ⟨_, _, _, _, hx⟩ := a.report
    obtain ⟨_, _, _, _, hy⟩ := b.report
    exact ⟨_, _, _, _, by rw [hy, hx]⟩

theorem Requested.strand {s t : State} (h : Requested s t) (k : Fin 6) : t.strand k = s.strand k := by
  simp only [State.strand, h.strands]

theorem Requested.control {s t : State} (h : Requested s t) (i : Fin 12) : (t.lane i).control = (s.lane i).control := by
  obtain ⟨_, hl⟩ := h.lanes i; rw [hl]

theorem Requested.detection {s t : State} (h : Requested s t) (i : Fin 12) :
    (t.lane i).detection = (s.lane i).detection := by
  obtain ⟨_, hl⟩ := h.lanes i; rw [hl]

theorem Requested.table {s t : State} (h : Requested s t) (i : Fin 12) : (t.lane i).table = (s.lane i).table := by
  obtain ⟨_, hl⟩ := h.lanes i; rw [hl]

theorem Requested.runs {s t : State} (h : Requested s t) (i : Fin 12) : (t.lane i).runs = (s.lane i).runs := by
  obtain ⟨_, hl⟩ := h.lanes i; rw [hl]

theorem CommandUnit.afterMade_frame (c : CommandUnit) : ∃ cond consumer writes,
    c.afterMade = { c with cond := cond, consumer := consumer, writes := writes } := by
  simp only [CommandUnit.afterMade, CommandUnit.beginNext]
  split
  · split
    · exact ⟨_, _, _, rfl⟩
    · exact ⟨c.cond, c.consumer, _, rfl⟩
  · split
    · exact ⟨_, c.consumer, c.writes, rfl⟩
    · exact ⟨_, c.consumer, c.writes, rfl⟩
    · split
      · exact ⟨_, _, c.writes, rfl⟩
      · exact ⟨_, _, c.writes, rfl⟩
    · exact ⟨c.cond, c.consumer, c.writes, rfl⟩

theorem ReportUnit.afterMade_frame (r : ReportUnit) : ∃ writer zeros writeIndex published,
    r.afterMade = { r with writer := writer, zeros := zeros, writeIndex := writeIndex, published := published } := by
  simp only [ReportUnit.afterMade]
  split
  · exact ⟨r.writer, _, r.writeIndex, _, rfl⟩
  · split
    · exact ⟨_, r.zeros, _, r.published, rfl⟩
    · exact ⟨_, r.zeros, r.writeIndex, r.published, rfl⟩
    · exact ⟨r.writer, r.zeros, r.writeIndex, r.published, rfl⟩

/-- One request taken into a queue with room. -/
theorem requested_made (b : Block) (w : Request × Purpose) (s : State) (h : s.path.injected.length < 16) :
    Requested s (made b { s with path := s.path.inject w }) := by
  have base (t : State) (hg : t.global = s.global) (hc : t.clock = s.clock) (ho : t.ports = s.ports)
      (hs : t.strands = s.strands) (hy : t.classify = s.classify) (hl : t.loader = s.loader)
      (hx : t.choice = s.choice) (hq : t.pending = s.pending) (hp : t.path = s.path.inject w)
      (hln : ∀ i, ∃ trailers, t.lane i = { s.lane i with capture := { (s.lane i).capture with trailers := trailers } })
      (hm : ∃ cond consumer writes,
        t.command = { s.command with cond := cond, consumer := consumer, writes := writes })
      (hr : ∃ writer zeros writeIndex published,
        t.report = { s.report with
          writer := writer, zeros := zeros, writeIndex := writeIndex, published := published }) : Requested s t :=
    { global := hg, clock := hc, ports := ho, strands := hs, classify := hy, loader := hl, choice := hx, pending := hq
      pass := by rw [hp]; rfl
      turn := by rw [hp]; rfl
      nextIssue := by rw [hp]; rfl
      absorb := by rw [hp]; rfl
      injected := ⟨[⟨w.1, w.2, s.path.nextOrder, none⟩], by rw [hp]; rfl, by simp⟩
      room := by rw [hp]; simp; omega
      lanes := hln, command := hm, report := hr }
  cases b with
  | lane i =>
    refine base _ rfl rfl rfl rfl rfl rfl rfl rfl rfl ?_ ⟨_, _, _, rfl⟩ ⟨_, _, _, _, rfl⟩
    intro j
    by_cases hj : j = i
    · subst hj; exact ⟨_, by simp [made, Lane.trailerMade]; rfl⟩
    · exact ⟨(s.lane j).capture.trailers, by simp [made, hj]⟩
  | command =>
    exact base _ rfl rfl rfl rfl rfl rfl rfl rfl rfl (fun i => ⟨_, rfl⟩) (CommandUnit.afterMade_frame _)
      ⟨_, _, _, _, rfl⟩
  | report =>
    exact base _ rfl rfl rfl rfl rfl rfl rfl rfl rfl (fun i => ⟨_, rfl⟩) ⟨_, _, _, rfl⟩
      (ReportUnit.afterMade_frame _)

/-- The wait list changes alone. -/
theorem requested_waitList (s : State) (l : List Block) : Requested s { s with path := { s.path with waitList := l } } :=
  { Requested.refl s with }

/-- The pump makes requests and does nothing else. -/
theorem requested_pump (n : Nat) (b : Block) (s : State) : Requested s (pump n b s) := by
  induction n generalizing s with
  | zero => exact Requested.refl s
  | succ n ih =>
    simp only [pump]
    split
    · exact Requested.refl s
    · split
      · exact Requested.refl s
      · split
        · next h => exact (requested_made b _ s h.2).trans (ih _)
        · exact requested_waitList s _

/-- A block makes the requests it has and does nothing else. -/
theorem requested_request (b : Block) (s : State) : Requested s (request b s) := requested_pump 17 b s

/-- With nothing to make, the pump stands still. -/
theorem pump_of_wanted_none {n : Nat} {b : Block} {s : State} (h : wanted b s = none) : pump n b s = s := by
  cases n <;> simp [pump, h]

/-- With no block waiting and room in the queue, the pump makes the next request and goes on. -/
theorem pump_of_wanted_some {n : Nat} {b : Block} {s : State} {w : Request × Purpose} (h : wanted b s = some w)
    (hw : s.path.waitList = []) (hn : s.path.injected.length < 16) :
    pump (n + 1) b s = pump n b (made b { s with path := s.path.inject w }) := by
  simp [pump, h, hw, hn]

/-- With a block waiting, or no room, a block that is not waiting joins the wait list. -/
theorem pump_of_full {n : Nat} {b : Block} {s : State} {w : Request × Purpose} (h : wanted b s = some w)
    (hb : b ∉ s.path.waitList) (hn : s.path.waitList ≠ [] ∨ 16 ≤ s.path.injected.length) :
    pump (n + 1) b s = { s with path := s.path.joinWait b } := by
  have : ¬ (s.path.waitList = [] ∧ s.path.injected.length < 16) := by
    rintro ⟨a, c⟩
    rcases hn with h | h
    · exact h a
    · omega
  simp [pump, h, hb, this]

/-- With nothing to make, a block makes nothing. -/
theorem request_of_wanted_none {b : Block} {s : State} (h : wanted b s = none) : request b s = s :=
  pump_of_wanted_none h

/-- Serving the wait list takes at most one request, where the queue has room for it. -/
theorem requested_serveWaiting (s : State) (h : s.path.injected.length < 16) : Requested s (serveWaiting s) := by
  simp only [serveWaiting]
  split
  · exact Requested.refl s
  · next b rest _ =>
    have first := requested_waitList s rest
    split
    · exact first
    · next w _ =>
      have second := first.trans (requested_made b w { s with path := { s.path with waitList := rest } } h)
      split
      · exact second.trans (requested_waitList _ _)
      · exact second

/-- The command unit's condition, index and writes change alone. -/
theorem requested_command (s : State) (cond : CmdCond) (consumer : Nat) (writes : List Request) :
    Requested s { s with command := { s.command with cond := cond, consumer := consumer, writes := writes } } :=
  { Requested.refl s with command := ⟨_, _, _, rfl⟩ }

/-- The report unit's writer and positions change alone. -/
theorem requested_report (s : State) (writer : Writer) (zeros writeIndex published : Nat) :
    Requested s { s with report := { s.report with
      writer := writer, zeros := zeros, writeIndex := writeIndex, published := published } } :=
  { Requested.refl s with report := ⟨_, _, _, _, rfl⟩ }

/-- A lane's waiting trailers change alone. -/
theorem requested_trailers (s : State) (i : Fin 12) (trailers : List Request) :
    Requested s (s.setLane i { s.lane i with capture := { (s.lane i).capture with trailers := trailers } }) :=
  { Requested.refl s with
    lanes := fun j => by
      by_cases hj : j = i
      · subst hj; exact ⟨_, by simp; rfl⟩
      · exact ⟨(s.lane j).capture.trailers, by simp [hj]⟩ }

/-- A command that retires makes requests and does nothing else. -/
theorem requested_retire (st : Status) (s : State) : Requested s (retire st s) :=
  (requested_command s (.retiring st false) s.command.consumer s.command.writes).trans (requested_request _ _)

/-- A trailer write is a request and nothing else. -/
theorem requested_makeTrailer (i : Fin 12) (line : Line) (st : TrailerStatus) (n m : Nat) (a b : Bool) (s : State) :
    Requested s (makeTrailer i line st n m a b s) := by
  simp only [makeTrailer]
  split
  · exact Requested.refl s
  · split
    · exact (requested_trailers s i _).trans (requested_request _ _)
    · exact Requested.refl s

/-- A producer word write of 0 is a request and nothing else. -/
theorem requested_writeZeroProducer (s : State) : Requested s (writeZeroProducer s) :=
  (requested_report s s.report.writer (s.report.zeros + 1) s.report.writeIndex s.report.published).trans
    (requested_request _ _)

/-! ### Grading, offering and marking -/

/-- The marker unit pulses as before, or it pulses from the bay time `now`, or it is in IDLE. -/
def PulseKept (now : Nat) (m n : Marker) : Prop :=
  (n.pulsing = m.pulsing ∧ n.pulseStart = m.pulseStart) ∨ n.pulseStart = now ∨ n.pulsing = false

theorem PulseKept.refl (now : Nat) (m : Marker) : PulseKept now m m := .inl ⟨rfl, rfl⟩

theorem PulseKept.trans {now : Nat} {m n o : Marker} (a : PulseKept now m n) (b : PulseKept now n o) :
    PulseKept now m o := by
  rcases b with ⟨b1, b2⟩ | b | b
  · rcases a with ⟨a1, a2⟩ | a | a
    · exact .inl ⟨b1.trans a1, b2.trans a2⟩
    · exact .inr (.inl (b2.trans a))
    · exact .inr (.inr (b1.trans a))
  · exact .inr (.inl b)
  · exact .inr (.inr b)

/-- Records have been graded, offered or marked, and nothing else has changed: of a strand, its open billet's tallies and
dropped count, its pending list and its marker unit but the settings; of the report unit, the mark states in its jobs and
in the writer's plan. -/
structure Marked (s t : State) : Prop where
  global : t.global = s.global
  clock : t.clock = s.clock
  path : t.path = s.path
  ports : t.ports = s.ports
  lanes : t.lanes = s.lanes
  classify : t.classify = s.classify
  command : t.command = s.command
  loader : t.loader = s.loader
  choice : t.choice = s.choice
  pending : t.pending = s.pending
  setup : ∀ k, (t.strand k).setup = (s.strand k).setup
  motion : ∀ k, (t.strand k).motion = (s.strand k).motion
  settings : ∀ k, (t.strand k).marker.settings = (s.strand k).marker.settings
  current : ∀ k, ∃ osc noise dropped,
    (t.strand k).billet.current = { (s.strand k).billet.current with osc := osc, noise := noise, dropped := dropped }
  report : ∃ jobs writer, t.report = { s.report with jobs := jobs, writer := writer } ∧
    jobs.map (·.billet) = s.report.jobs.map (·.billet)
  pulse : ∀ k, PulseKept s.clock (s.strand k).marker (t.strand k).marker

theorem Marked.refl (s : State) : Marked s s where
  global := rfl
  clock := rfl
  path := rfl
  ports := rfl
  lanes := rfl
  classify := rfl
  command := rfl
  loader := rfl
  choice := rfl
  pending := rfl
  setup := fun _ => rfl
  motion := fun _ => rfl
  settings := fun _ => rfl
  current := fun _ => ⟨_, _, _, rfl⟩
  report := ⟨_, _, rfl, rfl⟩
  pulse := fun _ => PulseKept.refl _ _

theorem Marked.trans {s t u : State} (a : Marked s t) (b : Marked t u) : Marked s u where
  global := b.global.trans a.global
  clock := b.clock.trans a.clock
  path := b.path.trans a.path
  ports := b.ports.trans a.ports
  lanes := b.lanes.trans a.lanes
  classify := b.classify.trans a.classify
  command := b.command.trans a.command
  loader := b.loader.trans a.loader
  choice := b.choice.trans a.choice
  pending := b.pending.trans a.pending
  setup := fun k => (b.setup k).trans (a.setup k)
  motion := fun k => (b.motion k).trans (a.motion k)
  settings := fun k => (b.settings k).trans (a.settings k)
  current := by
    intro k
    obtain ⟨_, _, _, hx⟩ := a.current k
    obtain ⟨_, _, _, hy⟩ := b.current k
    exact ⟨_, _, _, by rw [hy, hx]⟩
  report := by
    obtain ⟨_, _, hx, hx'⟩ := a.report
    obtain ⟨_, _, hy, hy'⟩ := b.report
    refine ⟨_, _, by rw [hy, hx], ?_⟩
    rw [hy', hx]; exact hx'
  pulse := fun k => (a.pulse k).trans (a.clock ▸ b.pulse k)

theorem Marked.lane {s t : State} (h : Marked s t) (i : Fin 12) : t.lane i = s.lane i := by simp only [State.lane, h.lanes]

/-- Running through a list, each step of which marks, marks. -/
theorem Marked.foldl {α : Type} (f : State → α → State) (h : ∀ s a, Marked s (f s a)) (l : List α) (s : State) :
    Marked s (l.foldl f s) := by
  induction l generalizing s with
  | nil => exact Marked.refl s
  | cons a l ih => exact (h s a).trans (ih _)

/-- A strand's marker, pending list and tallies change alone. -/
theorem marked_setStrand (k : Fin 6) (t : Strand) (s : State) (h1 : t.setup = (s.strand k).setup)
    (h2 : t.motion = (s.strand k).motion) (h3 : t.marker.settings = (s.strand k).marker.settings)
    (h4 : ∃ osc noise dropped,
      t.billet.current = { (s.strand k).billet.current with osc := osc, noise := noise, dropped := dropped })
    (h5 : PulseKept s.clock (s.strand k).marker t.marker) :
    Marked s (s.setStrand k t) :=
  { Marked.refl s with
    setup := fun m => by by_cases hm : m = k <;> simp [hm, h1]
    motion := fun m => by by_cases hm : m = k <;> simp [hm, h2]
    settings := fun m => by by_cases hm : m = k <;> simp [hm, h3]
    current := fun m => by
      by_cases hm : m = k
      · subst hm; obtain ⟨a, b, c, h⟩ := h4; exact ⟨a, b, c, by simp [h]⟩
      · exact ⟨(s.strand m).billet.current.osc, (s.strand m).billet.current.noise,
          (s.strand m).billet.current.dropped, by simp [hm]⟩
    pulse := fun m => by
      by_cases hm : m = k
      · subst hm; simpa using h5
      · simpa [hm] using PulseKept.refl _ _ }

theorem marked_modMarker (k : Fin 6) (f : Marker → Marker) (s : State)
    (h : ∀ m, (f m).settings = m.settings) (h5 : ∀ m, PulseKept s.clock m (f m)) : Marked s (s.modMarker k f) :=
  marked_setStrand k _ s rfl rfl (h _) ⟨_, _, _, rfl⟩ (h5 _)

theorem Job.remark_billet (k : Fin 6) (lane : Fin 12) (serial start : Nat) (m : Mark) (j : Job) :
    (j.remark k lane serial start m).billet = j.billet := by
  simp only [Job.remark]; split <;> rfl

/-- The jobs and the writer's plan change alone, the billet records of the jobs not at all. -/
theorem marked_report (s : State) (jobs : List Job) (writer : Writer)
    (h : jobs.map (·.billet) = s.report.jobs.map (·.billet)) :
    Marked s { s with report := { s.report with jobs := jobs, writer := writer } } :=
  { Marked.refl s with report := ⟨_, _, rfl, h⟩ }

theorem marked_remarkRecord (k : Fin 6) (e : MarkEntry) (m : Mark) (s : State) : Marked s (remarkRecord k e m s) := by
  refine (marked_setStrand k { s.strand k with billet := { (s.strand k).billet with
    waiting := (s.strand k).billet.waiting.map fun d => d.remark e.lane e.serial e.start m } } s rfl rfl rfl
    ⟨_, _, _, rfl⟩ (.refl _ _)).trans (marked_report _ _ _ ?_)
  simp [List.map_map, Function.comp_def, Job.remark_billet]

theorem marked_fireEntry (k : Fin 6) (e : MarkEntry) (s : State) : Marked s (fireEntry k e s) :=
  (marked_modMarker k (fun m => { m with
    pulsing := true, pulseStart := s.clock, lastFired := some e.fire, fired := bump m.fired }) s
    (fun _ => rfl) (fun _ => .inr (.inl rfl))).trans (marked_remarkRecord ..)

theorem marked_offerMark (k : Fin 6) (c : MarkSettings) (d : Defect) (s : State) : Marked s (offerMark k c d s).2 := by
  simp only [offerMark]
  split
  · exact Marked.refl s
  · split
    · dsimp only; refine marked_modMarker k _ s ?_ ?_ <;> first | exact fun _ => rfl | exact fun _ => .refl _ _
    · split
      · dsimp only; refine marked_modMarker k _ s ?_ ?_ <;> first | exact fun _ => rfl | exact fun _ => .refl _ _
      · split
        · exact marked_fireEntry ..
        · dsimp only; refine marked_modMarker k _ s ?_ ?_ <;> first | exact fun _ => rfl | exact fun _ => .refl _ _

theorem marked_markAdvance (k : Fin 6) (s : State) : Marked s (markAdvance k s) := by
  simp only [markAdvance]
  split
  · exact Marked.refl s
  · split
    · next es _ _ => exact (marked_modMarker k (fun m => { m with queue := es }) s (fun _ => rfl)
        (fun _ => .inl ⟨rfl, rfl⟩)).trans (marked_fireEntry ..)
    · exact Marked.refl s

theorem marked_removeLate (k : Fin 6) (s : State) (e : MarkEntry) : Marked s (removeLate k s e) :=
  (marked_modMarker k (fun m => { m with late := bump m.late }) s (fun _ => rfl)
    (fun _ => .inl ⟨rfl, rfl⟩)).trans (marked_remarkRecord ..)

theorem marked_endPulse (k : Fin 6) (c : MarkSettings) (s : State) : Marked s (endPulse k c s) := by
  simp only [endPulse]
  have start : Marked s ((pulseScan (s.strand k).motion.coord c.lateMax (s.strand k).marker.queue).1.foldl
      (removeLate k) (s.modMarker k fun m => { m with
        queue := (pulseScan (s.strand k).motion.coord c.lateMax (s.strand k).marker.queue).2.2 })) :=
    (marked_modMarker k (fun m => { m with
      queue := (pulseScan (s.strand k).motion.coord c.lateMax (s.strand k).marker.queue).2.2 }) s
      (fun _ => rfl) (fun _ => .inl ⟨rfl, rfl⟩)).trans (Marked.foldl _ (marked_removeLate k) ..)
  split
  · exact start.trans (marked_fireEntry ..)
  · refine start.trans (marked_modMarker k _ _ ?_ ?_)
    · exact fun _ => rfl
    · exact fun _ => .inr (.inr rfl)

theorem marked_modBillet (k : Fin 6) (f : OpenBillet → OpenBillet) (s : State)
    (h : ∃ osc noise dropped, f (s.strand k).billet.current =
      { (s.strand k).billet.current with osc := osc, noise := noise, dropped := dropped }) :
    Marked s (s.modBillet k f) :=
  marked_setStrand k _ s rfl rfl rfl h (.refl _ _)

theorem marked_offerIfGraded (k : Fin 6) (d : Defect) (s : State) : Marked s (offerIfGraded k d s).2 := by
  simp only [offerIfGraded]
  split
  · exact Marked.refl s
  · split
    · exact marked_offerMark ..
    · exact Marked.refl s

theorem marked_gradeTrack (i : Fin 12) (n : Nat) (r : CloseReason) (h : Bool) (t : Track) (s : State) :
    Marked s (gradeTrack i n r h t s).2 := by
  simp only [gradeTrack]
  split
  · exact Marked.refl s
  · split
    · dsimp only; refine marked_modBillet _ _ s ?_; exact ⟨_, _, _, rfl⟩
    · split
      · dsimp only; refine marked_modBillet _ _ s ?_; exact ⟨_, _, _, rfl⟩
      · exact marked_offerIfGraded ..

theorem marked_toPending (k : Fin 6) (d : Defect) (s : State) : Marked s (toPending k d s) := by
  refine marked_setStrand k _ s rfl rfl rfl ?_ (.refl _ _)
  dsimp only
  split
  · exact ⟨_, _, _, rfl⟩
  · exact ⟨(s.strand k).billet.current.osc, (s.strand k).billet.current.noise,
      (s.strand k).billet.current.dropped, rfl⟩

theorem marked_closeToPending (i : Fin 12) (n : Nat) (r : CloseReason) (s : State) (t : Track) :
    Marked s (closeToPending i n r s t) := by
  have g := marked_gradeTrack i n r false t s
  simp only [closeToPending]
  split
  · next h => rw [h] at g; exact g
  · next h => rw [h] at g; exact g.trans (marked_toPending ..)

/-- The drain of a lane empties its table and marks. -/
theorem marked_drainTracks (i : Fin 12) (n : Nat) (s : State) :
    Marked (s.setLane i { s.lane i with table := { (s.lane i).table with tracks := [] } }) (drainTracks i n s) :=
  Marked.foldl _ (marked_closeToPending i n .drain) ..

/-! ### Changing a lane's state (R136) -/

/-- What changing a lane's state changes: that state, and the events or the fault of the report unit. -/
theorem changeLaneState_spec (i : Fin 12) (new : LaneState) (cause : Cause) (line : Nat) (s : State) :
    changeLaneState i new cause line s =
      { s.modControl i (fun c => { c with state := new }) with
        report := s.report.emit
          (.laneState i (s.lane i).binding (s.lane i).control.state new cause line s.clock) } := rfl

theorem changeLaneState_lane (i j : Fin 12) (new : LaneState) (cause : Cause) (line : Nat) (s : State) :
    (changeLaneState i new cause line s).lane j =
      if j = i then { s.lane i with control := { (s.lane i).control with state := new } } else s.lane j := by
  simp [changeLaneState_spec]

/-! ### Targets (R153) -/

theorem onLane_val (i : Fin 12) (f : Fin 12 → State → Status × State) (s : State) : onLane i.val f s = f i s := by
  simp [onLane]

theorem onLane_out {t : Nat} (h : 12 ≤ t) (f : Fin 12 → State → Status × State) (s : State) :
    onLane t f s = (.badTarget, s) := by
  simp [onLane, Nat.not_lt.2 h]

theorem onStrand_val (k : Fin 6) (f : Fin 6 → State → Status × State) (s : State) : onStrand k.val f s = f k s := by
  simp [onStrand]

theorem onStrand_out {t : Nat} (h : 6 ≤ t) (f : Fin 6 → State → Status × State) (s : State) :
    onStrand t f s = (.badTarget, s) := by
  simp [onStrand, Nat.not_lt.2 h]

end Sys2Proof.Machine
end

