-- ==== Sys2Proof/Laws/Motion.lean ====
section
/-!
SUPPORT. What a cut and a sample of one strand can do. `Cutting` says what splitting the tables of lanes at a boundary
changes, `OfStrand` what any event of one strand's sample changes; the lemmas after them say what each event does to the
strand's motion channel and to its pulse.
-/

namespace Sys2Proof.Machine

/-! ### Marking on one strand leaves the others alone -/

section Frames

variable {k j : Fin 6} (s : State) (hj : j ≠ k)
include hj

theorem remarkRecord_strand (e : MarkEntry) (m : Mark) : (remarkRecord k e m s).strand j = s.strand j := by
  simp [remarkRecord, hj]

theorem fireEntry_strand (e : MarkEntry) : (fireEntry k e s).strand j = s.strand j := by
  simp [fireEntry, remarkRecord_strand _ hj, hj]

theorem markAdvance_strand : (markAdvance k s).strand j = s.strand j := by
  simp only [markAdvance]
  split
  · rfl
  · split
    · rw [fireEntry_strand _ hj]; simp [hj]
    · rfl

theorem removeLate_fold_strand (l : List MarkEntry) : (l.foldl (removeLate k) s).strand j = s.strand j := by
  induction l generalizing s with
  | nil => rfl
  | cons e l ih => rw [List.foldl_cons, ih, removeLate, remarkRecord_strand _ hj]; simp [hj]

theorem endPulse_strand (c : MarkSettings) : (endPulse k c s).strand j = s.strand j := by
  simp only [endPulse]
  split
  · rw [fireEntry_strand _ hj, removeLate_fold_strand _ hj]; simp [hj]
  · rw [State.modMarker_strand, if_neg hj, removeLate_fold_strand _ hj]; simp [hj]

theorem endDuePulse_strand : (endDuePulse k s).strand j = s.strand j := by
  simp only [endDuePulse]
  split
  · split
    · exact endPulse_strand _ hj _
    · rfl
  · rfl

theorem offerIfGraded_strand (d : Defect) : (offerIfGraded k d s).2.strand j = s.strand j := by
  simp only [offerIfGraded, offerMark]
  split
  · rfl
  · split_ifs <;> simp [fireEntry_strand _ hj, hj]

theorem gradeTrack_strand {i : Fin 12} {n : Nat} {r : CloseReason} {h : Bool} {t : Track}
    (hb : (s.lane i).binding = some k) : (gradeTrack i n r h t s).2.strand j = s.strand j := by
  obtain ⟨g, hg, rfl⟩ : ∃ g, (s.lane i).control.geometry = some g ∧ g.strand = k := by simpa [Lane.binding] using hb
  simp only [gradeTrack, hg]
  split_ifs
  · simp [hj]
  · simp [hj]
  · exact offerIfGraded_strand _ hj _

end Frames

/-! ### The pending list of a strand, its mark states aside -/

/-- A record without its mark state. -/
def Defect.unmarked (d : Defect) : Defect := { d with mark := .none }

@[simp] theorem Defect.unmarked_remark (d : Defect) (l : Fin 12) (a b : Nat) (m : Mark) :
    (d.remark l a b m).unmarked = d.unmarked := by
  simp only [Defect.remark]; split <;> rfl

@[simp] theorem Defect.unmarked_mark (d : Defect) (m : Mark) : Defect.unmarked { d with mark := m } = d.unmarked := rfl

theorem fireEntry_waiting (k m : Fin 6) (e : MarkEntry) (s : State) :
    ((fireEntry k e s).strand m).billet.waiting.map Defect.unmarked =
      (s.strand m).billet.waiting.map Defect.unmarked := by
  by_cases h : m = k
  · subst h; simp [fireEntry, remarkRecord, Function.comp_def]
  · rw [fireEntry_strand _ h]

/-- Offering a record for marking changes only mark states of the records held. -/
theorem offerIfGraded_waiting (k m : Fin 6) (d : Defect) (s : State) :
    ((offerIfGraded k d s).2.strand m).billet.waiting.map Defect.unmarked =
      (s.strand m).billet.waiting.map Defect.unmarked := by
  simp only [offerIfGraded, offerMark]
  split
  · rfl
  · by_cases h : m = k
    · subst h; split_ifs <;> simp [fireEntry_waiting]
    · split_ifs <;> simp [fireEntry_waiting, h]

/-- Grading a track changes only mark states of the records held. -/
theorem gradeTrack_waiting (i : Fin 12) (n : Nat) (r : CloseReason) (h : Bool) (t : Track) (s : State) (m : Fin 6) :
    ((gradeTrack i n r h t s).2.strand m).billet.waiting.map Defect.unmarked =
      (s.strand m).billet.waiting.map Defect.unmarked := by
  simp only [gradeTrack]
  split
  · rfl
  · next g _ =>
    have mod (f : OpenBillet → OpenBillet) : ((s.modBillet g.strand f).strand m).billet.waiting =
        (s.strand m).billet.waiting := by
      rw [State.modBillet_strand]; split
      · next h => rw [h]
      · rfl
    split_ifs
    · rw [mod]
    · rw [mod]
    · exact offerIfGraded_waiting ..

/-- The record that grading makes of a track: what it takes from the track, and when. -/
theorem gradeTrack_record {i : Fin 12} {n : Nat} {r : CloseReason} {h : Bool} {t : Track} {s : State} {d : Defect}
    (hd : (gradeTrack i n r h t s).1 = some d) :
    d.lane = i ∧ d.reason = r ∧ d.splitHead = h ∧ d.straddle = false ∧ d.time = s.clock ∧ d.serial = t.serial ∧
      d.start = t.start ∧ d.stop = t.stop := by
  simp only [gradeTrack] at hd
  split at hd
  · cases hd
  · split_ifs at hd
    simp only [offerIfGraded] at hd
    split at hd
    · cases hd; exact ⟨rfl, rfl, rfl, rfl, rfl, rfl, rfl, rfl⟩
    · split_ifs at hd <;> cases hd <;> exact ⟨rfl, rfl, rfl, rfl, rfl, rfl, rfl, rfl⟩

/-! ### The split of the tables at an accepted cut (R115 step 1) -/

/-- The tables of the lanes `done`, bound to strand `k`, have been split at `b`, and records have been graded, offered and
marked on that strand; nothing else has changed. -/
structure Cutting (b : Nat) (k : Fin 6) (done : List (Fin 12)) (s t : State) : Prop where
  lanes : ∀ i, t.lane i = if i ∈ done then { s.lane i with table := (s.lane i).table.split b } else s.lane i
  marked : Marked { s with lanes := t.lanes } t
  strands : ∀ j, j ≠ k → t.strand j = s.strand j
  waiting : (t.strand k).billet.waiting.map Defect.unmarked = (s.strand k).billet.waiting.map Defect.unmarked

/-- A record of the group that the head of a track makes at the cut at `b` (R79, R83, R115). -/
def HeadOf (b : Nat) (k : Fin 6) (s : State) (d : Defect) : Prop :=
  (s.lane d.lane).binding = some k ∧ d.reason = .cut ∧ d.splitHead = true ∧ d.straddle = false ∧ d.time = s.clock ∧
    ∃ x ∈ (s.lane d.lane).table.tracks, x.start < b ∧ x.serial = d.serial ∧ x.start = d.start ∧
      d.stop = min x.stop (b - 1)

/-- One head after another is graded, offered and marked, and a record made joins the group. -/
theorem gradeHeads_spec (i : Fin 12) (n : Nat) (k : Fin 6) (heads : List Track) (acc : List Defect × State)
    (hb : (acc.2.lane i).binding = some k) :
    let r := heads.foldl (fun acc t =>
      match gradeTrack i n .cut true t acc.2 with
      | (none, s) => (acc.1, s)
      | (some d, s) => (acc.1 ++ [d], s)) acc
    Marked acc.2 r.2 ∧ (∀ j, j ≠ k → r.2.strand j = acc.2.strand j) ∧
    (r.2.strand k).billet.waiting.map Defect.unmarked = (acc.2.strand k).billet.waiting.map Defect.unmarked ∧
    ∀ d ∈ r.1, d ∈ acc.1 ∨ ∃ t ∈ heads, d.lane = i ∧ d.reason = .cut ∧ d.splitHead = true ∧ d.straddle = false ∧
      d.time = acc.2.clock ∧ d.serial = t.serial ∧ d.start = t.start ∧ d.stop = t.stop := by
  induction heads generalizing acc with
  | nil => exact ⟨Marked.refl _, fun _ _ => rfl, rfl, fun d hd => .inl hd⟩
  | cons t heads ih =>
    have hm := marked_gradeTrack i n .cut true t acc.2
    have hs := fun j (hj : j ≠ k) => gradeTrack_strand (n := n) (r := .cut) (h := true) (t := t) acc.2 hj hb
    have hw := gradeTrack_waiting i n .cut true t acc.2 k
    have hd := fun d => gradeTrack_record (i := i) (n := n) (r := .cut) (h := true) (t := t) (s := acc.2) (d := d)
    simp only [List.foldl_cons]
    rcases hg : gradeTrack i n .cut true t acc.2 with ⟨o, u⟩
    rw [hg] at hm hs hw hd
    have hu : (u.lane i).binding = some k := by rw [hm.lane]; exact hb
    have hc : u.clock = acc.2.clock := hm.clock
    cases o with
    | none =>
      obtain ⟨a, b, c, e⟩ := ih (acc.1, u) hu
      refine ⟨hm.trans a, fun j hj => (b j hj).trans (hs j hj), c.trans hw, fun d h => ?_⟩
      rcases e d h with e | ⟨x, hx, e⟩
      · exact .inl e
      · exact .inr ⟨x, by simp [hx], by simpa [hc] using e⟩
    | some d =>
      obtain ⟨a, b, c, e⟩ := ih (acc.1 ++ [d], u) hu
      refine ⟨hm.trans a, fun j hj => (b j hj).trans (hs j hj), c.trans hw, fun y h => ?_⟩
      rcases e y h with e | ⟨x, hx, e⟩
      · rcases List.mem_append.1 e with e | e
        · exact .inl e
        · rw [List.mem_singleton.1 e]; exact .inr ⟨t, by simp, hd d rfl⟩
      · exact .inr ⟨x, by simp [hx], by simpa [hc] using e⟩

/-- Running the lanes of a strand through the cut splits their tables, and the group grows by records of their heads. -/
theorem splitLanes_spec (b : Nat) (k : Fin 6) (l done : List (Fin 12)) (s : State) (acc : List Defect × State)
    (h : Cutting b k done s acc.2) (hg : ∀ d ∈ acc.1, HeadOf b k s d) (hl : ∀ i ∈ l, (s.lane i).binding = some k)
    (hn : (l ++ done).Nodup) :
    Cutting b k (l ++ done) s (l.foldl (splitLane b) acc).2 ∧
      ∀ d ∈ (l.foldl (splitLane b) acc).1, HeadOf b k s d := by
  induction l generalizing done acc with
  | nil => exact ⟨h, hg⟩
  | cons i l ih =>
    have hi : i ∉ done := by simp at hn; exact hn.1.2
    have hli : acc.2.lane i = s.lane i := by rw [h.lanes, if_neg hi]
    obtain ⟨m, st, wt, hd⟩ := gradeHeads_spec i ((acc.2.lane i).control.detect.getD Detect.zero).minLines k
      ((acc.2.lane i).table.heads b)
      (acc.1, acc.2.setLane i { acc.2.lane i with table := (acc.2.lane i).table.split b })
      (by simpa [Lane.binding, hli] using hl i (by simp))
    rw [List.foldl_cons]
    have next : Cutting b k (i :: done) s (splitLane b acc i).2 := by
      refine ⟨fun j => ?_, ?_, fun j hj => (st j hj).trans (h.strands j hj), wt.trans h.waiting⟩
      · refine (m.lane j).trans ?_
        by_cases hj : j = i
        · subst hj; simp [hli]
        · simp [hj, h.lanes j]
      · have moved := h.marked
        refine Marked.trans (t := acc.2.setLane i { acc.2.lane i with table := (acc.2.lane i).table.split b }) ?_ m
        refine { moved with lanes := m.lanes.symm }
    have group : ∀ d ∈ (splitLane b acc i).1, HeadOf b k s d := by
      intro d hx
      rcases hd d hx with hx | ⟨t, ht, h1, h2, h3, h4, h5, h6, h7, h8⟩
      · exact hg d hx
      · obtain ⟨x, hx, rfl⟩ := List.mem_map.1 ht
        obtain ⟨hx, hb⟩ := List.mem_filter.1 hx
        refine ⟨by rw [h1]; exact hl i (by simp), h2, h3, h4, ?_, x, ?_, by simpa using hb, h6.symm, h7.symm, h8⟩
        · rw [h5]; exact h.marked.clock
        · rw [h1, ← hli]; exact hx
    have order : (l ++ i :: done).Nodup := (List.perm_middle (l₁ := l) (l₂ := done)).nodup_iff.2 hn
    obtain ⟨a, c⟩ := ih (i :: done) _ next group (fun j hj => hl j (by simp [hj])) order
    refine ⟨{ a with lanes := fun j => ?_ }, c⟩
    rw [a.lanes]; simp [or_left_comm]

theorem anyOrder_perm {α : Type} (n : Nat) (l : List α) : (anyOrder n l).Perm l := by
  have ins (x : α) (k : Nat) (l : List α) : (insertPos x k l).Perm (x :: l) := by
    induction k generalizing l with
    | zero => exact .refl _
    | succ k ih =>
      cases l with
      | nil => exact .refl _
      | cons y l => exact ((ih l).cons _).trans (.swap ..)
  induction l generalizing n with
  | nil => exact .refl _
  | cons x l ih =>
    simp only [anyOrder]
    have rest := ih (n + 1)
    split
    · next h => rw [h] at rest; exact rest.cons _
    · next h => rw [h] at rest; exact (ins ..).trans (rest.cons _)

/-- Trimming the run lists of lanes changes their run lists alone. -/
theorem trimLanes_fold (b : Nat) (l : List (Fin 12)) (s : State) (hl : l.Nodup) :
    l.foldl (trimLanes b) s = { s with lanes := (l.foldl (trimLanes b) s).lanes } ∧
    ∀ i, (l.foldl (trimLanes b) s).lane i =
      if i ∈ l then { s.lane i with runs := trimRuns b (s.lane i).runs } else s.lane i := by
  induction l generalizing s with
  | nil => exact ⟨rfl, fun i => rfl⟩
  | cons i l ih =>
    obtain ⟨hi, hl⟩ := List.nodup_cons.1 hl
    obtain ⟨a, c⟩ := ih (trimLanes b s i) hl
    refine ⟨a, fun j => ?_⟩
    rw [List.foldl_cons, c]
    by_cases hj : j = i
    · subst hj; simp [hi, trimLanes]
    · simp [hj, trimLanes]

/-! ### What an event of one strand's sample can change -/

/-- What a step, an encoder error, a cut or a pulse end of strand `k` can change: that strand's motion, its marker unit but
the settings, its billet and pending list; the tables and runs of lanes; the report unit's jobs, events and fault and the
mark states in the writer's plan; the state of the free choices. -/
structure OfStrand (k : Fin 6) (s t : State) : Prop where
  frame : t = { s with lanes := t.lanes, strands := t.strands, report := t.report, choice := t.choice }
  strands : ∀ j, j ≠ k → t.strand j = s.strand j
  setup : ∀ j, (t.strand j).setup = (s.strand j).setup
  settings : ∀ j, (t.strand j).marker.settings = (s.strand j).marker.settings
  lanes : ∀ i, ∃ table runs, t.lane i = { s.lane i with table := table, runs := runs }
  report : t.report = { s.report with
    jobs := t.report.jobs, lostJobs := t.report.lostJobs, events := t.report.events
    lostEvents := t.report.lostEvents, fault := t.report.fault, detail := t.report.detail
    suppressed := t.report.suppressed, writer := t.report.writer }
  pulse : ∀ j, PulseKept s.clock (s.strand j).marker (t.strand j).marker

theorem OfStrand.clock {k : Fin 6} {s t : State} (h : OfStrand k s t) : t.clock = s.clock := by rw [h.frame]

theorem OfStrand.global {k : Fin 6} {s t : State} (h : OfStrand k s t) : t.global = s.global := by rw [h.frame]

theorem OfStrand.refl (k : Fin 6) (s : State) : OfStrand k s s where
  frame := rfl
  strands := fun _ _ => rfl
  setup := fun _ => rfl
  settings := fun _ => rfl
  lanes := fun _ => ⟨_, _, rfl⟩
  report := rfl
  pulse := fun _ => .refl ..

theorem OfStrand.trans {k : Fin 6} {s t u : State} (a : OfStrand k s t) (b : OfStrand k t u) : OfStrand k s u where
  frame := by conv_lhs => rw [b.frame, a.frame]
  strands := fun j hj => (b.strands j hj).trans (a.strands j hj)
  setup := fun j => (b.setup j).trans (a.setup j)
  settings := fun j => (b.settings j).trans (a.settings j)
  lanes := fun i => by
    obtain ⟨_, _, ha⟩ := a.lanes i
    obtain ⟨_, _, hb⟩ := b.lanes i
    exact ⟨_, _, by rw [hb, ha]⟩
  report := by conv_lhs => rw [b.report, a.report]
  pulse := fun j => (a.pulse j).trans (a.clock ▸ b.pulse j)

/-- Grading, offering and marking on one strand is an event of that strand. -/
theorem Marked.ofStrand {k : Fin 6} {s t : State} (h : Marked s t) (hs : ∀ j, j ≠ k → t.strand j = s.strand j) :
    OfStrand k s t where
  frame := by
    obtain ⟨g, c, p, o, l, ts, y, m, r, d, x, q⟩ := s
    obtain ⟨g', c', p', o', l', ts', y', m', r', d', x', q'⟩ := t
    obtain ⟨h1, h2, h3, h4, h5, h6, h7, h8, h9, h10⟩ := h
    simp_all
  strands := hs
  setup := h.setup
  settings := h.settings
  lanes := fun i => ⟨_, _, h.lane i⟩
  report := by
    obtain ⟨_, _, hr, _⟩ := h.report
    rw [hr]
  pulse := h.pulse

/-- A strand's motion channel changes alone. -/
theorem ofStrand_modMotion (k : Fin 6) (f : Motion → Motion) (s : State) : OfStrand k s (s.modMotion k f) where
  frame := rfl
  strands := fun j hj => by simp [hj]
  setup := fun j => by by_cases hj : j = k <;> simp [hj]
  settings := fun j => by by_cases hj : j = k <;> simp [hj]
  lanes := fun _ => ⟨_, _, rfl⟩
  report := rfl
  pulse := fun j => by by_cases hj : j = k <;> simp [hj, PulseKept.refl]

/-- An event joins the queue, or is lost. -/
theorem ofStrand_emit (k : Fin 6) (e : Event) (s : State) : OfStrand k s (s.emit e) :=
  { OfStrand.refl k s with frame := rfl, report := by rw [State.emit_report, ReportUnit.emit_frame] }

theorem ofStrand_markAdvance (k : Fin 6) (s : State) : OfStrand k s (markAdvance k s) :=
  (marked_markAdvance k s).ofStrand fun _ hj => markAdvance_strand s hj

/-- An accepted cut (R115) is an event of its strand, and leaves its motion. -/
theorem acceptCut_spec (k : Fin 6) (c : StrandSetup) (b : Nat) (s : State) :
    OfStrand k s (acceptCut k c b s) ∧ ∀ j, ((acceptCut k c b s).strand j).motion = (s.strand j).motion := by
  simp only [acceptCut]
  generalize hs1 : (if (splittingLanes s k b).length ≤ 1 then s
    else { s with choice := s.choice + (splittingLanes s k b).length }) = s1
  have e1 : s1 = { s with choice := s1.choice } := by rw [← hs1]; split <;> rfl
  have e1l (i : Fin 12) : s1.lane i = s.lane i := by rw [e1]; rfl
  have e1s (j : Fin 6) : s1.strand j = s.strand j := by rw [e1]; rfl
  have perm := anyOrder_perm s.choice (splittingLanes s k b)
  have cut := (splitLanes_spec b k (anyOrder s.choice (splittingLanes s k b)) [] s1 ([], s1)
    ⟨fun _ => by simp, .refl _, fun _ _ => rfl, rfl⟩ (by simp)
    (fun i hi => by
      rw [e1l]; exact (mem_boundLanes s k i).1 (List.mem_filter.1 (perm.mem_iff.1 hi)).1)
    (by
      rw [List.append_nil, perm.nodup_iff]
      exact List.Nodup.filter _ (List.Nodup.filter _ (by decide)))).1
  generalize (anyOrder s.choice (splittingLanes s k b)).foldl (splitLane b) ([], s1) = r at cut
  obtain ⟨t1, t2⟩ := trimLanes_fold b (boundLanes r.2 k) r.2 (List.Nodup.filter _ (by decide))
  generalize (boundLanes r.2 k).foldl (trimLanes b) r.2 = s3 at t1 t2
  have e3s (j : Fin 6) : s3.strand j = r.2.strand j := by rw [t1]; rfl
  have marked := cut.marked
  have first : OfStrand k s s3 := by
    obtain ⟨jobs, writer, hr, _⟩ := marked.report
    refine ⟨?_, fun j hj => ?_, fun j => ?_, fun j => ?_, fun i => ?_, ?_, fun j => ?_⟩
    · have f := (marked.ofStrand (k := k) cut.strands).frame
      rw [t1, f, e1]
    · rw [e3s, cut.strands j hj, e1s]
    · rw [e3s, marked.setup]; exact congrArg _ (e1s j)
    · rw [e3s, marked.settings]; exact congrArg (·.marker.settings) (e1s j)
    · rw [t2, cut.lanes, e1l]; split <;> split <;> exact ⟨_, _, rfl⟩
    · rw [t1]; simp only [hr]; rw [e1]
    · have := marked.pulse j
      rw [e3s]
      have h2 : ({ s1 with lanes := r.2.lanes } : State).strand j = s.strand j := e1s j
      rw [h2] at this
      have h3 : ({ s1 with lanes := r.2.lanes } : State).clock = s.clock := by rw [e1]
      rwa [h3] at this
  have moved (j : Fin 6) : (s3.strand j).motion = (s.strand j).motion := by
    rw [e3s, marked.motion]; exact congrArg _ (e1s j)
  refine ⟨first.trans ⟨?_, fun j hj => ?_, fun j => ?_, fun j => ?_, fun i => ⟨_, _, rfl⟩, ?_, fun j => ?_⟩, fun j => ?_⟩
  · rfl
  · simp [hj]
  · by_cases hj : j = k <;> simp [hj, e3s]
  · by_cases hj : j = k <;> simp [hj, e3s]
  · dsimp only [State.setStrand_report]; rw [ReportUnit.takeJob_frame]
  · by_cases hj : j = k <;> simp [hj, e3s, PulseKept.refl]
  · rw [← moved j]; by_cases hj : j = k <;> simp [hj, e3s]

/-- A cut that is judged (R114) is an event of its strand, and leaves its motion. -/
theorem judgeCut_spec (k : Fin 6) (c : StrandSetup) (s : State) :
    OfStrand k s (judgeCut k c s) ∧ ∀ j, ((judgeCut k c s).strand j).motion = (s.strand j).motion := by
  simp only [judgeCut]
  split
  · exact acceptCut_spec ..
  · exact ⟨ofStrand_emit .., fun _ => rfl⟩

/-! ### A sample and its increment (R36, R37, R44, R129) -/

theorem ofStrand_stepForward (k : Fin 6) (s : State) : OfStrand k s (stepForward k s) := by
  simp only [stepForward]
  split
  · exact ofStrand_modMotion ..
  · split
    · exact (ofStrand_modMotion ..).trans (ofStrand_markAdvance ..)
    · exact .refl ..

theorem ofStrand_stepReverse (k : Fin 6) (s : State) : OfStrand k s (stepReverse k s) := by
  simp only [stepReverse, testReverseReport]
  split
  · split
    · exact ofStrand_modMotion ..
    · split
      · exact (ofStrand_modMotion ..).trans ((ofStrand_modMotion ..).trans (ofStrand_emit ..))
      · exact ofStrand_modMotion ..
  · exact .refl ..

/-- Decoding the pair of a sample is an event of its strand. -/
theorem ofStrand_decodeDue (k : Fin 6) (s : State) : OfStrand k s (decodeDue k s) := by
  simp only [decodeDue]
  split
  · exact .refl ..
  · next p _ =>
    have taken : OfStrand k s (takePair k p s) := ofStrand_modMotion ..
    split
    · exact taken
    · exact taken.trans (ofStrand_stepForward ..)
    · exact taken.trans (ofStrand_stepReverse ..)
    · exact taken.trans (ofStrand_modMotion ..)

theorem stepForward_motion (k : Fin 6) (s : State) :
    ((stepForward k s).strand k).motion = { (s.strand k).motion with
      debt := (s.strand k).motion.debt - 1
      reportArmed := if (s.strand k).motion.debt = 1 then true else (s.strand k).motion.reportArmed
      coord := if 0 < (s.strand k).motion.debt ∨ topCoord ≤ (s.strand k).motion.coord then (s.strand k).motion.coord
        else (s.strand k).motion.coord + 1 } := by
  simp only [stepForward]
  split
  · next h => simp [h]
  · next h =>
    have zero : (s.strand k).motion.debt = 0 := by omega
    split
    · next h' => rw [(marked_markAdvance ..).motion]; simp [zero, Nat.not_le.2 h']
    · next h' =>
      have top : topCoord ≤ (s.strand k).motion.coord := by omega
      simp only [top, or_true, if_true, zero]
      generalize (s.strand k).motion = m at zero
      obtain ⟨_, _, _, _, _, _, _, _⟩ := m
      simp only at zero; subst zero; rfl

theorem stepReverse_motion (k : Fin 6) (s : State) : ∃ debt armed,
    ((stepReverse k s).strand k).motion = { (s.strand k).motion with debt := debt, reportArmed := armed } := by
  simp only [stepReverse, testReverseReport]
  split
  · split
    · exact ⟨(s.strand k).motion.debt + 1, (s.strand k).motion.reportArmed, by simp⟩
    · split
      · exact ⟨(s.strand k).motion.debt + 1, false, by simp⟩
      · exact ⟨(s.strand k).motion.debt + 1, (s.strand k).motion.reportArmed, by simp⟩
  · exact ⟨_, _, rfl⟩

/-- What decoding the pair of a sample does to the motion channel (R37 to R40). -/
theorem decodeDue_motion (k : Fin 6) (s : State) :
    let m := (s.strand k).motion
    let n := ((decodeDue k s).strand k).motion
    n.pairDue = none ∧ n.refPair = m.pairDue.getD m.refPair ∧ n.cutHigh = m.cutHigh ∧ n.cutDue = m.cutDue ∧
      (∀ p, m.pairDue = some p → decodePair m.refPair p = .forward → m.debt = 0 → m.coord < topCoord →
        n.coord = m.coord + 1) ∧
      ((∀ p, m.pairDue = some p → decodePair m.refPair p ≠ .forward) → n.coord = m.coord) := by
  simp only [decodeDue, takePair, countEncoderError]
  split
  · next h => exact ⟨h, by simp [h], rfl, rfl, by simp [h], fun _ => rfl⟩
  · next p h =>
    split
    · next hd => simp [h, hd]
    · next hd => rw [stepForward_motion]; simp +contextual [h, hd]
    · next hd =>
      obtain ⟨d, a, hr⟩ := stepReverse_motion k (s.modMotion k fun m => { m with refPair := p, pairDue := none })
      rw [hr]; simp [h, hd]
    · next hd => simp [h, hd]

/-- Comparing the cut input of a sample is an event of its strand. -/
theorem ofStrand_compareDue (k : Fin 6) (s : State) : OfStrand k s (compareDue k s) := by
  simp only [compareDue, takeLevel]
  split
  · exact .refl ..
  · split
    · exact (ofStrand_modMotion ..).trans (judgeCut_spec ..).1
    · exact ofStrand_modMotion ..

/-- What comparing the cut input does to the motion channel (R44). -/
theorem compareDue_motion (k : Fin 6) (s : State) :
    ((compareDue k s).strand k).motion = { (s.strand k).motion with
      cutHigh := (s.strand k).motion.cutDue.getD (s.strand k).motion.cutHigh, cutDue := none } := by
  simp only [compareDue, takeLevel]
  split
  · next h =>
    generalize (s.strand k).motion = m at h
    obtain ⟨_, _, _, _, _, _, _, _⟩ := m
    simp only at h; subst h; rfl
  · next h =>
    split
    · rw [(judgeCut_spec ..).2]; simp [h]
    · simp [h]

theorem marked_endDuePulse (k : Fin 6) (s : State) : Marked s (endDuePulse k s) := by
  simp only [endDuePulse]
  split
  · split
    · exact marked_endPulse ..
    · exact .refl _
  · exact .refl _

/-- A pulse that has lasted its duration ends, or runs again from now (R129). -/
theorem endDuePulse_ends (k : Fin 6) (c : MarkSettings) (s : State) (hc : (s.strand k).marker.settings = some c)
    (hd : pulseDue k c s = true) : ((endDuePulse k s).strand k).marker.pulsing = false ∨
      ((endDuePulse k s).strand k).marker.pulseStart = s.clock := by
  simp only [endDuePulse, hc, hd]
  split
  · simp only [endPulse]
    split
    · right
      simp only [fireEntry, remarkRecord, State.modMarker, State.setStrand_strand, if_true, State.mk_strand,
        State.strands_get]
      exact (Marked.foldl _ (marked_removeLate k) _ _).clock
    · left; simp
  · next h => left; simpa using h

/-- What the last increment left for a strand comes about, an event of that strand. -/
theorem ofStrand_finishSample (k : Fin 6) (s : State) : OfStrand k s (finishSample s k) :=
  (ofStrand_decodeDue k s).trans ((ofStrand_compareDue k _).trans
    ((marked_endDuePulse k _).ofStrand fun _ hj => endDuePulse_strand _ hj))

theorem finishSample_motion (k : Fin 6) (s : State) :
    ((finishSample s k).strand k).motion = { ((decodeDue k s).strand k).motion with
      cutHigh := (s.strand k).motion.cutDue.getD (s.strand k).motion.cutHigh, cutDue := none } := by
  obtain ⟨_, _, h1, h2, _⟩ := decodeDue_motion k s
  rw [finishSample, (marked_endDuePulse ..).motion, compareDue_motion, h1, h2]

end Sys2Proof.Machine
end

