-- ==== Sys2Proof/Laws/Grading.lean ====
section
/-!
SUPPORT. Laws of the grading of closed tracks (chapter 6): what grading reads of the part, and how the tracks split off at
a cut are accounted for.
-/

namespace Sys2Proof.Machine

/-! ### What grading reads (R90 to R101) -/

/-- The state `u` with all that the grading of a lane's tracks reads and writes taken from `s`: the clock, the strands, the
classification settings, and the report unit's jobs and plan. -/
def State.gradingOf (u s : State) : State :=
  { u with
    clock := s.clock, strands := s.strands, classify := s.classify
    report := { u.report with jobs := s.report.jobs, writer := s.report.writer } }

theorem State.eq_gradingOf {s u : State} (h1 : u.clock = s.clock) (h2 : u.strands = s.strands)
    (h3 : u.classify = s.classify) (h4 : u.report.jobs = s.report.jobs) (h5 : u.report.writer = s.report.writer) :
    u = u.gradingOf s := by
  simp only [State.gradingOf, ← h1, ← h2, ← h3, ← h4, ← h5]

theorem offerMark_gradingOf (k : Fin 6) (c : MarkSettings) (d : Defect) (s u : State) :
    offerMark k c d (u.gradingOf s) = ((offerMark k c d s).1, u.gradingOf (offerMark k c d s).2) := by
  have reads : (u.gradingOf s).strand k = s.strand k := rfl
  by_cases h1 : (s.strand k).marker.coalesces c.holdoff (d.start + c.dist) = true
  · simp only [offerMark, reads]; rw [if_pos h1, if_pos h1]
  by_cases h2 : d.start + c.dist + c.lateMax < (s.strand k).motion.coord
  · simp only [offerMark, reads]; rw [if_neg h1, if_pos h2, if_neg h1, if_pos h2]; rfl
  by_cases h3 : 16 ≤ (s.strand k).marker.queue.length
  · simp only [offerMark, reads]; rw [if_neg h1, if_neg h2, if_pos h3, if_neg h1, if_neg h2, if_pos h3]; rfl
  by_cases h4 : (s.strand k).marker.headAt (d.start + c.dist) = true ∧ (s.strand k).marker.pulsing = false ∧
      d.start + c.dist ≤ (s.strand k).motion.coord
  · simp only [offerMark, reads]
    rw [if_neg h1, if_neg h2, if_neg h3, if_pos h4, if_neg h1, if_neg h2, if_neg h3, if_pos h4]; rfl
  · simp only [offerMark, reads]
    rw [if_neg h1, if_neg h2, if_neg h3, if_neg h4, if_neg h1, if_neg h2, if_neg h3, if_neg h4]; rfl

/-- Grading a track of lane `i` reads of the lane its settings alone. -/
theorem gradeTrack_gradingOf (i : Fin 12) (n : Nat) (r : CloseReason) (h : Bool) (t : Track) (s u : State)
    (hc : (u.lane i).control = (s.lane i).control) :
    gradeTrack i n r h t (u.gradingOf s) = ((gradeTrack i n r h t s).1, u.gradingOf (gradeTrack i n r h t s).2) := by
  have lane : (u.gradingOf s).lane i = u.lane i := rfl
  have strand : ∀ k, (u.gradingOf s).strand k = s.strand k := fun _ => rfl
  have clock : (u.gradingOf s).clock = s.clock := rfl
  have classify : (u.gradingOf s).classify = s.classify := rfl
  simp only [gradeTrack, lane, hc, strand, clock, classify]
  split
  · rfl
  · split_ifs
    · rfl
    · rfl
    · simp only [offerIfGraded, strand]
      split
      · rfl
      · split_ifs
        · simp only [offerMark_gradingOf]
        · rfl

/-- Closing tracks of lane `i` reads of the lane its settings alone, and changes what grading changes alone. -/
theorem closeToPending_fold_gradingOf (i : Fin 12) (n : Nat) (r : CloseReason) (l : List Track) (s u : State)
    (hc : (u.lane i).control = (s.lane i).control) :
    l.foldl (closeToPending i n r) (u.gradingOf s) = u.gradingOf (l.foldl (closeToPending i n r) s) := by
  induction l generalizing s with
  | nil => rfl
  | cons t l ih =>
    have one : closeToPending i n r (u.gradingOf s) t = u.gradingOf (closeToPending i n r s t) := by
      simp only [closeToPending, gradeTrack_gradingOf _ _ _ _ _ _ _ hc]
      rcases gradeTrack i n r false t s with ⟨_ | d, v⟩ <;> rfl
    rw [List.foldl_cons, List.foldl_cons, one]
    exact ih _ (hc.trans (by rw [(marked_closeToPending i n r s t).lane]))

/-! ### Each head of a cut is a record, noise, or an oscillation mark (R79, R94, R96, R115) -/

theorem offerIfGraded_current (k m : Fin 6) (d : Defect) (s : State) :
    ((offerIfGraded k d s).2.strand m).billet.current = (s.strand m).billet.current := by
  simp only [offerIfGraded]
  split
  · rfl
  · split_ifs
    · simp only [offerMark]; split_ifs <;> simp [fireEntry, remarkRecord, State.modMarker] <;> split_ifs <;> simp_all
    · rfl

/-- From `s`, `n` tracks of strand `k` have been graded: the dropped count stands, and while the two tallies do not saturate
each track is a record made or has raised one of them. -/
structure Accounted (k : Fin 6) (s : State) (n : Nat) (acc : List Defect × State) : Prop where
  dropped : (acc.2.strand k).billet.current.dropped = (s.strand k).billet.current.dropped
  sum : (s.strand k).billet.current.osc + n ≤ 65535 → (s.strand k).billet.current.noise + n ≤ 65535 →
    (s.strand k).billet.current.osc ≤ (acc.2.strand k).billet.current.osc ∧
    (s.strand k).billet.current.noise ≤ (acc.2.strand k).billet.current.noise ∧
    acc.1.length + ((acc.2.strand k).billet.current.osc - (s.strand k).billet.current.osc) +
      ((acc.2.strand k).billet.current.noise - (s.strand k).billet.current.noise) = n

theorem Accounted.heads {k : Fin 6} {s : State} {m : Nat} {acc : List Defect × State} (h : Accounted k s m acc)
    (i : Fin 12) (n : Nat) (l : List Track) (hb : (acc.2.lane i).binding = some k) :
    Accounted k s (m + l.length) (l.foldl (fun acc t =>
      match gradeTrack i n .cut true t acc.2 with
      | (none, s) => (acc.1, s)
      | (some d, s) => (acc.1 ++ [d], s)) acc) := by
  induction l generalizing m acc with
  | nil => exact h
  | cons t l ih =>
    have bound := hb
    simp only [Lane.binding, Option.map_eq_some_iff] at bound
    obtain ⟨g, hg, rfl⟩ := bound
    rw [List.foldl_cons, List.length_cons, show m + (l.length + 1) = m + 1 + l.length by omega]
    have lanes := marked_gradeTrack i n .cut true t acc.2
    refine ih ?_ ?_
    · simp only [gradeTrack, hg]
      split_ifs
      · refine ⟨by simp [State.modBillet, h.dropped], fun a b => ?_⟩
        have := h.sum (by omega) (by omega)
        simp [State.modBillet, satAdd]; omega
      · refine ⟨by simp [State.modBillet, h.dropped], fun a b => ?_⟩
        have := h.sum (by omega) (by omega)
        simp [State.modBillet, satAdd]; omega
      · refine ⟨by simpa only [offerIfGraded_current] using h.dropped, fun a b => ?_⟩
        have := h.sum (by omega) (by omega)
        simp only [offerIfGraded_current, List.length_append, List.length_singleton]; omega
    · rcases hh : gradeTrack i n .cut true t acc.2 with ⟨_ | d, v⟩ <;> (rw [hh] at lanes; simp only []; rw [lanes.lane]; exact hb)

/-- Running the lanes of a strand through the cut accounts for every head. -/
theorem Accounted.lanes {b : Nat} {k : Fin 6} {s u : State} {m : Nat} {l done : List (Fin 12)}
    {acc : List Defect × State} (h : Accounted k u m acc) (cut : Cutting b k done s acc.2)
    (hg : ∀ d ∈ acc.1, HeadOf b k s d) (hl : ∀ i ∈ l, (s.lane i).binding = some k) (hn : (l ++ done).Nodup) :
    Accounted k u (m + (l.map fun i => ((s.lane i).table.heads b).length).sum) (l.foldl (splitLane b) acc) := by
  induction l generalizing m done acc with
  | nil => exact h
  | cons i l ih =>
    have hi : i ∉ done := by simp at hn; exact hn.1.2
    have lane : acc.2.lane i = s.lane i := by rw [cut.lanes, if_neg hi]
    rw [List.foldl_cons, List.map_cons, List.sum_cons, ← Nat.add_assoc]
    obtain ⟨c, g⟩ := splitLanes_spec b k [i] done s acc cut hg (fun j hj => by simp at hj; exact hj ▸ hl i (by simp))
      (List.nodup_cons.2 ⟨hi, (List.nodup_append.1 (List.nodup_cons.1 hn).2).2.1⟩)
    refine ih (done := i :: done) ?_ c g (fun j hj => hl j (by simp [hj]))
      ((List.perm_middle (l₁ := l) (l₂ := done)).nodup_iff.2 hn)
    have := Accounted.heads (acc := (acc.1, acc.2.setLane i { acc.2.lane i with table := (acc.2.lane i).table.split b }))
      ⟨h.dropped, h.sum⟩ i ((acc.2.lane i).control.detect.getD Detect.zero).minLines ((acc.2.lane i).table.heads b)
      (by simpa [lane, Lane.binding] using hl i (by simp))
    rw [lane] at this
    rw [splitLane, lane]; exact this

end Sys2Proof.Machine
end

