-- ==== Sys2Proof/WellFormed.lean ====
section
/-!
DEFINITION. Which commands the ports and lines of the part can carry: the forms of chapter 1.1 and the length of the
store's read (R164). The meanings are total and do not rest on these checks; the statements that need them say so.
-/

namespace Sys2Proof

/-- A request of the form of 1.1: beat-aligned, 1-16 beats, within the 40-bit address space, and for a WRITE one
mask and 32 bytes for each beat. -/
def Request.wellFormed (r : Request) : Bool :=
  r.addr % 32 == 0 && decide (1 ≤ r.len) && decide (r.len ≤ 16) && decide (r.addr + 32 * r.len ≤ 2 ^ 40) &&
  match r.kind with
  | .write => r.enables.length == r.len && r.data.length == 32 * r.len
  | .read => r.enables.isEmpty && r.data.isEmpty

/-- A response carries whole beats, 16 at most (1.1). -/
def responseWellFormed (data : List Byte) : Bool :=
  data.length % 32 == 0 && decide (data.length ≤ 512)

/-- The sequential read clocks in 4,096 bytes (R164). -/
def storeWellFormed (bytes : List Byte) : Bool :=
  bytes.length == 4096

/-- A command that the outside world can bring. -/
def Instr.wellFormed : Instr → Bool
  | .storeReadEnd bytes => storeWellFormed bytes
  | .upstreamRequestTake u => u.req.wellFormed
  | .downstreamResponse _ data => responseWellFormed data
  | .powerOn => true
  | .resetLineAssert => true
  | .resetLineRelease => true
  | .presetHandover => true
  | .issueOpportunity => true
  | .jobStart => true
  | .eventRecordStart => true
  | .lineProcessed _ => true
  | .forwardStep _ _ => true
  | .reverseStep _ _ => true
  | .encoderError _ _ => true
  | .cutEvent _ => true
  | .cutInputFall _ => true
  | .pulseEnd _ => true
  | .laneGeometry => true
  | .laneZones => true
  | .deadColumnsMark => true
  | .deadColumnsClear => true
  | .laneDetect => true
  | .strandSetup => true
  | .strandMarking => true
  | .classifySetup => true
  | .reportSetup => true
  | .arm => true
  | .disarm => true
  | .reseed => true
  | .testOn => true
  | .testOff => true
  | .snapshot => true
  | .clearFault => true
  | .laneReset => true
  | .bayReset => true
  | .unknownCommand => true
  | .bayClockIncrement _ => true

end Sys2Proof
end

