-- ==== Sys2Proof/Tests/Slice0.lean ====
section
/-!
SUPPORT. Tests: an ill-formed command for each check, one or two small steps for each command with the result the manual
gives, and for every statement with hypotheses a state and operands that meet them (`witness_…`, one for each clause).
-/

namespace Sys2Proof.Tests

open Sys2Proof Sys2Proof.Machine

-- One test at a time: a hundred kernel evaluations at once need more threads than a small machine gives.
set_option Elab.async false

/-! ### Small states -/

/-- A part in RUNNING, control block at 0x100000, control master 3, nothing armed. -/
def idle : State := { State.reset with
  global := .running
  loader := { Loader.reading with state := .finished, chipSelect := false }
  command := { CommandUnit.initial with base := some 0x100000, master := some 3, cond := .idle } }

/-- A command entry: code, target byte, two zero bytes, then the parameters from offset 4 on. -/
def entry (code target : Byte) (params : List Byte) : List Byte :=
  (code :: target :: 0 :: 0 :: params ++ List.replicate 48 0).take 48

/-- The part with an entry in hand; the producer copy is one ahead of the consumer index. -/
def inExec (e : List Byte) (s : State) : State :=
  { s with command := { s.command with cond := .executing e none, producer := 1 } }

/-- Lane 0 on strand 0: W 64, 4 slots from 0x10000 (S 192). -/
def geo : Geometry := ⟨0, 64, 4, 0x10000, .linear, 500, 10, 500, true⟩

def detect : Detect := ⟨10, 20, 4, 100, 4, 1, 2, 1, 0, 1⟩

def report : ReportSettings := ⟨0x200000, 256, 16, 32, 2⟩

def strandSettings : StrandSetup := ⟨10000, 100, 2, 900, 2⟩

def marking : MarkSettings := ⟨50, 1, 5, 2, 10⟩

/-- Strand 0 and the report unit are set. -/
def ready : State :=
  ({ idle with report := { ReportUnit.initial with settings := some report } }).setStrand 0
    { Strand.initial with setup := some strandSettings, marker := { Marker.initial with settings := some marking } }

/-- Lane 0 has its settings and is in state `st`. -/
def laneIn (st : LaneState) (s : State) : State :=
  s.setLane 0 { Lane.initial with control := { Control.initial with
    state := st, geometry := some geo, zones := some [⟨0, 63, .face⟩], detect := some detect } }

/-- The written data area of `geo`'s slot 0 from sample 0 on: every sample the number `x`. -/
def samples (x : Nat) : List Byte := (List.replicate 64 [byteOf x, byteOf (x / 256)]).flatten

/-- A whole line in slot 0. -/
def lineWrite (x : Nat) : Request := ⟨.write, 0x10000, 4, [allBytes, allBytes, allBytes, allBytes], samples x⟩

def offer (r : Request) : UpRequest := ⟨r, 5, 77⟩

/-- A held line of slot 0. -/
def line : Line := ⟨1, 30, 9, 1, 0, false, [0, 1, 2, 3], []⟩

/-- A track of zone 0 from 10 to 20 over columns 3 to 5. -/
def track : Track := ⟨7, 0, 10, 20, 4, 3, 5, 3, 4, none, 90, 300, 1, 0, false, false⟩

/-- A record of lane 0, strand 0 with these start and grade. -/
def record (start grade : Nat) : Defect :=
  ⟨0, 0, 1, .mesh, grade, start, start, 0, 0, 0, 0, 0, 1, 50, 50, 0, 0, .gap, false, false, false, false, .none⟩

/-- A billet job of strand 4 without defects. -/
def job : Job := ⟨⟨4, 1, 0, 900, 900, 0, 0, 0, 0, 0, 0, 0, 0, 0, 0, [], true, false, false, .clean⟩, []⟩

/-- The table of lane 0 holds these tracks. -/
def open_ (tracks : List Track) (s : State) : State :=
  s.setLane 0 { s.lane 0 with table := { (s.lane 0).table with tracks := tracks } }

/-- A pulse of strand 0 that began at bay time 0, at bay time `time`. -/
def pulsing (time : Nat) (s : State) : State :=
  { s.modMarker 0 fun m => { m with pulsing := true } with clock := time }

/-- The state a next outcome holds. -/
def after (o : Host.Outcome State Fault Refusal) : State :=
  match o with
  | .next s => s
  | .fault f => nomatch f
  | .refused _ => State.reset

/-! ### Ill-formed commands are refused (1.1, R164) -/

theorem test_wf_whole_line : (Instr.upstreamRequestTake (offer (lineWrite 100))).wellFormed = true := by decide +kernel
theorem test_wf_unaligned : (Instr.upstreamRequestTake (offer ⟨.read, 0x10010, 1, [], []⟩)).wellFormed = false := by decide
theorem test_wf_no_beat : (Instr.upstreamRequestTake (offer ⟨.read, 0x10000, 0, [], []⟩)).wellFormed = false := by decide
theorem test_wf_too_long : (Instr.upstreamRequestTake (offer ⟨.read, 0x10000, 17, [], []⟩)).wellFormed = false := by decide
theorem test_wf_above_space :
    (Instr.upstreamRequestTake (offer ⟨.read, 2 ^ 40 - 32, 2, [], []⟩)).wellFormed = false := by decide
theorem test_wf_write_masks :
    (Instr.upstreamRequestTake (offer ⟨.write, 0, 1, [], zeroBytes 32⟩)).wellFormed = false := by decide
theorem test_wf_write_data :
    (Instr.upstreamRequestTake (offer ⟨.write, 0, 1, [allBytes], zeroBytes 31⟩)).wellFormed = false := by decide
theorem test_wf_read_masks :
    (Instr.upstreamRequestTake (offer ⟨.read, 0, 1, [allBytes], []⟩)).wellFormed = false := by decide
theorem test_wf_read_data :
    (Instr.upstreamRequestTake (offer ⟨.read, 0, 1, [], zeroBytes 32⟩)).wellFormed = false := by decide
theorem test_wf_part_beat : (Instr.downstreamResponse true (zeroBytes 31)).wellFormed = false := by decide
theorem test_wf_seventeen_beats : (Instr.downstreamResponse true (zeroBytes 544)).wellFormed = false := by decide +kernel
theorem test_wf_short_store : (Instr.storeReadEnd [0x5A]).wellFormed = false := by decide

/-- No row of the table has bits: no word spells a command, and the queue is left as it is. -/
theorem test_no_word_spells_a_command :
    decodeTableWord 8 0x41 = none ∧ (State.reset.withFetchWord 8 0x41).pending = [] := by decide

/-! ### Formats and tables -/

/-- The pair table of R37: rows the reference pairs (0,0), (1,0), (1,1), (0,1), columns the sampled pairs. -/
theorem test_pair_table :
    ([⟨false, false⟩, ⟨true, false⟩, ⟨true, true⟩, ⟨false, true⟩] : List Pair).map (fun r =>
      ([⟨false, false⟩, ⟨true, false⟩, ⟨true, true⟩, ⟨false, true⟩] : List Pair).map (decodePair r)) =
    [[.noChange, .forward, .error, .reverse], [.reverse, .noChange, .forward, .error],
     [.error, .reverse, .noChange, .forward], [.forward, .error, .reverse, .noChange]] := by decide

/-- R169: least significant byte first. -/
theorem test_little_endian : le 4 0x12345678 = [0x78, 0x56, 0x34, 0x12] := by decide

/-- R14: W 64 gives S 192, W 2048 gives S 4,160. -/
theorem test_slot_sizes : slotSize 64 = 192 ∧ slotSize 2048 = 4160 := by decide

/-- R170: status byte 1,007 is the last byte of place 63. -/
theorem test_status_places : statusOffset 0 = 112 ∧ statusOffset 1007 = 4095 := by decide

/-- 12.4: the bytes of an ARM of lane 7 and of a LANE_DEAD_COLUMNS CLEAR of columns 258 to 260 of lane 2. -/
theorem test_entries_decode :
    decodeEntry (entry 0x09 7 []) = .arm 7 ∧
    decodeEntry (entry 0x03 2 [0x02, 0x01, 3, 0, 0]) = .deadColumns 2 258 3 0 := by decide +kernel

/-- R43: 1,234 counts at 10,000 counts/m are 123.4 mm. -/
theorem test_length : toLength 1234 10000 = 1234 := by decide

/-- R55, R61 at B 16,000: reading 500 gives contrast floor(256 · 8000 / 16000); the step of shift 4 towards it. -/
theorem test_contrast : contrast 16000 500 = 128 ∧ backgroundStep 16000 500 4 = 15500 := by decide

/-! ### The host commands: steps and witnesses -/

/-- Unfolds a test state. -/
theorem lane_laneIn (st : LaneState) (s : State) : (laneIn st s).lane 0 =
    { Lane.initial with control := { Control.initial with
      state := st, geometry := some geo, zones := some [⟨0, 63, .face⟩], detect := some detect } } := by
  simp [laneIn]

theorem strand_laneIn_ready (st : LaneState) : (laneIn st ready).strand 0 =
    { Strand.initial with setup := some strandSettings, marker := { Marker.initial with settings := some marking } } := by
  simp [laneIn, ready]

/-- LANE_GEOMETRY of lane 0: strand 0, MIRRORED, no trailers, W 64, N 4, base 0x10000, PITCH 50, SPAN 4,095,
OBSCURE_LIMIT 1. -/
def geometryEntry : List Byte :=
  entry 0x01 0 ([0, 1, 0, 0] ++ le 2 64 ++ le 2 4 ++ le 5 0x10000 ++ [0] ++ le 2 50 ++ le 2 4095 ++ le 2 1)

def geometryAsked : GeometryParams := ⟨0, 1, 0, 64, 4, 0x10000, 50, 4095, 1⟩

theorem test_geometry : (after (exec .laneGeometry (inExec geometryEntry idle))).lane 0 = { Lane.initial with
    control := { Control.initial with geometry := some ⟨0, 64, 4, 0x10000, .mirrored, 50, 4095, 1, false⟩ } } := by
  decide +kernel

/-- R146: a ring that begins at the control block base meets it. -/
theorem test_geometry_meets_control_block :
    geometryOf 0 ⟨0, 0, 1, 64, 4, 0x100000, 500, 10, 500⟩ idle = none ∧
    (geometryOf 0 ⟨0, 0, 1, 64, 4, 0x101000, 500, 10, 500⟩ idle).isSome = true := by decide +kernel

theorem witness_GeometryIsAcceptedByItsConditions :
    geometryOf 0 geometryAsked idle = some ⟨0, 64, 4, 0x10000, .mirrored, 50, 4095, 1, false⟩ := by decide +kernel

theorem witness_LaneGeometryReplacesOffLane :
    (inHand (inExec geometryEntry (laneIn .armed idle)) = some (.laneGeometry 0 geometryAsked) ∧
      ((inExec geometryEntry (laneIn .armed idle)).lane 0).control.state ≠ .off) ∧
    (inHand (inExec (entry 0x01 0 []) idle) = some (.laneGeometry 0 ⟨0, 0, 0, 0, 0, 0, 0, 0, 0⟩) ∧
      geometryOf 0 ⟨0, 0, 0, 0, 0, 0, 0, 0, 0⟩ (inExec (entry 0x01 0 []) idle) = none) ∧
    (inHand (inExec geometryEntry idle) = some (.laneGeometry 0 geometryAsked) ∧
      ((inExec geometryEntry idle).lane 0).control.state = .off ∧
      geometryOf 0 geometryAsked (inExec geometryEntry idle) = some ⟨0, 64, 4, 0x10000, .mirrored, 50, 4095, 1, false⟩ ∧
      ((inExec geometryEntry idle).lane 0).control.geometry = none) := by
  decide +kernel

/-- The lane leaves strand 0, in whose open billet it is active, for strand 5. -/
theorem witness_LaneGeometryReplacesOffLane_leaves :
    let s := inExec (entry 0x01 0 ([5, 1, 0, 0] ++ le 2 64 ++ le 2 4 ++ le 5 0x10000 ++ [0] ++ le 2 50 ++ le 2 4095 ++ le 2 1))
      ((laneIn .off ready).modBillet 0 fun b => { b with active := [0] })
    inHand s = some (.laneGeometry 0 { geometryAsked with strand := 5 }) ∧ (s.lane 0).control.state = .off ∧
    geometryOf 0 { geometryAsked with strand := 5 } s = some ⟨5, 64, 4, 0x10000, .mirrored, 50, 4095, 1, false⟩ ∧
    (s.lane 0).control.geometry = some geo ∧ geo.strand ≠ 5 ∧
    0 ∈ (s.strand geo.strand).billet.current.active := by
  decide +kernel

/-- Two zones of lane 0: columns 0 to 31 FACE, 32 to 63 CORNER. -/
def zonesEntry : List Byte := entry 0x02 0 ([2, 0, 0, 0] ++ le 2 0 ++ le 2 31 ++ [0] ++ le 2 32 ++ le 2 63 ++ [1])

theorem test_zones : ((after (exec .laneZones (inExec zonesEntry (laneIn .off idle)))).lane 0).control.zones =
    some [⟨0, 31, .face⟩, ⟨32, 63, .corner⟩] := by decide +kernel

theorem witness_LaneZonesReplacesTable :
    (inHand (inExec zonesEntry (laneIn .armed idle)) = some (.laneZones 0 2 [⟨0, 31, 0⟩, ⟨32, 63, 1⟩]) ∧
      ((inExec zonesEntry (laneIn .armed idle)).lane 0).control.state ≠ .off) ∧
    (inHand (inExec (entry 0x02 0 [9]) (laneIn .off idle)) = some (.laneZones 0 9 []) ∧
      ((inExec (entry 0x02 0 [9]) (laneIn .off idle)).lane 0).control.geometry = some geo) ∧
    (inHand (inExec (entry 0x02 0 ([1, 0, 0, 0] ++ le 2 0 ++ le 2 64 ++ [0])) (laneIn .off idle)) =
        some (.laneZones 0 1 [⟨0, 64, 0⟩]) ∧ geo.w ≤ 64) ∧
    (inHand (inExec (entry 0x02 0 ([2, 0, 0, 0] ++ le 2 0 ++ le 2 31 ++ [0] ++ le 2 31 ++ le 2 63 ++ [1])) (laneIn .off idle)) =
        some (.laneZones 0 2 [⟨0, 31, 0⟩, ⟨31, 63, 1⟩]) ∧
      [(⟨0, 31, 0⟩ : ZoneParams), ⟨31, 63, 1⟩][0]? = some ⟨0, 31, 0⟩ ∧
      [(⟨0, 31, 0⟩ : ZoneParams), ⟨31, 63, 1⟩][0 + 1]? = some ⟨31, 63, 1⟩ ∧ 31 ≤ 31) ∧
    (inHand (inExec zonesEntry (laneIn .off idle)) = some (.laneZones 0 2 [⟨0, 31, 0⟩, ⟨32, 63, 1⟩]) ∧
      ((inExec zonesEntry (laneIn .off idle)).lane 0).control.state = .off ∧
      ((inExec zonesEntry (laneIn .off idle)).lane 0).control.geometry = some geo ∧
      (∀ z ∈ [(⟨0, 31, 0⟩ : ZoneParams), ⟨32, 63, 1⟩], z.kind < 3 ∧ z.first ≤ z.last ∧ z.last < geo.w) ∧
      [(⟨0, 31, 0⟩ : ZoneParams), ⟨32, 63, 1⟩].Pairwise (fun a b => a.last < b.first)) := by
  decide +kernel

/-- MARK and CLEAR of columns 2,046 and 2,047 (the last ones), and of a run that ends beyond them. -/
def deadEntry (action : Byte) (count : Nat) : List Byte := entry 0x03 0 (le 2 2046 ++ le 2 count ++ [action])

theorem test_dead_mark : ((after (exec .deadColumnsMark (inExec (deadEntry 1 2) idle))).lane 0).detection.dead =
    [2046, 2047] := by decide +kernel

theorem test_dead_clear : ((after (exec .deadColumnsClear (inExec (deadEntry 0 2) (idle.setLane 0 { Lane.initial with
    detection := { Detection.initial with dead := [7, 2046, 2047] } })))).lane 0).detection.dead = [7] := by
  decide +kernel

theorem witness_DetectionSettingsAreReplaced :
    inHand (inExec (deadEntry 1 3) idle) = some (.deadColumns 0 2046 3 1) ∧ 2048 < 2046 + 3 ∧
    inHand (inExec (deadEntry 1 2) idle) = some (.deadColumns 0 2046 2 1) ∧ 2046 + 2 ≤ 2048 ∧
    inHand (inExec (deadEntry 0 3) idle) = some (.deadColumns 0 2046 3 0) ∧
    inHand (inExec (deadEntry 0 2) idle) = some (.deadColumns 0 2046 2 0) ∧
    inHand (inExec (deadEntry 2 2) idle) = some (.deadColumns 0 2046 2 2) ∧
    inHand (inExec (entry 0x04 0 [255, 1, 9, 0]) idle) = some (.laneDetect 0 ⟨255, 1, 9, 0, 0, 0, 0, 0, 0, 0⟩) := by
  decide +kernel

/-- R64: T_LOW 255 becomes 254, T_HIGH 1 becomes T_LOW, BG_SHIFT 9 becomes 7. -/
theorem test_detect : ((after (exec .laneDetect (inExec (entry 0x04 0 [255, 1, 9, 0]) idle))).lane 0).control.detect =
    some ⟨254, 254, 7, 1, 4, 0, 0, 1, 0, 1⟩ := by decide +kernel

def strandEntry : List Byte := entry 0x05 0 (le 4 999 ++ le 4 100 ++ le 2 2 ++ le 2 900 ++ [4])

/-- R148: COUNTS_PER_M 999 becomes 1,000, REJECT_GRADE 4 becomes 3. -/
theorem test_strand_setup : ((after (exec .strandSetup (inExec strandEntry idle))).strand 0).setup =
    some ⟨1000, 100, 2, 900, 3⟩ := by decide +kernel

def markEntry : List Byte := entry 0x06 0 (le 4 50 ++ [5, 0] ++ le 2 5 ++ le 2 0 ++ le 2 10)

/-- R132: MARK_GRADE 5 becomes 4, MARK_PULSE 0 becomes 1; at the bay time at which a pulse of 2 ms is over the unit is
IDLE, one microsecond before it the command is refused. -/
theorem test_strand_marking :
    ((after (exec .strandMarking (inExec markEntry idle))).strand 0).marker.settings = some ⟨50, 4, 5, 1, 10⟩ ∧
    ((after (exec .strandMarking (inExec markEntry (pulsing 2000 ready)))).strand 0).marker.settings =
      some ⟨50, 4, 5, 1, 10⟩ ∧
    ((after (exec .strandMarking (inExec markEntry (pulsing 1999 ready)))).strand 0).marker.settings = some marking := by
  decide +kernel

theorem witness_StrandSettingsAreClampedOrRefused :
    (inHand (inExec strandEntry (laneIn .armed idle)) = some (.strandSetup 0 ⟨999, 100, 2, 900, 4⟩) ∧
      ((inExec strandEntry (laneIn .armed idle)).lane 0).binding = some 0 ∧
      ((inExec strandEntry (laneIn .armed idle)).lane 0).control.state ≠ .off) ∧
    (inHand (inExec strandEntry (laneIn .off idle)) = some (.strandSetup 0 ⟨999, 100, 2, 900, 4⟩) ∧
      ∀ i, ((inExec strandEntry (laneIn .off idle)).lane i).binding = some 0 →
        ((inExec strandEntry (laneIn .off idle)).lane i).control.state = .off) ∧
    (let s := inExec markEntry (pulsing 1999 ready)
     inHand s = some (.strandMarking 0 ⟨50, 5, 5, 0, 10⟩) ∧ ((finishSample s 0).strand 0).marker.pulsing = true ∧
     (s.strand 0).motion.pairDue = none ∧ (s.strand 0).motion.cutDue = none ∧
     (s.strand 0).marker.settings = some marking ∧
     (s.clock + 2 ^ 48 - (s.strand 0).marker.pulseStart) % 2 ^ 48 < 1000 * marking.pulse) ∧
    (let s := inExec markEntry (pulsing 2000 ready)
     inHand s = some (.strandMarking 0 ⟨50, 5, 5, 0, 10⟩) ∧ s.global = .running ∧
     (s.strand 0).motion.pairDue = none ∧ (s.strand 0).motion.cutDue = none ∧
     ((finishSample s 0).strand 0).marker.queue = [] ∧ ((finishSample s 0).strand 0).marker.pulsing = false) ∧
    (∃ v, exec (.forwardStep 0 ⟨true, false⟩) idle = .next v) ∧ ∃ v, exec (.cutEvent 0) idle = .next v := by
  refine ⟨?_, ?_, ?_, ?_, ⟨_, rfl⟩, ⟨_, rfl⟩⟩ <;> decide +kernel

def classifyEntry (g1 : Byte) : List Byte := entry 0x07 0 ([16, 60, 40, g1, 96, 160] ++ le 2 500)

/-- R103: ASPECT 16 becomes 15; thresholds that are not ascending change nothing. -/
theorem test_classify :
    (after (exec .classifySetup (inExec (classifyEntry 48) idle))).classify = ⟨15, 60, 40, 48, 96, 160, 500⟩ ∧
    (after (exec .classifySetup (inExec (classifyEntry 96) idle))).classify = Classify.initial := by decide +kernel

theorem witness_ClassifySetupChecksThresholds :
    inHand (inExec (classifyEntry 96) idle) = some (.classifySetup ⟨16, 60, 40, 96, 96, 160, 500⟩) ∧
    inHand (inExec (classifyEntry 95) idle) = some (.classifySetup ⟨16, 60, 40, 95, 96, 160, 500⟩) := by decide +kernel

def reportEntry : List Byte := entry 0x08 0 (le 5 0x200000 ++ [0, 0, 0] ++ le 4 256 ++ le 2 16 ++ le 2 32 ++ [0])

/-- R157: the settings with CONDENSE_GRADE 0 brought to 1, and a producer word write of 0 before the two writes of the
retirement. -/
theorem test_report_setup :
    let t := after (exec .reportSetup (inExec reportEntry idle))
    t.report.settings = some ⟨0x200000, 256, 16, 32, 1⟩ ∧
    t.path.injected.map (·.req) = [producerWordWrite 0x100000 0, statusWrite 0x100000 0 .doneClamped,
      consumerWordWrite 0x100000 1] := by decide +kernel

/-- The report unit not waiting and waiting, another block on the wait list. -/
theorem witness_ReportSetupStartsTheRing_waits :
    let waits (l : List Block) : State := inExec reportEntry { idle with path := { idle.path with waitList := l } }
    (∀ l ∈ [[Block.command], [.report]], inHand (waits l) = some (.reportSetup ⟨0x200000, 256, 16, 32, 0⟩) ∧
      (∀ i, ((waits l).lane i).control.state = .off) ∧ (waits l).report.writer = .idle ∧
      (∀ i, ((waits l).lane i).control.geometry = none) ∧ (waits l).path.waitList = l) ∧
    Block.report ∉ [Block.command] := by decide +kernel

theorem witness_ReportSetupStartsTheRing :
    (inHand (inExec reportEntry (laneIn .armed idle)) = some (.reportSetup ⟨0x200000, 256, 16, 32, 0⟩) ∧
      ((inExec reportEntry (laneIn .armed idle)).lane 0).control.state ≠ .off) ∧
    (inHand (inExec (entry 0x08 0 []) idle) = some (.reportSetup ⟨0, 0, 0, 0, 0⟩) ∧
      (∀ i, ((inExec (entry 0x08 0 []) idle).lane i).control.state = .off) ∧
      (inExec (entry 0x08 0 []) idle).report.writer = .idle) ∧
    (inHand (inExec reportEntry idle) = some (.reportSetup ⟨0x200000, 256, 16, 32, 0⟩) ∧
      (∀ i, ((inExec reportEntry idle).lane i).control.state = .off) ∧
      (inExec reportEntry idle).report.writer = .idle ∧ (inExec reportEntry idle).report.zeros = 0 ∧
      (∀ i, ((inExec reportEntry idle).lane i).control.geometry = none) ∧
      (inExec reportEntry idle).command.base = some 0x100000 ∧ 0x100000 + 4096 ≤ 0x200000) ∧
    (let s := inExec reportEntry (laneIn .off { idle with command := { idle.command with base := some 0x203000 } })
     inHand s = some (.reportSetup ⟨0x200000, 256, 16, 32, 0⟩) ∧ s.command.base = some 0x203000 ∧
     ¬ (0x200000 + 64 * 256 ≤ 0x203000 ∨ 0x203000 + 4096 ≤ 0x200000)) ∧
    (let s := inExec (entry 0x08 0 (le 5 0x10000 ++ [0, 0, 0] ++ le 4 256 ++ le 2 16 ++ le 2 32 ++ [0])) (laneIn .off idle)
     inHand s = some (.reportSetup ⟨0x10000, 256, 16, 32, 0⟩) ∧ (s.lane 0).control.geometry = some geo ∧
     (∀ i, (s.lane i).control.state = .off) ∧ s.report.writer = .idle ∧ 0 < geo.n ∧
     ¬ (0x10000 + 64 * 256 ≤ geo.base ∨ ringEnd geo ≤ 0x10000)) ∧
    Room 1 (inExec reportEntry idle) := by
  refine ⟨?_, ?_, ?_, ?_, ?_, ?_⟩
  · decide +kernel
  · decide +kernel
  · decide +kernel
  · decide +kernel
  · decide +kernel
  · exact ⟨rfl, by decide +kernel⟩

/-- R138: ARM takes the lane to ARMED with arming number 1 and sequence number 1, and queues LANE_STATE. -/
theorem test_arm :
    let t := after (exec .arm (inExec (entry 0x09 0 []) (laneIn .off ready)))
    (t.lane 0).control.state = .armed ∧ (t.lane 0).capture.arming = 1 ∧ (t.lane 0).capture.nextSeq = 1 ∧
    (t.strand 0).billet.current.active = [0] ∧ t.report.events = [.laneState 0 (some 0) .off .armed .arm 0 0] := by
  decide +kernel

/-- R153, R137: a lane without its settings is INCOMPLETE. -/
theorem test_arm_incomplete :
    (after (exec .arm (inExec (entry 0x09 0 []) idle))).path.injected.map (·.req) =
      [statusWrite 0x100000 0 .incomplete, consumerWordWrite 0x100000 1] := by decide +kernel

theorem witness_ArmPreparesTheLane :
    (inHand (inExec (entry 0x09 0 []) (laneIn .armed ready)) = some (.arm 0) ∧
      ((inExec (entry 0x09 0 []) (laneIn .armed ready)).lane 0).control.state ≠ .off) ∧
    (inHand (inExec (entry 0x09 11 []) ready) = some (.arm 11) ∧ (inExec (entry 0x09 11 []) ready).global = .running ∧
      ((inExec (entry 0x09 11 []) ready).lane 11).control.state = .off ∧
      ((inExec (entry 0x09 11 []) ready).lane 11).control.geometry = none) ∧
    (let s := inExec (entry 0x09 0 []) (laneIn .off ready)
     inHand s = some (.arm 0) ∧ s.global = .running ∧ (s.lane 0).control.state = .off ∧
     (s.lane 0).control.geometry = some geo ∧ (s.lane 0).control.zones ≠ none ∧ (s.lane 0).control.detect ≠ none ∧
     s.report.settings ≠ none ∧ (s.strand geo.strand).setup ≠ none ∧ s.report.events.length < 16) ∧
    ([1, 3] : List (Fin 12)).Pairwise (· < ·) ∧ insertLane [1, 3] 2 = [1, 2, 3] := by
  decide +kernel

/-- A lane in TRACKING with a line in processing in buffer A. -/
def processing (st : LaneState) (s : State) : State :=
  (laneIn st s).modCapture 0 fun c => { c with
    assembler := .complete 0
    bufA := .processing line ⟨detect, [], [⟨0, 63, .face⟩], 64, .linear, 500⟩
    nextSeq := 2, arming := 1 }

/-- The trailers of lane 0 disabled. -/
def untrailed (s : State) : State :=
  s.setLane 0 { s.lane 0 with control := { (s.lane 0).control with geometry := some { geo with trailers := false } } }

/-- R143, R86: an idle lane goes OFF and its open track drains; a lane with a line in processing goes to STOPPING and
DISARM is held. -/
theorem test_disarm :
    (let t := after (exec .disarm (inExec (entry 0x0A 0 []) (open_ [track] (laneIn .tracking ready))))
     (t.lane 0).control.state = .off ∧ (t.lane 0).table.tracks = [] ∧
     (t.strand 0).billet.waiting.map (fun d => (d.serial, d.reason)) = [(7, .drain)]) ∧
    (after (exec .disarm (inExec (entry 0x0A 0 []) (processing .tracking ready)))).command.cond =
      .executing (entry 0x0A 0 []) (some (.disarm 0)) := by decide +kernel

theorem witness_DisarmStopsTheLane :
    (inExec (entry 0x0A 0 []) idle).command.cond = .executing (entry 0x0A 0 []) none ∧
    decodeEntry (entry 0x0A 0 []) = .disarm 0 ∧ ((inExec (entry 0x0A 0 []) idle).lane 0).control.state = .off ∧
    (let s := inExec (entry 0x0A 0 []) (laneIn .tracking ready)
     (s.lane 0).control.state ≠ .off ∧ (s.lane 0).capture.inProcessing = none ∧ (s.lane 0).table.tracks = [] ∧
     s.report.events.length < 16) ∧
    (let s := inExec (entry 0x0A 0 []) (processing .tracking ready)
     (s.lane 0).control.state ≠ .off ∧ s.report.events.length < 16 ∧
     (s.lane 0).capture.inProcessing = some (line, ⟨detect, [], [⟨0, 63, .face⟩], 64, .linear, 500⟩)) ∧
    (let s := inExec (entry 0x0A 0 []) (open_ [track] (laneIn .tracking ready))
     (s.lane 0).control.state ≠ .off ∧ (s.lane 0).capture.inProcessing = none ∧
     (s.lane 0).control.detect = some detect ∧ (s.lane 0).table.tracks = [track] ∧ s.report.events.length < 16) := by
  decide +kernel

/-- R141: TRACKING passes to SEEDING. -/
theorem test_reseed : ((after (exec .reseed (inExec (entry 0x0B 0 []) (laneIn .tracking ready)))).lane 0).control.state =
    .seeding := by decide +kernel

/-- TEST of lane 0: base 4,095, depth 100, first column 70, width 10, 3 lines of a period of 2. -/
def testEntry (action : Byte) : List Byte :=
  entry 0x0C 0 ([action, 0] ++ le 2 4095 ++ le 2 100 ++ le 2 70 ++ le 2 10 ++ [3, 2])

def testAsked : TestParams := ⟨4095, 100, 70, 10, 3, 2⟩

/-- R142: PAT_BASE 4,095 becomes 4,094, PAT_COL 70 becomes 63, PAT_LINES 3 becomes PAT_PERIOD 2. -/
theorem test_test_on : ((after (exec .testOn (inExec (testEntry 1) (laneIn .tracking ready)))).lane 0).control =
    { (((laneIn .tracking ready).lane 0).control) with state := .test, test := some ⟨4094, 100, 63, 10, 2, 2⟩ } := by
  decide +kernel

theorem test_test_off : ((after (exec .testOff (inExec (testEntry 0) (laneIn .test ready)))).lane 0).control.state =
    .seeding := by decide +kernel

theorem witness_ReseedAndTestChangeTheLane :
    (∀ st, inHand (inExec (entry 0x0B 0 []) (laneIn st ready)) = some (.reseed 0)) ∧
    (∀ st, inHand (inExec (testEntry 1) (laneIn st ready)) = some (.test 0 1 testAsked)) ∧
    (∀ st, inHand (inExec (testEntry 0) (laneIn st ready)) = some (.test 0 0 testAsked)) ∧
    (∀ st, inHand (inExec (testEntry 2) (laneIn st ready)) = some (.test 0 2 testAsked)) ∧
    (∀ st e, ((inExec e (laneIn st ready)).lane 0).control.state = st) ∧
    (∀ st e, ((inExec e (laneIn st ready)).lane 0).control.geometry = some geo) ∧
    (∀ st e, (inExec e (laneIn st ready)).report.events.length < 16) := by
  refine ⟨?_, ?_, ?_, ?_, ?_, ?_, ?_⟩
  · intro st; exact congrArg some (by decide +kernel : decodeEntry (entry 0x0B 0 []) = .reseed 0)
  · intro st; exact congrArg some (by decide +kernel : decodeEntry (testEntry 1) = .test 0 1 testAsked)
  · intro st; exact congrArg some (by decide +kernel : decodeEntry (testEntry 0) = .test 0 0 testAsked)
  · intro st; exact congrArg some (by decide +kernel : decodeEntry (testEntry 2) = .test 0 2 testAsked)
  · intro st e; exact congrArg (·.control.state) (lane_laneIn st ready)
  · intro st e; exact congrArg (·.control.geometry) (lane_laneIn st ready)
  · intro st e; exact Nat.zero_lt_succ 15

/-- R155: the first area write of a SNAPSHOT starts at the stripe beat of place 1. -/
theorem test_snapshot_first_write : ((snapshotWrites idle).head?.map (·.addr)) = some 0x100060 := by
  rw [snapshotWrites, snapshotPlaces]; decide +kernel

/-- The injected queue with 16 trailer writes in it. -/
def full (s : State) : State :=
  { s with path := { s.path with injected := List.replicate 16 ⟨trailerWrite geo line .ok 0 0 false false,
    .trailer 0, 0, none⟩ } }

/-- R154, R3: with the queue full the command unit waits, held in EXECUTING by the SNAPSHOT. -/
theorem test_snapshot_waits :
    let t := after (exec .snapshot (full (inExec (entry 0x0D 0 []) idle)))
    t.path.waitList = [.command] ∧ t.command.cond = .executing (entry 0x0D 0 []) (some .snapshot) := by
  decide +kernel

theorem witness_SnapshotMakesItsAreaWrites :
    let s := inExec (entry 0x0D 0 []) idle
    inHand s = some .snapshot ∧ s.command.writes = [] ∧ s.path.waitList = [] ∧ s.path.injected.length ≤ 16 ∧
    s.command.producer = (s.command.consumer + 1) % 64 ∧ s.command.cond = .executing (entry 0x0D 0 []) none := by
  decide +kernel

/-- Status bytes at the ends of the two ranges that the writes carry. -/
theorem witness_SnapshotWritesStripesOnly :
    (0 < 1008 ∧ 31 < 32) ∧ (80 ≤ 80 ∧ 1007 < 1008) ∧ snapshotWrites idle ≠ [] := by
  refine ⟨by decide, by decide, ?_⟩
  rw [snapshotWrites, snapshotPlaces]; nofun

/-- A held fault with one suppressed. -/
def faulted (s : State) : State :=
  { s with report := { s.report with fault := .fetchError, detail := 5, suppressed := 1 } }

/-- R156: CLEAR_FAULT. -/
theorem test_clear_fault :
    let t := after (exec .clearFault (inExec (entry 0x0E 0 []) (faulted idle)))
    t.report.fault = .none ∧ t.report.suppressed = 0 ∧ faultLine t = false := by decide +kernel

theorem witness_FaultsAndEventsAreHeldAndCleared :
    ReportUnit.initial.fault = .none ∧ (faulted idle).report.fault ≠ .none ∧ ReportUnit.initial.events.length < 16 ∧
    (∃ r : ReportUnit, 16 ≤ r.events.length ∧ r.fault = .none ∧ { r with fault := .eventLost }.fault ≠ .none) ∧
    inHand (inExec (entry 0x0E 0 []) (faulted idle)) = some .clearFault := by
  refine ⟨by decide, by decide, by decide, ⟨{ ReportUnit.initial with
    events := List.replicate 16 (.reverseTravel 0 0 0 0) }, by decide, by decide, by decide⟩, by decide +kernel⟩

/-- R149: LANE_RESET of an armed lane keeps its settings and raises the arming number. -/
theorem test_lane_reset :
    let t := after (exec .laneReset (inExec (entry 0x0F 0 []) (processing .tracking ready)))
    (t.lane 0).control.state = .off ∧ (t.lane 0).control.geometry = some geo ∧ (t.lane 0).capture.arming = 2 ∧
    (t.lane 0).capture.bufA = .free := by decide +kernel

theorem witness_LaneResetKeepsSettings :
    inHand (inExec (entry 0x0F 0 []) idle) = some (.laneReset 0) ∧
    ((inExec (entry 0x0F 0 []) idle).lane 0).control.state = .off ∧
    inHand (inExec (entry 0x0F 0 []) (laneIn .parked ready)) = some (.laneReset 0) ∧
    ((inExec (entry 0x0F 0 []) (laneIn .parked ready)).lane 0).control.state ≠ .off ∧
    (inExec (entry 0x0F 0 []) (laneIn .parked ready)).report.events.length < 16 := by decide +kernel

/-- R163: BAY_RESET without KEEP clears the lane's settings. -/
theorem test_bay_reset :
    let t := after (exec .bayReset (inExec (entry 0x10 0 [0]) (laneIn .tracking ready)))
    (t.lane 0).control = Control.initial ∧ t.report.settings = none ∧
    t.path.injected.map (·.req) = [producerWordWrite 0x100000 0, statusWrite 0x100000 0 .done,
      consumerWordWrite 0x100000 1] := by decide +kernel

theorem witness_BayResetResetsTheBay :
    inHand (inExec (entry 0x10 0 [0]) ready) = some (.bayReset false) ∧
    inHand (inExec (entry 0x10 0 [1]) ready) = some (.bayReset true) ∧
    (inExec (entry 0x10 0 [1]) ready).path.injected.length < 16 ∧
    (let s := inExec (entry 0x10 0 [1]) { ready with path := { ready.path with
       injected := List.replicate 16 ⟨producerWordWrite 0x100000 0, .producerZero, 0, none⟩, waitList := [.lane 0] } }
     inHand s = some (.bayReset true) ∧ 16 ≤ s.path.injected.length) := by decide +kernel

/-- R153: code 0x11 is no command. -/
theorem test_unknown :
    (after (exec .unknownCommand (inExec (entry 0x11 0 []) idle))).path.injected.map (·.req) =
      [statusWrite 0x100000 0 .unknown, consumerWordWrite 0x100000 1] := by decide +kernel

theorem witness_BadTargetAndUnknownDoNothing :
    (inExec (entry 0x00 0 []) idle).command.cond = .executing (entry 0x00 0 []) none ∧
    [0x00, 0x11, 0xFF].map (fun c => decodeEntry (entry c 0 [])) = [.unknown 0, .unknown 0x11, .unknown 0xFF] ∧
    ([0, 1, 0xFF].map fun k => decodeEntry (entry 0x10 0 [k])) = [.bayReset false, .bayReset true, .bayReset true] ∧
    decodeEntry (entry 0x02 3 ([8, 0, 0, 0] ++ List.replicate 35 0 ++ [0x3F, 0, 0x40, 1, 2])) = .laneZones 3 8
      (List.replicate 7 ⟨0, 0, 0⟩ ++ [⟨0x3F, 0x140, 2⟩]) ∧
    decodeEntry (entry 0x02 3 [9]) = .laneZones 3 9 [] ∧ decodeEntry (entry 0x0D 0xFF []) = .snapshot ∧
    inHand (inExec (entry 0x03 12 [0, 0, 0, 0, 2]) idle) = some (.deadColumns 12 0 0 2) ∧
    inHand (inExec (entry 0x0C 12 [2]) idle) = some (.test 12 2 ⟨0, 0, 0, 0, 0, 0⟩) ∧
    inHand (inExec (entry 0x00 0 []) idle) = some (.unknown 0) ∧
    inHand (inExec (entry 0x01 12 []) idle) = some (.laneGeometry 12 ⟨0, 0, 0, 0, 0, 0, 0, 0, 0⟩) ∧
    inHand (inExec (entry 0x02 12 []) idle) = some (.laneZones 12 0 []) ∧
    inHand (inExec (entry 0x03 12 [0, 0, 0, 0, 1]) idle) = some (.deadColumns 12 0 0 1) ∧
    inHand (inExec (entry 0x03 12 []) idle) = some (.deadColumns 12 0 0 0) ∧
    inHand (inExec (entry 0x04 12 []) idle) = some (.laneDetect 12 ⟨0, 0, 0, 0, 0, 0, 0, 0, 0, 0⟩) ∧
    inHand (inExec (entry 0x05 6 []) idle) = some (.strandSetup 6 ⟨0, 0, 0, 0, 0⟩) ∧
    inHand (inExec (entry 0x06 6 []) idle) = some (.strandMarking 6 ⟨0, 0, 0, 0, 0⟩) ∧
    inHand (inExec (entry 0x09 255 []) idle) = some (.arm 255) ∧
    inHand (inExec (entry 0x0A 12 []) idle) = some (.disarm 12) ∧
    inHand (inExec (entry 0x0B 12 []) idle) = some (.reseed 12) ∧
    inHand (inExec (entry 0x0C 12 [1]) idle) = some (.test 12 1 ⟨0, 0, 0, 0, 0, 0⟩) ∧
    inHand (inExec (entry 0x0C 12 [0]) idle) = some (.test 12 0 ⟨0, 0, 0, 0, 0, 0⟩) ∧
    inHand (inExec (entry 0x0F 12 []) idle) = some (.laneReset 12) := by decide +kernel

/-- Retiring with more entries outstanding, and with a full queue. -/
theorem witness_RetireWritesStatusThenConsumer :
    idle.command.writes = [] ∧
    (Room 2 { idle with command := { idle.command with producer := 1 } } ∧
      { idle.command with producer := 1 }.producer = ({ idle.command with producer := 1 }.consumer + 1) % 64) ∧
    (Room 3 { idle with command := { idle.command with producer := 2 } } ∧
      { idle.command with producer := 2 }.producer ≠ ({ idle.command with producer := 2 }.consumer + 1) % 64) ∧
    (Block.command ∉ [Block.report] ∧ [Block.report] ≠ []) ∧
    (∀ n, { idle.path with injected := List.replicate n ⟨entryRead 0 0, .entryRead, 0, none⟩ }.injected.length = n) ∧
    idle.path.waitList = [] := by
  refine ⟨rfl, ⟨⟨rfl, by decide⟩, by decide⟩, ⟨⟨rfl, by decide⟩, by decide⟩, ⟨by decide, by decide⟩, fun n => ?_, rfl⟩
  simp

/-! ### The path unit -/

def readRequest : Request := ⟨.read, 0x40000, 2, [], []⟩

/-- A one-beat write that touches nothing the part watches. -/
def plainWrite : Request := ⟨.write, 0x40000, 1, [allBytes], zeroBytes 32⟩

/-- A request of master 5 with tag 77 in the pass-through queue. -/
def passed (r : Request) (issue : Option Nat) : PassEntry := ⟨r, 5, 77, [], 0, issue⟩

/-- A trailer write of lane 4 in the injected queue. -/
def injected (issue : Option Nat) : InjEntry := ⟨trailerWrite geo line .ok 0 0 false false, .trailer 4, 1, issue⟩

/-- The two queues hold `p` and `q`. -/
def queues (p : List PassEntry) (q : List InjEntry) (s : State) : State :=
  { s with path := { s.path with pass := p, injected := q, nextOrder := 2, nextIssue := 2 } }

theorem nextIsPass_queues (r : Request) (s : State) (h : s.path.absorb = 0) :
    NextIsPass (passed r (some 0)) (queues [passed r (some 0)] [injected (some 1)] s) := by
  refine ⟨h, rfl, 0, rfl, ?_⟩
  intro j m hj hm
  cases hj
  cases hm
  decide

theorem nextIsInjected_queues (e : InjEntry) (s : State) (h : s.path.absorb = 0) (he : e.issue = some 0) :
    NextIsInjected e (queues [passed readRequest (some 1)] [e] s) := by
  refine ⟨h, rfl, 0, he, ?_⟩
  intro p m hp hm
  cases hp
  cases hm
  decide

/-- R7, R18, R23: a whole line written in one request to an armed lane is taken as sent, feeds the line and is taken into
processing at once. -/
theorem test_take_line :
    let t := after (exec (.upstreamRequestTake (offer (lineWrite 100))) (laneIn .armed ready))
    t.path.pass = [⟨lineWrite 100, 5, 77, [⟨0, 0, 1⟩], 0, none⟩] ∧
    (t.lane 0).capture.assembler = .complete 0 ∧ (t.lane 0).capture.inProcessing.isSome = true ∧
    (t.lane 0).capture.nextSeq = 2 := by decide +kernel

/-- R19: the first beat of the next slot drops the incomplete line as RUNT. -/
theorem test_take_runt :
    let s := (laneIn .armed ready).modCapture 0 fun c =>
      { c with assembler := .assembling 0, bufA := .assembling { line with coverage := [0] } }
    let t := after (exec (.upstreamRequestTake (offer ⟨.write, 0x100C0, 1, [allBytes], zeroBytes 32⟩)) s)
    (t.lane 0).capture.counters.runt = 1 ∧ (t.lane 0).capture.assembler = .assembling 1 ∧
    t.path.injected.length = 1 := by
  decide +kernel

/-- The last beat below the ring of lane 0 and the first above it. -/
theorem witness_RequestsOutsideRingsAreTakenAsSent :
    (readRequest.kind = .read ∧ (laneIn .armed ready).global ≠ .held ∧ (laneIn .armed ready).path.pass.length < 32) ∧
    ({ idle with global := .held }.global = .held) ∧
    (32 ≤ (queues (List.replicate 32 (passed readRequest none)) [] idle).path.pass.length) ∧
    (plainWrite.kind = .write ∧ ∀ a ∈ [geo.base - 32, ringEnd geo], ∀ i g,
      ((laneIn .armed ready).lane i).control.state.capturing = true →
      ((laneIn .armed ready).lane i).control.geometry = some g → apart a (a + 32 * 1) g.base (ringEnd g)) := by
  refine ⟨⟨rfl, by decide, by decide⟩, rfl, by decide, rfl, ?_⟩
  intro a ha i g hc hg
  have only : ∀ i, ((laneIn .armed ready).lane i).control.state.capturing = true → i = 0 := by decide +kernel
  obtain rfl := only i hc
  rw [lane_laneIn] at hg
  cases hg
  simp only [List.mem_cons, List.not_mem_nil, or_false] at ha
  rcases ha with rfl | rfl
  · exact Or.inl (by decide)
  · exact Or.inr (by decide)

theorem witness_TakenRequestIsForwardedAsSent :
    (laneIn .armed ready).global ≠ .held ∧ (laneIn .armed ready).path.pass.length < 32 ∧
    ∀ i, ((laneIn .armed ready).lane i).control.state ≠ .test := by decide +kernel

/-- A whole line and the first beat of the next slot, from lane 0's ring on; the last beat of the ring; the two beats of one
slot and of two; written data beats before a written trailer beat, and a beat that is not written. -/
theorem witness_TakenRequestIsForwardedAsSent_ring :
    (let s := laneIn .armed ready
     let u := offer ⟨.write, 0x10000 + 768 - 32, 2, [allBytes, allBytes], zeroBytes 64⟩
     u.req.kind = .write ∧ (s.lane 0).control.state.capturing = true ∧ (s.lane 0).control.geometry = some geo ∧
     0 < u.req.len ∧ geo.base ≤ u.req.addr + 32 * 0 ∧ u.req.addr + 32 * 0 < ringEnd geo ∧
     ringEnd geo ≤ u.req.addr + 32 * 1 ∧ ∀ j, j ≠ 0 → (s.lane j).control.state.capturing = false) ∧
    ringBeats geo ⟨.write, 0x10000 + 160, 2, [0, 1], zeroBytes 64⟩ = [⟨0, 5, 0, 0⟩, ⟨1, 0, 1, 1⟩] ∧
    slotParts [⟨0, 5, 0, 0⟩, ⟨1, 0, 1, 1⟩, ⟨1, 1, 2, 1⟩] = [(0, [⟨0, 5, 0, 0⟩]), (1, [⟨1, 0, 1, 1⟩, ⟨1, 1, 2, 1⟩])] ∧
    (⟨0, 5, 0, 0⟩ : RingBeat).written = false ∧ (⟨0, 3, 0, 1⟩ : RingBeat).written = true ∧ 3 < geo.w / 16 ∧
    (⟨0, 4, 1, 1⟩ : RingBeat).written = true ∧ 4 = geo.w / 16 := by decide +kernel

/-- R5: with both heads issuable and the turn PASS, the pass-through head goes and the turn passes. -/
theorem test_issue :
    let t := after (exec .issueOpportunity (queues [passed readRequest none] [injected none] idle))
    t.ports.downstream = [readRequest] ∧ t.path.turn = .injected ∧ t.path.pass = [passed readRequest (some 2)] := by
  decide +kernel

/-- R4: an injected write behind an older overlapping request is not issuable. A request of two beats overlaps those of one
beat on its first and its last beat, whatever their byte enables, and not those before and after it. -/
theorem test_not_issuable :
    let w : Request := trailerWrite geo line .ok 0 0 false false
    let beat (a : Nat) : Request := ⟨.write, a, 1, [0], zeroBytes 32⟩
    (queues [⟨w, 5, 77, [], 0, none⟩] [⟨w, .trailer 0, 1, none⟩] idle).path.injIssuable = false ∧
    [0x3FFE0, 0x40000, 0x40020, 0x40040].map (fun a => requestsOverlap readRequest (beat a)) =
      [false, true, true, false] := by decide +kernel

theorem witness_IssueOpportunityFollowsArbiter :
    (idle.path.passIssuable = false ∧ idle.path.injIssuable = false) ∧
    (let p := (queues [passed readRequest none] [] idle).path
     p.passHead = some (passed readRequest none) ∧ p.passIssuable = true ∧ p.injIssuable = false) ∧
    (let p := (queues [] [injected none] idle).path
     p.injHead = some (injected none) ∧ p.passIssuable = false ∧ p.injIssuable = true) ∧
    (let p := (queues [passed readRequest none] [injected none] idle).path
     p.passHead = some (passed readRequest none) ∧ p.injHead = some (injected none) ∧ p.passIssuable = true ∧
     p.injIssuable = true ∧ p.turn = .pass ∧ { p with turn := .injected }.injIssuable = true) ∧
    (let p := (queues [passed readRequest (some 0), passed readRequest none] [injected (some 1)] idle).path
     p.pass = [passed readRequest (some 0)] ++ passed readRequest none :: [] ∧
     (∀ e ∈ [passed readRequest (some 0)], e.issue ≠ none) ∧ (passed readRequest none).issue = none ∧
     p.passHead = some (passed readRequest none) ∧ p.passIssuable = true ∧
     (∀ e ∈ p.injected, e.issue ≠ none) ∧ p.injHead = none) := by decide +kernel

/-- R6: the response completes the request that was issued first. -/
theorem test_response :
    let t := after (exec (.downstreamResponse true [1, 2])
      (queues [passed readRequest (some 0)] [injected (some 1)] idle))
    t.ports.upstream = [⟨5, 77, true, [1, 2]⟩] ∧ t.path.pass = [] ∧ t.path.injected = [injected (some 1)] := by
  decide +kernel

theorem witness_ResponsesCompleteTheirRequests :
    ({ idle with path := { idle.path with absorb := 1 } }.path.absorb ≠ 0) ∧
    (NextIsPass (passed readRequest (some 0)) (queues [passed readRequest (some 0)] [injected (some 1)] idle) ∧
      (passed readRequest (some 0)).req.kind = .read) ∧
    (NextIsInjected (injected (some 0)) (queues [passed readRequest (some 1)] [injected (some 0)] idle) ∧
      (injected (some 0)).purpose = .trailer 4 ∧ (injected (some 0)).req.kind = .write ∧ idle.path.waitList = [] ∧
      idle.report.fault = .none) ∧
    (NextIsInjected (injected (some 0)) (queues [passed readRequest (some 1)] [injected (some 0)] (faulted idle)) ∧
      (faulted idle).report.fault ≠ .none) :=
  ⟨by decide, ⟨nextIsPass_queues _ _ rfl, rfl⟩, ⟨nextIsInjected_queues _ _ rfl rfl, rfl, rfl, rfl, rfl⟩,
    nextIsInjected_queues _ _ rfl rfl, by decide⟩

/-- The writes of the other two makers, a consumer word and a producer word 0, their responses due. -/
theorem witness_ResponsesCompleteTheirRequests_makers :
    let due (e : InjEntry) : State := queues [passed readRequest (some 1)] [e] idle
    (let e : InjEntry := ⟨consumerWordWrite 0x100000 1, .commandWrite, 1, some 0⟩
     NextIsInjected e (due e) ∧ e.req.kind = .write ∧ e.purpose = .commandWrite ∧ (due e).path.waitList = []) ∧
    (let e : InjEntry := ⟨producerWordWrite 0x100000 0, .producerZero, 1, some 0⟩
     NextIsInjected e (due e) ∧ e.req.kind = .write ∧ e.purpose = .producerZero ∧ (due e).path.waitList = []) :=
  ⟨⟨nextIsInjected_queues _ _ rfl rfl, rfl, rfl, rfl⟩, nextIsInjected_queues _ _ rfl rfl, rfl, rfl, rfl⟩

/-- The report unit waits with `n` producer word writes of 0 to make. -/
def waitingReport (n : Nat) : State :=
  { queues [passed readRequest (some 1)] [injected (some 0)] idle with
    path := { (queues [passed readRequest (some 1)] [injected (some 0)] idle).path with waitList := [.report] }
    report := { ReportUnit.initial with zeros := n } }

/-- R3: the freed place takes the waiting block's request; with a second one to make it joins the list again. -/
theorem test_wait_list :
    let t (n : Nat) := after (exec (.downstreamResponse true []) (waitingReport n))
    (t 1).path.waitList = [] ∧ (t 1).path.injected.map (·.req) = [producerWordWrite 0x100000 0] ∧
    (t 2).path.waitList = [.report] ∧ (t 2).report.zeros = 1 := by decide +kernel

theorem witness_ResponsesCompleteTheirRequests_waiting (n : Nat) :
    NextIsInjected (injected (some 0)) (waitingReport (n + 1)) ∧ (injected (some 0)).purpose = .trailer 4 ∧
    (waitingReport (n + 1)).path.waitList = .report :: [] ∧
    wanted .report (waitingReport (n + 1)) = some (producerWordWrite 0x100000 0, .producerZero) ∧
    (wanted .report (made .report (waitingReport (n + 1))) = none ↔ n = 0) := by
  refine ⟨⟨rfl, rfl, 0, rfl, fun p m hp hm => ?_⟩, rfl, rfl, rfl, ?_⟩
  · cases hp; cases hm; decide
  · cases n with
    | zero => exact ⟨fun _ => rfl, fun _ => rfl⟩
    | succ n => exact ⟨nofun, nofun⟩

/-- The units in each condition in which they ask for a request. -/
theorem witness_ResponsesCompleteTheirRequests_requests :
    let u : CommandUnit := idle.command
    let snap : CommandUnit := { u with writes := [plainWrite], cond := .executing [] (some .snapshot) }
    let r : ReportUnit := idle.report
    u.writes = [] ∧ r.zeros = 0 ∧ r.writer = .idle ∧ snap.writes = plainWrite :: [] ∧
    (snap.afterMade).cond = .retiring .done false ∧
    ({ snap with writes := [plainWrite, readRequest] }.afterMade).writes = [readRequest] ∧
    (({ u with cond := .retiring .done true }.afterMade).cond, { u with cond := .retiring .done true }.afterMade.consumer) =
      (.fetching false, 1) ∧
    ({ u with cond := .retiring .done true, producer := 1 }.afterMade).cond = .idle ∧
    ({ r with writer := .publishing 5 false }.wants 0).map Prod.fst = some (producerWordWrite 0 5) ∧
    ({ r with writer := .publishing 5 false, zeros := 1 }.wants 0).map Prod.fst = some (producerWordWrite 0 0) ∧
    (let s := idle.modCapture 4 fun c => { c with trailers := [plainWrite] }
     (s.lane 4).capture.trailers = plainWrite :: [] ∧ wanted (.lane 4) s = some (plainWrite, .trailer 4)) := by decide +kernel

/-- The line write of a sensor head (master 5) in RUNNING, in LOADING and in PASS_ONLY, and writes that end where the control
block begins and begin where it ends. -/
theorem witness_ResponsesCompleteTheirRequests_plain :
    let due (r : Request) (s : State) : State := queues [passed r (some 0)] [injected (some 1)] s
    let base : Nat := 0x100000
    (∀ r ∈ [lineWrite 100, ⟨.write, base - 32, 1, [allBytes], zeroBytes 32⟩,
        ⟨.write, base + 4096, 1, [allBytes], zeroBytes 32⟩],
      NextIsPass (passed r (some 0)) (due r idle) ∧ (passed r (some 0)).req.kind = .write ∧
      (due r idle).command.base = some base ∧ (due r idle).command.master = some 3 ∧ (passed r (some 0)).master = 5 ∧
      apart r.addr (r.addr + 32 * r.len) base (base + 4096)) ∧
    ∀ s ∈ [State.reset, { State.reset with global := .passOnly }],
      NextIsPass (passed (lineWrite 100) (some 0)) (due (lineWrite 100) s) ∧ (due (lineWrite 100) s).global ≠ .running := by
  refine ⟨fun r hr => ⟨nextIsPass_queues _ _ rfl, ?_, rfl, rfl, rfl, ?_⟩, fun s hs => ?_⟩
  · simp only [List.mem_cons, List.not_mem_nil, or_false] at hr; rcases hr with rfl | rfl | rfl <;> rfl
  · simp only [List.mem_cons, List.not_mem_nil, or_false] at hr
    rcases hr with rfl | rfl | rfl
    · exact Or.inl (by decide)
    · exact Or.inl (by decide)
    · exact Or.inr (by decide)
  · simp only [List.mem_cons, List.not_mem_nil, or_false] at hs
    rcases hs with rfl | rfl <;> exact ⟨nextIsPass_queues _ _ rfl, nofun⟩

/-- A write of lane 0's line 1 under arming 1, its response due, over a lane whose buffer A is `b`. -/
def fedLine (b : Buffer) : PassEntry × State :=
  let e : PassEntry := { passed plainWrite (some 0) with fed := [⟨0, 1, 1⟩] }
  (e, queues [e] [] ((processing .tracking ready).modCapture 0 fun c => { c with bufA := b }))

/-- The same write, which fed the lane's lines 1 and 2. -/
def fedLines (b : Buffer) : PassEntry × State :=
  let e : PassEntry := { (fedLine b).1 with fed := [⟨0, 1, 1⟩, ⟨0, 1, 2⟩] }
  (e, queues [e] [] (fedLine b).2)

/-- R25: the ASSEMBLING line is marked and the memory-error counter rises, once for each line of the write (R9). -/
theorem test_error_notice :
    let t := after (exec (.downstreamResponse false []) (fedLine (.assembling line)).2)
    (t.lane 0).capture.bufA = .assembling { line with memError := true } ∧
    (t.lane 0).capture.counters.memErrors = 1 ∧ t.ports.upstream = [⟨5, 77, false, []⟩] ∧
    let t := after (exec (.downstreamResponse false []) (fedLines (.assembling line)).2)
    (t.lane 0).capture.bufA = .assembling { line with memError := true } ∧
    (t.lane 0).capture.counters.memErrors = 2 := by decide +kernel

theorem witness_ResponsesCompleteTheirRequests_lines (b : Buffer) :
    NextIsPass (fedLines b).1 (fedLines b).2 ∧ (fedLines b).1.req.kind = .write ∧
    (fedLines b).1.fed = [⟨0, 1, 1⟩, ⟨0, 1, 2⟩] ∧ (fedLines b).2.global = .running :=
  ⟨⟨rfl, rfl, 0, rfl, fun _ _ hj => nomatch hj⟩, rfl, rfl, rfl⟩

theorem witness_ResponsesCompleteTheirRequests_errors (b : Buffer) :
    NextIsPass (fedLine b).1 (fedLine b).2 ∧ (fedLine b).1.req.kind = .write ∧ (fedLine b).1.fed = [⟨0, 1, 1⟩] ∧
    (fedLine b).2.global = .running ∧ ((fedLine b).2.lane 0).capture.bufA = b ∧
    ((fedLine b).2.lane 0).capture.bufB = .free ∧ line.arming = 1 ∧ line.seq = 1 ∧
    (b = .free → ((fedLine b).2.lane 0).capture.assemblingLine = none ∧
      ((fedLine b).2.lane 0).capture.waitingLine = none) := by
  have hb : ((fedLine b).2.lane 0).capture.bufA = b ∧ ((fedLine b).2.lane 0).capture.bufB = .free := by
    simp [fedLine, queues, processing, laneIn, Lane.initial, Capture.initial]
  refine ⟨⟨rfl, rfl, 0, rfl, fun _ _ hj => nomatch hj⟩, rfl, rfl, rfl, hb.1, hb.2, rfl, rfl, ?_⟩
  rintro rfl
  simp [Capture.assemblingLine, Capture.waitingLine, hb]

/-- The line in buffer B: with trailers disabled, with room for one, with the command unit waiting and with the lane itself
on the wait list. -/
theorem witness_ResponsesCompleteTheirRequests_drops (b : Buffer) :
    let s := (fedLine .free).2.modCapture 0 fun c => { c with bufB := b }
    let waits : State := { s with path := { s.path with waitList := [.command] } }
    let listed : State := { s with path := { s.path with waitList := [.lane 0] } }
    (NextIsPass (fedLine .free).1 s ∧ (s.lane 0).capture.bufA = .free ∧ (s.lane 0).capture.bufB = b ∧
      (s.lane 0).control.geometry = some geo ∧ geo.trailers = true ∧ Room 1 s ∧ (s.lane 0).capture.trailers = []) ∧
    (NextIsPass (fedLine .free).1 (untrailed s) ∧
      ((untrailed s).lane 0).control.geometry = some { geo with trailers := false }) ∧
    (NextIsPass (fedLine .free).1 waits ∧ Block.lane 0 ∉ waits.path.waitList ∧ waits.path.waitList ≠ []) ∧
    Block.lane 0 ∈ listed.path.waitList := by
  refine ⟨⟨⟨rfl, rfl, 0, rfl, fun _ _ hj => nomatch hj⟩, ?_, ?_, ?_, rfl,
      ⟨rfl, Nat.succ_le_succ (Nat.zero_le 15)⟩, ?_⟩,
    ⟨⟨rfl, rfl, 0, rfl, fun _ _ hj => nomatch hj⟩, ?_⟩,
    ⟨⟨rfl, rfl, 0, rfl, fun _ _ hj => nomatch hj⟩, ?_, nofun⟩, ?_⟩ <;>
    simp [fedLine, queues, processing, laneIn, Lane.initial, Capture.initial, untrailed]

/-- The command unit waiting for the read of entry 0. -/
def fetching (s : State) : State := { s with command := { s.command with cond := .fetching true, producer := 1 } }

/-- The control master's write of the command producer word: value `v`. -/
def producerWrite (v : Nat) : Request := ⟨.write, 0x100000 + 32, 1, [0x000F0000], zeroBytes 16 ++ le 4 v ++ zeroBytes 12⟩

/-- The same write in the pass-through queue, by master `m`. -/
def producerEntry (m : Fin 16) (v : Nat) : PassEntry := ⟨producerWrite v, m, 0, [], 0, some 0⟩

theorem nextIsPass_producer (m : Fin 16) (v : Nat) (s : State) (h : s.path.absorb = 0) :
    NextIsPass (producerEntry m v) (queues [producerEntry m v] [] s) :=
  ⟨h, rfl, 0, rfl, fun _ _ hj => nomatch hj⟩

/-- R151: a producer word of 65 makes the producer copy 1 and starts the read of entry 0. -/
theorem test_producer_word :
    let t := after (exec (.downstreamResponse true []) (queues [producerEntry 3 65] [] idle))
    t.command.producer = 1 ∧ t.command.cond = .fetching true ∧
    t.path.injected.map (·.req) = [entryRead 0x100000 0] := by decide +kernel

/-- A control-master write of one beat at offset `o` of the control block with the byte enables `m`. -/
def blockEntry (o : Nat) (m : BitVec 32) (d : List Byte) : PassEntry := ⟨⟨.write, 0x100000 + o, 1, [m], d⟩, 3, 0, [], 0, some 0⟩

theorem nextIsPass_block (o : Nat) (m : BitVec 32) (d : List Byte) :
    NextIsPass (blockEntry o m d) (queues [blockEntry o m d] [] idle) := ⟨rfl, rfl, 0, rfl, fun _ _ hj => nomatch hj⟩

/-- A write of both host words and of byte 52 between them: command producer 1, report consumer 3. -/
def bothWords : PassEntry := blockEntry 32 0xF01F0000 (zeroBytes 16 ++ le 4 1 ++ zeroBytes 8 ++ le 4 3)

/-- R150: half of the command producer word, and a byte of the status area (offset 112), are foreign; an entry is not. A
write of both host words and a byte between them acts on each and is counted once. -/
theorem test_foreign_writes :
    (after (exec (.downstreamResponse true []) (queues [blockEntry 32 0x00030000 (zeroBytes 32)] [] idle))).command.foreign = 1 ∧
    (after (exec (.downstreamResponse true []) (queues [blockEntry 96 0x00010000 (zeroBytes 32)] [] idle))).command.foreign = 1 ∧
    (after (exec (.downstreamResponse true []) (queues [blockEntry 32 0x0000FFFF (zeroBytes 32)] [] idle))).command.foreign = 0 ∧
    (let t := after (exec (.downstreamResponse true []) (queues [bothWords] []
       { ready with report := { ready.report with published := 5 } }))
     (t.command.foreign, t.command.producer, t.report.consumer) = (1, 1, 3)) := by
  decide +kernel

theorem enables_block {o a : Nat} {m : BitVec 32} {d : List Byte} (h : Enables (blockEntry o m d).req (0x100000 + a)) :
    o ≤ a ∧ a < o + 32 ∧ m.getLsbD (a - o) = true := by
  obtain ⟨n, hn, ha, hm⟩ := h
  simp only [blockEntry] at hn ha hm
  have hn : n < 32 := by simpa using hn
  have e : n = a - o := by omega
  have z : n / 32 = 0 := by omega
  rw [z, List.getD_cons_zero, Nat.mod_eq_of_lt hn, e] at hm
  exact ⟨by omega, by omega, hm⟩

/-- A write of the consumer word, one into entry 0, and one of half the producer word. -/
theorem witness_ControlBlockWritesAreActedOnOrCounted_words :
    (let e := blockEntry 32 0xF0000000 (zeroBytes 28 ++ le 4 7)
     NextIsPass e (queues [e] [] idle) ∧ e.req = ⟨.write, 0x100000 + 32, 1, [0xF0000000], zeroBytes 28 ++ le 4 7⟩) ∧
    (let e := blockEntry 32 0x0000FFFF (zeroBytes 32)
     NextIsPass e (queues [e] [] idle) ∧ e.req.kind = .write ∧ e.master = 3 ∧
     ∀ a, a < 4096 → Enables e.req (0x100000 + a) → a % 64 < 48) ∧
    (let e := blockEntry 32 0x00030000 (zeroBytes 32)
     NextIsPass e (queues [e] [] idle) ∧ 48 ≤ 48 % 64 ∧ Enables e.req (0x100000 + 48) ∧
     ¬ Enables e.req (0x100000 + 51) ∧ ¬ Enables e.req (0x100000 + 63)) := by
  refine ⟨⟨nextIsPass_block .., rfl⟩, ⟨nextIsPass_block .., rfl, rfl, fun a _ h => ?_⟩,
    nextIsPass_block .., by decide, ⟨16, by decide, rfl, by decide⟩, fun h => ?_, fun h => ?_⟩
  · obtain ⟨h1, h2, h3⟩ := enables_block h
    have low : ∀ n, n < 32 → (0x0000FFFF#32).getLsbD n = true → n < 16 := by decide
    have := low (a - 32) (by omega) h3
    omega
  · exact absurd (enables_block h).2.2 (by decide)
  · exact absurd (enables_block h).2.2 (by decide)

theorem witness_ControlBlockWritesAreActedOnOrCounted :
    (NextIsPass (producerEntry 3 65) (queues [producerEntry 3 65] [] idle) ∧ idle.global = .running ∧
      idle.command.base = some 0x100000 ∧ idle.command.master = some 3 ∧
      (producerEntry 3 65).req = ⟨.write, 0x100000 + 32, 1, [0x000F0000], zeroBytes 16 ++ le 4 65 ++ zeroBytes 12⟩ ∧
      Room 1 (queues [producerEntry 3 65] [] idle) ∧ idle.command.writes = [] ∧ idle.command.cond = .idle ∧
      idle.command.consumer ≠ 65 % 64) ∧
    (NextIsPass (producerEntry 3 64) (queues [producerEntry 3 64] [] idle) ∧ idle.command.consumer = 64 % 64) ∧
    (NextIsPass (producerEntry 3 65) (queues [producerEntry 3 65] [] (inExec [] idle)) ∧
      (inExec [] idle).command.cond = .executing [] none) ∧
    (NextIsPass (producerEntry 4 1) (queues [producerEntry 4 1] [] idle) ∧ (producerEntry 4 1).req.kind = .write ∧
      (producerEntry 4 1).master ≠ 3 ∧ (producerEntry 4 1).fed = [] ∧ 0 < (producerEntry 4 1).req.len ∧
      ¬ apart (producerEntry 4 1).req.addr ((producerEntry 4 1).req.addr + 32 * (producerEntry 4 1).req.len) 0x100000
        (0x100000 + 4096)) := by
  refine ⟨⟨nextIsPass_producer _ _ _ rfl, rfl, rfl, rfl, rfl, ⟨rfl, by decide⟩, rfl, rfl, by decide⟩,
    ⟨nextIsPass_producer _ _ _ rfl, by decide⟩, ⟨nextIsPass_producer _ _ _ rfl, rfl⟩,
    nextIsPass_producer _ _ _ rfl, rfl, by decide, rfl, by decide, ?_⟩
  rintro (h | h) <;> revert h <;> decide

/-- Both host words whole and byte 52 beside them, with the unit IDLE and behind, level, EXECUTING and FETCHING. -/
theorem witness_ControlBlockWritesAreActedOnOrCounted_both :
    (NextIsPass bothWords (queues [bothWords] [] idle) ∧ bothWords.req.kind = .write ∧ bothWords.master = 3 ∧
      Room 1 (queues [bothWords] [] idle)) ∧
    (∀ o, 48 ≤ o → o < 48 + 4 → Enables bothWords.req (0x100000 + o)) ∧
    (∀ o, 60 ≤ o → o < 60 + 4 → Enables bothWords.req (0x100000 + o)) ∧
    (52 ≤ 52 ∧ 52 < 60 ∧ Enables bothWords.req (0x100000 + 52)) ∧
    fromLe ((bothWords.req.data.drop (0x100000 + 48 - bothWords.req.addr)).take 4) % 64 = 1 ∧
    (idle.command.cond = .idle ∧ idle.command.consumer ≠ 1 ∧ idle.command.writes = []) ∧
    (let u : CommandUnit := { idle.command with consumer := 1 }
     u.cond = .idle ∧ u.consumer = 1) ∧
    (inExec [] idle).command.cond = .executing [] none ∧ (fetching idle).command.cond = .fetching true ∧
    (let e := blockEntry 32 0xF0000000 (zeroBytes 32)
     NextIsPass e (queues [e] [] idle) ∧ ¬ Enables e.req (0x100000 + 48)) := by
  have on (o : Nat) (h : 32 ≤ o) (h2 : o < 64) (h3 : (0xF01F0000#32).getLsbD (o - 32) = true) :
      Enables bothWords.req (0x100000 + o) := by
    refine ⟨o - 32, ?_, ?_, ?_⟩
    · simp only [bothWords, blockEntry]; omega
    · simp only [bothWords, blockEntry]; omega
    · have e : o - 32 < 32 := by omega
      simp only [bothWords, blockEntry, Nat.div_eq_of_lt e, Nat.mod_eq_of_lt e, List.getD_cons_zero]; exact h3
  have low : ∀ n, n < 32 → (16 ≤ n ∧ n < 21) ∨ 28 ≤ n → (0xF01F0000#32).getLsbD n = true := by decide
  refine ⟨⟨nextIsPass_block .., rfl, rfl, rfl, by decide⟩, fun o h h2 => on o (by omega) (by omega) (low _ (by omega) ?_),
    fun o h h2 => on o (by omega) (by omega) (low _ (by omega) ?_),
    ⟨by decide, by decide, on 52 (by decide) (by decide) (by decide)⟩,
    by decide +kernel, ⟨rfl, by decide, rfl⟩, ⟨rfl, rfl⟩, rfl, rfl, nextIsPass_block .., fun h => ?_⟩
  · omega
  · omega
  · exact absurd (enables_block h).2.2 (by decide)

/-- A write of the producer word by the control master, to complete with ERROR. -/
theorem witness_ControlBlockWritesAreActedOnOrCounted_error :
    NextIsPass (producerEntry 3 1) (queues [producerEntry 3 1] [] idle) ∧ (producerEntry 3 1).req.kind = .write ∧
    (producerEntry 3 1).fed = [] ∧ idle.command.master = some (producerEntry 3 1).master :=
  ⟨nextIsPass_producer _ _ _ rfl, rfl, rfl, rfl⟩

def entryReadEntry : InjEntry := ⟨entryRead 0x100000 0, .entryRead, 1, some 0⟩

theorem witness_EntryReadCompletes :
    NextIsInjected entryReadEntry (queues [passed readRequest (some 1)] [entryReadEntry] (fetching idle)) ∧
    entryReadEntry.purpose = .entryRead ∧ entryReadEntry.req.kind = .read ∧
    (queues [passed readRequest (some 1)] [entryReadEntry] (fetching idle)).path.waitList = [] ∧
    (fetching idle).command.cond = .fetching true ∧ (fetching idle).report.fault = .none :=
  ⟨nextIsInjected_queues _ _ rfl rfl, rfl, rfl, rfl, rfl, rfl⟩

/-- The writer in the condition `w`. -/
def writerIs (w : Writer) (s : State) : State := { s with report := { s.report with writer := w } }

theorem witness_WriterPublishesAfterItsRecords :
    (let e : InjEntry := ⟨recordWrite 0x200000 0 (.event (.reverseTravel 0 0 0 0)), .record 0, 1, some 0⟩
     let s := queues [passed readRequest (some 1)] [e] (writerIs (.writing [] 1) ready)
     NextIsInjected e s ∧ e.purpose = .record s.report.run ∧ Room 0 s ∧ s.report.writer = .writing [] 1 ∧
     s.report.zeros = 0) ∧
    (let e : InjEntry := ⟨producerWordWrite 0x100000 1, .producer 0 1, 1, some 0⟩
     let s := queues [passed readRequest (some 1)] [e] (writerIs (.publishing 1 true) ready)
     NextIsInjected e s ∧ e.purpose = .producer s.report.run 1 ∧ s.path.waitList = [] ∧
     s.report.writer = .publishing 1 true) :=
  ⟨⟨nextIsInjected_queues _ _ rfl rfl, rfl, ⟨rfl, by decide⟩, rfl, rfl⟩,
    nextIsInjected_queues _ _ rfl rfl, rfl, rfl, rfl⟩

/-- Two record writes outstanding; a record write with the report unit waiting for a place for the next record; record and
producer word writes of a run that a bay reset abandoned. -/
theorem witness_WriterPublishesAfterItsRecords_more :
    let x : Rec := .event (.reverseTravel 0 0 0 0)
    let due (e : InjEntry) (w : Writer) : State := queues [passed readRequest (some 1)] [e] (writerIs w ready)
    let e (p : Purpose) : InjEntry := ⟨recordWrite 0x200000 0 x, p, 1, some 0⟩
    (let s := due (e (.record 0)) (.writing [] 2)
     NextIsInjected (e (.record 0)) s ∧ (e (.record 0)).req.kind = .write ∧ s.report.run = 0 ∧ s.report.zeros = 0 ∧
     s.path.waitList = [] ∧ s.report.writer = .writing [] (0 + 2)) ∧
    (let s := due (e (.record 0)) (.writing [x, x] 1)
     let s : State := { s with path := { s.path with waitList := [.report] } }
     NextIsInjected (e (.record 0)) s ∧ s.report.run = 0 ∧ s.report.zeros = 0 ∧ s.report.settings = some report ∧
     s.report.writer = .writing (x :: [x]) (0 + 1) ∧ s.path.waitList = .report :: [] ∧ Block.report ∉ ([] : List Block)) ∧
    (let s := due (e (.record 1)) .idle
     NextIsInjected (e (.record 1)) s ∧ 1 ≠ s.report.run ∧ s.path.waitList = [] ∧ wanted .report s = none) ∧
    (let s := due (e (.producer 1 5)) .idle
     NextIsInjected (e (.producer 1 5)) s ∧ 1 ≠ s.report.run ∧ s.path.waitList = []) := by
  refine ⟨⟨nextIsInjected_queues _ _ rfl rfl, rfl, rfl, rfl, rfl, rfl⟩,
    ⟨⟨rfl, rfl, 0, rfl, fun p m hp hm => ?_⟩, rfl, rfl, rfl, rfl, rfl, nofun⟩,
    ⟨nextIsInjected_queues _ _ rfl rfl, by decide, rfl, rfl⟩, nextIsInjected_queues _ _ rfl rfl, by decide, rfl⟩
  cases hp; cases hm; decide

/-! ### Start-up and the resets -/

/-- R11: a held pass-through request is answered with ERROR; the one response owed is absorbed where the controller was not
reset. -/
theorem test_power_on :
    let t := after (exec .powerOn (queues [passed plainWrite (some 0)] [] idle))
    t.ports.upstream = [⟨5, 77, false, []⟩] ∧ t.global = .loading ∧ t.path.pass = [] ∧
    t.path.absorb = if Config.controllerSharesPowerOn then 0 else 1 := ⟨rfl, rfl, rfl, rfl⟩

/-- R11: the two requests issued and not answered are to be absorbed. -/
theorem test_reset_line :
    let t := after (exec .resetLineAssert (queues [passed plainWrite (some 0), passed plainWrite none]
      [injected (some 1)] idle))
    t.path.absorb = 2 ∧ t.global = .held ∧ t.ports.upstream.length = 2 := by decide +kernel

/-- R164: the read command and the three address bytes go out. -/
theorem test_reset_line_release :
    let t := after (exec .resetLineRelease { State.reset with global := .held })
    t.global = .loading ∧ t.loader.spiSent = [0x03, 0x00, 0x00, 0x00] := by decide +kernel

theorem witness_PowerOnAndResetLineResetEveryBlock :
    { State.reset with global := .held }.global = .held ∧ idle.global ≠ .held := by decide

/-- The store of a first-partition image: signature, header and preset places. -/
def store (signature : Byte) (base : Nat) (master count : Byte) (places : List Byte) : List Byte :=
  signature :: zeroBytes 15 ++ le 5 base ++ [master, count] ++ zeroBytes 25 ++ places

/-- R165, R167: a valid image without presets brings RUNNING and three start-up writes. -/
theorem test_store_running :
    let t := after (exec (.storeReadEnd (store 0x5A 0x100000 3 0 [])) State.reset)
    t.global = .running ∧ t.command.base = some 0x100000 ∧ t.command.master = some 3 ∧
    t.path.injected.map (·.req) = [presetSectionWrite 0x100000 .first 0 [], consumerWordWrite 0x100000 0,
      producerWordWrite 0x100000 0] := by decide +kernel

/-- R165: a control master of 16 is not valid. -/
theorem test_store_pass_only :
    (after (exec (.storeReadEnd (store 0x5A 0x100000 16 0 [])) State.reset)).global = .passOnly := by decide +kernel

theorem witness_StoreReadEndJudgesImage :
    State.reset.global = .loading ∧ State.reset.loader.state = .reading ∧
    (storeByte [0xFF] 0 ≠ 0x5A ∧ storeByte [0xFF] 0 ≠ 0xA5) ∧
    (storeByte (store 0x5A 0x100800 3 0 []) 0 = 0x5A ∧ fromLe (storeSlice (store 0x5A 0x100800 3 0 []) 0x010 5) % 4096 ≠ 0) ∧
    (let b := store 0x5A 0x100000 15 31 []
     storeByte b 0 = 0x5A ∧ fromLe (storeSlice b 0x010 5) % 4096 = 0 ∧ fromLe (storeSlice b 0x010 5) + 4096 ≤ 2 ^ 40 ∧
     (storeByte b (0x010 + 5)).toNat ≤ 15 ∧ (storeByte b (0x010 + 6)).toNat ≤ 31 ∧
     0 < (storeByte b (0x010 + 6)).toNat) ∧
    (let b := (0xA5 : Byte) :: zeroBytes 0x80F ++ le 5 0x100000 ++ [15, 0]
     storeByte b 0 = 0xA5 ∧ fromLe (storeSlice b 0x810 5) % 4096 = 0 ∧ fromLe (storeSlice b 0x810 5) + 4096 ≤ 2 ^ 40 ∧
     (storeByte b (0x810 + 5)).toNat ≤ 15 ∧ (storeByte b (0x810 + 6)).toNat = 0) ∧
    Room 3 State.reset ∧ State.reset.report.zeros = 0 ∧ State.reset.report.writer = .idle := by
  refine ⟨rfl, rfl, by decide, by decide +kernel, by decide +kernel, by decide +kernel, ⟨rfl, by decide⟩, rfl, rfl⟩

/-- The loader with presets to hand over, in LOADING. -/
def presetting (places : List (List Byte)) : State :=
  { State.reset with
    loader := { Loader.reading with
      state := .presets, partition := .first, header := some ⟨0x100000, 3, places.length⟩, presets := places
      chipSelect := false }
    command := { CommandUnit.initial with base := some 0x100000, master := some 3 } }

/-- R166: an unknown code among the presets raises PRESET_FAILED with its index. -/
theorem test_preset_failed :
    let t := after (exec .presetHandover (presetting [entry 0x11 0 [], entry 0x0E 0 []]))
    t.loader.statuses = [.unknown] ∧ t.report.fault = .presetFailed ∧ t.report.detail = 0 ∧ t.global = .loading := by
  decide +kernel

/-- R166, R167: after the last preset the part enters RUNNING. -/
theorem test_last_preset :
    let t := after (exec .presetHandover (presetting [classifyEntry 48]))
    t.loader.statuses = [.doneClamped] ∧ t.classify.aspect = 15 ∧ t.global = .running := by decide +kernel

theorem witness_PresetIsCarriedOut :
    (let s := presetting [classifyEntry 48, classifyEntry 48]
     s.global = .loading ∧ s.loader.state = .presets ∧ s.loader.presets[s.loader.statuses.length]? = some (classifyEntry 48) ∧
     (carryPreset (decodeEntry (commandPart (classifyEntry 48))) s).1 = .doneClamped ∧
     (carryPreset (decodeEntry (commandPart (classifyEntry 48))) s).2.loader = s.loader ∧
     s.loader.statuses.length + 1 < s.loader.presets.length) ∧
    (let s := presetting [entry 0x09 0 [], classifyEntry 48]
     carryPreset (decodeEntry (commandPart (entry 0x09 0 []))) s = (.refused, s) ∧ s.report.fault = .none ∧
     s.loader.statuses.length + 1 < s.loader.presets.length) ∧
    ((presetting []).global = .loading ∧ ((presetting []).lane 0).control.state = .off) := by
  decide +kernel

/-- The last preset, carried out and refused; a further failure under a held fault. -/
theorem witness_PresetIsCarriedOut_last :
    (let s := presetting [classifyEntry 48]
     s.global = .loading ∧ s.loader.state = .presets ∧ s.loader.presets[s.loader.statuses.length]? = some (classifyEntry 48) ∧
     (carryPreset (decodeEntry (commandPart (classifyEntry 48))) s).1 = .doneClamped ∧
     (let u := (carryPreset (decodeEntry (commandPart (classifyEntry 48))) s).2
      u.loader = s.loader ∧ u.path.waitList = [] ∧ u.path.injected.length + 3 ≤ 16 ∧ u.report.zeros = 0 ∧
      u.report.writer = .idle) ∧
     s.loader.statuses.length + 1 = s.loader.presets.length) ∧
    (let s := presetting [entry 0x09 0 []]
     carryPreset (decodeEntry (commandPart (entry 0x09 0 []))) s = (.refused, s) ∧ s.report.fault = .none ∧
     s.loader.statuses.length + 1 = s.loader.presets.length) ∧
    (let s := presetting [entry 0x09 0 [], classifyEntry 48]
     let s := { s with report := { s.report with fault := .presetFailed } }
     carryPreset (decodeEntry (commandPart (entry 0x09 0 []))) s = (.refused, s) ∧ s.report.fault ≠ .none ∧
     s.loader.statuses.length + 1 < s.loader.presets.length) ∧
    (let s := presetting [entry 0x09 0 []]
     let s := { s with report := { s.report with fault := .presetFailed } }
     carryPreset (decodeEntry (commandPart (entry 0x09 0 []))) s = (.refused, s) ∧ s.report.fault ≠ .none ∧
     s.loader.statuses.length + 1 = s.loader.presets.length) := by decide +kernel

/-- A producer word write of 0 with room, and with the report unit made to wait. -/
theorem witness_PresetIsCarriedOut_zero :
    (Room 1 idle ∧ idle.report.zeros = 0 ∧ idle.report.writer = .idle) ∧
    (let p : Path := { idle.path with waitList := [.command] }
     Block.report ∉ p.waitList ∧ p.waitList ≠ []) := by
  refine ⟨⟨⟨rfl, by decide⟩, rfl, rfl⟩, by decide, by decide⟩

/-- With nothing due and every lane OFF, an entry of each command. -/
theorem witness_PresetIsCarriedOut_alike :
    (let s := presetting []
     (∀ k, (s.strand k).motion.pairDue = none ∧ (s.strand k).motion.cutDue = none ∧
       (s.strand k).marker.pulsing = false) ∧ ∀ i, (s.lane i).control.state = .off) ∧
    decodeEntry geometryEntry = .laneGeometry 0 geometryAsked ∧
    decodeEntry zonesEntry = .laneZones 0 2 [⟨0, 31, 0⟩, ⟨32, 63, 1⟩] ∧
    decodeEntry (deadEntry 1 2) = .deadColumns 0 2046 2 1 ∧ decodeEntry (deadEntry 0 2) = .deadColumns 0 2046 2 0 ∧
    decodeEntry (entry 0x04 0 [255, 1, 9, 0]) = .laneDetect 0 ⟨255, 1, 9, 0, 0, 0, 0, 0, 0, 0⟩ ∧
    decodeEntry strandEntry = .strandSetup 0 ⟨999, 100, 2, 900, 4⟩ ∧
    decodeEntry markEntry = .strandMarking 0 ⟨50, 5, 5, 0, 10⟩ ∧
    decodeEntry (classifyEntry 48) = .classifySetup ⟨16, 60, 40, 48, 96, 160, 500⟩ ∧
    (decodeEntry reportEntry = .reportSetup ⟨0x200000, 256, 16, 32, 0⟩ ∧
      (carryPreset (.reportSetup ⟨0x200000, 256, 16, 32, 0⟩) (presetting [])).1 = .doneClamped ∧
      (carryPreset (.reportSetup ⟨0, 0, 0, 0, 0⟩) (presetting [])).1 = .badValue ∧
      decodeEntry (entry 0x08 0 []) = .reportSetup ⟨0, 0, 0, 0, 0⟩) ∧
    decodeEntry (entry 0x0A 0 []) = .disarm 0 ∧ decodeEntry (entry 0x0B 0 []) = .reseed 0 ∧
    decodeEntry (entry 0x0C 0 []) = .test 0 0 ⟨0, 0, 0, 0, 0, 0⟩ ∧ decodeEntry (entry 0x0E 0 []) = .clearFault ∧
    decodeEntry (entry 0x0F 0 []) = .laneReset 0 ∧ decodeEntry (entry 0x11 0 []) = .unknown 0x11 := by decide +kernel

theorem witness_ClassificationDefaultsAndKeeping :
    (∃ t, exec .powerOn idle = .next t) ∧ (∃ t, exec .issueOpportunity idle = .next t) ∧
    (∃ t, exec .presetHandover (presetting [classifyEntry 48, classifyEntry 48]) = .next t) ∧
    (presetting [classifyEntry 48]).loader.presets[(presetting [classifyEntry 48]).loader.statuses.length]? =
      some (classifyEntry 48) ∧
    decodeEntry (commandPart (classifyEntry 48)) = .classifySetup ⟨16, 60, 40, 48, 96, 160, 500⟩ :=
  ⟨⟨_, rfl⟩, ⟨_, rfl⟩, ⟨_, rfl⟩, rfl, by decide +kernel⟩

/-! ### Motion, marking and the bay clock -/

/-- Strand 0 changed by `f`. -/
def strandWith (f : Strand → Strand) (s : State) : State := s.setStrand 0 (f (s.strand 0))

/-- Strand 0 at a coordinate with a debt. -/
def at_ (coord debt : Nat) (s : State) : State :=
  strandWith (fun t => { t with motion := { t.motion with coord := coord, debt := debt } }) s

/-- The last increment's sample of strand 0 shows the pair `p`, and the cut level `high`. -/
def shows (p : Pair) (s : State) : State :=
  strandWith (fun t => { t with motion := { t.motion with pairDue := some p } }) s

def showsCut (high : Bool) (s : State) : State :=
  strandWith (fun t => { t with motion := { t.motion with cutDue := some high } }) s

/-- The marker queue of strand 0 holds marks at these fire coordinates. -/
def marks (fires : List Nat) (s : State) : State :=
  s.modMarker 0 fun m => { m with queue := fires.map fun f => ⟨f, 0, 1, f - 50, 2⟩ }

/-- R38, R41: the step that clears the debt re-arms the report. -/
theorem test_forward_repays :
    let s := strandWith (fun t => { t with motion := { t.motion with debt := 1, reportArmed := false } }) ready
    ((after (exec (.forwardStep 0 ⟨true, false⟩) (shows ⟨true, false⟩ s))).strand 0).motion =
      ⟨⟨true, false⟩, 0, 0, true, 0, false, none, none⟩ := by decide +kernel

/-- R127, R128: the advance to the fire coordinate fires the head. -/
theorem test_forward_fires :
    let t := after (exec (.forwardStep 0 ⟨true, false⟩) (shows ⟨true, false⟩ (marks [150, 160] (at_ 149 0 ready))))
    (t.strand 0).marker.pulsing = true ∧ (t.strand 0).marker.lastFired = some 150 ∧
    (t.strand 0).marker.queue.length = 1 ∧ (t.strand 0).marker.fired = 1 := by decide +kernel

theorem witness_ForwardStepRepaysAdvancesOrFires :
    idle.global = .running ∧ decodePair ⟨false, false⟩ ⟨true, false⟩ = .forward ∧
    (∀ c d, let s := shows ⟨true, false⟩ (at_ c d ready)
      (s.strand 0).motion.pairDue = some ⟨true, false⟩ ∧ (s.strand 0).motion.refPair = ⟨false, false⟩ ∧
      (s.strand 0).motion.coord = c ∧ (s.strand 0).motion.debt = d) ∧
    ((marks [150] (at_ 148 0 ready)).strand 0).marker.queue.head? = some ⟨150, 0, 1, 100, 2⟩ ∧
    (let s := shows ⟨true, false⟩ (marks [150, 160] (at_ 149 0 ready))
     (s.strand 0).motion.pairDue = some ⟨true, false⟩ ∧
     decodePair (s.strand 0).motion.refPair ⟨true, false⟩ = .forward ∧ (s.strand 0).motion.debt = 0 ∧
     (s.strand 0).motion.coord < 2 ^ 40 - 1 ∧ (s.strand 0).marker.pulsing = false ∧
     (s.strand 0).marker.queue = ⟨150, 0, 1, 100, 2⟩ :: [⟨160, 0, 1, 110, 2⟩] ∧
     150 ≤ (s.strand 0).motion.coord + 1) := by
  refine ⟨rfl, rfl, fun c d => ?_, by decide +kernel, by decide +kernel⟩
  simp [shows, at_, strandWith, ready, Strand.initial, Motion.initial]

/-- The record of the entry that fires, in a queued job of its strand and in the job being written. -/
theorem witness_ForwardStepRepaysAdvancesOrFires_records :
    let s := shows ⟨true, false⟩ (marks [150] (at_ 149 0 ready))
    let j : Job := { job with billet := { job.billet with strand := 0 }, group := [record 100 2] }
    let s := { s with report := { s.report with jobs := [j], writer := .writing [.defect (record 100 2)] 1 } }
    (s.strand 0).marker.queue = ⟨150, 0, 1, 100, 2⟩ :: [] ∧ (record 100 2).isNamed 0 1 100 = true ∧
    j.billet.strand = 0 ∧ s.report.writer = .writing [.defect (record 100 2)] 1 ∧ ready.report.writer = .idle := by
  decide +kernel

theorem witness_CoordinateNeverFalls :
    Instr.forwardStep 0 ⟨true, false⟩ ≠ .powerOn ∧ Instr.forwardStep 0 ⟨true, false⟩ ≠ .resetLineAssert ∧
    (∃ t, exec (.forwardStep 0 ⟨true, false⟩) (shows ⟨true, false⟩ idle) = .next t) ∧
    ((after (exec (.forwardStep 0 ⟨true, false⟩) (shows ⟨true, false⟩ idle))).strand 0).motion.coord = 1 :=
  ⟨nofun, nofun, ⟨_, rfl⟩, by decide +kernel⟩

/-- R39, R41: the step that brings the debt to REVERSE_LIMIT 2 is reported, once. -/
theorem test_reverse :
    let t := after (exec (.reverseStep 0 ⟨false, true⟩) (shows ⟨false, true⟩ (at_ 700 1 ready)))
    t.report.events = [.reverseTravel 0 700 2 0] ∧ (t.strand 0).motion.reportArmed = false ∧
    (t.strand 0).motion.coord = 700 := by decide +kernel

theorem witness_ReverseStepRaisesDebt :
    (∀ d, let s := shows ⟨false, true⟩ (at_ 700 d ready)
      s.global = .running ∧ (s.strand 0).motion.pairDue = some ⟨false, true⟩ ∧
      decodePair (s.strand 0).motion.refPair ⟨false, true⟩ = .reverse ∧ (s.strand 0).motion.debt = d ∧
      (s.strand 0).motion.reportArmed = true ∧ (s.strand 0).setup = some strandSettings ∧
      s.report.events.length < 16) ∧
    0 + 1 < strandSettings.reverseLimit ∧ strandSettings.reverseLimit ≤ 1 + 1 := by
  refine ⟨fun d => ?_, by decide, by decide⟩
  simp [shows, at_, strandWith, ready, idle, State.reset, Strand.initial, Motion.initial, ReportUnit.initial,
    decodePair, forwardPair]

/-- R40: both channels changed. -/
theorem test_encoder_error : ((after (exec (.encoderError 0 ⟨true, true⟩) (shows ⟨true, true⟩ ready))).strand 0).motion =
    ⟨⟨true, true⟩, 0, 0, true, 1, false, none, none⟩ := by decide +kernel

theorem witness_EncoderErrorCountsAndTakesPair :
    let s := shows ⟨true, true⟩ ready
    s.global = .running ∧ (s.strand 0).motion.pairDue = some ⟨true, true⟩ ∧
    decodePair (s.strand 0).motion.refPair ⟨true, true⟩ = .error := by decide +kernel

/-- R114: at coordinate 100 the boundary is the open billet's start. R45, R114, log 39: a bay reset with KEEP at
coordinate 999, then the cut of the sample taken before it. With CUT_DIST 100 it is refused; with CUT_DIST 0 it is refused
unless the sample also advances. -/
theorem test_cut_after_bay_reset :
    (after (exec (.cutEvent 0) (showsCut true (at_ 100 0 ready)))).report.events = [.cutRefused 0 100 100 0 0] ∧
    let cut (dist : Nat) (p : Pair) : State :=
      let s := showsCut true (shows p (at_ 999 0 ready))
      let s := inExec (entry 0x10 0 [1]) (s.setStrand 0 { s.strand 0 with setup := some { strandSettings with cutDist := dist } })
      after (exec (.cutEvent 0) (after (exec .bayReset s)))
    (cut 100 ⟨true, false⟩).report.events = [.cutRefused 0 1000 100 999 0] ∧
    (cut 0 ⟨false, false⟩).report.events = [.cutRefused 0 999 0 999 0] ∧
    (cut 0 ⟨true, false⟩).report.jobs.map (fun j => (j.billet.start, j.billet.stop)) = [(999, 1000)] := by decide +kernel

/-- R114, R121, R44: at coordinate 999 with CUT_DIST 100, a step forward in the same sample, the billet closes at 900 and
the next one opens there. R83, R92 to R98, R101: at boundary 15 the head of a track from 10 to 20 ends at 14 and joins the
group by CUT, a split head: L 4, Wd floor(3 × 500 ÷ 100) = 15, TRANSVERSE, Peak 90 gives grade 1, LATE at coordinate 115 for
its fire coordinate 60. R94: with Lines 0 it is noise of the billet being closed. -/
theorem test_cut :
    (let t := after (exec (.cutEvent 0) (showsCut true (shows ⟨true, false⟩ (at_ 999 0 ready))))
     (t.strand 0).billet.current = ⟨2, 900, false, false, false, [], 0, 0, 0⟩ ∧
     t.report.jobs.map (fun j => (j.billet.serial, j.billet.start, j.billet.stop, j.billet.length)) =
       [(1, 0, 900, 900)]) ∧
    (let job (lines : Nat) := (after (exec (.cutEvent 0) (showsCut true (at_ 115 0
       (open_ [{ track with lines := lines }] (laneIn .tracking ready)))))).report.jobs.getLast?
     (job 4).map (·.group) = some [{ record 10 1 with
       serial := 7, cls := .transverse, stop := 14, length := 4, width := 15, colMin := 3, colMax := 5, lines := 4, peak := 90
       sum := 300, reason := .cut, splitHead := true, mark := .late }] ∧
     (job 0).map (fun j => (j.billet.noise, j.group.length)) = some (1, 0)) := by decide +kernel

theorem test_cut_fall :
    ((after (exec (.cutInputFall 0) (showsCut false (strandWith (fun t => { t with
      motion := { t.motion with cutHigh := true } }) ready)))).strand 0).motion.cutHigh = false := by decide +kernel

theorem witness_CutInputFallsAndRefusedCuts :
    (((ready.strand 0).motion.pairDue, (ready.strand 0).motion.refPair) = (none, ⟨false, false⟩) ∧
      [⟨false, false⟩, ⟨true, false⟩, ⟨false, true⟩, ⟨true, true⟩].map (fun p => (((shows p ready).strand 0).motion.pairDue,
        decodePair ((shows p ready).strand 0).motion.refPair p)) = [(some ⟨false, false⟩, .noChange),
          (some ⟨true, false⟩, .forward), (some ⟨false, true⟩, .reverse), (some ⟨true, true⟩, .error)]) ∧
    (idle.global = .running ∧ ((showsCut false idle).strand 0).motion.cutDue = some false) ∧
    (let s := showsCut true idle
     s.global = .running ∧ (s.strand 0).motion.cutHigh = false ∧ (s.strand 0).motion.cutDue = some true ∧
     (s.strand 0).motion.pairDue = none ∧ (s.strand 0).setup = none) ∧
    (let s := showsCut true (at_ 99 0 ready)
     s.global = .running ∧ (s.strand 0).motion.cutHigh = false ∧ (s.strand 0).motion.cutDue = some true ∧
     (s.strand 0).motion.pairDue = none ∧ (s.strand 0).setup = some strandSettings ∧
     s.report.events.length < 16 ∧ (s.strand 0).motion.coord < strandSettings.cutDist) ∧
    (let s := showsCut true (at_ 100 0 ready)
     (s.strand 0).motion.cutHigh = false ∧ (s.strand 0).setup = some strandSettings ∧
     (s.strand 0).motion.coord - strandSettings.cutDist ≤ (s.strand 0).billet.current.start) := by decide +kernel

theorem witness_AcceptedCutClosesBillet :
    let s := showsCut true (at_ 101 0 ready)
    s.global = .running ∧ (s.strand 0).motion.cutHigh = false ∧ (s.strand 0).motion.cutDue = some true ∧
    (s.strand 0).motion.pairDue = none ∧ (s.strand 0).setup = some strandSettings ∧
    strandSettings.cutDist ≤ (s.strand 0).motion.coord ∧
    (s.strand 0).billet.current.start < (s.strand 0).motion.coord - strandSettings.cutDist ∧
    s.report.jobs.length < 8 := by decide +kernel

/-- The same with 8 jobs queued, without a held fault and with one, and with a pending list in key order. -/
theorem witness_AcceptedCutClosesBillet_jobs :
    let s : State := { ready with report := { ready.report with jobs := List.replicate 8 job } }
    let cut (s : State) : State := showsCut true (at_ 101 0 s)
    let listed : State := strandWith (fun t => { t with billet := { t.billet with
      waiting := [record 0 2, record 5 1] } }) ready
    (∀ u ∈ [cut s, cut (faulted s), cut listed], u.global = .running ∧ (u.strand 0).motion.cutHigh = false ∧
      (u.strand 0).motion.cutDue = some true ∧ (u.strand 0).motion.pairDue = none ∧
      (u.strand 0).setup = some strandSettings ∧ strandSettings.cutDist ≤ (u.strand 0).motion.coord ∧
      (u.strand 0).billet.current.start < (u.strand 0).motion.coord - strandSettings.cutDist) ∧
    (cut s).report.jobs.length = 8 ∧ (cut s).report.fault = .none ∧ (cut (faulted s)).report.fault ≠ .none ∧
    ((cut listed).strand 0).billet.waiting.Pairwise (fun a d => a.keyLt d = true) ∧ (cut listed).report.jobs.length < 8 := by
  decide +kernel

/-- R118: at boundary 10 a run that ends there goes, one that spans it begins there, APPROX as it was, a later one stands. -/
theorem test_trim_runs :
    trimRuns 10 [⟨0, 10, false⟩, ⟨8, 11, true⟩, ⟨10, 20, false⟩] = [⟨10, 11, true⟩, ⟨10, 20, false⟩] := by decide

/-- The same at boundary 15 and at boundary 10, with a track of lane 0 from 10 to 20: it lies below the first only. -/
theorem witness_AcceptedCutClosesBillet_tracks :
    let s (coord : Nat) := showsCut true (at_ coord 0 (open_ [track] (laneIn .tracking ready)))
    (let n := ((allLanes.filter fun i => decide (((s 115).lane i).binding = some 0)).map fun i =>
       ((s 115).lane i).table.tracks.countP fun x => decide (x.start < 15)).sum
     n = 1 ∧ ((s 115).strand 0).billet.current.osc + n ≤ 65535 ∧ ((s 115).strand 0).billet.current.noise + n ≤ 65535) ∧
    ∀ i, ((s 110).lane i).binding = some 0 → ∀ x ∈ ((s 110).lane i).table.tracks, 10 ≤ x.start := by decide +kernel

/-- R129: at 2 ms the pulse ends and the unit is IDLE. -/
theorem test_pulse_end :
    ((after (exec (.pulseEnd 0) (pulsing 2000 ready))).strand 0).marker.pulsing = false ∧
    ((after (exec (.pulseEnd 0) (pulsing 1999 ready))).strand 0).marker.pulsing = true := by decide +kernel

/-- R129: a head more than MARK_LATE_MAX behind is late, the next one fires. -/
theorem test_pulse_end_late :
    let t := after (exec (.pulseEnd 0) (pulsing 2000 (marks [150, 170] (at_ 175 0 ready))))
    (t.strand 0).marker.late = 1 ∧ (t.strand 0).marker.lastFired = some 170 ∧ (t.strand 0).marker.pulsing = true := by
  decide +kernel

theorem witness_PulseEndIdlesOrFires :
    (let s := pulsing 1999 ready
     s.global = .running ∧ (s.strand 0).marker.settings = some marking ∧ (s.strand 0).marker.pulsing = true ∧
     (s.clock + 2 ^ 48 - (s.strand 0).marker.pulseStart) % 2 ^ 48 < 1000 * marking.pulse) ∧
    (let s := pulsing 2000 (marks [150] (at_ 149 0 ready))
     (s.strand 0).marker.settings = some marking ∧ (s.strand 0).marker.pulsing = true ∧
     1000 * marking.pulse ≤ (s.clock + 2 ^ 48 - (s.strand 0).marker.pulseStart) % 2 ^ 48 ∧
     (s.strand 0).marker.queue.head? = some ⟨150, 0, 1, 100, 2⟩ ∧ (s.strand 0).motion.coord < 150) ∧
    (let s := pulsing 2000 (marks [150] (at_ 160 0 ready))
     (s.strand 0).marker.settings = some marking ∧ (s.strand 0).marker.pulsing = true ∧
     (s.strand 0).marker.queue = ⟨150, 0, 1, 100, 2⟩ :: [] ∧ 150 ≤ (s.strand 0).motion.coord ∧
     (s.strand 0).motion.coord ≤ 150 + marking.lateMax) ∧
    (let s := pulsing 2000 (marks [150] (at_ 161 0 ready))
     (s.strand 0).marker.settings = some marking ∧ (s.strand 0).marker.pulsing = true ∧
     (s.strand 0).marker.queue = ⟨150, 0, 1, 100, 2⟩ :: [] ∧ 150 + marking.lateMax < (s.strand 0).motion.coord) := by
  decide +kernel

/-- R125: the fire coordinate of a record at 100 is 150. -/
theorem witness_OfferedRecordIsJudged :
    (record 100 2).start + marking.dist = 150 ∧ marking.holdoff = 5 ∧ marking.lateMax = 10 ∧
    (∃ e ∈ ((marks [154] (at_ 0 0 ready)).strand 0).marker.queue, 150 < e.fire + 5 ∧ e.fire < 150 + 5) ∧
    (let m := ((marks [155] (at_ 161 0 ready)).strand 0).marker
     ¬ ((∃ e ∈ m.queue, 150 < e.fire + 5 ∧ e.fire < 150 + 5) ∨ m.lastFired.isSome) ∧
     150 + 10 < ((marks [155] (at_ 161 0 ready)).strand 0).motion.coord) ∧
    (let s := marks (List.replicate 16 1000) (at_ 160 0 ready)
     ¬ ((∃ e ∈ (s.strand 0).marker.queue, 150 < e.fire + 5 ∧ e.fire < 150 + 5) ∨ (s.strand 0).marker.lastFired.isSome) ∧
     (s.strand 0).motion.coord ≤ 150 + 10 ∧ 16 ≤ (s.strand 0).marker.queue.length) ∧
    (let s := marks [145] (at_ 149 0 ready)
     ¬ ((∃ e ∈ (s.strand 0).marker.queue, 150 < e.fire + 5 ∧ e.fire < 150 + 5) ∨ (s.strand 0).marker.lastFired.isSome) ∧
     (s.strand 0).motion.coord < 150) ∧
    (let s := marks [155] (at_ 150 0 ready)
     (s.strand 0).marker.pulsing = false ∧ 150 ≤ (s.strand 0).motion.coord ∧ (s.strand 0).marker.lastFired = none ∧
     (s.strand 0).marker.queue.head? = some ⟨155, 0, 1, 105, 2⟩ ∧ 150 < 155) := by decide +kernel

/-- R34, R36: in LOADING the samples become the reference pairs; the clock wraps. -/
theorem test_clock :
    let v : Vector Sample 6 := Vector.replicate 6 ⟨⟨true, true⟩, true⟩
    let t := after (exec (.bayClockIncrement v) { State.reset with clock := 2 ^ 48 - 1 })
    t.clock = 0 ∧ (t.strand 5).motion.refPair = ⟨true, true⟩ ∧ (t.strand 5).motion.cutHigh = true := by decide +kernel

/-- R36, R129: what the last increment left comes about first (strand 0 steps forward, its pulse of 2 ms ends), then the
new samples are held. -/
theorem test_clock_running :
    let v : Vector Sample 6 := Vector.replicate 6 ⟨⟨true, true⟩, true⟩
    let t := after (exec (.bayClockIncrement v) (pulsing 2000 (shows ⟨true, false⟩ (at_ 7 0 ready))))
    t.clock = 2001 ∧ (t.strand 0).motion = ⟨⟨true, false⟩, 8, 0, true, 0, false, some ⟨true, true⟩, some true⟩ ∧
    (t.strand 0).marker.pulsing = false := by decide +kernel

theorem witness_ClockIncrementSamplesWhileNotRunning :
    (ready.global = .running ∧ ∀ k, (ready.strand k).motion.pairDue = none ∧ (ready.strand k).motion.cutDue = none ∧
      (ready.strand k).marker.pulsing = false) ∧
    (let s := pulsing 2000 (shows ⟨true, false⟩ (at_ 7 0 ready))
     s.global = .running ∧ (s.strand 0).motion.pairDue = some ⟨true, false⟩ ∧
     decodePair (s.strand 0).motion.refPair ⟨true, false⟩ = .forward ∧ (s.strand 0).motion.debt = 0 ∧
     (s.strand 0).motion.coord < 2 ^ 40 - 1 ∧ (s.strand 0).marker.settings = some marking ∧
     (s.strand 0).marker.pulsing = true ∧
     1000 * marking.pulse ≤ (s.clock + 2 ^ 48 - (s.strand 0).marker.pulseStart) % 2 ^ 48) ∧
    { State.reset with global := .held }.global = .held ∧ State.reset.global = .loading ∧
    { State.reset with global := .passOnly }.global = .passOnly := by decide +kernel

/-- What an increment finds due of strand 0: each showing of a pair, no level, a low one, a high one at HIGH and a rise. -/
theorem witness_ClockIncrementSamplesWhileNotRunning_due :
    let due (p : Pair) : State := shows p ready
    let level (high was : Bool) : State := showsCut high (strandWith (fun t => { t with
      motion := { t.motion with cutHigh := was } }) ready)
    (ready.global = .running ∧ (ready.strand 0).motion.pairDue = none ∧ (ready.strand 0).motion.cutDue = none) ∧
    ([⟨false, false⟩, ⟨true, false⟩, ⟨false, true⟩, ⟨true, true⟩].map (fun p => (((due p).strand 0).motion.pairDue,
      decodePair ((due p).strand 0).motion.refPair p)) = [(some ⟨false, false⟩, .noChange),
        (some ⟨true, false⟩, .forward), (some ⟨false, true⟩, .reverse), (some ⟨true, true⟩, .error)]) ∧
    [level false true, level true true, level true false].map (fun s =>
      (s.global, (s.strand 0).motion.cutDue, (s.strand 0).motion.cutHigh, (s.strand 0).motion.pairDue)) =
      [(.running, some false, true, none), (.running, some true, true, none), (.running, some true, false, none)] := by
  decide +kernel

theorem witness_ClockMovesOnlyAtItsEvents :
    let v : Vector Sample 6 := Vector.replicate 6 ⟨⟨true, true⟩, true⟩
    (∃ t, exec .powerOn idle = .next t) ∧ (∃ t, exec (.bayClockIncrement v) idle = .next t) ∧ idle.global ≠ .held ∧
    (∃ t, exec (.bayClockIncrement v) { State.reset with global := .held } = .next t) ∧
    (∃ t, exec .issueOpportunity idle = .next t) :=
  ⟨⟨_, rfl⟩, ⟨_, rfl⟩, nofun, ⟨_, rfl⟩, ⟨_, rfl⟩⟩

/-! ### Lines, tracks and records -/

/-- Lane 0 in `st` with a line in processing whose column 0 reads 100 and whose others read 0; MIN_ADVANCE 0. -/
def lineReady (st : LaneState) : State :=
  (laneIn st ready).modCapture 0 fun c => { c with
    assembler := .complete 0
    bufA := .processing { line with bytes := [(0, 100)] } ⟨detect, [], [⟨0, 63, .face⟩], 64, .linear, 500⟩
    nextSeq := 2, arming := 1 }

/-- R60, R139, R27: the first line of an ARMED lane seeds the background (16 times the reading), takes the lane to
SEEDING and makes a SEED trailer. -/
theorem test_first_line :
    let t := after (exec (.lineProcessed 0) (lineReady .armed))
    (t.lane 0).detection.background = [(0, 1600)] ∧ (t.lane 0).control.state = .seeding ∧
    (t.lane 0).control.seed = 1 ∧ (t.lane 0).capture.counters.processed = 1 ∧
    t.path.injected.map (·.req) = [trailerWrite geo line .seed 0 64 false true] := by decide +kernel

/-- R139: in TRACKING the line of a lane whose background is 0 is OBSCURED everywhere and covers nothing. R76 to R78, R100:
the track whose Gap then passes GAP_LINES closes, and its record joins the pending list. -/
theorem test_obscured_line :
    let t := after (exec (.lineProcessed 0) (open_ [{ track with gap := 2 }] (lineReady .tracking)))
    (t.lane 0).runs = [] ∧ (t.lane 0).detection.segments = [] ∧ (t.lane 0).control.state = .tracking ∧
    (t.lane 0).table.tracks = [] ∧
    (t.strand 0).billet.waiting.map (fun d => (d.serial, d.start, d.stop, d.reason)) = [(7, 10, 20, .gap)] := by
  decide +kernel

/-- Lane 0 as `lineReady` in `st`, its buffer B `b`, with 16 injected requests held. -/
def crowded (st : LaneState) (b : Buffer) : State :=
  queues [] (List.replicate 16 (injected (some 0))) ((lineReady st).modCapture 0 fun c => { c with bufB := b })

/-- R24 step 4, R32: the processed line's buffer is FREE and the ASSEMBLING line stands; a WAITING line is taken into
processing, in STOPPING discarded. R3, R27: with 16 requests held the lane waits with its trailer. -/
theorem test_line_buffers :
    let t (st : LaneState) (b : Buffer) : Lane := (after (exec (.lineProcessed 0) (crowded st b))).lane 0
    let next : Line := { line with seq := 2 }
    ((t .tracking (.assembling next)).capture.bufA = .free ∧
      (t .tracking (.assembling next)).capture.bufB = .assembling next ∧
      (t .tracking (.waiting next)).capture.bufB = .processing next ((lineReady .tracking).lane 0).settingsCopy ∧
      (t .stopping (.waiting next)).capture.bufB = .free) ∧
    ((after (exec (.lineProcessed 0) (crowded .tracking .free))).path.waitList = [.lane 0] ∧
      (t .tracking .free).capture.trailers.length = 1) := by decide +kernel

theorem witness_LineProcessedActsOnTheLane :
    let s := lineReady .tracking
    s.global = .running ∧ (s.lane 0).capture.inProcessing = some ({ line with bytes := [(0, 100)] },
      ⟨detect, [], [⟨0, 63, .face⟩], 64, .linear, 500⟩) ∧ (s.lane 0).control.geometry = some geo ∧
    (s.lane 0).control.state ≠ .stopping ∧ geo.trailers = true ∧ Room 1 s ∧ (s.lane 0).capture.trailers = [] ∧
    ((lineReady .stopping).lane 0).control.state = .stopping :=
  ⟨rfl, by decide +kernel, by decide +kernel, by decide +kernel, rfl, ⟨rfl, by decide⟩, by decide +kernel,
    by decide +kernel⟩

/-- Lane 0 as `lineReady`, its trailers disabled. -/
theorem witness_LineProcessedActsOnTheLane_no_trailers :
    let s := untrailed (lineReady .tracking)
    s.global = .running ∧ (s.lane 0).control.geometry = some { geo with trailers := false } ∧
    (s.lane 0).capture.inProcessing.isSome = true ∧ (s.lane 0).control.state ≠ .stopping := by decide +kernel

/-- Buffer B in each role, the queue full; the lane not on the wait list and on it. -/
theorem witness_LineProcessedActsOnTheLane_buffers :
    let s : State := crowded .tracking .free
    (∀ b ∈ [Buffer.free, .assembling line, .waiting line], ∀ st ∈ [LaneState.tracking, .stopping],
      (crowded st b).global = .running ∧ ((crowded st b).lane 0).capture.inProcessing.isSome = true ∧
      ((crowded st b).lane 0).capture.bufB = b ∧ ((crowded st b).lane 0).capture.bufA.role ≠ b.role ∧
      ((crowded st b).lane 0).control.state = st ∧ ((crowded st b).lane 0).control.geometry = some geo) ∧
    geo.trailers = true ∧ Block.lane 0 ∉ s.path.waitList ∧ 16 ≤ s.path.injected.length ∧
    Block.lane 0 ∈ { s.path with waitList := [.lane 0] }.waitList := by decide +kernel

/-- A STOPPING lane with its trailers enabled and disabled, and a DISARM held on it or not. -/
theorem witness_LineProcessedActsOnTheLane_stopping :
    let s := lineReady .stopping
    let held : State := { s with command := { s.command with cond := .executing (entry 0x0A 0 []) (some (.disarm 0)) } }
    (∀ u ∈ [s, held, untrailed s], u.global = .running ∧ (u.lane 0).control.state = .stopping ∧
      (u.lane 0).capture.inProcessing.isSome = true ∧ u.path.waitList = [] ∧ u.path.injected.length + 1 ≤ 16 ∧
      (u.lane 0).capture.trailers = []) ∧
    (s.lane 0).control.geometry = some geo ∧ (held.lane 0).control.geometry = some geo ∧ geo.trailers = true ∧
    ((untrailed s).lane 0).control.geometry = some { geo with trailers := false } ∧
    s.command.cond = .idle ∧ held.command.cond = .executing (entry 0x0A 0 []) (some (.disarm 0)) := by decide +kernel

/-- A track that the line closes, and one that the drain of a STOPPING lane closes. -/
theorem witness_LineProcessedActsOnTheLane_tracks :
    let s := open_ [{ track with gap := 2 }, { track with serial := 8 }] (lineReady .stopping)
    s.global = .running ∧ (s.lane 0).control.state = .stopping ∧ (s.lane 0).control.geometry = some geo ∧
    (s.lane 0).capture.inProcessing.isSome = true ∧
    (((s.lane 0).table.line detect 30 0 false []).2.map (·.serial),
      ((s.lane 0).table.line detect 30 0 false []).1.tracks.map (·.serial)) = ([7], [8]) := by decide +kernel

theorem witness_LineProcessedAdvancesLaneState :
    (∀ st, (lineReady st).global = .running ∧ ((lineReady st).lane 0).control.geometry = some geo ∧
      ((lineReady st).lane 0).control.state = st ∧ ((lineReady st).lane 0).capture.RolesDiffer ∧
      ((lineReady st).lane 0).capture.inProcessing = some ({ line with bytes := [(0, 100)] },
        ⟨detect, [], [⟨0, 63, .face⟩], 64, .linear, 500⟩) ∧ (lineReady st).report.events.length < 16) := by
  intro st
  refine ⟨rfl, ?_, ?_, ?_, ?_, Nat.zero_lt_succ 15⟩ <;>
    simp [lineReady, laneIn, Lane.initial, Capture.initial, Capture.inProcessing, Capture.RolesDiffer, Buffer.role]

/-- The same with 16 events queued, without a held fault and with one; the line of the first changes the state, a STOPPING
lane's too, and that of the third does not. -/
theorem witness_LineProcessedAdvancesLaneState_events :
    let full (s : State) : State := { s with report := { s.report with
      events := List.replicate 16 (.cutRefused 0 0 0 0 0) } }
    (∀ st ∈ [LaneState.armed, .stopping, .tracking], (full (lineReady st)).report.events.length = 16 ∧
      (full (lineReady st)).report.fault = .none ∧ (full (faulted (lineReady st))).report.fault ≠ .none ∧
      ((full (lineReady st)).lane 0).capture.inProcessing.isSome = true) ∧
    (let t := after (exec (.lineProcessed 0) (full (lineReady .armed)))
     (t.lane 0).control.state ≠ .armed ∧ (t.report.lostEvents, t.report.fault, t.report.detail) = (1, .eventLost, 1)) ∧
    ((after (exec (.lineProcessed 0) (full (lineReady .tracking)))).lane 0).control.state = .tracking := by decide +kernel

theorem witness_LineProcessedAdvancesLaneState_buffers :
    let c : Capture := { Capture.initial with bufA := .waiting line, bufB := .processing line (Lane.initial.settingsCopy) }
    let l : Lane := (laneIn .tracking ready).lane 0
    (c.RolesDiffer ∧ { c with bufB := .free }.RolesDiffer) ∧
    l.control.geometry = some geo ∧ l.control.detect = some detect ∧ l.control.zones = some [⟨0, 63, .face⟩] := by
  refine ⟨⟨?_, ?_⟩, ?_⟩
  · simp [Capture.RolesDiffer, Buffer.role]
  · simp [Capture.RolesDiffer, Buffer.role]
  · simp [laneIn, Lane.initial]

/-- R143, R154: the held DISARM of lane 0 retires with DONE when the line of the STOPPING lane is processed. -/
theorem test_held_disarm_retires :
    let s := inExec (entry 0x0A 0 []) (lineReady .stopping)
    let t := after (exec (.lineProcessed 0) { s with command := { s.command with
      cond := .executing (entry 0x0A 0 []) (some (.disarm 0)) } })
    t.command.consumer = 1 ∧ t.command.cond = .idle ∧
    t.report.events = [.laneState 0 (some 0) .stopping .off .stopped 1 0] := by decide +kernel

theorem witness_LineProcessedAdvancesLaneState_held :
    let s := inExec (entry 0x0A 0 []) (lineReady .stopping)
    { s.command with cond := .executing (entry 0x0A 0 []) (some (.disarm 0)) }.cond =
      .executing (entry 0x0A 0 []) (some (.disarm 0)) ∧
    (s.lane 0).control.state = .stopping ∧ s.report.events.length < 16 ∧
    ∀ e, s.command.cond ≠ .executing e (some (.disarm 0)) := by
  refine ⟨rfl, by decide +kernel, by decide, fun e h => ?_⟩
  cases h

theorem witness_LaneStateChangesAreListed :
    (∃ t, exec (.lineProcessed 0) (lineReady .armed) = .next t) ∧ legalChange .armed .seeding = true ∧
    legalChange .off .tracking = false := ⟨⟨_, rfl⟩, rfl, rfl⟩

/-- R84: its tail at a cut at 15. -/
theorem test_tail : (TrackTable.split 15 ⟨[track], 8, 0⟩).tracks =
    [⟨7, 0, 15, 20, 0, 3, 4, 3, 4, none, 0, 0, 1, 0, true, false⟩] := by decide

/-- One segment and tables in which it matches no track (with room and with 24 tracks), one track, and two. -/
theorem witness_LineProcessedActsOnTheLane_table :
    let sg : Segment := ⟨0, 3, 7, 60, 100⟩
    let far (n : Nat) : Track := { track with serial := n, r0 := 40, r1 := 41 }
    let other : Track := { track with serial := 8 }
    ((far 7).newSpan = none ∧ (far 7).matches detect.linkGap sg = false ∧ [far 7].length < 24 ∧ (far 7).serial ≠ 9) ∧
    (24 ≤ ((List.range 24).map far).length ∧ ∀ x ∈ (List.range 24).map far,
      x.newSpan = none ∧ x.matches detect.linkGap sg = false) ∧
    (track.newSpan = none ∧ track.matches detect.linkGap sg = true ∧ [far 9, track, far 10] = [far 9] ++ track :: [far 10] ∧
      ∀ y ∈ [far 9] ++ [far 10], y.matches detect.linkGap sg = false ∧ y.serial ≠ track.serial) ∧
    (other.matches detect.linkGap sg = true ∧ other.serial ≠ track.serial ∧
      [far 9, track, other] = [far 9] ++ track :: [] ++ other :: []) := by decide +kernel

/-- One segment on a table half through a line: room for a new track, with the next serial held; 24 tracks, one of them
of this line; a track that this line has extended, with a younger one to be merged into it. -/
theorem witness_LineProcessedActsOnTheLane_segments :
    let sg : Segment := ⟨0, 3, 7, 60, 100⟩
    let far (n : Nat) : Track := { track with serial := n, r0 := 40, r1 := 41 }
    let fresh : Track := openTrack 8 30 0 false ⟨0, 0, 1, 60, 100⟩
    let grown : Track := { track with newSpan := some (1, 2) }
    (let m : LineTable := ⟨[far 9], [fresh], 8, 0⟩
     (∀ x ∈ m.old, x.matches 1 sg = false) ∧ m.old.length + m.fresh.length < 24 ∧
     (m.take 1 30 0 false sg).fresh.map (·.serial) = [8, 10]) ∧
    (let m : LineTable := ⟨(List.range 23).map far, [fresh], 8, 0⟩
     (∀ x ∈ m.old, x.matches 1 sg = false) ∧ 24 ≤ m.old.length + m.fresh.length) ∧
    (let m : LineTable := ⟨[far 9, grown, { track with serial := 8 }, far 10], [fresh], 11, 0⟩
     m.old = [far 9] ++ grown :: [{ track with serial := 8 }, far 10] ∧ grown.matches 1 sg = true ∧
     (∀ y ∈ [far 9], y.matches 1 sg = false) ∧ { track with serial := 8 }.matches 1 sg = true) := by decide +kernel

/-- R71's own segments against a reference 10 to 12; R26 at the reference and at MIN_ADVANCE beyond it, at MIN_ADVANCE 0, and
with the reference unset; R27 in STOPPING. -/
theorem witness_LineProcessedActsOnTheLane_judgements :
    (let x : Track := { track with r0 := 10, r1 := 12 }
     x.r0 ≤ x.r1 ∧ x.matches 1 ⟨0, 10, 12, 60, 100⟩ = true ∧ x.matches 1 ⟨0, 14, 15, 60, 100⟩ = false ∧
     x.matches 2 ⟨0, 14, 15, 60, 100⟩ = true ∧ x.matches 2 ⟨1, 14, 15, 60, 100⟩ = false ∧ 14 ≤ 15) ∧
    [judgeStationary 5 30 (some 30), judgeStationary 5 34 (some 30), judgeStationary 5 35 (some 30),
      judgeStationary 0 30 (some 30), judgeStationary 5 30 none] = [true, true, false, false, false] ∧
    (let c : Control := { Control.initial with state := .stopping, stateLeft := some .test }
     c.state = .stopping ∧ c.stateLeft = some .test ∧ processedStatus c.governing false = .test ∧
     processedStatus c.governing true = .stationary) ∧
    processedStatus .seeding false = .seed ∧ processedStatus .parked false = .ok := by decide +kernel

theorem witness_TailOfSplitKeepsPlace :
    (⟨[track], 8, 0⟩ : TrackTable).tracks[0]? = some track ∧ 10 ≤ track.start ∧ track.start < 11 := by decide

/-- The table after a line at 21 with segments over these columns, LINK_GAP 2. -/
def lineOver (tracks : List Track) (segs : List (Nat × Nat)) : TrackTable :=
  (TrackTable.line ⟨tracks, 9, 0⟩ { detect with linkGap := 2 } 21 0 false (segs.map fun c => ⟨0, c.1, c.2, 60, 100⟩)).1

/-- The serial, merged count, Lines and reference span of each track. -/
def shape (m : TrackTable) : List (List Nat) :=
  m.tracks.map fun t => [t.serial, t.merged, t.lines, t.r0, t.r1]

/-- A younger track to the right of `track`. -/
def right : Track := { track with serial := 8, r0 := 8, r1 := 20 }

/-- 22 tracks of another zone. -/
def others : List Track := (List.range 22).map fun n => { track with serial := 100 + n, zone := 1, lines := 9 }

/-- Lines of more than one segment. R75: two segments on one track extend it once, over the columns between them. R71: a
segment is not matched on a track of its own line. R74: one segment joins two tracks, and a later one in reach of the merged
track goes to the survivor. R72: the entry that the merge frees in a full table takes a new track. -/
theorem test_merge :
    shape (lineOver [track] [(1, 1), (6, 6)]) = [[7, 0, 5, 1, 6]] ∧
    shape (lineOver [] [(10, 12), (14, 15)]) = [[9, 0, 1, 10, 12], [10, 0, 1, 14, 15]] ∧
    shape (lineOver [track, right] [(5, 7), (22, 22)]) = [[7, 1, 9, 5, 22]] ∧
    (shape (lineOver (track :: right :: others) [(5, 7), (40, 41)])).drop 23 = [[9, 0, 1, 40, 41]] ∧
    (lineOver (track :: right :: others) [(5, 7), (40, 41)]).trackFull = 0 ∧
    (lineOver (track :: right :: others) [(40, 41), (5, 7)]).trackFull = 1 := by decide +kernel

/-- The beats numbered `ns` of a slot, every byte enabled, at the places of a write from 0 on. -/
def beatsOf (slot : Nat) (ns : List Nat) : List RingBeat := ns.zipIdx.map fun (n, p) => ⟨slot, n, p, allBytes⟩

/-- A write of zeros over lane 0 with its line capture unit changed by `f`. -/
def taking (f : Capture → Capture) : TakeAcc := ⟨(laneIn .tracking ready).modCapture 0 f, zeroBytes 192, []⟩

/-- Slot 0 is current, its line as yet without a beat in buffer A. -/
def assembling0 (c : Capture) : Capture :=
  { c with assembler := .assembling 0, bufA := .assembling { line with coverage := [] } }

/-- R31: a part out of sequence that also writes padding is counted once; padding beside data that counts for nothing is
counted, in a DISCARDING slot too (log 41), whose data alone is not (R18). -/
theorem test_part_counted_once :
    let count (a : TakeAcc) := (a.s.lane 0).capture.counters.outOfSeq
    count (handlePart 0 geo (taking assembling0) (2, beatsOf 2 [1, 5])) = 1 ∧
    count (handlePart 0 geo (taking assembling0) (0, beatsOf 0 [1, 5])) = 1 ∧
    count (handlePart 0 geo (taking fun c => { c with assembler := .discarding 0 }) (0, beatsOf 0 [1, 5])) = 1 ∧
    count (handlePart 0 geo (taking fun c => { c with assembler := .discarding 0 }) (0, beatsOf 0 [1])) = 0 := by
  decide +kernel

/-- The parts of the second half: written data beats of a DISCARDING slot; of an ASSEMBLING one, not all or all of its beats,
with the detection unit idle and busy, and of a line marked MEM_ERROR. -/
theorem witness_PartsStartFillOrResyncLines_current :
    (beatsOf 0 [0] ≠ [] ∧ ∀ x ∈ beatsOf 0 [0, 1, 2, 3], x.written = true ∧ x.index < geo.w / 16) ∧
    ((taking fun c => { c with assembler := .discarding 0 }).s.lane 0).capture.assembler = .discarding 0 ∧
    (let c := ((taking assembling0).s.lane 0).capture
     c.assembler = .assembling 0 ∧ c.assemblingLine = some { line with coverage := [] } ∧ c.inProcessing = none ∧
     (Line.fill { line with coverage := [] } (beatsOf 0 [0]) (zeroBytes 192)).coverage.length ≠ geo.w / 16 ∧
     (Line.fill { line with coverage := [] } (beatsOf 0 [0, 1, 2, 3]) (zeroBytes 192)).coverage.length = geo.w / 16) ∧
    (let c := ((taking fun c => { assembling0 c with
        bufB := .processing line ⟨detect, [], [], 64, .linear, 500⟩ }).s.lane 0).capture
     c.assembler = .assembling 0 ∧ c.assemblingLine = some { line with coverage := [] } ∧ c.inProcessing ≠ none) ∧
    (let s := (taking assembling0).s.modCapture 0 fun c =>
       c.putAssembling (.assembling { line with coverage := [], memError := true })
     (s.lane 0).capture.assemblingLine = some { line with coverage := [], memError := true } ∧
     (Line.fill { line with coverage := [], memError := true } (beatsOf 0 [0, 1, 2, 3]) (zeroBytes 192)).coverage.length =
       geo.w / 16) := by decide +kernel

/-- Starts of a lane in TEST: some beats, and all of them with the detection unit idle and busy; a part of which the first beat
is not written. The trailers disabled, taken at once, waiting for a place, and on the wait list already. -/
theorem witness_PartsStartFillOrResyncLines_starts :
    (let s (b : Buffer) := (laneIn .test ready).modCapture 0 fun c => { c with bufB := b }
     let l (b : Buffer) := (s b).lane 0
     let busy : Buffer := .processing line ⟨detect, [], [], 64, .linear, 500⟩
     (∀ b ∈ [Buffer.free, busy], (l b).control.state = .test ∧
       partAction (l b).capture.assembler geo.n 0 true = .start ∧ (l b).capture.assemblingLine = none ∧
       (l b).capture.bufA = .free) ∧
     (l .free).capture.inProcessing = none ∧ (l busy).capture.inProcessing ≠ none ∧
     (Line.fill ⟨0, 0, 0, 0, 0, false, [], []⟩ (beatsOf 0 [0, 1, 2, 3]) []).coverage.length = geo.w / 16) ∧
    (let beats : List RingBeat := [⟨0, 0, 0, 0⟩, ⟨0, 1, 1, allBytes⟩]
     beats.Pairwise (fun a b => a.index < b.index) ∧ beats.filter (fun b => decide (b.enables ≠ 0)) ≠ beats) ∧
    (let s := laneIn .tracking ready
     let waits (l : List Block) : Path := { s.path with waitList := l }
     (s.lane 0).control.geometry = some geo ∧ geo.trailers = true ∧ s.path.waitList = [] ∧
     s.path.injected.length + 1 ≤ 16 ∧ (s.lane 0).capture.trailers = [] ∧
     ((untrailed s).lane 0).control.geometry = some { geo with trailers := false } ∧
     Block.lane 0 ∉ (waits [.command]).waitList ∧ (waits [.command]).waitList ≠ [] ∧
     Block.lane 0 ∈ (waits [.lane 0]).waitList) := by decide +kernel

/-- A part that starts a line with no current slot, one that leaves an incomplete line for the next slot, and one that resyncs;
parts out of sequence and of a COMPLETE slot; a trailer beat and padding. -/
theorem witness_PartsStartFillOrResyncLines_others :
    (let l := (taking id).s.lane 0
     partAction l.capture.assembler geo.n 0 true = .start ∧ l.capture.assemblingLine = none ∧ l.capture.bufA = .free ∧
     l.control.state ≠ .test ∧ l.control.geometry = some geo ∧
     (Line.fill ⟨0, 0, 0, 0, 0, false, [], []⟩ (beatsOf 0 [0]) []).coverage.length ≠ geo.w / 16) ∧
    (let l := (taking assembling0).s.lane 0
     partAction l.capture.assembler geo.n 1 false = .start ∧ partAction l.capture.assembler geo.n 2 true = .resync ∧
     partAction l.capture.assembler geo.n 2 false = .outOfSeq ∧
     l.capture.assemblingLine = some { line with coverage := [] } ∧ l.control.geometry = some geo ∧ geo.trailers = true ∧
     l.capture.trailers = [] ∧ (taking assembling0).s.report.events.length < 16) ∧
    Room 1 (taking assembling0).s ∧
    ((taking fun c => { c with assembler := .complete 0 }).s.lane 0).capture.assembler = .complete 0 ∧
    (let a := ((taking fun c => { c with assembler := .discarding 0 }).s.lane 0).capture.assembler
     partAction a geo.n 0 false ≠ .outOfSeq ∧ a ≠ .complete 0 ∧ geo.w / 16 < 5) ∧
    (let a := ((taking fun c => { c with assembler := .complete 0 }).s.lane 0).capture.assembler
     partAction a geo.n 1 false ≠ .outOfSeq ∧ a ≠ .complete 1) ∧
    (∀ x ∈ beatsOf 2 [1, 5], x.written = true ∧ x.index ≠ geo.w / 16) ∧ (∃ x ∈ beatsOf 2 [1, 5], x.index < geo.w / 16) ∧
    (∀ x ∈ beatsOf 0 [4], x.written = true ∧ geo.w / 16 ≤ x.index) ∧ (∃ x ∈ beatsOf 0 [4], x.index = geo.w / 16) ∧
    (∀ x ∈ beatsOf 0 [5], x.written = true ∧ geo.w / 16 ≤ x.index ∧ x.index ≠ geo.w / 16) ∧
    (line.tidy = true ∧ ((beatsOf 0 [0, 3]).map (·.index)).Nodup) := by
  refine ⟨by decide +kernel, by decide +kernel, ⟨rfl, by decide +kernel⟩, ?_⟩
  decide +kernel

/-- R17 to R20 of an assembler at slot 3 of 4; in TEST the pattern phase. -/
theorem witness_PartsStartFillOrResyncLines :
    (2 ≤ 4 ∧ 3 < 4 ∧ (3 + 1) % 4 = 0 ∧ 1 ≠ 3 ∧ 1 ≠ (3 + 1) % 4) ∧
    (Capture.initial.bufA = .free) ∧
    (let c := { Capture.initial with bufA := .waiting line }
     c.bufA ≠ .free ∧ c.bufB = .free) ∧
    (let c := { Capture.initial with bufA := .waiting line, bufB := .assembling line }
     c.bufA ≠ .free ∧ c.bufB ≠ .free) ∧
    (let l : Lane := { Lane.initial with control := { Control.initial with
       state := .test, test := some ⟨0x123, 0, 0, 1, 1, 1⟩ } }
     l.control.state = .test ∧ l.control.test = some ⟨0x123, 0, 0, 1, 1, 1⟩) := by decide

/-- R29: in TEST an enabled byte of beat 0 carries the pattern, the others what was sent. -/
theorem test_substitute :
    let l : Lane := { Lane.initial with control := { Control.initial with state := .test, test := some ⟨0x123, 0, 0, 1, 1, 1⟩ } }
    substitute l geo [⟨0, 0, 0, 3⟩] (zeroBytes 32) = [0x23, 0x01] ++ zeroBytes 30 := by decide +kernel

theorem witness_SubstitutionTouchesEnabledBytesOnly :
    ([(⟨0, 0, 0, 3⟩ : RingBeat), ⟨0, 1, 1, 0⟩].map (·.pos)).Nodup ∧ 31 < (zeroBytes 64).length ∧
    (⟨0, 0, 0, 3⟩ : RingBeat).enables.getLsbD 1 = true ∧ (⟨0, 0, 0, 3⟩ : RingBeat).enables.getLsbD 2 = false ∧
    Lane.initial.control.state ≠ .test := by decide

theorem witness_TapOrdersAreOneToOne : 64 % 2 = 0 ∧ 63 < 64 ∧ 0 < 64 ∧
    tapColumn .interleaved 64 63 = 63 ∧ tapColumn .mirrored 64 63 = 32 := by decide

/-- R61: the step from 165 towards 0 of shift 4 is floor(−165 / 16) = −11; R55 just below the background. -/
theorem test_background_falls : backgroundStep 165 0 4 = 154 ∧ backgroundStep 0 4095 1 = 32760 ∧ contrast 17 1 = 15 := by
  decide

/-- R55, R57, R61: on a background of 1,600 and 3,200, readings of 50 and 195 give contrasts floor(256 · 800 / 1600) and
floor(256 · 80 / 3200) = 6; the first is a segment and keeps its background, the second's moves by floor(−80 / 16). -/
theorem test_segment :
    detectLine ⟨detect, [], [⟨0, 1, .face⟩], 64, .linear, 500⟩ [(0, 50), (2, 195)] [(0, 1600), (1, 3200)] .detect false =
      ⟨[⟨0, 0, 0, 128, 128⟩], false, 0, false, [(0, 1600), (1, 3195)]⟩ := by decide +kernel

/-- R51 on columns 2 to 6 with columns 3 and 4 DEAD: two neighbours, a left one, a right one, none. -/
theorem witness_ContrastAndBackgroundStayInRange_repair :
    (2 ≤ 3 ∧ 2 ∉ [3, 4] ∧ (∀ j, 2 < j → j < 3 → j ∈ [3, 4]) ∧ 5 ≤ 6 ∧ 5 ∉ [3, 4] ∧ ∀ j, 3 < j → j < 5 → j ∈ [3, 4]) ∧
    (∀ e, ¬ (3 < e ∧ e ≤ 4 ∧ e ∉ [3, 4] ∧ ∀ j, 3 < j → j < e → j ∈ [3, 4])) ∧
    (∀ a, ¬ (3 ≤ a ∧ a < 4 ∧ a ∉ [3, 4] ∧ ∀ j, a < j → j < 4 → j ∈ [3, 4])) := by
  refine ⟨⟨by decide, by decide, by intro j; simp; omega, by decide, by decide, by intro j; simp; omega⟩, ?_, ?_⟩
  · rintro e ⟨h1, h2, h3, -⟩; simp at h3; omega
  · rintro a ⟨h1, h2, h3, -⟩; simp at h3; omega

/-- A line of two zones, one of them IGNORE: a column repaired, one not repairable, one saturated, one with a reading. -/
theorem witness_ContrastAndBackgroundStayInRange :
    canonical 0 [(0, 1600), (1, 3200)] = true ∧ 1 ≤ detect.tLow ∧
    (let k : Copy := ⟨detect, [3], [⟨0, 1, .face⟩, ⟨2, 2, .ignore⟩, ⟨3, 3, .corner⟩], 64, .linear, 500⟩
     (∀ z ∈ k.zones, z.first ≤ z.last) ∧ k.zones.Pairwise (fun a b => a.last < b.first) ∧
     repaired k (fun c => if c = 0 then 4095 else 50) ⟨0, 1, .face⟩ 0 = some 4095 ∧
     repaired k (fun c => if c = 0 then 4095 else 50) ⟨0, 1, .face⟩ 1 = some 50 ∧
     repaired k (fun _ => 50) ⟨3, 3, .corner⟩ 3 = none) ∧
    (0 < 16 ∧ 1 ≤ 1 ∧ 16 ≤ 16 * 1 ∧ 16 * 0 < 16) := by decide +kernel

theorem witness_CoverageRunsStayDisjoint :
    ((⟨10, 20, false⟩ : Run).stop < 21 ∧ [(⟨0, 10, false⟩ : Run)].length < 15 ∧ 20 ≤ (⟨10, 20, false⟩ : Run).stop ∧
      (List.range 13).length = 13) ∧
    1 ≤ 1 ∧ RunsDisjoint [⟨0, 10, false⟩, ⟨10, 20, false⟩] ∧ [(⟨0, 10, false⟩ : Run), ⟨10, 20, false⟩].length ≤ 16 ∧
    5 < 15 :=
  ⟨by decide, by decide, ⟨by decide, by decide⟩, by decide, by decide⟩

/-- R112: the seventeenth run merges the two oldest, whose run is approximate. -/
theorem test_runs_merge :
    (addRun 1000 5 ((List.range 16).map fun n => ⟨10 * n, 10 * n + 5, false⟩)).head? = some ⟨0, 15, true⟩ := by decide

theorem witness_ClassAndGradeFollowManual :
    (let m : Measure := ⟨30, 10, 100, true⟩; m.corner = true) ∧
    (let m : Measure := ⟨30, 10, 100, false⟩; m.corner = false ∧ 3 * m.width ≤ m.length) ∧
    (let m : Measure := ⟨10, 30, 100, false⟩; m.length < 3 * m.width ∧ 3 * m.length ≤ m.width) ∧
    (let m : Measure := ⟨11, 30, 100, false⟩; m.length < 3 * m.width ∧ m.width < 3 * m.length) ∧
    Classify.initial.g1 < Classify.initial.g2 ∧ Classify.initial.g2 < Classify.initial.g3 := by decide

/-- R92 to R98, R101: the track, 10 counts long and 3 columns wide, is MESH of grade 1; MARK_GRADE 1 offers it. -/
theorem test_grade :
    (gradeTrack 0 1 .gap false track (laneIn .tracking ready)).1.map (fun d => (d.cls, d.grade, d.length, d.width, d.mark)) =
      some (.mesh, 1, 10, 15, .queued) := by decide +kernel

/-- With the settings of `ready`: too few lines; a shallow TRANSVERSE track over the zone; a record offered, and one below
MARK_GRADE; a record with no marker settings. -/
theorem witness_ClassAndGradeFollowManual_tracks :
    let s := laneIn .tracking ready
    (s.lane 0).control.geometry = some geo ∧ (s.lane 0).control.zones = some [⟨0, 63, .face⟩] ∧
    [(⟨0, 63, .face⟩ : Zone)][track.zone]? = some ⟨0, 63, .face⟩ ∧
    (s.strand geo.strand).setup = some strandSettings ∧ track.lines < 5 ∧ 4 ≤ track.lines ∧
    (let wide := (63 - 0 + 1) * geo.pitch / 100
     classOf 3 ⟨10, wide, wide, false⟩ = .transverse ∧ 60 * wide ≤ wide * 100 ∧ 40 ≤ Classify.initial.oscPeakMax) ∧
    classOf 3 ⟨10, 15, 320, false⟩ ≠ .transverse ∧
    (s.strand 0).marker.settings = some marking ∧ marking.grade ≤ gradeOf Classify.initial .mesh 10 90 ∧
    gradeOf Classify.initial .mesh 10 47 < marking.grade ∧ (idle.strand 0).marker.settings = none ∧
    (gradeTrack 0 5 .gap false track s).1 = none ∧ (gradeTrack 0 1 .gap false track s).1.isSome = true := by
  decide +kernel

/-- A pending list of 64 records of grade 1, by start. -/
def fullList : List Defect := (List.range 64).map fun n => record n 1

theorem witness_PendingListAdmitsByGrade :
    fullList.Pairwise (fun a b => a.keyLt b = true) ∧ fullList.length = 64 ∧
    (∃ x ∈ fullList, x.sameKey (record 63 3) = true) ∧
    ((∀ x ∈ [record 1 1], x.sameKey (record 0 1) = false) ∧ [record 1 1].length < 64) ∧
    ((∀ x ∈ fullList, x.sameKey (record 64 1) = false) ∧ ∀ x ∈ fullList, (record 64 1).grade ≤ x.grade) ∧
    ((∀ x ∈ fullList, x.sameKey (record 64 2) = false) ∧ ∃ x ∈ fullList, x.grade < (record 64 2).grade) := by
  decide +kernel

/-- R109: a record of a higher grade displaces the one of the lowest grade with the greatest key. -/
theorem test_pending_displaces :
    ((insertWaiting (record 5000 2) fullList).1.getLast?.map (·.start)) = some 5000 ∧
    ((insertWaiting (record 5000 2) fullList).1.any fun d => decide (d.start = 63)) = false := by decide +kernel

/-! ### The report unit -/

/-- The report unit with this work and the ring's write index. -/
def work (jobs : List Job) (events : List Event) (index : Nat) : State :=
  { ready with report := { ready.report with jobs := jobs, events := events, writeIndex := index } }

/-- R160, R161: the billet record is written to slot 7. -/
theorem test_job_start :
    let t := after (exec .jobStart (work [job] [] 7))
    t.path.injected.map (·.req) = [recordWrite 0x200000 7 (.billet job.billet)] ∧ t.report.writeIndex = 8 ∧
    t.report.jobs = [] ∧ t.report.writer = .writing [] 1 := by decide +kernel

/-- R160: with no free slot the job is lost. -/
theorem test_job_lost :
    let t := after (exec .jobStart (work [job] [] 255))
    t.report.lostJobs = 1 ∧ t.report.fault = .reportLost ∧ t.report.detail = 4 ∧ t.report.mode = .condensed := by
  decide +kernel

/-- R162: an event goes before a job. -/
theorem test_event_start :
    let t := after (exec .eventRecordStart (work [job] [.reverseTravel 0 1 2 3] 0))
    t.path.injected.map (·.req) = [recordWrite 0x200000 0 (.event (.reverseTravel 0 1 2 3))] ∧ t.report.jobs = [job] := by
  decide +kernel

theorem witness_WriterStartsEventsThenJobs :
    (let s := work [job] [] 255
     s.global = .running ∧ s.report.settings = some report ∧ s.report.jobs = job :: [] ∧ s.report.writer = .idle ∧
     s.report.zeros = 0 ∧ freeCount s.report report = 0 ∧ s.report.fault = .none) ∧
    (let s := work [job] [] 254
     0 < freeCount s.report report ∧ s.report.events = [] ∧ job.group = [] ∧ s.path.waitList = []) ∧
    (let s := work [job] [.reverseTravel 0 1 2 3] 255
     s.report.events = .reverseTravel 0 1 2 3 :: [] ∧ freeCount s.report report = 0) ∧
    (let s := work [job] [.reverseTravel 0 1 2 3] 254
     s.report.events = .reverseTravel 0 1 2 3 :: [] ∧ 0 < freeCount s.report report ∧ s.path.injected.length + 1 ≤ 16) := by
  decide +kernel

/-- A job of two defects, at a nearly full injected queue too, and a record waiting to be written. -/
theorem witness_WriterStartsEventsThenJobs_records :
    (let s := work [{ job with group := [record 1 1, record 2 3] }] [] 7
     0 < freeCount s.report report ∧ s.report.events = [] ∧ s.path.waitList = [] ∧ s.path.injected.length ≤ 16 ∧
     s.report.writeIndex < report.size) ∧
    (List.replicate 15 (⟨entryRead 0 0, .entryRead, 0, none⟩ : InjEntry)).length ≤ 16 ∧
    (let s := { ready with report := { ready.report with writer := .writing [.defect (record 1 1)] 1 } }
     s.report.settings = some report ∧ s.report.zeros = 0 ∧ s.report.writer = .writing (.defect (record 1 1) :: []) 1) := by
  decide +kernel

theorem witness_JobPlanAccountsForEveryDefect :
    1 ≤ 1 ∧ job.billet.dropped + ({ job with group := [record 1 1, record 2 3] }).group.length ≤ 65535 ∧
    (planJob .condensed report 2 { job with group := [record 1 1, record 2 3] }).length = 2 := by decide

/-- The published producer at 10: a value of 10 is reached, one of 11 is not. -/
theorem witness_ConsumerUpdateIsClamped :
    ReportUnit.initial.settings = none ∧
    (let r : ReportUnit := { ready.report with published := 10 }
     r.settings = some report ∧ 0 < report.size ∧ r.published < report.size ∧ r.consumer < report.size ∧
     (10 % 256 + 256 - r.consumer) % 256 ≤ (r.published + 256 - r.consumer) % 256 ∧
     (r.published + 256 - r.consumer) % 256 < (11 % 256 + 256 - r.consumer) % 256) ∧
    (let r : ReportUnit := { ready.report with writeIndex := 3, consumer := 5 }
     r.writeIndex < r.consumer ∧ r.consumer < report.size ∧ freeCount r report = 1 ∧
     freeCount { r with writeIndex := 5 } report = 255) ∧
    (report.high = 16 ∧ report.low = 32 ∧ nextMode .normal 15 report = .condensed ∧ nextMode .normal 16 report = .normal ∧
     nextMode .condensed 31 report = .condensed ∧ nextMode .condensed 32 report = .normal) := by decide +kernel

theorem test_consumer_update :
    ({ ready.report with published := 10 }.consumerUpdate 266).consumer = 10 ∧
    ({ ready.report with published := 10 }.consumerUpdate 11).consumer = 10 := by decide +kernel

/-! ### Steps and invariants -/

/-- A part at work: a line in processing, requests in both queues, a record pending and marks queued. -/
def atWork : State :=
  let s := queues [passed readRequest (some 0), passed readRequest none] [injected (some 1), injected none]
    (marks [150, 160] (lineReady .tracking))
  { strandWith (fun t => { t with billet := { t.billet with waiting := [record 5 1, record 9 2] } }) s with
    pending := [.lineProcessed 0] }

theorem witness_StepRunsFrontCommand : idle.pending = [] ∧ atWork.pending ≠ [] := by decide +kernel

theorem witness_step_at_work : (∃ t, step atWork = .next t) ∧
    ((after (step atWork)).lane 0).capture.counters.processed = 1 := ⟨⟨_, rfl⟩, by decide +kernel⟩

theorem witness_StepKeepsSizes : atWork.Sized where
  pass := by decide +kernel
  injected := by decide +kernel
  clock := by decide +kernel
  jobs := by decide +kernel
  events := by decide +kernel
  suppressed := by decide +kernel
  lanes i := ⟨by revert i; decide +kernel, by revert i; decide +kernel, by revert i; decide +kernel⟩
  strands k := ⟨by revert k; decide +kernel, by revert k; decide +kernel, by revert k; decide +kernel,
    by revert k; decide +kernel⟩

theorem witness_StepKeepsListOrders : atWork.Ordered where
  lanes i := ⟨by revert i; decide +kernel, by revert i; decide +kernel, by revert i; decide +kernel,
    by revert i; decide +kernel⟩
  strands k := ⟨by revert k; decide +kernel, by revert k; decide +kernel⟩

theorem witness_StepKeepsIssuedFirst : atWork.path.IssuedFirst :=
  ⟨by unfold issuedFirst; decide +kernel, by unfold issuedFirst; decide +kernel⟩

theorem witness_StepKeepsBufferRoles : ∀ i, (atWork.lane i).capture.RolesDiffer := by
  unfold Capture.RolesDiffer; decide +kernel

theorem witness_StepKeepsBackgroundRange : atWork.Ordered ∧ ∀ i, (atWork.lane i).detection.InRange := by
  refine ⟨witness_StepKeepsListOrders, fun i c => ?_⟩
  have h : ∀ i, (atWork.lane i).detection.background = [] := by decide +kernel
  rw [h i]
  exact Nat.zero_le _

end Sys2Proof.Tests
end

/-! ### The split of a track table at an accepted cut (R79, R83, R84) -/

namespace Sys2Proof.Machine

/-- R79: a track that starts at or above the boundary is not touched. -/
theorem TrackTable.split_getElem?_of_le {b : Nat} {m : TrackTable} {n : Nat} {t : Track} (ht : m.tracks[n]? = some t)
    (hb : b ≤ t.start) : (m.split b).tracks[n]? = some t := by
  simp [TrackTable.split, ht, Nat.not_lt.mpr hb]

/-- R79, R84: the tail of a track that starts below the boundary stands in the track's place. -/
theorem TrackTable.split_getElem?_of_lt {b : Nat} {m : TrackTable} {n : Nat} {t : Track} (ht : m.tracks[n]? = some t)
    (hb : t.start < b) : (m.split b).tracks[n]? = some (t.tail b) := by
  simp [TrackTable.split, ht, hb]

/-- R79, R83: every open track that starts below the boundary gives its head. -/
theorem TrackTable.head_mem_heads {b : Nat} {m : TrackTable} {t : Track} (ht : t ∈ m.tracks) (hb : t.start < b) :
    t.head b ∈ m.heads b :=
  List.mem_map_of_mem (List.mem_filter.mpr ⟨ht, decide_eq_true hb⟩)

/-- Settles O28: a track at or above the boundary stands, one below it gives its head and leaves its tail in its place. -/
theorem tailOfSplitKeepsPlace : Obligations.TailOfSplitKeepsPlace := by
  intro b m n t ht
  refine ⟨TrackTable.split_getElem?_of_le ht, fun hb => ?_, rfl, rfl⟩
  have tail := TrackTable.split_getElem?_of_lt ht hb
  have head := TrackTable.head_mem_heads (List.mem_of_getElem? ht) hb
  exact ⟨t.tail b, tail, rfl, rfl, rfl, rfl, rfl, rfl, rfl, rfl, rfl, rfl, rfl, rfl, rfl, rfl, rfl, rfl,
    t.head b, head, rfl, rfl, hb, rfl⟩

end Sys2Proof.Machine

/-! ### What leaves the classification settings alone (R103, R104) -/

namespace Sys2Proof.Machine

section Operations

variable (s : State) (i : Fin 12) (k : Fin 6)

/-- Running through a list, each step of which leaves the settings alone, leaves them alone. -/
theorem foldl_classify {α : Type} {f : State → α → State} (h : ∀ s a, (f s a).classify = s.classify) (l : List α)
    (s : State) : (l.foldl f s).classify = s.classify := by
  induction l generalizing s with
  | nil => rfl
  | cons a l ih => exact (ih _).trans (h s a)

/-! #### Requests, events and marking -/

theorem OfStrand.classify {s t : State} (h : OfStrand k s t) : t.classify = s.classify := by rw [h.frame]

@[simp] theorem request_classify (b : Block) : (request b s).classify = s.classify := (requested_request b s).classify

@[simp] theorem retire_classify (st : Status) : (retire st s).classify = s.classify := (requested_retire st s).classify

@[simp] theorem writeZeroProducer_classify : (writeZeroProducer s).classify = s.classify :=
  (requested_writeZeroProducer s).classify

@[simp] theorem makeTrailer_classify (l : Line) (st : TrailerStatus) (n m : Nat) (a b : Bool) :
    (makeTrailer i l st n m a b s).classify = s.classify :=
  (requested_makeTrailer i l st n m a b s).classify

@[simp] theorem made_classify (b : Block) : (made b s).classify = s.classify := by cases b <;> rfl

/-- A place of the injected queue is freed; unlike `requested_serveWaiting`, at any length of the queue. -/
@[simp] theorem serveWaiting_classify : (serveWaiting s).classify = s.classify := by
  simp only [serveWaiting]
  split
  · rfl
  · split
    · rfl
    · split <;> simp

@[simp] theorem changeLaneState_classify (new : LaneState) (cause : Cause) (line : Nat) :
    (changeLaneState i new cause line s).classify = s.classify := rfl

@[simp] theorem drainTracks_classify (n : Nat) : (drainTracks i n s).classify = s.classify :=
  (marked_drainTracks i n s).classify

@[simp] theorem endDuePulse_classify : (endDuePulse k s).classify = s.classify := (marked_endDuePulse k s).classify

@[simp] theorem decodeDue_classify : (decodeDue k s).classify = s.classify := (ofStrand_decodeDue k s).classify

@[simp] theorem compareDue_classify : (compareDue k s).classify = s.classify := (ofStrand_compareDue k s).classify

@[simp] theorem finishSample_classify : (finishSample s k).classify = s.classify := (ofStrand_finishSample k s).classify

@[simp] theorem hold_classify (h : Held) : (hold h s).classify = s.classify := by
  simp only [hold]; split <;> rfl

/-! #### Line capture -/

@[simp] theorem startLine_classify (g : Geometry) (slot : Nat) : (startLine i g slot s).classify = s.classify := by
  simp only [startLine]
  split
  · rfl
  · split
    · rfl
    · simp

@[simp] theorem dropAssembling_classify (st : TrailerStatus) : (dropAssembling i st s).classify = s.classify := by
  simp only [dropAssembling]; split <;> simp

@[simp] theorem dropRunt_classify : (dropRunt i s).classify = s.classify := by
  simp only [dropRunt]; split <;> simp

@[simp] theorem countOutOfSeq_classify : (countOutOfSeq i s).classify = s.classify := rfl

@[simp] theorem countTrailerWrite_classify : (countTrailerWrite i s).classify = s.classify := rfl

@[simp] theorem enterSlot_classify (g : Geometry) (slot : Nat) (a : PartAction) :
    (enterSlot i g slot a s).classify = s.classify := by
  cases a <;> simp [enterSlot]

@[simp] theorem handOn_classify (slot : Nat) (l : Line) : (handOn i slot l s).classify = s.classify := by
  simp only [handOn]
  split
  · simp
  · split <;> rfl

@[simp] theorem fillCurrent_classify (g : Geometry) (slot : Nat) (beats : List RingBeat) (acc : TakeAcc) :
    (fillCurrent i g slot beats acc).s.classify = acc.s.classify := by
  simp only [fillCurrent]
  split
  · split <;> simp
  · rfl
  · rfl

@[simp] theorem handleData_classify (g : Geometry) (slot : Nat) (z : Bool) (beats : List RingBeat) (acc : TakeAcc) :
    (handleData i g slot z beats acc).s.classify = acc.s.classify := by
  simp only [handleData]; split <;> simp

theorem handlePart_classify (g : Geometry) (acc : TakeAcc) (part : Nat × List RingBeat) :
    (handlePart i g acc part).s.classify = acc.s.classify := by
  simp only [handlePart, apply_ite TakeAcc.s, apply_ite State.classify, countTrailerWrite_classify,
    countOutOfSeq_classify, handleData_classify, ite_self]

theorem captureLane_classify (r : Request) (acc : TakeAcc) : (captureLane r acc i).s.classify = acc.s.classify := by
  simp only [captureLane]
  split
  · rfl
  · next g _ =>
    exact List.foldlRecOn (motive := fun a : TakeAcc => a.s.classify = acc.s.classify) _ _ rfl
      fun b hb p _ => (handlePart_classify i g b p).trans hb

theorem offerWrite_classify (r : Request) : (offerWrite r s).s.classify = s.classify := by
  simp only [offerWrite]
  refine List.foldlRecOn (motive := fun a : TakeAcc => a.s.classify = s.classify) _ _ ?_
    fun b hb j _ => (captureLane_classify j r b).trans hb
  dsimp only; split <;> rfl

theorem takeRequest_classify (u : UpRequest) : (takeRequest u s).classify = s.classify := by
  simp only [takeRequest]
  split
  · exact offerWrite_classify ..
  · rfl

theorem lineErrorNotice_classify (n : LineId) : (lineErrorNotice s n).classify = s.classify := by
  simp only [lineErrorNotice]
  split
  · split
    · rfl
    · split <;> simp
  · split <;> rfl
  · split <;> simp
  · rfl

/-! #### Responses -/

@[simp] theorem takeProducer_classify (v : Nat) : (takeProducer v s).classify = s.classify := by simp [takeProducer]

@[simp] theorem countForeign_classify : (countForeign s).classify = s.classify := rfl

@[simp] theorem offerCompleted_classify (m : Fin 16) (r : Request) : (offerCompleted m r s).classify = s.classify := by
  simp only [offerCompleted]
  split
  · split
    · split
      · split <;> split <;> split <;> simp
      · rfl
    · rfl
  · rfl

@[simp] theorem fetchDone_classify (okay : Bool) (data : List Byte) : (fetchDone okay data s).classify = s.classify := by
  simp only [fetchDone]
  split
  · split <;> simp
  · rfl

theorem completePass_classify (e : PassEntry) (okay : Bool) (data : List Byte) :
    (completePass e okay data s).classify = s.classify := by
  simp only [completePass]
  split
  · rfl
  · split
    · simp
    · split
      · exact foldl_classify lineErrorNotice_classify ..
      · rfl

@[simp] theorem deliver_classify (e : InjEntry) (okay : Bool) (data : List Byte) :
    (deliver e okay data s).classify = s.classify := by
  simp only [deliver]; split <;> simp

theorem completeInj_classify (e : InjEntry) (okay : Bool) (data : List Byte) :
    (completeInj e okay data s).classify = s.classify := by
  simp only [completeInj]; split <;> simp

/-! #### The line-processed event -/

@[simp] theorem processTracks_classify (line : Line) (c : Copy) (d : Detected) (a b : Bool) :
    (processTracks i k line c d a b s).classify = s.classify := by
  simp only [processTracks]
  split
  · rfl
  · exact (Marked.foldl _ (marked_closeToPending i c.detect.minLines .gap) ..).classify

@[simp] theorem processCoverage_classify (g : Geometry) (line : Line) (d : Detected) (b : Bool) :
    (processCoverage i g line d b s).classify = s.classify := by
  simp only [processCoverage]; split <;> rfl

@[simp] theorem advanceState_classify (line : Line) (d : Detect) (b : Bool) :
    (advanceState i line d b s).classify = s.classify := by
  simp only [advanceState]
  split
  · split <;> rfl
  · split
    · rfl
    · split <;> rfl
  · split
    · rfl
    · split <;> rfl
  · split
    · split <;> rfl
    · rfl
  · split <;> rfl
  · rfl
  · rfl

@[simp] theorem completeDisarm_classify : (completeDisarm i s).classify = s.classify := by
  simp only [completeDisarm]
  split
  · split <;> simp
  · rfl

theorem processLine_classify (g : Geometry) (line : Line) (c : Copy) : (processLine i g line c s).classify = s.classify := by
  simp only [processLine]; split <;> simp [finishStopping]

/-! #### The bay clock and start-up -/

@[simp] theorem tickClock_classify : (tickClock s).classify = s.classify := rfl

@[simp] theorem holdSamples_classify (v : Vector Sample 6) : (holdSamples v s).classify = s.classify := rfl

@[simp] theorem runIfPresetsDone_classify : (runIfPresetsDone s).classify = s.classify := by
  simp only [runIfPresetsDone]; split <;> simp [enterRunning]

@[simp] theorem presetFault_classify (st : Status) (n : Nat) : (presetFault st n s).classify = s.classify := by
  cases st <;> rfl

end Operations

/-! ### Carrying out a command but CLASSIFY_SETUP -/

section Carry

variable (s : State) (i : Fin 12) (k : Fin 6)

theorem onLane_classify {t : Nat} {f : Fin 12 → State → Status × State} {s : State}
    (h : ∀ i, (f i s).2.classify = s.classify) : (onLane t f s).2.classify = s.classify := by
  simp only [onLane]
  split
  · exact h _
  · rfl

theorem onStrand_classify {t : Nat} {f : Fin 6 → State → Status × State} {s : State}
    (h : ∀ k, (f k s).2.classify = s.classify) : (onStrand t f s).2.classify = s.classify := by
  simp only [onStrand]
  split
  · exact h _
  · rfl

@[simp] theorem leaveBillet_classify : (leaveBillet i k s).classify = s.classify := by
  simp only [leaveBillet]
  split
  · rfl
  · split <;> rfl

@[simp] theorem modBoundBillet_classify (f : OpenBillet → OpenBillet) : (modBoundBillet i f s).classify = s.classify := by
  simp only [modBoundBillet]; split <;> rfl

theorem doLaneGeometry_classify (p : GeometryParams) : (doLaneGeometry i p s).2.classify = s.classify := by
  simp only [doLaneGeometry]
  split
  · rfl
  · split <;> simp

theorem doLaneZones_classify (n : Nat) (z : List ZoneParams) : (doLaneZones i n z s).2.classify = s.classify := by
  simp only [doLaneZones]
  split
  · rfl
  · split
    · rfl
    · split
      · rfl
      · split
        · rfl
        · split <;> rfl

theorem doDeadColumns_classify (first count action : Nat) :
    (doDeadColumns i first count action s).2.classify = s.classify := by
  simp only [doDeadColumns]; split <;> rfl

theorem doStrandSetup_classify (c : StrandSetup) : (doStrandSetup k c s).2.classify = s.classify := by
  simp only [doStrandSetup]; split <;> rfl

theorem doStrandMarking_classify (c : MarkSettings) : (doStrandMarking k c s).2.classify = s.classify := by
  simp only [doStrandMarking]; split <;> simp

theorem doReportSetup_classify (c : ReportSettings) : (doReportSetup c s).2.classify = s.classify := by
  simp only [doReportSetup]
  split
  · rfl
  · split <;> rfl

theorem doArm_classify : (doArm i s).2.classify = s.classify := by
  simp only [doArm]
  split
  · rfl
  · split
    · rfl
    · split <;> simp

theorem doReseed_classify : (doReseed i s).2.classify = s.classify := by
  simp only [doReseed]; split <;> rfl

theorem doTestOn_classify (p : TestParams) : (doTestOn i p s).2.classify = s.classify := by
  simp only [doTestOn]; split <;> simp

theorem doTestOff_classify : (doTestOff i s).2.classify = s.classify := by
  simp only [doTestOff]; split <;> rfl

theorem doTest_classify (action : Nat) (p : TestParams) : (doTest i action p s).2.classify = s.classify := by
  simp only [doTest]
  split
  · rfl
  · split
    · exact doTestOn_classify ..
    · split
      · exact doTestOff_classify ..
      · rfl

theorem doDisarm_classify : (doDisarm i s).2.classify = s.classify := by
  simp only [doDisarm]
  split
  · rfl
  · split <;> simp

theorem presetDisarm_classify : (presetDisarm i s).2.classify = s.classify := by
  have disarmed := doDisarm_classify s i
  simp only [presetDisarm]
  split
  · next h => rwa [h] at disarmed
  · rfl

theorem doLaneReset_classify : (doLaneReset i s).2.classify = s.classify := by
  simp only [doLaneReset]; split <;> rfl

/-- R104: of the commands of 12.4, carried out as a preset or as a host command, only CLASSIFY_SETUP changes the
settings. -/
theorem carryPreset_classify {c : Command} (hc : ∀ q, c ≠ .classifySetup q) : (carryPreset c s).2.classify = s.classify := by
  cases c with
  | laneGeometry t p => exact onLane_classify fun i => doLaneGeometry_classify s i p
  | laneZones t n z => exact onLane_classify fun i => doLaneZones_classify s i n z
  | deadColumns t f n a => exact onLane_classify fun i => doDeadColumns_classify s i f n a
  | laneDetect t d => exact onLane_classify fun _ => rfl
  | strandSetup t c => exact onStrand_classify fun k => doStrandSetup_classify s k c
  | strandMarking t c => exact onStrand_classify fun k => doStrandMarking_classify s k c
  | classifySetup q => exact absurd rfl (hc q)
  | reportSetup c => exact doReportSetup_classify s c
  | arm t => exact onLane_classify (doArm_classify s)
  | disarm t => exact onLane_classify (presetDisarm_classify s)
  | reseed t => exact onLane_classify (doReseed_classify s)
  | test t a p => exact onLane_classify fun i => doTest_classify s i a p
  | laneReset t => exact onLane_classify (doLaneReset_classify s)
  | snapshot | clearFault | bayReset _ | unknown _ => rfl

end Carry

/-! ### CLASSIFY_SETUP (R103) -/

section ClassifySetup

variable (s : State)

/-- The thresholds that R103 admits. -/
def Classify.Valid (c : Classify) : Prop := 1 ≤ c.g1 ∧ c.g1 < c.g2 ∧ c.g2 < c.g3 ∧ c.g3 ≤ 255

theorem doClassifySetup_of_valid {c : Classify} (h : c.Valid) :
    doClassifySetup c s = (clampStatus c c.clamped, { s with classify := c.clamped }) := if_pos h

theorem doClassifySetup_of_not_valid {c : Classify} (h : ¬ c.Valid) : doClassifySetup c s = (.badValue, s) := if_neg h

/-- CLASSIFY_SETUP leaves the settings alone, or they are its values brought into range. -/
theorem doClassifySetup_classify (c : Classify) :
    (doClassifySetup c s).2.classify = s.classify ∨ (doClassifySetup c s).2.classify = c.clamped := by
  by_cases h : c.Valid
  · exact .inr (by rw [doClassifySetup_of_valid s h])
  · exact .inl (by rw [doClassifySetup_of_not_valid s h])

theorem exec_classifySetup_of_inHand {s : State} {c : Classify} (h : inHand s = some (.classifySetup c)) :
    exec .classifySetup s = .next (retire (doClassifySetup c s).1 (doClassifySetup c s).2) := by
  show execClassifySetup s = _
  rw [execClassifySetup, h]; rfl

/-- What a preset does to the settings (R104, R166). -/
theorem runPreset_classify (place : List Byte) (n : Nat) :
    (runPreset place n s).classify = s.classify ∨
      ∃ q, decodeEntry (commandPart place) = .classifySetup q ∧ (runPreset place n s).classify = q.clamped := by
  simp only [runPreset, presetFault_classify]
  by_cases h : ∃ q, decodeEntry (commandPart place) = .classifySetup q
  · obtain ⟨q, hq⟩ := h
    rw [hq]
    exact (doClassifySetup_classify s q).imp id fun replaced => ⟨q, rfl, replaced⟩
  · exact .inl (carryPreset_classify s fun q hq => h ⟨q, hq⟩)

end ClassifySetup

/-- Settles O52: the validity of the thresholds decides between BAD_VALUE and the replacement. -/
theorem classifySetupChecksThresholds : Obligations.ClassifySetupChecksThresholds := by
  refine ⟨rfl, fun s c h => ⟨fun invalid => ?_, fun valid => ?_⟩⟩
  · rw [exec_classifySetup_of_inHand h, doClassifySetup_of_not_valid s invalid]
  · rw [exec_classifySetup_of_inHand h, doClassifySetup_of_valid s valid]; rfl

/-! ### The commands of the table (R104) -/

/-- No next state of the outcome has other classification settings than `s`. -/
def KeepsClassify (s : State) (o : Host.Outcome State Fault Refusal) : Prop := ∀ t, o = .next t → t.classify = s.classify

section Rows

variable {s : State}

theorem keepsClassify_next {t : State} (h : t.classify = s.classify) : KeepsClassify s (.next t) := by
  rintro _ ⟨⟩; exact h

theorem keepsClassify_conclude {r : Status × State} (h : r.2.classify = s.classify) : KeepsClassify s (conclude r) :=
  keepsClassify_next ((retire_classify ..).trans h)

/-- An event that comes about under a condition only. -/
theorem keepsClassify_ite {p : Prop} [Decidable p] {t : State} (h : t.classify = s.classify) :
    KeepsClassify s (if p then .next t else .next s) := by
  split
  · exact keepsClassify_next h
  · exact keepsClassify_next rfl

theorem execStoreReadEnd_keepsClassify (bytes : List Byte) : KeepsClassify s (execStoreReadEnd bytes s) := by
  simp only [execStoreReadEnd]
  split
  · split
    · exact keepsClassify_next rfl
    · split
      · exact keepsClassify_next (by simp [enterPresets])
      · exact keepsClassify_next rfl
  · exact keepsClassify_next rfl

theorem execIssueOpportunity_keepsClassify : KeepsClassify s (execIssueOpportunity s) := by
  simp only [execIssueOpportunity]; split <;> exact keepsClassify_next rfl

theorem execDownstreamResponse_keepsClassify (okay : Bool) (data : List Byte) :
    KeepsClassify s (execDownstreamResponse okay data s) := by
  simp only [execDownstreamResponse]
  split
  · exact keepsClassify_next rfl
  · split
    · exact keepsClassify_next rfl
    · exact keepsClassify_next (completePass_classify ..)
    · exact keepsClassify_next (completeInj_classify ..)
    · split
      · exact keepsClassify_next (completePass_classify ..)
      · exact keepsClassify_next (completeInj_classify ..)

theorem execJobStart_keepsClassify : KeepsClassify s (execJobStart s) := by
  simp only [execJobStart]
  split
  · split
    · split
      · exact keepsClassify_next rfl
      · exact keepsClassify_next (request_classify ..)
    · exact keepsClassify_next rfl
  · exact keepsClassify_next rfl

theorem execEventRecordStart_keepsClassify : KeepsClassify s (execEventRecordStart s) := by
  simp only [execEventRecordStart]
  split
  · exact keepsClassify_ite (request_classify ..)
  · exact keepsClassify_next rfl

theorem execLineProcessed_keepsClassify (i : Fin 12) : KeepsClassify s (execLineProcessed i s) := by
  simp only [execLineProcessed]
  split
  · exact keepsClassify_ite (processLine_classify ..)
  · exact keepsClassify_next rfl

theorem execBayClockIncrement_keepsClassify (v : Vector Sample 6) : KeepsClassify s (execBayClockIncrement v s) := by
  simp only [execBayClockIncrement]
  split
  · exact keepsClassify_next rfl
  · exact keepsClassify_next rfl
  · exact keepsClassify_next rfl
  · refine keepsClassify_next ?_
    rw [holdSamples_classify, tickClock_classify, foldl_classify finishSample_classify]

theorem execReportSetup_keepsClassify : KeepsClassify s (execReportSetup s) := by
  simp only [execReportSetup]
  split
  · next c _ =>
    have set := doReportSetup_classify s c
    split
    · exact keepsClassify_conclude ((writeZeroProducer_classify _).trans set)
    · exact keepsClassify_conclude ((writeZeroProducer_classify _).trans set)
    · exact keepsClassify_conclude set
  · exact keepsClassify_next rfl

theorem execDisarm_keepsClassify : KeepsClassify s (execDisarm s) := by
  simp only [execDisarm]
  split
  · split
    · next t _ ht =>
      have disarmed := doDisarm_classify s ⟨t, ht⟩
      split
      · next h => rw [h] at disarmed; exact keepsClassify_conclude disarmed
      · next h => rw [h] at disarmed; exact keepsClassify_next ((hold_classify ..).trans disarmed)
    · exact keepsClassify_conclude rfl
  · exact keepsClassify_next rfl

theorem execSnapshot_keepsClassify : KeepsClassify s (execSnapshot s) := by
  simp only [execSnapshot]
  split
  · exact keepsClassify_next (by simp)
  · exact keepsClassify_next rfl

/-- BAY_RESET makes no exception (R104, R163). -/
theorem execBayReset_keepsClassify : KeepsClassify s (execBayReset s) := by
  simp only [execBayReset]
  split
  · exact keepsClassify_conclude (writeZeroProducer_classify _)
  · exact keepsClassify_next rfl

/-- A host command row carries out the command in hand, not CLASSIFY_SETUP, as a preset would be and concludes it, or the
state stands. -/
inductive CarriesOrStands (s : State) (o : Host.Outcome State Fault Refusal) : Prop where
  | carries {c : Command} (hand : inHand s = some c) (hc : ∀ q, c ≠ .classifySetup q) (ho : o = conclude (carryPreset c s))
  | stands (ho : o = .next s)

theorem CarriesOrStands.keepsClassify {o : Host.Outcome State Fault Refusal} (h : CarriesOrStands s o) :
    KeepsClassify s o := by
  cases h with
  | carries _ hc ho => rw [ho]; exact keepsClassify_conclude (carryPreset_classify s hc)
  | stands ho => rw [ho]; exact keepsClassify_next rfl

theorem exec_keepsClassify {c : Instr} (power : c ≠ .powerOn) (line : c ≠ .resetLineAssert)
    (classify : c ≠ .classifySetup) (preset : c ≠ .presetHandover) : KeepsClassify s (exec c s) := by
  cases c with
  | powerOn => exact absurd rfl power
  | resetLineAssert => exact absurd rfl line
  | classifySetup => exact absurd rfl classify
  | presetHandover => exact absurd rfl preset
  | resetLineRelease => exact keepsClassify_ite rfl
  | storeReadEnd bytes => exact execStoreReadEnd_keepsClassify bytes
  | upstreamRequestTake u => exact keepsClassify_ite (takeRequest_classify s u)
  | issueOpportunity => exact execIssueOpportunity_keepsClassify
  | downstreamResponse okay data => exact execDownstreamResponse_keepsClassify okay data
  | jobStart => exact execJobStart_keepsClassify
  | eventRecordStart => exact execEventRecordStart_keepsClassify
  | lineProcessed i => exact execLineProcessed_keepsClassify i
  | forwardStep k p | reverseStep k p | encoderError k p => exact keepsClassify_ite (decodeDue_classify s k)
  | cutEvent k => exact keepsClassify_ite ((compareDue_classify ..).trans (decodeDue_classify s k))
  | cutInputFall k => exact keepsClassify_ite (compareDue_classify s k)
  | pulseEnd k => exact keepsClassify_ite (endDuePulse_classify s k)
  | bayClockIncrement v => exact execBayClockIncrement_keepsClassify v
  | reportSetup => exact execReportSetup_keepsClassify
  | disarm => exact execDisarm_keepsClassify
  | snapshot => exact execSnapshot_keepsClassify
  | bayReset => exact execBayReset_keepsClassify
  | laneGeometry | laneZones | laneDetect | strandSetup | strandMarking | arm | reseed | clearFault | laneReset
  | unknownCommand =>
    refine CarriesOrStands.keepsClassify ?_
    simp only [exec, execLaneGeometry, execLaneZones, execLaneDetect, execStrandSetup, execStrandMarking, execArm,
      execReseed, execClearFault, execLaneReset, execUnknownCommand]
    split
    · next h => exact .carries h nofun rfl
    · exact .stands rfl
  | deadColumnsMark | deadColumnsClear | testOn | testOff =>
    refine CarriesOrStands.keepsClassify ?_
    simp only [exec, execDeadColumnsMark, execDeadColumnsClear, execTestOn, execTestOff]
    split
    · next h =>
      split
      · exact .carries h nofun rfl
      · exact .stands rfl
    · exact .stands rfl

/-- What PRESET_HANDOVER does to the settings (R104, R166): a CLASSIFY_SETUP preset alone replaces them. -/
theorem execPresetHandover_classify {t : State} (h : execPresetHandover s = .next t) :
    t.classify = s.classify ∨ ∃ place q, s.loader.presets[s.loader.statuses.length]? = some place ∧
      decodeEntry (commandPart place) = .classifySetup q ∧ t.classify = q.clamped := by
  simp only [execPresetHandover] at h
  split at h
  · cases h; exact .inl rfl
  · next place hp =>
    split at h
    · cases h
      simp only [runIfPresetsDone_classify]
      exact (runPreset_classify s place _).imp id fun ⟨q, hq, replaced⟩ => ⟨place, q, hp, hq, replaced⟩
    · cases h; exact .inl rfl

end Rows

/-- Settles O12: power-on and the reset line reset every block, PRESET_HANDOVER does what its preset does, and every
other row but CLASSIFY_SETUP keeps the settings. -/
theorem classificationDefaultsAndKeeping : Obligations.ClassificationDefaultsAndKeeping := by
  refine fun c s t h => ⟨?_, fun power line classify preset => exec_keepsClassify power line classify preset t h, ?_⟩
  · rintro (rfl | rfl) <;> cases h <;> rfl
  · rintro rfl; exact execPresetHandover_classify h

end Sys2Proof.Machine

/-! ### LANE_ZONES (R145, R147) -/

namespace Sys2Proof.Machine

/-- The zone kind of a code of the table (R147, R169). -/
def kindOfCode (k : Nat) : ZoneKind := if k = 0 then .face else if k = 1 then .corner else .ignore

theorem zoneKindOfCode_of_lt {k : Nat} (h : k < 3) : zoneKindOfCode k = some (kindOfCode k) := by
  interval_cases k <;> rfl

theorem zoneKindOfCode_of_le {k : Nat} (h : 3 ≤ k) : zoneKindOfCode k = none := by
  obtain ⟨n, rfl⟩ := Nat.exists_eq_add_of_le' h
  rfl

/-- The zone that a zone of the entry asks for. -/
def ZoneParams.zone (z : ZoneParams) : Zone := ⟨z.first, z.last, kindOfCode z.kind⟩

/-- Every zone's kind is in the table. -/
def KindsKnown (zones : List ZoneParams) : Prop := ∀ z ∈ zones, z.kind < 3

theorem kindsKnown_cons {z : ZoneParams} {zones : List ZoneParams} :
    KindsKnown (z :: zones) ↔ z.kind < 3 ∧ KindsKnown zones := List.forall_mem_cons

theorem zonesKinds_of_known {zones : List ZoneParams} (h : KindsKnown zones) :
    zonesKinds zones = some (zones.map ZoneParams.zone) := by
  induction zones with
  | nil => rfl
  | cons z zones ih =>
    obtain ⟨known, rest⟩ := kindsKnown_cons.mp h
    simp [zonesKinds, zoneKindOfCode_of_lt known, ih rest, ZoneParams.zone]

theorem zonesKinds_of_not_known {zones : List ZoneParams} (h : ¬ KindsKnown zones) : zonesKinds zones = none := by
  induction zones with
  | nil => exact absurd (fun _ hz => absurd hz List.not_mem_nil) h
  | cons z zones ih =>
    by_cases known : z.kind < 3
    · have rest : ¬ KindsKnown zones := fun rest => h (kindsKnown_cons.mpr ⟨known, rest⟩)
      simp [zonesKinds, ih rest]
    · simp [zonesKinds, zoneKindOfCode_of_le (Nat.le_of_not_lt known)]

/-- The order check of the model: every zone lies within the columns from `lo` to W, and above every zone before it. -/
theorem zonesInOrder_iff {w lo : Nat} {zs : List Zone} :
    zonesInOrder w lo zs = true ↔
      (∀ z ∈ zs, lo ≤ z.first ∧ z.first ≤ z.last ∧ z.last < w) ∧ zs.Pairwise fun a b => a.last < b.first := by
  induction zs generalizing lo with
  | nil => simp [zonesInOrder]
  | cons z zs ih =>
    simp only [zonesInOrder, Bool.and_eq_true, decide_eq_true_eq, ih, List.forall_mem_cons, List.pairwise_cons]
    constructor
    · rintro ⟨⟨⟨low, ordered⟩, within⟩, rest, above⟩
      refine ⟨⟨⟨low, ordered, within⟩, fun y hy => ?_⟩, fun y hy => (rest y hy).1, above⟩
      obtain ⟨next, spans⟩ := rest y hy
      exact ⟨by omega, spans⟩
    · rintro ⟨⟨⟨low, ordered, within⟩, rest⟩, next, above⟩
      exact ⟨⟨⟨low, ordered⟩, within⟩, fun y hy => ⟨next y hy, (rest y hy).2⟩, above⟩

/-- The zones that R147 admits on a lane of width `w`. -/
structure ZonesAdmitted (w count : Nat) (zones : List ZoneParams) : Prop where
  positive : 1 ≤ count
  atMost : count ≤ 8
  known : KindsKnown zones
  within : ∀ z ∈ zones, z.first ≤ z.last ∧ z.last < w
  ascending : zones.Pairwise fun a b => a.last < b.first

theorem ZonesAdmitted.last_lt_next {w count n : Nat} {zones : List ZoneParams} {a b : ZoneParams}
    (h : ZonesAdmitted w count zones) (ha : zones[n]? = some a) (hb : zones[n + 1]? = some b) : a.last < b.first := by
  obtain ⟨hn, rfl⟩ := List.getElem?_eq_some_iff.mp ha
  obtain ⟨hn', rfl⟩ := List.getElem?_eq_some_iff.mp hb
  exact List.pairwise_iff_getElem.mp h.ascending n (n + 1) hn hn' n.lt_succ_self

theorem zonesInOrder_map_zone {w : Nat} {zones : List ZoneParams} :
    zonesInOrder w 0 (zones.map ZoneParams.zone) = true ↔
      (∀ z ∈ zones, z.first ≤ z.last ∧ z.last < w) ∧ zones.Pairwise fun a b => a.last < b.first := by
  simp [zonesInOrder_iff, List.pairwise_map, ZoneParams.zone]

section LaneZones

variable {s : State} {i : Fin 12} {count : Nat} {zones : List ZoneParams} {g : Geometry}

theorem doLaneZones_refused (h : (s.lane i).control.state ≠ .off ∨ (s.lane i).control.geometry = none) :
    doLaneZones i count zones s = (.refused, s) := by
  by_cases off : (s.lane i).control.state = .off
  · have unset : (s.lane i).control.geometry = none := h.resolve_left (not_not_intro off)
    simp [doLaneZones, unset]
  · simp [doLaneZones, off]

theorem doLaneZones_done (off : (s.lane i).control.state = .off) (geometry : (s.lane i).control.geometry = some g)
    (h : ZonesAdmitted g.w count zones) :
    doLaneZones i count zones s =
      (.done, s.modControl i fun c => { c with zones := some (zones.map ZoneParams.zone) }) := by
  have counted : ¬ (count < 1 ∨ 8 < count) := by have := h.positive; have := h.atMost; omega
  have order := zonesInOrder_map_zone.mpr ⟨h.within, h.ascending⟩
  simp only [doLaneZones, off, geometry, counted, zonesKinds_of_known h.known, order, ne_eq, not_true_eq_false, if_true,
    if_false]

theorem doLaneZones_badValue (off : (s.lane i).control.state = .off) (geometry : (s.lane i).control.geometry = some g)
    (h : ¬ ZonesAdmitted g.w count zones) : doLaneZones i count zones s = (.badValue, s) := by
  by_cases counted : count < 1 ∨ 8 < count
  · simp only [doLaneZones, off, geometry, counted, ne_eq, not_true_eq_false, if_true, if_false]
  by_cases known : KindsKnown zones
  · have order : ¬ zonesInOrder g.w 0 (zones.map ZoneParams.zone) = true := fun order =>
      have ⟨within, ascending⟩ := zonesInOrder_map_zone.mp order
      h ⟨by omega, by omega, known, within, ascending⟩
    simp [doLaneZones, off, geometry, zonesKinds_of_known known, order]
  · simp [doLaneZones, off, geometry, zonesKinds_of_not_known known]

theorem exec_laneZones_of_inHand (h : inHand s = some (.laneZones i.val count zones)) :
    exec .laneZones s = .next (retire (doLaneZones i count zones s).1 (doLaneZones i count zones s).2) := by
  show execLaneZones s = _
  simp only [execLaneZones, h, onLane_val, conclude]

theorem exec_laneZones_badValue (hand : inHand s = some (.laneZones i.val count zones))
    (off : (s.lane i).control.state = .off) (geometry : (s.lane i).control.geometry = some g)
    (h : ¬ ZonesAdmitted g.w count zones) : exec .laneZones s = .next (retire .badValue s) := by
  rw [exec_laneZones_of_inHand hand, doLaneZones_badValue off geometry h]

end LaneZones

/-- Settles O49: on an OFF lane with a geometry, R147's conditions together decide between the replacement and BAD_VALUE,
and each clause of BAD_VALUE breaks one of them. -/
theorem laneZonesReplacesTable : Obligations.LaneZonesReplacesTable := by
  intro s i count zones hand
  refine ⟨fun h => ?refused, fun g off geometry => ?_⟩
  case refused => rw [exec_laneZones_of_inHand hand, doLaneZones_refused h]
  have bad := exec_laneZones_badValue hand off geometry
  refine ⟨fun counted => bad fun admitted => ?count, fun ⟨z, hz, broken⟩ => bad fun admitted => ?zone,
    fun ⟨n, a, b, ha, hb, overlap⟩ => bad fun admitted => ?order, fun positive atMost each ascending => ?done⟩
  case count => have := admitted.positive; have := admitted.atMost; omega
  case zone => have := admitted.known z hz; have := admitted.within z hz; omega
  case order => exact absurd (admitted.last_lt_next ha hb) (Nat.not_lt.mpr overlap)
  case done =>
    have admitted : ZonesAdmitted g.w count zones :=
      ⟨positive, atMost, fun z hz => (each z hz).1, fun z hz => (each z hz).2, ascending⟩
    rw [exec_laneZones_of_inHand hand, doLaneZones_done off geometry admitted]
    rfl

end Sys2Proof.Machine


/-! ### What every command keeps

`State.Keeps` gathers what no command but a reset breaks, lane by lane and strand by strand, so that the operations are
walked through once for all of it. `State.Quiet` adds that the clock, the lane states and the pass-through queue stand,
`State.Moves` that the clock stands and the lane states move by the table of R136 alone. -/

namespace Sys2Proof.Machine

/-- The buffers stay tidy, and keep their different roles. -/
structure Capture.Keeps (c d : Capture) : Prop where
  tidy : c.bufA.tidy = true → c.bufB.tidy = true → d.bufA.tidy = true ∧ d.bufB.tidy = true
  roles : c.RolesDiffer → d.RolesDiffer

/-- The sizes, the canonical forms, the buffer roles and the range of the background of a lane are kept. -/
structure Lane.Keeps (l m : Lane) : Prop where
  sized : l.Sized → m.Sized
  tidy : l.Tidy → m.Tidy
  roles : l.capture.RolesDiffer → m.capture.RolesDiffer
  range : l.Tidy → l.detection.InRange → m.detection.InRange

/-- The sizes and orders of a strand are kept, and its coordinate does not fall. -/
structure Strand.Keeps (t u : Strand) : Prop where
  sized : t.Sized → u.Sized
  ordered : t.Ordered → u.Ordered
  coord : t.motion.coord ≤ u.motion.coord

/-- The sizes of the two queues are kept, and their ISSUED requests stay first. -/
structure Path.Keeps (p q : Path) : Prop where
  pass : p.pass.length ≤ 32 → q.pass.length ≤ 32
  injected : p.injected.length ≤ 16 → q.injected.length ≤ 16
  issuedFirst : p.IssuedFirst → q.IssuedFirst

/-- The sizes of the report unit are kept. -/
structure ReportUnit.Keeps (r q : ReportUnit) : Prop where
  jobs : r.jobs.length ≤ 8 → q.jobs.length ≤ 8
  events : r.events.length ≤ 16 → q.events.length ≤ 16
  suppressed : r.suppressed ≤ 255 → q.suppressed ≤ 255

/-- What every command but a reset keeps, the clock aside. -/
structure State.Keeps (s t : State) : Prop where
  lanes : ∀ i, (s.lane i).Keeps (t.lane i)
  strands : ∀ k, (s.strand k).Keeps (t.strand k)
  path : s.path.Keeps t.path
  report : s.report.Keeps t.report

/-- The lane's state stands, or changes as the table of R136 lists. -/
def LaneState.MovesTo (a b : LaneState) : Prop := b = a ∨ legalChange a b = true

/-- A command's part that changes no lane's state, and neither the clock nor the pass-through queue. -/
structure State.Quiet (s t : State) : Prop extends State.Keeps s t where
  clock : t.clock = s.clock
  pass : t.path.pass = s.path.pass
  control : ∀ i, (t.lane i).control.state = (s.lane i).control.state

/-- A command's part that changes each lane's state as the table of R136 lists. -/
structure State.Moves (s t : State) : Prop extends State.Keeps s t where
  clock : t.clock = s.clock
  control : ∀ i, (s.lane i).control.state.MovesTo (t.lane i).control.state

/-! #### The relations compose -/

theorem Capture.Keeps.refl (c : Capture) : c.Keeps c := ⟨fun a b => ⟨a, b⟩, id⟩

theorem Capture.Keeps.trans {c d e : Capture} (a : c.Keeps d) (b : d.Keeps e) : c.Keeps e :=
  ⟨fun x y => have ⟨x, y⟩ := a.tidy x y; b.tidy x y, b.roles ∘ a.roles⟩

theorem Lane.Keeps.refl (l : Lane) : l.Keeps l := ⟨id, id, id, fun _ => id⟩

theorem Lane.Keeps.trans {l m n : Lane} (a : l.Keeps m) (b : m.Keeps n) : l.Keeps n :=
  ⟨b.sized ∘ a.sized, b.tidy ∘ a.tidy, b.roles ∘ a.roles, fun t r => b.range (a.tidy t) (a.range t r)⟩

theorem Strand.Keeps.refl (t : Strand) : t.Keeps t := ⟨id, id, Nat.le_refl _⟩

theorem Strand.Keeps.trans {t u v : Strand} (a : t.Keeps u) (b : u.Keeps v) : t.Keeps v :=
  ⟨b.sized ∘ a.sized, b.ordered ∘ a.ordered, a.coord.trans b.coord⟩

theorem Path.Keeps.refl (p : Path) : p.Keeps p := ⟨id, id, id⟩

theorem Path.Keeps.trans {p q r : Path} (a : p.Keeps q) (b : q.Keeps r) : p.Keeps r :=
  ⟨b.pass ∘ a.pass, b.injected ∘ a.injected, b.issuedFirst ∘ a.issuedFirst⟩

theorem ReportUnit.Keeps.refl (r : ReportUnit) : r.Keeps r := ⟨id, id, id⟩

theorem ReportUnit.Keeps.trans {r q o : ReportUnit} (a : r.Keeps q) (b : q.Keeps o) : r.Keeps o :=
  ⟨b.jobs ∘ a.jobs, b.events ∘ a.events, b.suppressed ∘ a.suppressed⟩

theorem State.Keeps.refl (s : State) : s.Keeps s := ⟨fun _ => .refl _, fun _ => .refl _, .refl _, .refl _⟩

theorem State.Keeps.trans {s t u : State} (a : s.Keeps t) (b : t.Keeps u) : s.Keeps u :=
  ⟨fun i => (a.lanes i).trans (b.lanes i), fun k => (a.strands k).trans (b.strands k), a.path.trans b.path,
    a.report.trans b.report⟩

theorem State.Quiet.refl (s : State) : s.Quiet s := ⟨.refl s, rfl, rfl, fun _ => rfl⟩

theorem State.Quiet.trans {s t u : State} (a : s.Quiet t) (b : t.Quiet u) : s.Quiet u :=
  ⟨a.toKeeps.trans b.toKeeps, b.clock.trans a.clock, b.pass.trans a.pass, fun i => (b.control i).trans (a.control i)⟩

theorem State.Quiet.moves {s t : State} (h : s.Quiet t) : s.Moves t := ⟨h.toKeeps, h.clock, fun i => .inl (h.control i)⟩

theorem State.Moves.refl (s : State) : s.Moves s := (State.Quiet.refl s).moves

theorem State.Moves.quiet {s t u : State} (a : s.Moves t) (b : t.Quiet u) : s.Moves u :=
  ⟨a.toKeeps.trans b.toKeeps, b.clock.trans a.clock, fun i => b.control i ▸ a.control i⟩

theorem State.Quiet.then {s t u : State} (a : s.Quiet t) (b : t.Moves u) : s.Moves u :=
  ⟨a.toKeeps.trans b.toKeeps, b.clock.trans a.clock, fun i => a.control i ▸ b.control i⟩

/-- Running through a list, each step of which is quiet, is quiet. -/
theorem State.Quiet.foldl {α : Type} {f : State → α → State} (h : ∀ (s : State) a, s.Quiet (f s a)) (l : List α) (s : State) :
    s.Quiet (l.foldl f s) := by
  induction l generalizing s with
  | nil => exact .refl s
  | cons a l ih => exact (h s a).trans (ih _)

/-! #### Changes of one part -/

/-- A lane of which only the settings, the line capture unit and counters change. -/
theorem Lane.Keeps.ofCapture {l m : Lane} (h : l.capture.Keeps m.capture) (hb : m.detection.background = l.detection.background)
    (hd : m.detection.dead = l.detection.dead) (hs : m.detection.segments = l.detection.segments)
    (ht : m.table.tracks = l.table.tracks) (hr : m.runs = l.runs) : l.Keeps m where
  sized := fun ⟨a, b, c⟩ => ⟨hs ▸ a, ht ▸ b, hr ▸ c⟩
  tidy := fun ⟨a, b, c, d⟩ => have ⟨a, b⟩ := h.tidy a b; ⟨a, b, hb ▸ c, hd ▸ d⟩
  roles := h.roles
  range := fun _ r => by simpa only [Detection.InRange, hb] using r

/-- A lane of which only the state and settings change. -/
theorem Lane.Keeps.ofControl (l : Lane) (c : Control) : l.Keeps { l with control := c } :=
  .ofCapture (.refl _) rfl rfl rfl rfl rfl

theorem State.Keeps.setLane (s : State) (i : Fin 12) {l : Lane} (h : (s.lane i).Keeps l) : s.Keeps (s.setLane i l) where
  lanes := fun j => by
    rw [State.setLane_lane]; split
    · next e => exact e ▸ h
    · exact .refl _
  strands := fun _ => .refl _
  path := .refl _
  report := .refl _

/-- A lane changes but for its state, relative to a state that stands quietly before. -/
theorem State.Quiet.setLaneFrom {r s : State} (q : r.Quiet s) {i : Fin 12} {l : Lane} (h : (r.lane i).Keeps l)
    (hc : l.control.state = (s.lane i).control.state) : r.Quiet (s.setLane i l) where
  lanes := fun j => by
    rw [State.setLane_lane]; split
    · next e => exact e ▸ h
    · exact q.lanes j
  strands := q.strands
  path := q.path
  report := q.report
  clock := q.clock
  pass := q.pass
  control := fun j => by
    rw [State.setLane_lane]; split
    · next e => rw [hc, e, q.control]
    · exact q.control j

theorem quiet_setLane (s : State) (i : Fin 12) {l : Lane} (h : (s.lane i).Keeps l)
    (hc : l.control.state = (s.lane i).control.state) : s.Quiet (s.setLane i l) := (State.Quiet.refl s).setLaneFrom h hc

theorem quiet_modCapture (s : State) (i : Fin 12) {f : Capture → Capture}
    (h : (s.lane i).capture.Keeps (f (s.lane i).capture)) : s.Quiet (s.modCapture i f) :=
  quiet_setLane s i (.ofCapture h rfl rfl rfl rfl rfl) rfl

theorem quiet_modControl (s : State) (i : Fin 12) {f : Control → Control}
    (h : (f (s.lane i).control).state = (s.lane i).control.state) : s.Quiet (s.modControl i f) :=
  quiet_setLane s i (.ofControl ..) h

theorem quiet_setStrand (s : State) (k : Fin 6) {t : Strand} (h : (s.strand k).Keeps t) : s.Quiet (s.setStrand k t) where
  lanes := fun _ => .refl _
  strands := fun j => by
    rw [State.setStrand_strand]; split
    · next e => exact e ▸ h
    · exact .refl _
  path := .refl _
  report := .refl _
  clock := rfl
  pass := rfl
  control := fun _ => rfl

/-- The report unit changes within its sizes. -/
theorem quiet_report (s : State) {r : ReportUnit} (h : s.report.Keeps r) : s.Quiet { s with report := r } where
  lanes := fun _ => .refl _
  strands := fun _ => .refl _
  path := .refl _
  report := h
  clock := rfl
  pass := rfl
  control := fun _ => rfl

/-- What no size or order speaks of changes: the part's state, the ports, the classification settings, the command unit, the
loader, the free choices. -/
theorem quiet_unsized (s : State) (g : Global) (o : Ports) (y : Classify) (m : CommandUnit) (d : Loader) (x : Nat) :
    s.Quiet { s with global := g, ports := o, classify := y, command := m, loader := d, choice := x } :=
  { State.Quiet.refl s with }

/-! #### Faults, events and requests -/

theorem ReportUnit.keeps_raise (r : ReportUnit) (c : FaultCode) (n : Nat) : r.Keeps (r.raise c n) := by
  refine ⟨fun h => ?_, fun h => ?_, r.raise_suppressed_le c n⟩ <;> rw [ReportUnit.raise_frame] <;> exact h

theorem ReportUnit.keeps_emit (r : ReportUnit) (e : Event) : r.Keeps (r.emit e) := by
  refine ⟨fun h => by rw [ReportUnit.emit_frame]; exact h, fun h => ?_, fun h => ?_⟩
  · rw [ReportUnit.emit_events]; split
    · simp; omega
    · exact h
  · simp only [ReportUnit.emit]; split
    · exact h
    · exact ReportUnit.raise_suppressed_le _ _ _ h

theorem ReportUnit.keeps_loseJob (r : ReportUnit) (k : Fin 6) : r.Keeps (r.loseJob k) :=
  (⟨id, id, id⟩ : r.Keeps { r with lostJobs := bump r.lostJobs }).trans (keeps_raise ..)

theorem ReportUnit.keeps_takeJob (r : ReportUnit) (j : Job) : r.Keeps (r.takeJob j) := by
  simp only [ReportUnit.takeJob]; split
  · refine ⟨fun _ => ?_, id, id⟩; simp; omega
  · exact keeps_loseJob ..

theorem quiet_raise (s : State) (c : FaultCode) (n : Nat) : s.Quiet (s.raise c n) := quiet_report s (ReportUnit.keeps_raise ..)

theorem quiet_emit (s : State) (e : Event) : s.Quiet (s.emit e) := quiet_report s (ReportUnit.keeps_emit ..)

/-- WAITING requests at the back leave the ISSUED ones first. -/
theorem issuedFirst_append {l m : List (Option Nat)} (h : issuedFirst l) (hm : ∀ x ∈ m, x = none) : issuedFirst (l ++ m) :=
  List.pairwise_append.mpr ⟨h, List.Pairwise.imp_of_mem (fun _ hb _ _ => hm _ hb) (List.pairwise_of_forall fun _ _ => trivial),
    fun _ _ b hb _ => hm b hb⟩

theorem Requested.quiet {s t : State} (h : Requested s t) : s.Quiet t where
  lanes := fun i => by
    obtain ⟨_, hl⟩ := h.lanes i
    rw [hl]; exact .ofCapture ⟨fun a b => ⟨a, b⟩, id⟩ rfl rfl rfl rfl rfl
  strands := fun k => by rw [h.strand]; exact .refl _
  path := by
    obtain ⟨new, hi, waiting⟩ := h.injected
    refine ⟨fun a => h.pass ▸ a, fun a => h.room.trans (by omega), fun ⟨a, b⟩ => ⟨by rw [h.pass]; exact a, ?_⟩⟩
    rw [hi, List.map_append]
    exact issuedFirst_append b (by simpa using waiting)
  report := by
    obtain ⟨_, _, _, _, hr⟩ := h.report
    rw [hr]; exact ⟨id, id, id⟩
  clock := h.clock
  pass := h.pass
  control := fun i => congrArg _ (h.control i)

end Sys2Proof.Machine


namespace Sys2Proof.Machine

/-! #### The pending list (R108, R109) -/

/-- The key order of R108, field by field. -/
theorem Defect.keyLt_iff {a b : Defect} : a.keyLt b = true ↔ a.start < b.start ∨
    (a.start = b.start ∧ (a.lane < b.lane ∨ (a.lane = b.lane ∧ a.serial < b.serial))) := by
  simp [Defect.keyLt]

theorem Defect.sameKey_iff {a b : Defect} :
    a.sameKey b = true ↔ a.start = b.start ∧ a.lane = b.lane ∧ a.serial = b.serial := by
  simp [Defect.sameKey, Defect.isNamed]; tauto

theorem Defect.keyLt_trans {a b c : Defect} (h : a.keyLt b = true) (h' : b.keyLt c = true) : a.keyLt c = true := by
  rw [keyLt_iff] at *; omega

/-- Of two records the keys are equal, or one is the lesser. -/
theorem Defect.keyLt_of_not {a b : Defect} (h : ¬ a.sameKey b = true) (h' : ¬ b.keyLt a = true) : a.keyLt b = true := by
  rw [keyLt_iff] at *; rw [sameKey_iff] at h; omega

theorem mem_insertByKey {d x : Defect} {l : List Defect} : x ∈ insertByKey d l ↔ x = d ∨ x ∈ l := by
  induction l with
  | nil => simp [insertByKey]
  | cons a l ih =>
    simp only [insertByKey]; split
    · simp
    · simp [ih]; tauto

theorem insertByKey_length (d : Defect) (l : List Defect) : (insertByKey d l).length = l.length + 1 := by
  induction l with
  | nil => rfl
  | cons a l ih => simp only [insertByKey]; split <;> simp [ih]

/-- A record whose key no record of the list has keeps the strict key order. -/
theorem insertByKey_pairwise {d : Defect} {l : List Defect} (h : l.Pairwise fun a b => a.keyLt b = true)
    (hd : ∀ x ∈ l, ¬ x.sameKey d = true) : (insertByKey d l).Pairwise fun a b => a.keyLt b = true := by
  induction l with
  | nil => simp [insertByKey]
  | cons a l ih =>
    obtain ⟨ha, hl⟩ := List.pairwise_cons.mp h
    simp only [insertByKey]; split
    · next before =>
      refine List.pairwise_cons.mpr ⟨fun x hx => ?_, h⟩
      rcases List.mem_cons.mp hx with rfl | hx
      · exact before
      · exact Defect.keyLt_trans before (ha x hx)
    · next before =>
      refine List.pairwise_cons.mpr ⟨fun x hx => ?_, ih hl fun x hx => hd x (by simp [hx])⟩
      rcases mem_insertByKey.mp hx with rfl | hx
      · exact Defect.keyLt_of_not (hd a (by simp)) before
      · exact ha x hx

theorem dropLastOfGrade_sublist (g : Nat) (l : List Defect) : (dropLastOfGrade g l).Sublist l := by
  induction l with
  | nil => exact .slnil
  | cons d l ih =>
    simp only [dropLastOfGrade]; split
    · exact List.sublist_cons_self ..
    · exact ih.cons_cons d

theorem lowestGrade_mem {l : List Defect} (h : l ≠ []) : ∃ d ∈ l, d.grade = lowestGrade l := by
  induction l with
  | nil => exact absurd rfl h
  | cons d l ih =>
    cases l with
    | nil => exact ⟨d, by simp, rfl⟩
    | cons e l =>
      obtain ⟨x, hx, least⟩ := ih (by simp)
      rcases Nat.le_total d.grade (lowestGrade (e :: l)) with h | h
      · exact ⟨d, by simp, by simp [lowestGrade, h]⟩
      · exact ⟨x, by simp only [List.mem_cons] at hx ⊢; exact .inr hx, by simp [lowestGrade, h, least]⟩

theorem dropLastOfGrade_length {g : Nat} {l : List Defect} (h : ∃ d ∈ l, d.grade = g) :
    (dropLastOfGrade g l).length + 1 = l.length := by
  induction l with
  | nil => simp at h
  | cons d l ih =>
    simp only [dropLastOfGrade]; split
    · rfl
    · next not =>
      have later : ∃ x ∈ l, x.grade = g := by
        by_contra none
        push Not at none
        obtain ⟨x, hx, e⟩ := h
        rcases List.mem_cons.mp hx with rfl | hx
        · exact not ⟨e, by simpa using none⟩
        · exact none x hx e
      simpa using ih later

theorem insertWaiting_length {d : Defect} {l : List Defect} (h : l.length ≤ 64) : (insertWaiting d l).1.length ≤ 64 := by
  simp only [insertWaiting]
  split_ifs with h1 h2 h3
  · exact h
  · rw [insertByKey_length]; exact h2
  · have := dropLastOfGrade_length (lowestGrade_mem (l := l) (by rintro rfl; simp at h2))
    rw [insertByKey_length]; omega
  · exact h

theorem insertWaiting_pairwise {d : Defect} {l : List Defect} (h : l.Pairwise fun a b => a.keyLt b = true) :
    (insertWaiting d l).1.Pairwise fun a b => a.keyLt b = true := by
  simp only [insertWaiting]
  split_ifs with h1 h2 h3
  · exact h
  · exact insertByKey_pairwise h (by simpa using h1)
  · have sub := dropLastOfGrade_sublist (lowestGrade l) l
    refine insertByKey_pairwise (h.sublist sub) fun x hx => ?_
    simp only [List.any_eq_true, not_exists, not_and] at h1
    exact h1 x (sub.subset hx)
  · exact h

/-! #### The marker queue (R126) -/

theorem mem_insertMark {e x : MarkEntry} {l : List MarkEntry} : x ∈ insertMark e l ↔ x = e ∨ x ∈ l := by
  induction l with
  | nil => simp [insertMark]
  | cons a l ih =>
    simp only [insertMark]; split
    · simp [ih]; tauto
    · simp

theorem insertMark_length (e : MarkEntry) (l : List MarkEntry) : (insertMark e l).length = l.length + 1 := by
  induction l with
  | nil => rfl
  | cons a l ih => simp only [insertMark]; split <;> simp [ih]

theorem insertMark_pairwise {e : MarkEntry} {l : List MarkEntry} (h : l.Pairwise (·.fire ≤ ·.fire)) :
    (insertMark e l).Pairwise (·.fire ≤ ·.fire) := by
  induction l with
  | nil => simp [insertMark]
  | cons a l ih =>
    obtain ⟨ha, hl⟩ := List.pairwise_cons.mp h
    simp only [insertMark]; split
    · next before =>
      refine List.pairwise_cons.mpr ⟨fun x hx => ?_, ih hl⟩
      rcases mem_insertMark.mp hx with rfl | hx
      · exact before
      · exact ha x hx
    · next after =>
      refine List.pairwise_cons.mpr ⟨fun x hx => ?_, h⟩
      rcases List.mem_cons.mp hx with rfl | hx
      · omega
      · have := ha x hx; omega

/-- A pulse end leaves of the queue its end. -/
theorem pulseScan_sublist (coord late : Nat) (l : List MarkEntry) : (pulseScan coord late l).2.2.Sublist l := by
  induction l with
  | nil => exact .slnil
  | cons e l ih =>
    simp only [pulseScan]; split_ifs
    · exact .refl _
    · exact List.sublist_cons_self ..
    · exact ih.cons e

/-! #### Strands: what marking and grading keep -/

/-- A strand of which the settings, the motion channel or the open billet change. -/
theorem Strand.Keeps.ofMotion {t u : Strand} (hm : u.marker.queue = t.marker.queue) (hw : u.billet.waiting = t.billet.waiting)
    (hc : t.motion.coord ≤ u.motion.coord) (htop : t.motion.coord ≤ topCoord → u.motion.coord ≤ topCoord)
    (hd : t.motion.debt ≤ 65535 → u.motion.debt ≤ 65535) : t.Keeps u :=
  ⟨fun ⟨a, b, c, d⟩ => ⟨htop a, hd b, hm ▸ c, hw ▸ d⟩, fun ⟨a, b⟩ => ⟨hw ▸ a, hm ▸ b⟩, hc⟩

/-- A strand of which the marker unit changes. -/
theorem Strand.Keeps.ofMarker (t : Strand) {m : Marker} (h : t.marker.queue.length ≤ 16 → m.queue.length ≤ 16)
    (ho : t.marker.queue.Pairwise (·.fire ≤ ·.fire) → m.queue.Pairwise (·.fire ≤ ·.fire)) :
    t.Keeps { t with marker := m } :=
  ⟨fun ⟨a, b, c, d⟩ => ⟨a, b, h c, d⟩, fun ⟨a, b⟩ => ⟨a, ho b⟩, Nat.le_refl _⟩

/-- A strand whose marker queue loses entries. -/
theorem Strand.Keeps.ofQueue (t : Strand) {m : Marker} (h : m.queue.Sublist t.marker.queue) : t.Keeps { t with marker := m } :=
  .ofMarker t (h.length_le.trans ·) (·.sublist h)

/-- A strand of which the open billet and the pending list change. -/
theorem Strand.Keeps.ofBillet (t : Strand) {b : Billets} (h : t.billet.waiting.length ≤ 64 → b.waiting.length ≤ 64)
    (ho : t.billet.waiting.Pairwise (fun a b => a.keyLt b = true) → b.waiting.Pairwise (fun a b => a.keyLt b = true)) :
    t.Keeps { t with billet := b } :=
  ⟨fun ⟨a, b, c, d⟩ => ⟨a, b, c, h d⟩, fun ⟨a, b⟩ => ⟨ho a, b⟩, Nat.le_refl _⟩

theorem quiet_modBillet (s : State) (k : Fin 6) (f : OpenBillet → OpenBillet) : s.Quiet (s.modBillet k f) :=
  quiet_setStrand s k (.ofBillet _ id id)

/-- A marker unit that keeps its queue. -/
theorem quiet_modMarker (s : State) (k : Fin 6) {f : Marker → Marker}
    (h : (f (s.strand k).marker).queue.Sublist (s.strand k).marker.queue) : s.Quiet (s.modMarker k f) :=
  quiet_setStrand s k (.ofQueue _ h)

@[simp] theorem Defect.remark_keyLt (d e : Defect) (l : Fin 12) (a b : Nat) (m : Mark) :
    (d.remark l a b m).keyLt (e.remark l a b m) = d.keyLt e := by
  simp only [Defect.remark]; split <;> split <;> rfl

theorem quiet_remarkRecord (k : Fin 6) (e : MarkEntry) (m : Mark) (s : State) : s.Quiet (remarkRecord k e m s) :=
  (quiet_setStrand s k (.ofBillet _ (by simp) (by simp [List.pairwise_map]))).trans
    (quiet_report _ ⟨by simp, id, id⟩)

theorem quiet_fireEntry (k : Fin 6) (e : MarkEntry) (s : State) : s.Quiet (fireEntry k e s) :=
  (quiet_modMarker s k (.refl _)).trans (quiet_remarkRecord ..)

theorem quiet_offerMark (k : Fin 6) (c : MarkSettings) (d : Defect) (s : State) : s.Quiet (offerMark k c d s).2 := by
  simp only [offerMark]
  split_ifs with shared late full fires
  · exact .refl s
  · exact quiet_setStrand s k (.ofQueue _ (.refl _))
  · exact quiet_setStrand s k (.ofQueue _ (.refl _))
  · exact quiet_fireEntry ..
  · refine quiet_setStrand s k (.ofMarker _ (fun _ => ?_) insertMark_pairwise)
    rw [insertMark_length]; omega

theorem quiet_markAdvance (k : Fin 6) (s : State) : s.Quiet (markAdvance k s) := by
  simp only [markAdvance]
  split
  · exact .refl s
  · next h =>
    split
    · exact (quiet_modMarker s k (by rw [h]; exact List.sublist_cons_self ..)).trans (quiet_fireEntry ..)
    · exact .refl s

theorem quiet_removeLate (k : Fin 6) (s : State) (e : MarkEntry) : s.Quiet (removeLate k s e) :=
  (quiet_modMarker s k (.refl _)).trans (quiet_remarkRecord ..)

theorem quiet_endPulse (k : Fin 6) (c : MarkSettings) (s : State) : s.Quiet (endPulse k c s) := by
  have scanned := (quiet_modMarker s k (f := fun m => { m with
    queue := (pulseScan (s.strand k).motion.coord c.lateMax (s.strand k).marker.queue).2.2 }) (pulseScan_sublist ..)).trans
      (.foldl (quiet_removeLate k) (pulseScan (s.strand k).motion.coord c.lateMax (s.strand k).marker.queue).1 _)
  simp only [endPulse]
  split
  · exact scanned.trans (quiet_fireEntry ..)
  · exact scanned.trans (quiet_modMarker _ k (.refl _))

theorem quiet_endDuePulse (k : Fin 6) (s : State) : s.Quiet (endDuePulse k s) := by
  simp only [endDuePulse]
  split
  · split
    · exact quiet_endPulse ..
    · exact .refl s
  · exact .refl s

theorem quiet_offerIfGraded (k : Fin 6) (d : Defect) (s : State) : s.Quiet (offerIfGraded k d s).2 := by
  simp only [offerIfGraded]
  split
  · exact .refl s
  · split
    · exact quiet_offerMark ..
    · exact .refl s

theorem quiet_gradeTrack (i : Fin 12) (n : Nat) (r : CloseReason) (h : Bool) (t : Track) (s : State) :
    s.Quiet (gradeTrack i n r h t s).2 := by
  simp only [gradeTrack]
  split
  · exact .refl s
  · next g _ =>
    split_ifs
    · exact quiet_setStrand s g.strand (.ofBillet _ id id)
    · exact quiet_setStrand s g.strand (.ofBillet _ id id)
    · exact quiet_offerIfGraded ..

theorem quiet_toPending (k : Fin 6) (d : Defect) (s : State) : s.Quiet (toPending k d s) :=
  quiet_setStrand s k (.ofBillet _ insertWaiting_length insertWaiting_pairwise)

theorem quiet_closeToPending (i : Fin 12) (n : Nat) (r : CloseReason) (s : State) (t : Track) :
    s.Quiet (closeToPending i n r s t) := by
  have graded := quiet_gradeTrack i n r false t s
  simp only [closeToPending]
  split
  · next h => rwa [h] at graded
  · next h => rw [h] at graded; exact graded.trans (quiet_toPending ..)

/-- A lane whose track table changes within its size. -/
theorem Lane.Keeps.ofTable (l : Lane) {m : TrackTable} (h : l.table.tracks.length ≤ 24 → m.tracks.length ≤ 24) :
    l.Keeps { l with table := m } :=
  ⟨fun ⟨a, b, c⟩ => ⟨a, h b, c⟩, fun ⟨a, b, c, d⟩ => ⟨a, b, c, d⟩, id, fun _ => id⟩

theorem quiet_drainTracks (i : Fin 12) (n : Nat) (s : State) : s.Quiet (drainTracks i n s) := by
  have emptied : s.Quiet (s.setLane i { s.lane i with table := { (s.lane i).table with tracks := [] } }) :=
    quiet_setLane s i (.ofTable _ fun _ => Nat.zero_le _) rfl
  exact emptied.trans (.foldl (quiet_closeToPending i n .drain) _ _)

/-! #### The cut (R115) -/

theorem quiet_splitLane (b : Nat) (acc : List Defect × State) (i : Fin 12) : acc.2.Quiet (splitLane b acc i).2 := by
  have split : acc.2.Quiet (acc.2.setLane i { acc.2.lane i with table := (acc.2.lane i).table.split b }) :=
    quiet_setLane _ i (.ofTable _ (by simp [TrackTable.split])) rfl
  simp only [splitLane]
  refine List.foldlRecOn (motive := fun a : List Defect × State => acc.2.Quiet a.2) _ _ split fun a ha t _ => ?_
  have graded := ha.trans (quiet_gradeTrack i ((acc.2.lane i).control.detect.getD Detect.zero).minLines .cut true t a.2)
  split
  · next h => rwa [h] at graded
  · next h => rwa [h] at graded

/-- A lane whose coverage runs change within their size. -/
theorem Lane.Keeps.ofRuns (l : Lane) {runs : List Run} (h : l.runs.length ≤ 16 → runs.length ≤ 16) :
    l.Keeps { l with runs := runs } :=
  ⟨fun ⟨a, b, c⟩ => ⟨a, b, h c⟩, fun ⟨a, b, c, d⟩ => ⟨a, b, c, d⟩, id, fun _ => id⟩

theorem trimRuns_length (b : Nat) (runs : List Run) : (trimRuns b runs).length ≤ runs.length := by
  simpa [trimRuns] using List.length_filter_le ..

theorem quiet_trimLanes (b : Nat) (s : State) (i : Fin 12) : s.Quiet (trimLanes b s i) :=
  quiet_setLane s i (.ofRuns _ (trimRuns_length b _).trans) rfl

theorem quiet_acceptCut (k : Fin 6) (c : StrandSetup) (b : Nat) (s : State) : s.Quiet (acceptCut k c b s) := by
  simp only [acceptCut]
  generalize hu : (if (splittingLanes s k b).length ≤ 1 then s else { s with choice := s.choice + (splittingLanes s k b).length }) = u
  generalize hv : (anyOrder s.choice (splittingLanes s k b)).foldl (splitLane b) ([], u) = v
  have chosen : s.Quiet u := by
    rw [← hu]; split
    · exact .refl s
    · exact quiet_unsized s s.global s.ports s.classify s.command s.loader _
  have divided : u.Quiet v.2 := by
    rw [← hv]
    exact List.foldlRecOn (motive := fun a : List Defect × State => u.Quiet a.2) _ _ (.refl u)
      fun a ha i _ => ha.trans (quiet_splitLane b a i)
  generalize hw : (boundLanes v.2 k).foldl (trimLanes b) v.2 = w
  have trimmed : v.2.Quiet w := by rw [← hw]; exact .foldl (quiet_trimLanes b) _ _
  have strands : w.strand k = v.2.strand k := by
    rw [← hw]
    exact List.foldlRecOn (motive := fun a : State => a.strand k = v.2.strand k) _ _ rfl fun a ha i _ => ha
  refine (chosen.trans (divided.trans trimmed)).trans (State.Quiet.trans ?_ (quiet_report _ (ReportUnit.keeps_takeJob ..)))
  rw [← strands]
  exact quiet_setStrand w k (.ofBillet _ ((List.length_filter_le ..).trans ·) (·.sublist (List.filter_sublist ..)))

theorem quiet_judgeCut (k : Fin 6) (c : StrandSetup) (s : State) : s.Quiet (judgeCut k c s) := by
  simp only [judgeCut]; split
  · exact quiet_acceptCut ..
  · exact quiet_emit ..

/-! #### The samples (R36 to R44) -/

/-- A motion channel whose coordinate and debt stand. -/
theorem quiet_modMotion (s : State) (k : Fin 6) {f : Motion → Motion} (hc : (f (s.strand k).motion).coord = (s.strand k).motion.coord)
    (hd : (f (s.strand k).motion).debt = (s.strand k).motion.debt) : s.Quiet (s.modMotion k f) :=
  quiet_setStrand s k (.ofMotion rfl rfl (by simp [hc]) (by simp [hc]) (by simp [hd]))

theorem quiet_stepForward (k : Fin 6) (s : State) : s.Quiet (stepForward k s) := by
  simp only [stepForward]
  split_ifs with debt room
  · exact quiet_setStrand s k (.ofMotion rfl rfl (Nat.le_refl _) id (by simp; omega))
  · have advanced : s.Quiet (s.modMotion k fun m => { m with coord := m.coord + 1 }) :=
      quiet_setStrand s k (.ofMotion rfl rfl (Nat.le_succ _) (fun _ => room) id)
    exact advanced.trans (quiet_markAdvance ..)
  · exact .refl s

theorem quiet_stepReverse (k : Fin 6) (s : State) : s.Quiet (stepReverse k s) := by
  simp only [stepReverse, testReverseReport]
  split
  · have raised : s.Quiet (s.modMotion k fun m => { m with debt := m.debt + 1 }) :=
      quiet_setStrand s k (.ofMotion rfl rfl (Nat.le_refl _) id (by simp; omega))
    split
    · exact raised
    · split
      · exact raised.trans ((quiet_modMotion _ k rfl rfl).trans (quiet_emit ..))
      · exact raised
  · exact .refl s

theorem quiet_decodeDue (k : Fin 6) (s : State) : s.Quiet (decodeDue k s) := by
  simp only [decodeDue]
  split
  · exact .refl s
  · next p _ =>
    have taken : s.Quiet (takePair k p s) := quiet_modMotion s k rfl rfl
    split
    · exact taken
    · exact taken.trans (quiet_stepForward ..)
    · exact taken.trans (quiet_stepReverse ..)
    · exact taken.trans (quiet_modMotion _ k rfl rfl)

theorem quiet_compareDue (k : Fin 6) (s : State) : s.Quiet (compareDue k s) := by
  simp only [compareDue]
  split
  · exact .refl s
  · next level _ =>
    have taken : s.Quiet (takeLevel k level s) := quiet_modMotion s k rfl rfl
    split
    · exact taken.trans (quiet_judgeCut ..)
    · exact taken

theorem quiet_finishSample (s : State) (k : Fin 6) : s.Quiet (finishSample s k) :=
  (quiet_decodeDue k s).trans ((quiet_compareDue k _).trans (quiet_endDuePulse k _))

end Sys2Proof.Machine


namespace Sys2Proof.Machine

/-! #### Line capture (chapter 2) -/

/-- A line capture unit whose buffers stand. -/
theorem Capture.Keeps.ofBuffers {c d : Capture} (ha : d.bufA = c.bufA) (hb : d.bufB = c.bufB) : c.Keeps d :=
  ⟨fun a b => ⟨ha ▸ a, hb ▸ b⟩, fun h => by simpa only [Capture.RolesDiffer, ha, hb] using h⟩

theorem Capture.keeps_putAssembling_free (c : Capture) : c.Keeps (c.putAssembling .free) := by
  obtain ⟨a, bufA, bufB, _⟩ := c
  constructor
  · cases bufA <;> cases bufB <;> simp +contextual [Capture.putAssembling, Buffer.tidy]
  · cases bufA <;> cases bufB <;> simp [Capture.RolesDiffer, Capture.putAssembling, Buffer.role]

theorem Capture.keeps_putWaiting_free (c : Capture) : c.Keeps (c.putWaiting .free) := by
  obtain ⟨a, bufA, bufB, _⟩ := c
  constructor
  · cases bufA <;> cases bufB <;> simp +contextual [Capture.putWaiting, Buffer.tidy]
  · cases bufA <;> cases bufB <;> simp [Capture.RolesDiffer, Capture.putWaiting, Buffer.role]

/-- The line being assembled is exchanged for a tidy one. -/
theorem Capture.keeps_putAssembling_assembling {c : Capture} {l : Line}
    (h : c.bufA.tidy = true → c.bufB.tidy = true → l.tidy = true) : c.Keeps (c.putAssembling (.assembling l)) := by
  obtain ⟨a, bufA, bufB, _⟩ := c
  constructor
  · intro ha hb
    have := h ha hb
    cases bufA <;> cases bufB <;> simp_all [Capture.putAssembling, Buffer.tidy]
  · cases bufA <;> cases bufB <;> simp [Capture.RolesDiffer, Capture.putAssembling, Buffer.role]

/-- The line being assembled waits, while one is in processing. -/
theorem Capture.keeps_putAssembling_waiting {c : Capture} {l : Line}
    (h : c.bufA.tidy = true → c.bufB.tidy = true → l.tidy = true) (busy : c.busy = true) :
    c.Keeps (c.putAssembling (.waiting l)) := by
  obtain ⟨a, bufA, bufB, _⟩ := c
  constructor
  · intro ha hb
    have := h ha hb
    cases bufA <;> cases bufB <;> simp_all [Capture.putAssembling, Buffer.tidy]
  · cases bufA <;> cases bufB <;>
      simp_all [Capture.RolesDiffer, Capture.putAssembling, Buffer.role, Capture.busy, Capture.inProcessing]

/-- The line being assembled is taken into processing, while none is. -/
theorem Capture.keeps_putAssembling_processing {c : Capture} {l : Line} {k : Copy}
    (h : c.bufA.tidy = true → c.bufB.tidy = true → l.tidy = true) (idle : c.busy = false) :
    c.Keeps (c.putAssembling (.processing l k)) := by
  obtain ⟨a, bufA, bufB, _⟩ := c
  constructor
  · intro ha hb
    have := h ha hb
    cases bufA <;> cases bufB <;> simp_all [Capture.putAssembling, Buffer.tidy]
  · cases bufA <;> cases bufB <;>
      simp_all [Capture.RolesDiffer, Capture.putAssembling, Buffer.role, Capture.busy, Capture.inProcessing]

theorem Capture.keeps_nextLine (c : Capture) (stopping : Bool) (k : Copy) : c.Keeps (c.nextLine stopping k) := by
  obtain ⟨a, bufA, bufB, _⟩ := c
  constructor
  · cases bufA <;> cases bufB <;> cases stopping <;>
      simp +contextual [Capture.nextLine, Capture.putProcessing, Capture.waitingLine, Capture.putWaiting, Buffer.tidy]
  · cases bufA <;> cases bufB <;> cases stopping <;>
      simp [Capture.RolesDiffer, Capture.nextLine, Capture.putProcessing, Capture.waitingLine, Capture.putWaiting, Buffer.role]

theorem Capture.tidy_of_assemblingLine {c : Capture} {l : Line} (h : c.assemblingLine = some l)
    (ha : c.bufA.tidy = true) (hb : c.bufB.tidy = true) : l.tidy = true := by
  obtain ⟨a, bufA, bufB, _⟩ := c
  cases bufA <;> cases bufB <;> simp_all [Capture.assemblingLine, Buffer.tidy]

theorem Capture.assemblingLine_putAssembling {c : Capture} {l m : Line} (h : c.assemblingLine = some l) :
    (c.putAssembling (.assembling m)).assemblingLine = some m := by
  obtain ⟨a, bufA, bufB, _⟩ := c
  cases bufA <;> cases bufB <;> simp_all [Capture.assemblingLine, Capture.putAssembling]

/-- With different roles, the line dropped was the only one being assembled. -/
theorem Capture.assemblingLine_putAssembling_free {c : Capture} (h : c.RolesDiffer) :
    (c.putAssembling .free).assemblingLine = none := by
  obtain ⟨a, bufA, bufB, _⟩ := c
  cases bufA <;> cases bufB <;> simp_all [Capture.assemblingLine, Capture.putAssembling, Capture.RolesDiffer, Buffer.role]

theorem quiet_makeTrailer (i : Fin 12) (line : Line) (st : TrailerStatus) (n m : Nat) (a b : Bool) (s : State) :
    s.Quiet (makeTrailer i line st n m a b s) := (requested_makeTrailer ..).quiet

theorem Requested.bufA {s t : State} (h : Requested s t) (i : Fin 12) : (t.lane i).capture.bufA = (s.lane i).capture.bufA := by
  obtain ⟨_, hl⟩ := h.lanes i; rw [hl]

theorem Requested.bufB {s t : State} (h : Requested s t) (i : Fin 12) : (t.lane i).capture.bufB = (s.lane i).capture.bufB := by
  obtain ⟨_, hl⟩ := h.lanes i; rw [hl]

theorem Requested.assemblingLine {s t : State} (h : Requested s t) (i : Fin 12) :
    (t.lane i).capture.assemblingLine = (s.lane i).capture.assemblingLine := by
  simp only [Capture.assemblingLine, h.bufA, h.bufB]

/-- A line starts in a free buffer, no other being assembled where the roles differ. -/
theorem Capture.keeps_startA {c d : Capture} {l : Line} (ha : d.bufA = .assembling l) (hb : d.bufB = c.bufB)
    (hl : l.tidy = true) (none : c.RolesDiffer → c.assemblingLine = none) : c.Keeps d := by
  refine ⟨fun _ tidy => ⟨by rw [ha]; exact hl, hb ▸ tidy⟩, fun differ => ?_⟩
  have none := none differ
  simp only [Capture.RolesDiffer, ha, hb]
  cases h : c.bufB <;> simp_all [Capture.assemblingLine, Buffer.role]
  split at none <;> simp_all

theorem Capture.keeps_startB {c d : Capture} {l : Line} (ha : d.bufA = c.bufA) (hb : d.bufB = .assembling l)
    (hl : l.tidy = true) (none : c.RolesDiffer → c.assemblingLine = none) : c.Keeps d := by
  refine ⟨fun tidy _ => ⟨ha ▸ tidy, by rw [hb]; exact hl⟩, fun differ => ?_⟩
  have none := none differ
  simp only [Capture.RolesDiffer, ha, hb]
  cases h : c.bufA <;> simp_all [Capture.assemblingLine, Buffer.role]

end Sys2Proof.Machine


namespace Sys2Proof.Machine

/-- A line starts, seen from a state of which no other line is being assembled where the roles differ. -/
theorem State.Quiet.startLine {r s : State} (h : r.Quiet s) (i : Fin 12) (g : Geometry) (slot : Nat)
    (none : (r.lane i).capture.RolesDiffer → (s.lane i).capture.assemblingLine = none) : r.Quiet (startLine i g slot s) := by
  have started {c : Capture} (hc : (s.lane i).capture.RolesDiffer → (s.lane i).capture.assemblingLine = Option.none →
      c.RolesDiffer) (ht : (s.lane i).capture.bufA.tidy = true → (s.lane i).capture.bufB.tidy = true →
      c.bufA.tidy = true ∧ c.bufB.tidy = true) : r.Quiet (s.setLane i { s.lane i with capture := c }) := by
    have lane := h.lanes i
    refine h.setLaneFrom ⟨fun z => ?_, fun z => ?_, fun z => hc (lane.roles z) (none z), fun t z => lane.range t z⟩ rfl
    · obtain ⟨a, b, c⟩ := lane.sized z; exact ⟨a, b, c⟩
    · obtain ⟨a, b, c, d⟩ := lane.tidy z
      obtain ⟨a, b⟩ := ht a b
      exact ⟨a, b, c, d⟩
  simp only [Machine.startLine]
  split_ifs with freeA freeB
  · refine started (fun z n => ?_) fun _ b => ⟨rfl, b⟩
    exact Capture.Keeps.roles (c := (s.lane i).capture) (Capture.keeps_startA rfl rfl (by rfl) fun _ => n) z
  · refine started (fun z n => ?_) fun a _ => ⟨a, rfl⟩
    exact Capture.Keeps.roles (c := (s.lane i).capture) (Capture.keeps_startB rfl rfl (by rfl) fun _ => n) z
  · refine State.Quiet.trans ?_ (quiet_makeTrailer ..)
    exact started (fun z _ => z) fun a b => ⟨a, b⟩

theorem quiet_dropAssembling (i : Fin 12) (st : TrailerStatus) (s : State) : s.Quiet (dropAssembling i st s) := by
  simp only [dropAssembling]
  split
  · exact .refl s
  · exact (quiet_modCapture s i (Capture.keeps_putAssembling_free _)).trans (quiet_makeTrailer ..)

/-- After a drop no line is being assembled. -/
theorem dropAssembling_assemblingLine (i : Fin 12) (st : TrailerStatus) {s : State}
    (h : (s.lane i).capture.RolesDiffer) : ((dropAssembling i st s).lane i).capture.assemblingLine = none := by
  simp only [dropAssembling]
  split
  · assumption
  · rw [(requested_makeTrailer ..).assemblingLine]
    simpa using Capture.assemblingLine_putAssembling_free h

theorem quiet_dropRunt (i : Fin 12) (s : State) : s.Quiet (dropRunt i s) := by
  simp only [dropRunt]
  split
  · exact .refl s
  · exact (quiet_modCapture s i (f := fun c => { c with counters := { c.counters with runt := bump c.counters.runt } })
      (.ofBuffers rfl rfl)).trans (quiet_dropAssembling ..)

theorem dropRunt_assemblingLine (i : Fin 12) {s : State} (h : (s.lane i).capture.RolesDiffer) :
    ((dropRunt i s).lane i).capture.assemblingLine = none := by
  simp only [dropRunt]
  split
  · assumption
  · exact dropAssembling_assemblingLine i _ (by simpa [Capture.RolesDiffer] using h)

theorem quiet_countOutOfSeq (i : Fin 12) (s : State) : s.Quiet (countOutOfSeq i s) := quiet_modCapture s i (.ofBuffers rfl rfl)

theorem quiet_countTrailerWrite (i : Fin 12) (s : State) : s.Quiet (countTrailerWrite i s) :=
  quiet_modCapture s i (.ofBuffers rfl rfl)

theorem quiet_enterSlot (i : Fin 12) (g : Geometry) (slot : Nat) (a : PartAction) (s : State) :
    s.Quiet (enterSlot i g slot a s) := by
  cases a with
  | current | outOfSeq => exact .refl s
  | start => exact (quiet_dropRunt i s).startLine i g slot (dropRunt_assemblingLine i)
  | resync =>
    have slipped (e : Event) : s.Quiet ((s.emit e).modCapture i fun c =>
        { c with counters := { c.counters with slip := bump c.counters.slip } }) :=
      (quiet_emit s e).trans (quiet_modCapture _ i (.ofBuffers rfl rfl))
    refine ((slipped _).trans (quiet_dropAssembling i .slip _)).startLine i g slot fun h => ?_
    exact dropAssembling_assemblingLine i .slip (by simpa [Capture.RolesDiffer] using h)

/-! ##### Copying and completion (R18, R23) -/

theorem canonical_foldl_copyBeat (data : List Byte) (beats : List RingBeat) (m : List Host.Cell) (h : canonical 0 m = true) :
    canonical 0 (beats.foldl (copyBeat data) m) = true := by
  refine List.foldlRecOn (motive := fun m => canonical 0 m = true) _ _ h fun m h b _ => ?_
  refine List.foldlRecOn (motive := fun m => canonical 0 m = true) _ _ h fun m h n _ => ?_
  split
  · exact canonical_storeAt _ _ _ _ h
  · exact h

theorem risingFrom_foldl_insertNum (l m : List Nat) (h : risingFrom 0 m = true) :
    risingFrom 0 (l.foldl insertNum m) = true :=
  List.foldlRecOn (motive := fun m => risingFrom 0 m = true) _ _ h
    fun m h n _ => risingFrom_insertNum m 0 n (Nat.zero_le n) h

theorem Line.tidy_iff {l : Line} : l.tidy = true ↔ canonical 0 l.bytes = true ∧ risingFrom 0 l.coverage = true := by
  simp [Line.tidy]

theorem Line.fill_tidy {l : Line} (h : l.tidy = true) (beats : List RingBeat) (data : List Byte) :
    (l.fill beats data).tidy = true := by
  obtain ⟨bytes, coverage⟩ := Line.tidy_iff.mp h
  exact Line.tidy_iff.mpr ⟨canonical_foldl_copyBeat data beats _ bytes, risingFrom_foldl_insertNum _ _ coverage⟩

/-- A complete line is handed on from the buffer that is being assembled. -/
theorem quiet_handOn (i : Fin 12) (slot : Nat) (line : Line) (s : State)
    (h : (s.lane i).capture.assemblingLine = some line) : s.Quiet (handOn i slot line s) := by
  have tidy := Capture.tidy_of_assemblingLine h
  have assembled {b : Buffer} (hb : (s.lane i).capture.Keeps ((s.lane i).capture.putAssembling b)) :
      s.Quiet (s.modCapture i fun c => { c.putAssembling b with assembler := .complete slot }) :=
    quiet_modCapture s i (hb.trans (.ofBuffers rfl rfl))
  simp only [handOn]
  split_ifs with bad busy
  · exact (assembled (Capture.keeps_putAssembling_free _)).trans (quiet_makeTrailer ..)
  · exact assembled (Capture.keeps_putAssembling_waiting tidy busy)
  · exact assembled (Capture.keeps_putAssembling_processing tidy (by simpa using busy))

theorem quiet_fillCurrent (i : Fin 12) (g : Geometry) (slot : Nat) (beats : List RingBeat) (acc : TakeAcc) :
    acc.s.Quiet (fillCurrent i g slot beats acc).s := by
  simp only [fillCurrent]
  split
  · next line _ h =>
    have filled : acc.s.Quiet (acc.s.modCapture i fun c => c.putAssembling (.assembling (line.fill beats acc.data))) :=
      quiet_modCapture _ i (Capture.keeps_putAssembling_assembling fun a b =>
        Line.fill_tidy (Capture.tidy_of_assemblingLine h a b) ..)
    split
    · exact filled.trans (quiet_handOn i slot _ _ (by simpa using Capture.assemblingLine_putAssembling h))
    · exact filled
  · exact quiet_countOutOfSeq ..
  · exact .refl _

theorem quiet_handleData (i : Fin 12) (g : Geometry) (slot : Nat) (z : Bool) (beats : List RingBeat) (acc : TakeAcc) :
    acc.s.Quiet (handleData i g slot z beats acc).s := by
  have entered := quiet_enterSlot i g slot (partAction (acc.s.lane i).capture.assembler g.n slot z) acc.s
  simp only [handleData]
  split
  · exact entered.trans (quiet_countOutOfSeq ..)
  all_goals exact entered.trans (quiet_fillCurrent i g slot beats ⟨_, _, acc.fed⟩)

theorem quiet_handlePart (i : Fin 12) (g : Geometry) (acc : TakeAcc) (part : Nat × List RingBeat) :
    acc.s.Quiet (handlePart i g acc part).s := by
  have data (p : Prop) [Decidable p] (slot : Nat) (z : Bool) (beats : List RingBeat) :
      acc.s.Quiet (if p then acc else handleData i g slot z beats acc).s := by
    split
    · exact .refl _
    · exact quiet_handleData ..
  have counted (p q : Prop) [Decidable p] [Decidable q] {a : TakeAcc} (h : acc.s.Quiet a.s) :
      acc.s.Quiet (if p then { a with s := countTrailerWrite i a.s }
        else if q then { a with s := countOutOfSeq i a.s } else a).s := by
    split_ifs
    · exact h.trans (quiet_countTrailerWrite ..)
    · exact h.trans (quiet_countOutOfSeq ..)
    · exact h
  exact counted _ _ (data ..)

theorem quiet_captureLane (r : Request) (acc : TakeAcc) (i : Fin 12) : acc.s.Quiet (captureLane r acc i).s := by
  simp only [captureLane]
  split
  · exact .refl _
  · next g _ =>
    exact List.foldlRecOn (motive := fun a : TakeAcc => acc.s.Quiet a.s) _ _ (.refl _)
      fun a ha part _ => ha.trans (quiet_handlePart i g a part)

theorem quiet_offerWrite (r : Request) (s : State) : s.Quiet (offerWrite r s).s := by
  simp only [offerWrite]
  refine List.foldlRecOn (motive := fun a : TakeAcc => s.Quiet a.s) _ _ ?_ fun a ha i _ => ha.trans (quiet_captureLane r a i)
  dsimp only; split
  · exact .refl s
  · exact quiet_unsized s s.global s.ports s.classify s.command s.loader _

/-! ##### Memory errors (R25) -/

theorem quiet_lineErrorNotice (s : State) (n : LineId) : s.Quiet (lineErrorNotice s n) := by
  have counted : s.Quiet (s.modCapture n.lane fun c =>
      { c with counters := { c.counters with memErrors := bump c.counters.memErrors } }) :=
    quiet_modCapture s n.lane (.ofBuffers rfl rfl)
  simp only [lineErrorNotice]
  generalize s.modCapture n.lane _ = u at counted
  have marked {l : Line} (h : (u.lane n.lane).capture.assemblingLine = some l) : s.Quiet (u.modCapture n.lane fun c =>
      c.putAssembling (.assembling { l with memError := true })) :=
    counted.trans (quiet_modCapture u n.lane (Capture.keeps_putAssembling_assembling fun a b => by
      simpa [Line.tidy_iff] using Capture.tidy_of_assemblingLine h a b))
  have dropped (w : Line) : s.Quiet (makeTrailer n.lane w .memError 0 0 false false
      (u.modCapture n.lane fun c => c.putWaiting .free)) :=
    counted.trans ((quiet_modCapture u n.lane (Capture.keeps_putWaiting_free _)).trans (quiet_makeTrailer ..))
  split
  · next h _ =>
    split_ifs
    · exact marked h
    · exact dropped _
    · exact counted
  · next h _ =>
    split
    · exact marked h
    · exact counted
  · split
    · exact dropped _
    · exact counted
  · exact counted

end Sys2Proof.Machine


namespace Sys2Proof.Machine

/-! #### The line-processed event (chapters 4, 5, 9) -/

theorem readingAt_lt (k : Copy) (bytes : List Host.Cell) (c : Nat) : readingAt k bytes c < 4096 := Nat.mod_lt _ (by decide)

/-- A reading after repair has 12 bits, as the readings it is made of (R51). -/
theorem repaired_lt {k : Copy} {x : Nat → Nat} {z : Zone} {c v : Nat} (hx : ∀ c, x c < 4096) (h : repaired k x z c = some v) :
    v < 4096 := by
  simp only [repaired] at h
  split at h
  · cases h; exact hx c
  · split at h
    · next a b _ _ => cases h; have := hx a; have := hx b; omega
    · next a _ _ => cases h; exact hx a
    · next b _ _ => cases h; exact hx b
    · cases h

/-- The background step moves B towards 16x: a rise (R61). -/
theorem backgroundStep_of_le {b x k : Nat} (h : b ≤ 16 * x) : backgroundStep b x k = b + (16 * x - b) / 2 ^ k := by
  have diff : ((16 * x : Int) - b) = ((16 * x - b : Nat) : Int) := by omega
  simp only [backgroundStep, diff]
  rw [Int.fdiv_eq_ediv_of_nonneg _ (by positivity)]
  norm_cast

/-- The background step moves B towards 16x: a fall, the floor toward minus infinity (R61). -/
theorem backgroundStep_of_lt {b x k : Nat} (h : 16 * x < b) :
    backgroundStep b x k = b - ((b - 16 * x) + (2 ^ k - 1)) / 2 ^ k := by
  have pos : 0 < 2 ^ k := by positivity
  have diff : ((16 * x : Int) - b) = -((b - 16 * x : Nat) : Int) := by omega
  simp only [backgroundStep, diff]
  rw [Int.fdiv_eq_ediv_of_nonneg _ (by positivity)]
  generalize b - 16 * x = d
  have ceil : (-(d : Int)) / ((2 : Int) ^ k) = -(((d + (2 ^ k - 1)) / 2 ^ k : Nat) : Int) := by
    have cast : ((2 : Int) ^ k) = ((2 ^ k : Nat) : Int) := by norm_cast
    rw [cast]
    generalize 2 ^ k = m at pos
    have whole := Nat.div_add_mod (d + (m - 1)) m
    have rest := Nat.mod_lt (d + (m - 1)) pos
    generalize (d + (m - 1)) / m = q at *
    generalize (d + (m - 1)) % m = r at *
    have whole : (m : Int) * q + r = d + m - 1 := by omega
    rw [Int.ediv_eq_iff_of_pos (by omega)]
    constructor <;> linarith [mul_comm (m : Int) q]
  rw [ceil]
  omega

/-- The background step stays between the two (R61). -/
theorem backgroundStep_between (b x k : Nat) :
    min b (16 * x) ≤ backgroundStep b x k ∧ backgroundStep b x k ≤ max b (16 * x) := by
  rcases Nat.lt_or_ge (16 * x) b with h | h
  · rw [backgroundStep_of_lt h]
    have : (b - 16 * x + (2 ^ k - 1)) / 2 ^ k ≤ b - 16 * x := by
      rw [Nat.div_le_iff_le_mul_add_pred (by positivity)]
      have : b - 16 * x ≤ 2 ^ k * (b - 16 * x) := Nat.le_mul_of_pos_left _ (by positivity)
      omega
    generalize (b - 16 * x + (2 ^ k - 1)) / 2 ^ k = q at this
    omega
  · rw [backgroundStep_of_le h]
    have := Nat.div_le_self (16 * x - b) (2 ^ k)
    generalize (16 * x - b) / 2 ^ k = q at this
    omega

end Sys2Proof.Machine


namespace Sys2Proof.Machine

/-- The new background of a column whose old one is in range (R59 to R61): no reading above 4,094 is taken in. -/
theorem newBackground_le {mode : LineMode} {shift : Nat} {segs : List Segment} {c : Column} (hb : c.background ≤ 65504)
    (hr : ∀ v, c.reading = some v → v < 4096) : newBackground mode shift segs c ≤ 65504 := by
  have step (x k : Nat) (hx : x < 4096) (h : x ≠ 4095) : backgroundStep c.background x k ≤ 65504 := by
    have := (backgroundStep_between c.background x k).2
    omega
  simp only [newBackground]
  split
  · exact hb
  · next x hx =>
    have small := hr x hx
    by_cases full : x = 4095
    · simpa [full] using hb
    · rw [if_neg full]
      cases mode with
      | firstSeed => simp only; omega
      | seed => exact step x 1 small full
      | detect =>
        dsimp only; split
        · exact hb
        · exact step x shift small full

/-- A list of backgrounds in canonical form, each in range (R61). -/
structure BackgroundSound (m : List (Nat × Nat)) : Prop where
  canonical : canonical 0 m = true
  range : ∀ c, lookupAt 0 m c ≤ 65504

theorem BackgroundSound.foldl_storeAt {m : List (Nat × Nat)} (h : BackgroundSound m) (v : Column → Nat) (cols : List Column)
    (hv : ∀ c ∈ cols, v c ≤ 65504) : BackgroundSound (cols.foldl (fun m c => storeAt 0 m c.col (v c)) m) := by
  refine List.foldlRecOn (motive := BackgroundSound) _ _ h fun m h c hc => ?_
  refine ⟨canonical_storeAt _ _ _ _ h.canonical, fun j => ?_⟩
  rw [lookupAt_storeAt_of_canonical _ _ _ _ _ h.canonical]
  split
  · exact hv c hc
  · exact h.range j

theorem canonical_foldl_storeAt (v : Column → Nat) (cols : List Column) (m : List (Nat × Nat)) (h : canonical 0 m = true) :
    canonical 0 (cols.foldl (fun m c => storeAt 0 m c.col (v c)) m) = true :=
  List.foldlRecOn (motive := fun m => canonical 0 m = true) _ _ h fun _ h _ _ => canonical_storeAt _ _ _ _ h

theorem detectLine_canonical {k : Copy} {bytes : List Host.Cell} {bg : List (Nat × Nat)} {mode : LineMode} {st : Bool}
    (h : canonical 0 bg = true) : canonical 0 (detectLine k bytes bg mode st).background = true := by
  simp only [detectLine]; split
  · exact h
  · exact canonical_foldl_storeAt _ _ _ h

theorem detectLine_range {k : Copy} {bytes : List Host.Cell} {bg : List (Nat × Nat)} {mode : LineMode} {st : Bool}
    (h : BackgroundSound bg) : BackgroundSound (detectLine k bytes bg mode st).background := by
  simp only [detectLine]; split
  · exact h
  · refine h.foldl_storeAt _ _ fun c hc => ?_
    obtain ⟨cols, hcols, hc⟩ := List.mem_flatten.mp hc
    obtain ⟨z, -, rfl⟩ := List.mem_map.mp hcols
    obtain ⟨-, n, -, -, rfl⟩ := (mem_zoneColumns k _ _ z c).mp hc
    rw [examine_eq]
    exact newBackground_le (h.range n) fun v hv => repaired_lt (readingAt_lt k bytes) hv

theorem detectLine_segments_length (k : Copy) (bytes : List Host.Cell) (bg : List (Nat × Nat)) (mode : LineMode) (st : Bool) :
    (detectLine k bytes bg mode st).segments.length ≤ 32 := List.length_take_le ..

theorem extendOldest_length {gap : Nat} {test : Bool} {g : Segment} {l m : List Track} (h : extendOldest gap test g l = some m) :
    m.length ≤ l.length := by
  induction l generalizing m with
  | nil => simp [extendOldest] at h
  | cons t l ih =>
    simp only [extendOldest] at h
    split at h
    · cases h; simpa using List.length_filter_le ..
    · obtain ⟨n, hn, rfl⟩ := Option.map_eq_some_iff.mp h
      simpa using ih hn

theorem LineTable.take_length {gap coord start : Nat} {test : Bool} {m : LineTable} (g : Segment)
    (h : m.old.length + m.fresh.length ≤ 24) :
    (m.take gap coord start test g).old.length + (m.take gap coord start test g).fresh.length ≤ 24 := by
  simp only [LineTable.take]
  split
  · next old he => have := extendOldest_length he; simp only; omega
  · split
    · simp; omega
    · exact h

theorem TrackTable.line_length (m : TrackTable) (d : Detect) (coord start : Nat) (test : Bool) (segs : List Segment)
    (h : m.tracks.length ≤ 24) : (m.line d coord start test segs).1.tracks.length ≤ 24 := by
  have taken : ∀ (l : List Segment) (t : LineTable), t.old.length + t.fresh.length ≤ 24 →
      (l.foldl (LineTable.take d.linkGap coord start test) t).old.length +
        (l.foldl (LineTable.take d.linkGap coord start test) t).fresh.length ≤ 24 := fun l t ht =>
    List.foldlRecOn (motive := fun t : LineTable => t.old.length + t.fresh.length ≤ 24) _ _ ht
      fun _ ht g _ => LineTable.take_length g ht
  simp only [TrackTable.line]
  refine (List.length_filter_le ..).trans ?_
  simpa using taken segs ⟨m.tracks, [], m.nextSerial, m.trackFull⟩ (by simpa using h)

theorem addRun_length {c span : Nat} {runs : List Run} (h : runs.length ≤ 16) : (addRun c span runs).length ≤ 16 := by
  simp only [addRun]
  split
  · simp
  · next e he =>
    split
    · have : runs ≠ [] := by rintro rfl; simp at he
      have := List.length_pos_iff.mpr this
      simp; omega
    · split
      · split
        · simp at h ⊢; omega
        · next room => simp at room ⊢; omega
      · next short =>
        match runs, short with
        | [], _ => simp
        | [a], _ => simp
        | a :: b :: rest, short => exact absurd rfl (short a b rest)

theorem quiet_processTracks (i : Fin 12) (k : Fin 6) (line : Line) (c : Copy) (d : Detected) (a b : Bool) (s : State) :
    s.Quiet (processTracks i k line c d a b s) := by
  simp only [processTracks]
  split
  · exact .refl s
  · exact (quiet_setLane s i (.ofTable _ fun h => TrackTable.line_length _ _ _ _ _ _ h) rfl).trans
      (.foldl (quiet_closeToPending i c.detect.minLines .gap) _ _)

theorem quiet_processCoverage (i : Fin 12) (g : Geometry) (line : Line) (d : Detected) (b : Bool) (s : State) :
    s.Quiet (processCoverage i g line d b s) := by
  simp only [processCoverage]
  split
  · exact .refl s
  · exact quiet_setLane s i (.ofRuns _ addRun_length) rfl

/-- A lane after its line has been through the arithmetic. -/
theorem Lane.keeps_afterLine (l : Lane) (line : Line) (k : Copy) (mode : LineMode) (st : Bool) :
    l.Keeps (l.afterLine line (detectLine k line.bytes l.detection.background mode st) st) where
  sized := fun ⟨_, b, c⟩ => ⟨detectLine_segments_length k line.bytes l.detection.background mode st, b, c⟩
  tidy := fun ⟨a, b, c, d⟩ => ⟨a, b, detectLine_canonical c, d⟩
  roles := id
  range := fun t r => (detectLine_range ⟨t.background, r⟩).range

/-- A lane's state changes as the table of R136 lists, and its event is queued. -/
theorem moves_changeLaneState (i : Fin 12) (new : LaneState) (cause : Cause) (line : Nat) (s : State)
    (h : (s.lane i).control.state.MovesTo new) : s.Moves (changeLaneState i new cause line s) := by
  have emitted : (s.setLane i { s.lane i with control := { (s.lane i).control with state := new } }).Quiet
      (changeLaneState i new cause line s) := quiet_emit ..
  refine State.Moves.quiet ⟨.setLane s i (.ofControl ..), rfl, fun j => ?_⟩ emitted
  rw [State.setLane_lane]; split
  · next e => exact e ▸ h
  · exact .inl rfl

theorem legalChange_off (a : LaneState) : legalChange a .off = true := by cases a <;> rfl

theorem moves_advanceState (i : Fin 12) (line : Line) (d : Detect) (st : Bool) (s : State) :
    s.Moves (advanceState i line d st s) := by
  have set {f : Control → Control} (h : (f (s.lane i).control).state = (s.lane i).control.state) : s.Moves (s.modControl i f) :=
    (quiet_modControl s i h).moves
  have change {f : Control → Control} {new : LaneState} (cause : Cause)
      (h : (f (s.lane i).control).state = (s.lane i).control.state)
      (legal : legalChange (s.lane i).control.state new = true) :
      s.Moves (changeLaneState i new cause line.seq (s.modControl i f)) :=
    (quiet_modControl s i h).then (moves_changeLaneState i new cause line.seq _ (.inr (by simpa [h] using legal)))
  simp only [advanceState]
  split
  · next h =>
    split
    · exact .refl s
    · exact change .firstLine rfl (by rw [h]; rfl)
  · next h =>
    split
    · exact .refl s
    · split
      · exact change .seeded rfl (by rw [h]; rfl)
      · exact set rfl
  · next h =>
    split
    · exact .refl s
    · split
      · exact set rfl
      · exact .refl s
  · next h =>
    split
    · split
      · exact change .stalled rfl (by rw [h]; rfl)
      · exact set rfl
    · exact set rfl
  · next h =>
    split
    · exact .refl s
    · exact change .moving rfl (by rw [h]; rfl)
  · exact .refl s
  · exact .refl s

theorem quiet_retire (st : Status) (s : State) : s.Quiet (retire st s) := (requested_retire st s).quiet

theorem quiet_request (b : Block) (s : State) : s.Quiet (request b s) := (requested_request b s).quiet

theorem quiet_completeDisarm (i : Fin 12) (s : State) : s.Quiet (completeDisarm i s) := by
  simp only [completeDisarm]
  split
  · split
    · exact quiet_retire ..
    · exact .refl _
  · exact .refl _

theorem moves_finishStopping (i : Fin 12) (line : Line) (d : Detect) (s : State) : s.Moves (finishStopping i line d s) :=
  ((quiet_drainTracks i d.minLines s).then
    (moves_changeLaneState i .off .stopped line.seq _ (.inr (legalChange_off _)))).quiet (quiet_completeDisarm i _)

theorem moves_processLine (i : Fin 12) (g : Geometry) (line : Line) (copy : Copy) (s : State) :
    s.Moves (processLine i g line copy s) := by
  simp only [processLine]
  generalize hst : judgeStationary copy.detect.minAdvance line.coord (s.lane i).capture.statRef = st
  generalize hmode : lineMode (s.lane i).control.governing (s.lane i).control.seed copy.detect.seedLines = mode
  have detected := quiet_setLane s i ((s.lane i).keeps_afterLine line copy mode st) rfl
  generalize hdet : detectLine copy line.bytes (s.lane i).detection.background mode st = det at *
  have processed := detected.trans ((quiet_makeTrailer i line (processedStatus (s.lane i).control.governing st)
    det.segments.length det.obscured det.overflow det.uncovered _).trans ((quiet_processTracks i g.strand line copy det
      (decide ((s.lane i).control.governing = .test)) st _).trans (quiet_processCoverage i g line det st _)))
  generalize processCoverage i g line det st _ = u at processed
  have next := processed.trans (quiet_modCapture u i (f := fun c => c.nextLine (decide ((s.lane i).control.state = .stopping))
    (u.lane i).settingsCopy) (Capture.keeps_nextLine ..))
  split
  · exact next.then (moves_finishStopping ..)
  · exact next.then (moves_advanceState ..)

end Sys2Proof.Machine


namespace Sys2Proof.Machine

/-! #### The path unit's events (chapter 1) -/

theorem issuedFirst_tail {α : Type} (f : α → Option Nat) {l : List α} (h : issuedFirst (l.map f)) : issuedFirst (l.tail.map f) := by
  rw [List.map_tail]; exact h.tail

/-- Marking the oldest WAITING request ISSUED keeps the ISSUED requests first. -/
theorem issuedFirst_issue {l : List (Option Nat)} (n : Nat) (h : issuedFirst l) (pre : List (Option Nat)) (post : List (Option Nat))
    (hl : l = pre ++ none :: post) (hp : ∀ x ∈ pre, x ≠ none) : issuedFirst (pre ++ some n :: post) := by
  subst hl
  obtain ⟨h1, h2, h3⟩ := List.pairwise_append.mp h
  exact List.pairwise_append.mpr ⟨h1, List.pairwise_cons.mpr ⟨nofun, (List.pairwise_cons.mp h2).2⟩,
    fun a ha _ _ none => absurd none (hp a ha)⟩

/-- A queue has a head (R4), or none of its requests is WAITING. -/
theorem exists_head {α : Type} (issue : α → Option Nat) (l : List α) :
    (∀ e ∈ l, issue e ≠ none) ∨ ∃ pre h post, l = pre ++ h :: post ∧ (∀ e ∈ pre, issue e ≠ none) ∧ issue h = none := by
  induction l with
  | nil => exact .inl nofun
  | cons a l ih =>
    by_cases ha : issue a = none
    · exact .inr ⟨[], a, l, rfl, nofun, ha⟩
    · rcases ih with all | ⟨pre, h, post, rfl, hp, hh⟩
      · exact .inl (List.forall_mem_cons.mpr ⟨ha, all⟩)
      · exact .inr ⟨a :: pre, h, post, rfl, List.forall_mem_cons.mpr ⟨ha, hp⟩, hh⟩

theorem issuePass_split (n : Nat) {pre post : List PassEntry} {h : PassEntry} (hp : ∀ e ∈ pre, e.issue ≠ none)
    (hh : h.issue = none) : issuePass n (pre ++ h :: post) = pre ++ { h with issue := some n } :: post := by
  induction pre with
  | nil => simp [issuePass, hh]
  | cons a pre ih =>
    obtain ⟨ha, hp⟩ := List.forall_mem_cons.mp hp
    simp [issuePass, ha, ih hp]

theorem issuePass_none (n : Nat) {l : List PassEntry} (h : ∀ e ∈ l, e.issue ≠ none) : issuePass n l = l := by
  induction l with
  | nil => rfl
  | cons a l ih =>
    obtain ⟨ha, hl⟩ := List.forall_mem_cons.mp h
    simp [issuePass, ha, ih hl]

theorem issueInj_split (n : Nat) {pre post : List InjEntry} {h : InjEntry} (hp : ∀ e ∈ pre, e.issue ≠ none)
    (hh : h.issue = none) : issueInj n (pre ++ h :: post) = pre ++ { h with issue := some n } :: post := by
  induction pre with
  | nil => simp [issueInj, hh]
  | cons a pre ih =>
    obtain ⟨ha, hp⟩ := List.forall_mem_cons.mp hp
    simp [issueInj, ha, ih hp]

theorem issueInj_none (n : Nat) {l : List InjEntry} (h : ∀ e ∈ l, e.issue ≠ none) : issueInj n l = l := by
  induction l with
  | nil => rfl
  | cons a l ih =>
    obtain ⟨ha, hl⟩ := List.forall_mem_cons.mp h
    simp [issueInj, ha, ih hl]

theorem issuePass_issuedFirst (n : Nat) {l : List PassEntry} (h : issuedFirst (l.map (·.issue))) :
    issuedFirst ((issuePass n l).map (·.issue)) ∧ (issuePass n l).length = l.length := by
  rcases exists_head (·.issue) l with all | ⟨pre, e, post, rfl, hp, he⟩
  · rw [issuePass_none n all]; exact ⟨h, rfl⟩
  · rw [issuePass_split n hp he]
    refine ⟨?_, by simp⟩
    simpa using issuedFirst_issue n h (pre.map (·.issue)) (post.map (·.issue)) (by simp [he]) (by simpa using hp)

theorem issueInj_issuedFirst (n : Nat) {l : List InjEntry} (h : issuedFirst (l.map (·.issue))) :
    issuedFirst ((issueInj n l).map (·.issue)) ∧ (issueInj n l).length = l.length := by
  rcases exists_head (·.issue) l with all | ⟨pre, e, post, rfl, hp, he⟩
  · rw [issueInj_none n all]; exact ⟨h, rfl⟩
  · rw [issueInj_split n hp he]
    refine ⟨?_, by simp⟩
    simpa using issuedFirst_issue n h (pre.map (·.issue)) (post.map (·.issue)) (by simp [he]) (by simpa using hp)

theorem issuePass_length (n : Nat) (l : List PassEntry) : (issuePass n l).length = l.length := by
  rcases exists_head (·.issue) l with all | ⟨pre, e, post, rfl, hp, he⟩
  · rw [issuePass_none n all]
  · rw [issuePass_split n hp he]; simp

theorem issueInj_length (n : Nat) (l : List InjEntry) : (issueInj n l).length = l.length := by
  rcases exists_head (·.issue) l with all | ⟨pre, e, post, rfl, hp, he⟩
  · rw [issueInj_none n all]
  · rw [issueInj_split n hp he]; simp

/-- Of the part the path unit and the ports alone change. -/
theorem moves_path (s : State) {p : Path} (o : Ports) (h : s.path.Keeps p) : s.Moves { s with path := p, ports := o } where
  lanes := fun _ => .refl _
  strands := fun _ => .refl _
  path := h
  report := .refl _
  clock := rfl
  control := fun _ => .inl rfl

theorem moves_takeRequest (u : UpRequest) (s : State) (room : s.path.pass.length < 32) : s.Moves (takeRequest u s) := by
  have taken (acc : TakeAcc) (h : s.Quiet acc.s) (x n : Nat) (e : PassEntry) (he : e.issue = none) (q : List InjEntry)
      (hq : q.map (·.issue) = acc.s.path.injected.map (·.issue)) : s.Moves { acc.s with
        choice := x, path := { acc.s.path with pass := acc.s.path.pass ++ [e], injected := q, nextOrder := n } } := by
    have chosen : s.Quiet { acc.s with choice := x } := h.trans
      (quiet_unsized acc.s acc.s.global acc.s.ports acc.s.classify acc.s.command acc.s.loader x)
    have length : q.length = acc.s.path.injected.length := by simpa using congrArg List.length hq
    refine chosen.then (moves_path { acc.s with choice := x } _ ⟨fun _ => ?_, fun h => length ▸ h, fun ⟨a, b⟩ => ⟨?_, ?_⟩⟩)
    · simp [h.pass]; omega
    · rw [List.map_append]; exact issuedFirst_append a (by simp [he])
    · simp only [hq]; exact b
  have shifted (p : Prop) [Decidable p] (n : Nat) (q : List InjEntry) :
      (if p then q else shiftOrders n q).map (·.issue) = q.map (·.issue) := by
    split
    · rfl
    · simp only [shiftOrders, List.map_map]
      exact List.map_congr_left fun e _ => by simp only [Function.comp]; split <;> rfl
  refine taken _ ?_ _ _ _ rfl _ (shifted ..)
  split
  · exact quiet_offerWrite ..
  · exact .refl s

theorem moves_execIssueOpportunity {s t : State} (h : execIssueOpportunity s = .next t) : s.Moves t := by
  simp only [execIssueOpportunity] at h
  split at h <;> cases h
  · exact .refl s
  · exact moves_path s _ ⟨fun h => by rw [issuePass_length]; exact h, id, fun ⟨a, b⟩ => ⟨(issuePass_issuedFirst _ a).1, b⟩⟩
  · exact moves_path s _ ⟨id, fun h => by rw [issueInj_length]; exact h, fun ⟨a, b⟩ => ⟨a, (issueInj_issuedFirst _ b).1⟩⟩

theorem ReportUnit.keeps_consumerUpdate (r : ReportUnit) (v : Nat) : r.Keeps (r.consumerUpdate v) := by
  simp only [ReportUnit.consumerUpdate]; split <;> exact ⟨id, id, id⟩

theorem ReportUnit.keeps_recordDone (r : ReportUnit) (run : Nat) : r.Keeps (r.recordDone run) := by
  simp only [ReportUnit.recordDone]
  split
  · split
    · split <;> exact ⟨id, id, id⟩
    · exact ⟨id, id, id⟩
    · exact .refl r
  · exact .refl r

theorem ReportUnit.keeps_producerDone (r : ReportUnit) (run v : Nat) : r.Keeps (r.producerDone run v) := by
  simp only [ReportUnit.producerDone]
  split
  · split
    · exact ⟨id, id, id⟩
    · exact .refl r
  · exact .refl r

/-- The command unit changes alone. -/
theorem quiet_command (s : State) (m : CommandUnit) : s.Quiet { s with command := m } :=
  quiet_unsized s s.global s.ports s.classify m s.loader s.choice

theorem quiet_offerCompleted (m : Fin 16) (r : Request) (s : State) : s.Quiet (offerCompleted m r s) := by
  simp only [offerCompleted]
  split
  · next base _ _ _ _ =>
    split
    · split
      · have consumed (p : Prop) [Decidable p] (v : Nat) :
            s.Quiet (if p then { s with report := s.report.consumerUpdate v } else s) := by
          split
          · exact quiet_report s (ReportUnit.keeps_consumerUpdate ..)
          · exact .refl s
        have counted (p : Prop) [Decidable p] {u : State} (h : s.Quiet u) : s.Quiet (if p then countForeign u else u) := by
          split
          · exact h.trans (quiet_command ..)
          · exact h
        have produced (p : Prop) [Decidable p] (v : Nat) {u : State} (h : s.Quiet u) :
            s.Quiet (if p then takeProducer v u else u) := by
          split
          · exact h.trans ((quiet_command ..).trans (quiet_request ..))
          · exact h
        exact produced _ _ (counted _ (consumed _ _))
      · exact quiet_command ..
    · exact .refl s
  · exact .refl s

theorem quiet_fetchDone (okay : Bool) (data : List Byte) (s : State) : s.Quiet (fetchDone okay data s) := by
  simp only [fetchDone]
  split
  · split
    · exact quiet_command ..
    · exact (quiet_raise ..).trans (quiet_retire ..)
  · exact .refl s

theorem moves_completePass (e : PassEntry) (okay : Bool) (data : List Byte) (s : State) : s.Moves (completePass e okay data s) := by
  have answered (o : Ports) : s.Moves { s with path := { s.path with pass := s.path.pass.tail }, ports := o } :=
    moves_path s o ⟨fun h => by simp; omega, id, fun ⟨a, b⟩ => ⟨issuedFirst_tail _ a, b⟩⟩
  simp only [completePass]
  split
  · exact answered _
  · split
    · exact (answered _).quiet (quiet_offerCompleted ..)
    · split
      · exact (answered _).quiet (.foldl quiet_lineErrorNotice _ _)
      · exact answered _

theorem quiet_made (b : Block) (s : State) : s.Quiet (made b s) := by
  cases b with
  | lane i => exact quiet_setLane s i (.ofCapture (.ofBuffers rfl rfl) rfl rfl rfl rfl rfl) rfl
  | command => exact quiet_command ..
  | report =>
    obtain ⟨_, _, _, _, h⟩ := ReportUnit.afterMade_frame s.report
    exact quiet_report s (by rw [h]; exact ⟨id, id, id⟩)

/-- The wait list changes alone. -/
theorem quiet_waitList (s : State) (l : List Block) : s.Quiet { s with path := { s.path with waitList := l } } :=
  (requested_waitList s l).quiet

/-- A place is freed for the wait list; with a request in it before, the queue keeps its size. -/
theorem moves_serveWaiting (s : State) (held : s.path.injected ≠ []) :
    s.Moves (serveWaiting { s with path := { s.path with injected := s.path.injected.tail } }) := by
  have freed (l : List Block) : s.Moves { s with path := { s.path with injected := s.path.injected.tail, waitList := l } } :=
    moves_path s s.ports ⟨id, fun h => by simp; omega, fun ⟨a, b⟩ => ⟨a, issuedFirst_tail _ b⟩⟩
  have served (l : List Block) (w : Request × Purpose) : s.Moves { s with
      path := { s.path with injected := s.path.injected.tail, waitList := l }.inject w } := by
    refine moves_path s s.ports ⟨id, fun h => ?_, fun ⟨a, b⟩ => ⟨a, ?_⟩⟩
    · have := List.length_pos_iff.mpr held
      simp; omega
    · rw [Path.inject_injected, List.map_append]
      exact issuedFirst_append (issuedFirst_tail _ b) (by simp)
  simp only [serveWaiting]
  split
  · next h => exact h ▸ freed s.path.waitList
  · next b rest _ =>
    split
    · exact freed rest
    · next w _ =>
      have made := (served rest w).quiet (quiet_made b _)
      split
      · exact made.quiet (quiet_waitList ..)
      · exact made

theorem quiet_deliver (e : InjEntry) (okay : Bool) (data : List Byte) (s : State) : s.Quiet (deliver e okay data s) := by
  simp only [deliver]
  split
  · exact quiet_fetchDone ..
  · exact (quiet_report s (ReportUnit.keeps_recordDone ..)).trans (quiet_request ..)
  · exact quiet_report s (ReportUnit.keeps_producerDone ..)
  all_goals exact .refl s

theorem moves_completeInj (e : InjEntry) (okay : Bool) (data : List Byte) (s : State) (held : s.path.injected ≠ []) :
    s.Moves (completeInj e okay data s) := by
  have raised (p : Prop) [Decidable p] (n : Nat) {u : State} (h : s.Moves u) :
      s.Moves (if p then u.raise .injectWriteError n else u) := by
    split
    · exact h.quiet (quiet_raise ..)
    · exact h
  exact (raised _ _ (moves_serveWaiting s held)).quiet (quiet_deliver e okay data _)

theorem moves_execDownstreamResponse {okay : Bool} {data : List Byte} {s t : State}
    (h : execDownstreamResponse okay data s = .next t) : s.Moves t := by
  have held {e : InjEntry} {n : Nat} (h : s.path.oldestInj = some (e, n)) : s.path.injected ≠ [] := by
    intro none; simp [Path.oldestInj, none] at h
  simp only [execDownstreamResponse] at h
  split at h
  · cases h; exact moves_path s s.ports ⟨id, id, id⟩
  · split at h
    · cases h; exact .refl s
    · cases h; exact moves_completePass ..
    · next hi => cases h; exact moves_completeInj _ _ _ _ (held hi)
    · next hi =>
      split at h <;> cases h
      · exact moves_completePass ..
      · exact moves_completeInj _ _ _ _ (held hi)

end Sys2Proof.Machine


namespace Sys2Proof.Machine

/-! #### The commands carried out (chapters 9, 10) -/

/-- A lane that is emptied at ARM or at a reset: its buffers free, its lists empty. -/
theorem Lane.keeps_emptied {l m : Lane} (ha : m.capture.bufA = .free) (hb : m.capture.bufB = .free)
    (hg : m.detection.background = []) (hs : m.detection.segments = []) (ht : m.table.tracks = []) (hr : m.runs = [])
    (hd : risingFrom 0 l.detection.dead = true → risingFrom 0 m.detection.dead = true) : l.Keeps m where
  sized := fun _ => ⟨by simp [hs], by simp [ht], by simp [hr]⟩
  tidy := fun t => ⟨by rw [ha]; rfl, by rw [hb]; rfl, by rw [hg]; rfl, hd t.dead⟩
  roles := fun _ => by simp [Capture.RolesDiffer, ha, hb, Buffer.role]
  range := fun _ _ c => by simp [hg, lookupAt]

theorem Lane.keeps_atArm (l : Lane) : l.Keeps l.atArm := keeps_emptied rfl rfl rfl rfl rfl rfl id

theorem Lane.keeps_atLaneReset (l : Lane) : l.Keeps l.atLaneReset := keeps_emptied rfl rfl rfl rfl rfl rfl id

theorem Lane.keeps_atBayReset (l : Lane) (keep : Bool) : l.Keeps (l.atBayReset keep) := by
  refine keeps_emptied rfl rfl rfl rfl rfl rfl fun h => ?_
  cases keep
  · rfl
  · exact h

theorem quiet_modBoundBillet (i : Fin 12) (f : OpenBillet → OpenBillet) (s : State) : s.Quiet (modBoundBillet i f s) := by
  simp only [modBoundBillet]
  split
  · exact .refl s
  · exact quiet_modBillet ..

theorem quiet_leaveBillet (i : Fin 12) (k : Fin 6) (s : State) : s.Quiet (leaveBillet i k s) := by
  simp only [leaveBillet]
  split
  · exact .refl s
  · split
    · exact quiet_modBillet ..
    · exact .refl s

theorem quiet_doLaneGeometry (i : Fin 12) (p : GeometryParams) (s : State) : s.Quiet (doLaneGeometry i p s).2 := by
  simp only [doLaneGeometry]
  split
  · exact .refl s
  · split
    · exact .refl s
    · next g _ =>
      have given (l : Lane) : l.Keeps (l.withGeometry g) :=
        (Lane.Keeps.ofRuns l (runs := []) fun _ => Nat.zero_le _).trans (.ofControl ..)
      exact (quiet_leaveBillet i g.strand s).trans (quiet_setLane _ i (given _) rfl)

theorem quiet_doLaneZones (i : Fin 12) (n : Nat) (z : List ZoneParams) (s : State) : s.Quiet (doLaneZones i n z s).2 := by
  simp only [doLaneZones]
  split
  · exact .refl s
  · split
    · exact .refl s
    · split
      · exact .refl s
      · split
        · exact .refl s
        · split
          · exact quiet_setLane s i (.ofControl ..) rfl
          · exact .refl s

theorem risingFrom_markColumns {dead : List Nat} (first count : Nat) (mark : Bool) (h : risingFrom 0 dead = true) :
    risingFrom 0 (markColumns dead first count mark) = true := by
  simp only [markColumns]
  split
  · exact List.foldlRecOn (motive := fun m => risingFrom 0 m = true) _ _ h
      fun m h n _ => risingFrom_insertNum m 0 _ (Nat.zero_le _) h
  · exact risingFrom_filter _ _ _ h

theorem quiet_doDeadColumns (i : Fin 12) (first count action : Nat) (s : State) :
    s.Quiet (doDeadColumns i first count action s).2 := by
  simp only [doDeadColumns]
  split
  · exact .refl s
  · exact quiet_setLane s i ⟨fun ⟨a, b, c⟩ => ⟨a, b, c⟩, fun ⟨a, b, c, d⟩ => ⟨a, b, c, risingFrom_markColumns _ _ _ d⟩, id,
      fun _ => id⟩ rfl

theorem quiet_doLaneDetect (i : Fin 12) (d : Detect) (s : State) : s.Quiet (doLaneDetect i d s).2 :=
  quiet_setLane s i (.ofControl ..) rfl

theorem quiet_doStrandSetup (k : Fin 6) (c : StrandSetup) (s : State) : s.Quiet (doStrandSetup k c s).2 := by
  simp only [doStrandSetup]
  split
  · exact .refl s
  · exact quiet_setStrand s k (.ofMotion rfl rfl (Nat.le_refl _) id id)

theorem quiet_doStrandMarking (k : Fin 6) (c : MarkSettings) (s : State) : s.Quiet (doStrandMarking k c s).2 := by
  have finished := quiet_finishSample s k
  simp only [doStrandMarking]
  split
  · exact finished
  · exact finished.trans (quiet_setStrand _ k (.ofQueue _ (.refl _)))

theorem quiet_doClassifySetup (c : Classify) (s : State) : s.Quiet (doClassifySetup c s).2 := by
  simp only [doClassifySetup]
  split
  · exact quiet_unsized s s.global s.ports _ s.command s.loader s.choice
  · exact .refl s

theorem quiet_doReportSetup (c : ReportSettings) (s : State) : s.Quiet (doReportSetup c s).2 := by
  simp only [doReportSetup]
  split
  · exact .refl s
  · split
    · exact .refl s
    · exact quiet_report s ⟨id, id, id⟩

theorem moves_doArm (i : Fin 12) (s : State) : s.Moves (doArm i s).2 := by
  simp only [doArm]
  split_ifs with running off complete
  · exact .refl s
  · exact .refl s
  · exact .refl s
  · have off : (s.lane i).control.state = .off := by simpa using off
    have armed := (quiet_setLane s i (s.lane i).keeps_atArm rfl).trans (quiet_modBoundBillet i (fun b => b.join i) _)
    refine armed.then (moves_changeLaneState i .armed .arm 0 _ (.inr ?_))
    rw [armed.control, off]; rfl

theorem moves_doReseed (i : Fin 12) (s : State) : s.Moves (doReseed i s).2 := by
  have cleared : s.Quiet (s.modControl i fun c => { c with seed := 0 }) := quiet_modControl s i rfl
  have reseeded (h : legalChange (s.lane i).control.state .seeding = true) :=
    cleared.then (moves_changeLaneState i .seeding .reseed 0 _ (.inr (by rw [cleared.control]; exact h)))
  simp only [doReseed]
  split
  · exact .refl s
  · exact .refl s
  · exact cleared.moves
  · exact cleared.moves
  · exact cleared.moves
  · next h => exact reseeded (by rw [h]; rfl)
  · next h => exact reseeded (by rw [h]; rfl)

theorem moves_doTestOn (i : Fin 12) (p : TestParams) (s : State) : s.Moves (doTestOn i p s).2 := by
  simp only [doTestOn]
  generalize p.clamped (((s.lane i).control.geometry.map (·.w)).getD 0) = q
  have given : s.Quiet (s.setLane i ((s.lane i).withTest q)) :=
    quiet_setLane s i (.ofCapture (.ofBuffers rfl rfl) rfl rfl rfl rfl rfl) rfl
  have seen := given.trans (quiet_modBoundBillet i (fun b => { b with testSeen := true }) _)
  have entered (h : legalChange (s.lane i).control.state .test = true) :=
    seen.then (moves_changeLaneState i .test .testOn 0 _ (.inr (by rw [seen.control]; exact h)))
  split
  · exact .refl s
  · exact .refl s
  · exact given.moves
  all_goals next h => exact entered (by rw [h]; rfl)

theorem moves_doTestOff (i : Fin 12) (s : State) : s.Moves (doTestOff i s).2 := by
  have cleared : s.Quiet (s.modControl i fun c => { c with seed := 0 }) := quiet_modControl s i rfl
  simp only [doTestOff]
  split
  · exact .refl s
  · exact .refl s
  · next h => exact cleared.then (moves_changeLaneState i .seeding .testOff 0 _ (.inr (by rw [cleared.control, h]; rfl)))
  all_goals exact .refl s

theorem moves_doTest (i : Fin 12) (action : Nat) (p : TestParams) (s : State) : s.Moves (doTest i action p s).2 := by
  simp only [doTest]
  split_ifs
  · exact .refl s
  · exact moves_doTestOn ..
  · exact moves_doTestOff ..
  · exact .refl s

theorem Capture.keeps_atDisarm (c : Capture) : c.Keeps c.atDisarm := (keeps_putAssembling_free c).trans (.ofBuffers rfl rfl)

/-- Every armed state may pass to STOPPING. -/
theorem movesTo_stopping {a : LaneState} (h : a ≠ .off) : a.MovesTo .stopping := by
  cases a
  case off => exact absurd rfl h
  case stopping => exact .inl rfl
  all_goals exact .inr rfl

theorem moves_doDisarm (i : Fin 12) (s : State) : s.Moves (doDisarm i s).2 := by
  simp only [doDisarm]
  split_ifs with off busy
  · exact .refl s
  · have abandoned : s.Quiet (s.setLane i { s.lane i with
        capture := (s.lane i).capture.atDisarm
        control := { (s.lane i).control with stateLeft := some (s.lane i).control.state } }) :=
      quiet_setLane s i (.ofCapture (Capture.keeps_atDisarm _) rfl rfl rfl rfl rfl) rfl
    exact abandoned.then (moves_changeLaneState i .stopping .disarm 0 _ (by rw [abandoned.control]; exact movesTo_stopping off))
  · have abandoned : s.Quiet (s.modCapture i Capture.atDisarm) := quiet_modCapture s i (Capture.keeps_atDisarm _)
    exact (abandoned.trans (quiet_drainTracks ..)).then
      (moves_changeLaneState i .off .disarm 0 _ (.inr (legalChange_off _)))

theorem moves_presetDisarm (i : Fin 12) (s : State) : s.Moves (presetDisarm i s).2 := by
  have disarmed := moves_doDisarm i s
  simp only [presetDisarm]
  split
  · next h => rwa [h] at disarmed
  · exact .refl s

theorem Path.keeps_withdraw (p : Path) (b : Block) : p.Keeps (p.withdraw b) := ⟨id, id, id⟩

theorem moves_doLaneReset (i : Fin 12) (s : State) : s.Moves (doLaneReset i s).2 := by
  have reset : s.Moves { s.setLane i (s.lane i).atLaneReset with path := s.path.withdraw (.lane i) } := by
    refine ⟨⟨(State.Keeps.setLane s i (s.lane i).keeps_atLaneReset).lanes, fun _ => .refl _, Path.keeps_withdraw .., .refl _⟩,
      rfl, fun j => ?_⟩
    show LaneState.MovesTo _ ((s.setLane i (s.lane i).atLaneReset).lane j).control.state
    rw [State.setLane_lane]; split
    · exact .inr (legalChange_off _)
    · exact .inl rfl
  simp only [doLaneReset]
  split
  · exact reset
  · exact reset.quiet (quiet_emit ..)

theorem moves_onLane {t : Nat} {f : Fin 12 → State → Status × State} {s : State} (h : ∀ i, s.Moves (f i s).2) :
    s.Moves (onLane t f s).2 := by
  simp only [onLane]
  split
  · exact h _
  · exact .refl s

theorem moves_onStrand {t : Nat} {f : Fin 6 → State → Status × State} {s : State} (h : ∀ k, s.Moves (f k s).2) :
    s.Moves (onStrand t f s).2 := by
  simp only [onStrand]
  split
  · exact h _
  · exact .refl s

/-- A command of 12.4, carried out as a preset or as a host command, moves lanes as the table of R136 lists. -/
theorem moves_carryPreset (c : Command) (s : State) : s.Moves (carryPreset c s).2 := by
  cases c with
  | laneGeometry t p => exact moves_onLane fun i => (quiet_doLaneGeometry i p s).moves
  | laneZones t n z => exact moves_onLane fun i => (quiet_doLaneZones i n z s).moves
  | deadColumns t f n a => exact moves_onLane fun i => (quiet_doDeadColumns i f n a s).moves
  | laneDetect t d => exact moves_onLane fun i => (quiet_doLaneDetect i d s).moves
  | strandSetup t c => exact moves_onStrand fun k => (quiet_doStrandSetup k c s).moves
  | strandMarking t c => exact moves_onStrand fun k => (quiet_doStrandMarking k c s).moves
  | classifySetup q => exact (quiet_doClassifySetup q s).moves
  | reportSetup c => exact (quiet_doReportSetup c s).moves
  | arm t => exact moves_onLane fun i => moves_doArm i s
  | disarm t => exact moves_onLane fun i => moves_presetDisarm i s
  | reseed t => exact moves_onLane fun i => moves_doReseed i s
  | test t a p => exact moves_onLane fun i => moves_doTest i a p s
  | laneReset t => exact moves_onLane fun i => moves_doLaneReset i s
  | clearFault => exact (quiet_report s (r := s.report.cleared) ⟨id, id, fun _ => Nat.zero_le 255⟩).moves
  | snapshot | bayReset _ | unknown _ => exact .refl s

theorem quiet_writeZeroProducer (s : State) : s.Quiet (writeZeroProducer s) := (requested_writeZeroProducer s).quiet

theorem quiet_hold (h : Held) (s : State) : s.Quiet (hold h s) := by
  simp only [hold]
  split
  · exact quiet_command ..
  · exact .refl s

/-- A bay reset takes every lane to OFF. -/
theorem moves_bayReset (keep : Bool) (s : State) : s.Moves (bayReset keep s) where
  lanes := fun i => by simpa [bayReset] using (s.lane i).keeps_atBayReset keep
  strands := fun k => by
    simp only [bayReset, State.mk_strand, buildStrands_get]
    exact ⟨fun z => ⟨z.coord, z.debt, Nat.zero_le _, Nat.zero_le _⟩, fun _ => ⟨.nil, .nil⟩, Nat.le_refl _⟩
  path := ⟨id, id, id⟩
  report := ⟨fun _ => Nat.zero_le _, fun _ => Nat.zero_le _, id⟩
  clock := rfl
  control := fun i => by
    simp only [bayReset, State.mk_lane, buildLanes_get]
    cases keep <;> exact .inr (legalChange_off _)

/-! #### Start-up (chapter 11) -/

theorem quiet_enterRunning (s : State) : s.Quiet (enterRunning s) :=
  (quiet_unsized s _ s.ports s.classify _ _ s.choice).trans ((quiet_request ..).trans (quiet_writeZeroProducer _))

theorem quiet_runIfPresetsDone (s : State) : s.Quiet (runIfPresetsDone s) := by
  simp only [runIfPresetsDone]
  split
  · exact quiet_enterRunning s
  · exact .refl s

theorem quiet_presetFault (st : Status) (n : Nat) (s : State) : s.Quiet (presetFault st n s) := by
  cases st with
  | done | doneClamped => exact .refl s
  | _ => exact quiet_raise ..

theorem moves_runPreset (place : List Byte) (n : Nat) (s : State) : s.Moves (runPreset place n s) :=
  (moves_carryPreset _ s).quiet ((quiet_unsized _ _ _ _ _ _ _).trans (quiet_presetFault _ n _))

theorem moves_execStoreReadEnd {bytes : List Byte} {s t : State} (h : execStoreReadEnd bytes s = .next t) : s.Moves t := by
  have passOnly (p : Partition) : s.Moves (enterPassOnly p s) := (quiet_unsized s _ s.ports s.classify s.command _ s.choice).moves
  simp only [execStoreReadEnd] at h
  split at h
  · split at h
    · cases h; exact passOnly _
    · split at h <;> cases h
      · exact ((quiet_unsized s s.global s.ports s.classify _ _ s.choice).trans (quiet_runIfPresetsDone _)).moves
      · exact passOnly _
  · cases h; exact .refl s

theorem moves_execPresetHandover {s t : State} (h : execPresetHandover s = .next t) : s.Moves t := by
  simp only [execPresetHandover] at h
  split at h
  · cases h; exact .refl s
  · split at h <;> cases h
    · exact (moves_runPreset ..).quiet (quiet_runIfPresetsDone _)
    · exact .refl s

/-! #### The report unit's starts (10.4) -/

theorem quiet_execJobStart {s t : State} (h : execJobStart s = .next t) : s.Quiet t := by
  simp only [execJobStart] at h
  split at h
  · next c j rest _ hj =>
    have taken : s.report.Keeps { s.report with jobs := rest, mode := nextMode s.report.mode (freeCount s.report c) c } :=
      ⟨fun h => by rw [hj] at h; simp at h ⊢; omega, id, id⟩
    split at h
    · split at h <;> cases h
      · exact quiet_report s (taken.trans (ReportUnit.keeps_loseJob ..))
      · refine State.Quiet.trans ?_ (quiet_request ..)
        exact quiet_report s (taken.trans ⟨id, id, id⟩)
    · cases h; exact .refl s
  · cases h; exact .refl s

theorem quiet_execEventRecordStart {s t : State} (h : execEventRecordStart s = .next t) : s.Quiet t := by
  simp only [execEventRecordStart] at h
  split at h
  · next c e rest _ he =>
    split at h <;> cases h
    · refine State.Quiet.trans ?_ (quiet_request ..)
      refine quiet_report s ⟨id, fun h => ?_, id⟩
      simp only [he, List.length_cons] at h
      exact Nat.le_of_succ_le h
    · exact .refl s
  · cases h; exact .refl s

end Sys2Proof.Machine


namespace Sys2Proof.Machine

/-! #### The commands of the table -/

/-- A host command row: what it concludes moves lanes as listed, and so does the row. -/
theorem moves_conclude {r : Status × State} {s t : State} (hr : s.Moves r.2) (h : conclude r = .next t) : s.Moves t := by
  cases h; exact hr.quiet (quiet_retire ..)

theorem CarriesOrStands.moves {s t : State} {o : Host.Outcome State Fault Refusal} (h : CarriesOrStands s o)
    (ht : o = .next t) : s.Moves t := by
  cases h with
  | carries _ _ ho => exact moves_conclude (moves_carryPreset _ s) (ho ▸ ht)
  | stands ho => rw [ho] at ht; cases ht; exact .refl s

/-- The rows that carry out the command in hand as a preset is carried out. -/
theorem exec_carriesOrStands {c : Instr} (s : State) (hc : c ∈ [.laneGeometry, .laneZones, .laneDetect, .strandSetup,
    .strandMarking, .arm, .reseed, .clearFault, .laneReset, .unknownCommand, .deadColumnsMark, .deadColumnsClear, .testOn,
    .testOff]) : CarriesOrStands s (exec c s) := by
  simp only [List.mem_cons, List.not_mem_nil, or_false] at hc
  rcases hc with rfl | rfl | rfl | rfl | rfl | rfl | rfl | rfl | rfl | rfl | rfl | rfl | rfl | rfl
  case inr.inr.inr.inr.inr.inr.inr.inr.inr.inr.inl | inr.inr.inr.inr.inr.inr.inr.inr.inr.inr.inr.inl |
      inr.inr.inr.inr.inr.inr.inr.inr.inr.inr.inr.inr.inl | inr.inr.inr.inr.inr.inr.inr.inr.inr.inr.inr.inr.inr =>
    simp only [exec, execDeadColumnsMark, execDeadColumnsClear, execTestOn, execTestOff]
    split
    · next h =>
      split
      · exact .carries h nofun rfl
      · exact .stands rfl
    · exact .stands rfl
  all_goals
    simp only [exec, execLaneGeometry, execLaneZones, execLaneDetect, execStrandSetup, execStrandMarking, execArm,
      execReseed, execClearFault, execLaneReset, execUnknownCommand]
    split
    · next h => exact .carries h nofun rfl
    · exact .stands rfl

/-- An event that comes about under a condition only. -/
theorem moves_ite {p : Prop} [Decidable p] {s t u : State} (h : s.Moves u)
    (ht : (if p then (.next u : Host.Outcome State Fault Refusal) else .next s) = .next t) : s.Moves t := by
  split at ht <;> cases ht
  · exact h
  · exact .refl s

/-- Every command but the resets and the increment of the clock leaves the clock, moves lanes as the table of R136 lists, and
keeps what `State.Keeps` names. -/
theorem exec_moves {c : Instr} {s t : State} (power : c ≠ .powerOn) (line : c ≠ .resetLineAssert)
    (tick : ∀ v, c ≠ .bayClockIncrement v) (h : exec c s = .next t) : s.Moves t := by
  cases c with
  | powerOn => exact absurd rfl power
  | resetLineAssert => exact absurd rfl line
  | bayClockIncrement v => exact absurd rfl (tick v)
  | resetLineRelease => exact moves_ite (quiet_unsized s _ s.ports s.classify s.command _ s.choice).moves h
  | storeReadEnd bytes => exact moves_execStoreReadEnd h
  | presetHandover => exact moves_execPresetHandover h
  | upstreamRequestTake u =>
    simp only [exec, execUpstreamRequestTake] at h
    split at h <;> cases h
    · next room => exact moves_takeRequest u s room.2
    · exact .refl s
  | issueOpportunity => exact moves_execIssueOpportunity h
  | downstreamResponse okay data => exact moves_execDownstreamResponse h
  | jobStart => exact (quiet_execJobStart h).moves
  | eventRecordStart => exact (quiet_execEventRecordStart h).moves
  | lineProcessed i =>
    simp only [exec, execLineProcessed] at h
    split at h
    · exact moves_ite (moves_processLine ..) h
    · cases h; exact .refl s
  | forwardStep k p | reverseStep k p | encoderError k p => exact moves_ite (quiet_decodeDue k s).moves h
  | cutEvent k => exact moves_ite ((quiet_decodeDue k s).trans (quiet_compareDue k _)).moves h
  | cutInputFall k => exact moves_ite (quiet_compareDue k s).moves h
  | pulseEnd k => exact moves_ite (quiet_endDuePulse k s).moves h
  | classifySetup =>
    simp only [exec, execClassifySetup] at h
    split at h
    · exact moves_conclude (quiet_doClassifySetup ..).moves h
    · cases h; exact .refl s
  | reportSetup =>
    simp only [exec, execReportSetup] at h
    split at h
    · next c _ =>
      have set := quiet_doReportSetup c s
      split at h
      · exact moves_conclude (set.trans (quiet_writeZeroProducer _)).moves h
      · exact moves_conclude (set.trans (quiet_writeZeroProducer _)).moves h
      · exact moves_conclude set.moves h
    · cases h; exact .refl s
  | disarm =>
    simp only [exec, execDisarm] at h
    split at h
    · split at h
      · next n _ hn =>
        have disarmed := moves_doDisarm ⟨n, hn⟩ s
        split at h
        · next hd => rw [hd] at disarmed; exact moves_conclude disarmed h
        · next hd => rw [hd] at disarmed; cases h; exact disarmed.quiet (quiet_hold ..)
      · exact moves_conclude (.refl s) h
    · cases h; exact .refl s
  | snapshot =>
    simp only [exec, execSnapshot] at h
    split at h <;> cases h
    · exact ((quiet_hold .snapshot s).trans ((quiet_unsized _ _ _ _ _ _ _).trans (quiet_request ..))).moves
    · exact .refl s
  | bayReset =>
    simp only [exec, execBayReset] at h
    split at h
    · exact moves_conclude ((moves_bayReset _ s).quiet (quiet_writeZeroProducer _)) h
    · cases h; exact .refl s
  | _ => exact (exec_carriesOrStands s (by simp)).moves h

/-! #### The increment of the clock (R34 to R36) -/

/-- The clock rises and samples are taken: of the strands their motion channels change, but not coordinate and debt. -/
structure Ticked (s t : State) : Prop where
  frame : t = { s with clock := (s.clock + 1) % 2 ^ 48, strands := t.strands }
  strands : ∀ k, ∃ m, t.strand k = { s.strand k with motion := m } ∧ m.coord = (s.strand k).motion.coord ∧
    m.debt = (s.strand k).motion.debt

theorem ticked_adoptSamples (v : Vector Sample 6) (s : State) : Ticked s (adoptSamples v (tickClock s)) where
  frame := rfl
  strands := fun k => ⟨{ (s.strand k).motion with refPair := (v.get k).pair, cutHigh := (v.get k).cut },
    by simp only [adoptSamples, State.mk_strand, buildStrands_get]; rfl, rfl, rfl⟩

theorem ticked_holdSamples (v : Vector Sample 6) (s : State) : Ticked s (holdSamples v (tickClock s)) where
  frame := rfl
  strands := fun k => ⟨{ (s.strand k).motion with pairDue := some (v.get k).pair, cutDue := some (v.get k).cut },
    by simp only [holdSamples, State.mk_strand, buildStrands_get]; rfl, rfl, rfl⟩

theorem Ticked.keeps {s t : State} (h : Ticked s t) : s.Keeps t := by
  have hf := h.frame
  refine ⟨fun i => ?_, fun k => ?_, ?_, ?_⟩
  · rw [show t.lane i = s.lane i by rw [hf]; rfl]; exact .refl _
  · obtain ⟨m, ht, hc, hd⟩ := h.strands k
    rw [ht]; exact .ofMotion rfl rfl (by simp [hc]) (by simp [hc]) (by simp [hd])
  · rw [hf]; exact .refl _
  · rw [hf]; exact .refl _

/-- An increment: what the last one left comes about quietly, then the clock rises and the samples are taken; in reset the
part stands. -/
theorem exec_bayClockIncrement {v : Vector Sample 6} {s t : State} (h : exec (.bayClockIncrement v) s = .next t) :
    (s.global = .held ∧ t = s) ∨ (s.global ≠ .held ∧ ∃ u, s.Quiet u ∧ Ticked u t) := by
  simp only [exec, execBayClockIncrement] at h
  split at h <;> obtain rfl := Host.Outcome.next.inj h
  · next g => exact .inl ⟨g, rfl⟩
  · next g => exact .inr ⟨by simp [g], s, .refl s, ticked_adoptSamples v s⟩
  · next g => exact .inr ⟨by simp [g], s, .refl s, ticked_adoptSamples v s⟩
  · next g => exact .inr ⟨by simp [g], allStrands.foldl finishSample s, .foldl quiet_finishSample allStrands s,
      ticked_holdSamples v (allStrands.foldl finishSample s)⟩

/-! #### The invariants (1.2, 2.3, 3.4, 4.8) -/

theorem State.Sized.keeps {s t : State} (h : s.Sized) (k : s.Keeps t) (clock : t.clock < 2 ^ 48) : t.Sized where
  pass := k.path.pass h.pass
  injected := k.path.injected h.injected
  clock := clock
  jobs := k.report.jobs h.jobs
  events := k.report.events h.events
  suppressed := k.report.suppressed h.suppressed
  lanes := fun i => (k.lanes i).sized (h.lanes i)
  strands := fun j => (k.strands j).sized (h.strands j)

theorem State.Ordered.keeps {s t : State} (h : s.Ordered) (k : s.Keeps t) : t.Ordered :=
  ⟨fun i => (k.lanes i).tidy (h.lanes i), fun j => (k.strands j).ordered (h.strands j)⟩

/-- The five invariants of the part. -/
structure State.Sound (s : State) : Prop where
  sized : s.Sized
  ordered : s.Ordered
  issuedFirst : s.path.IssuedFirst
  roles : ∀ i, (s.lane i).capture.RolesDiffer
  range : ∀ i, (s.lane i).detection.InRange

theorem reset_lane (i : Fin 12) : State.reset.lane i = Lane.initial := by
  simp [State.reset, Vector.get_eq_getElem]

theorem reset_strand (k : Fin 6) : State.reset.strand k = Strand.initial := by
  simp [State.reset, Vector.get_eq_getElem]

theorem reset_sound : State.reset.Sound where
  sized :=
    { pass := Nat.zero_le _
      injected := Nat.zero_le _
      clock := by decide
      jobs := Nat.zero_le _
      events := Nat.zero_le _
      suppressed := Nat.zero_le _
      lanes := fun i => by rw [reset_lane]; exact ⟨Nat.zero_le _, Nat.zero_le _, Nat.zero_le _⟩
      strands := fun k => by rw [reset_strand]; exact ⟨Nat.zero_le _, Nat.zero_le _, Nat.zero_le _, Nat.zero_le _⟩ }
  ordered := ⟨fun i => by rw [reset_lane]; exact ⟨rfl, rfl, rfl, rfl⟩, fun k => by rw [reset_strand]; exact ⟨.nil, .nil⟩⟩
  issuedFirst := ⟨.nil, .nil⟩
  roles := fun i => by rw [reset_lane]; exact fun _ => rfl
  range := fun i => by rw [reset_lane]; exact fun _ => Nat.zero_le _

/-- What the two resets leave: the power-on values, but the part's state, the absorb count, the ports, the loader, the free
choices and the queue of commands. -/
theorem exec_reset {c : Instr} {s t : State} (hc : c = .powerOn ∨ c = .resetLineAssert) (h : exec c s = .next t) :
    ∃ n, t = { State.reset with
      global := t.global
      path := { Path.initial with absorb := n }
      ports := t.ports
      loader := t.loader
      choice := t.choice
      pending := t.pending } := by
  rcases hc with rfl | rfl <;> cases h <;> exact ⟨_, rfl⟩

/-- A step: the resets make the part sound, and everything else keeps it. -/
theorem exec_keeps {c : Instr} {s t : State} (h : exec c s = .next t) : s.Keeps t ∨ t.Sound := by
  by_cases hr : c = .powerOn ∨ c = .resetLineAssert
  · obtain ⟨n, ht⟩ := exec_reset hr h
    have sound := reset_sound
    right
    rw [ht]
    exact ⟨⟨Nat.zero_le _, Nat.zero_le _, sound.sized.clock, sound.sized.jobs, sound.sized.events, sound.sized.suppressed,
      sound.sized.lanes, sound.sized.strands⟩, ⟨sound.ordered.lanes, sound.ordered.strands⟩, ⟨.nil, .nil⟩, sound.roles,
      sound.range⟩
  · obtain ⟨power, line⟩ := not_or.mp hr
    left
    by_cases tick : ∃ v, c = .bayClockIncrement v
    · obtain ⟨v, rfl⟩ := tick
      rcases exec_bayClockIncrement h with ⟨-, rfl⟩ | ⟨-, u, quiet, ticked⟩
      · exact .refl _
      · exact quiet.toKeeps.trans ticked.keeps
    · exact (exec_moves power line (fun v e => tick ⟨v, e⟩) h).toKeeps

/-- A step is the command at the front, or idling. -/
theorem step_cases {s t : State} (h : step s = .next t) :
    (s.pending = [] ∧ t = s) ∨ ∃ c rest, s.pending = c :: rest ∧ exec c { s with pending := rest } = .next t := by
  simp only [step] at h
  split at h
  · next hp => cases h; exact .inl ⟨hp, rfl⟩
  · next c rest hp => exact .inr ⟨c, rest, hp, h⟩

/-- The queue of commands bears on no size and no order. -/
theorem keeps_pending (s : State) (q : List Instr) : s.Keeps { s with pending := q } := { State.Keeps.refl s with }

theorem step_keeps {s t : State} (h : step s = .next t) : s.Keeps t ∨ t.Sound := by
  rcases step_cases h with ⟨-, rfl⟩ | ⟨c, rest, -, h⟩
  · exact .inl (.refl _)
  · exact (exec_keeps h).imp (keeps_pending s rest).trans id

/-! #### The clock and the states of the lanes (R34, R136) -/

/-- Settles O10: only the increment ticks, and the resets alone start the clock at 0. -/
theorem clockMovesOnlyAtItsEvents : Obligations.ClockMovesOnlyAtItsEvents := by
  refine fun c s t h => ⟨fun hc => ?reset, ?tick, ?held, fun power line tick => (exec_moves power line tick h).clock⟩
  case reset => obtain ⟨n, ht⟩ := exec_reset hc h; rw [ht]; rfl
  case tick =>
    rintro ⟨v, rfl⟩ running
    rcases exec_bayClockIncrement h with ⟨held, -⟩ | ⟨-, u, quiet, ticked⟩
    · exact absurd held running
    · rw [ticked.frame, ← quiet.clock]
  case held =>
    rintro ⟨v, rfl⟩ held
    rcases exec_bayClockIncrement h with ⟨-, rfl⟩ | ⟨running, -⟩
    · rfl
    · exact absurd held running

theorem exec_clock_lt {c : Instr} {s t : State} (h : exec c s = .next t) (hs : s.clock < 2 ^ 48) : t.clock < 2 ^ 48 := by
  obtain ⟨reset, tick, held, other⟩ := clockMovesOnlyAtItsEvents c s t h
  by_cases hr : c = .powerOn ∨ c = .resetLineAssert
  · rw [reset hr]; decide
  · obtain ⟨power, line⟩ := not_or.mp hr
    by_cases ht : ∃ v, c = .bayClockIncrement v
    · by_cases hg : s.global = .held
      · rw [held ht hg]; exact hs
      · rw [tick ht hg]; exact Nat.mod_lt _ (by decide)
    · rw [other power line fun v e => ht ⟨v, e⟩]; exact hs

/-- Settles O11: the resets take lanes to OFF, an increment moves none, and every other command moves as listed. -/
theorem laneStateChangesAreListed : Obligations.LaneStateChangesAreListed := by
  intro c s t h i
  by_cases hr : c = .powerOn ∨ c = .resetLineAssert
  · obtain ⟨n, ht⟩ := exec_reset hr h
    right
    rw [ht]
    show legalChange _ (State.reset.lane i).control.state = true
    rw [reset_lane]; exact legalChange_off _
  · obtain ⟨power, line⟩ := not_or.mp hr
    by_cases tick : ∃ v, c = .bayClockIncrement v
    · obtain ⟨v, rfl⟩ := tick
      rcases exec_bayClockIncrement h with ⟨-, rfl⟩ | ⟨-, u, quiet, ticked⟩
      · exact .inl rfl
      · left
        rw [ticked.frame]; exact quiet.control i
    · exact (exec_moves power line (fun v e => tick ⟨v, e⟩) h).control i

/-- Settles O9: power-on and the reset line apart, every command keeps each strand's coordinate from falling. -/
theorem coordinateNeverFalls : Obligations.CoordinateNeverFalls := by
  intro c s t power line h k
  by_cases tick : ∃ v, c = .bayClockIncrement v
  · obtain ⟨v, rfl⟩ := tick
    rcases exec_bayClockIncrement h with ⟨-, rfl⟩ | ⟨-, u, quiet, ticked⟩
    · exact Nat.le_refl _
    · exact (quiet.strands k).coord.trans (ticked.keeps.strands k).coord
  · exact ((exec_moves power line (fun v e => tick ⟨v, e⟩) h).strands k).coord

/-! #### The step invariants -/

/-- Settles O3: a step keeps the sizes by `step_keeps`, and the clock below 2^48 by the wrap of the increment. -/
theorem stepKeepsSizes : Obligations.StepKeepsSizes := by
  intro s t sized h
  refine (step_keeps h).elim (fun k => sized.keeps k ?_) fun sound => sound.sized
  rcases step_cases h with ⟨-, rfl⟩ | ⟨c, rest, -, h⟩
  · exact sized.clock
  · exact exec_clock_lt h sized.clock

/-- Settles O4. -/
theorem stepKeepsListOrders : Obligations.StepKeepsListOrders :=
  fun _ _ ordered h => (step_keeps h).elim ordered.keeps fun sound => sound.ordered

/-- Settles O5. -/
theorem stepKeepsIssuedFirst : Obligations.StepKeepsIssuedFirst :=
  fun _ _ first h => (step_keeps h).elim (fun k => k.path.issuedFirst first) fun sound => sound.issuedFirst

/-- Settles O6. -/
theorem stepKeepsBufferRoles : Obligations.StepKeepsBufferRoles :=
  fun _ _ differ h i => (step_keeps h).elim (fun k => (k.lanes i).roles (differ i)) fun sound => sound.roles i

/-- Settles O7: the range rests on the canonical form, in which a store is read back. -/
theorem stepKeepsBackgroundRange : Obligations.StepKeepsBackgroundRange :=
  fun _ _ ordered range h i =>
    (step_keeps h).elim (fun k => (k.lanes i).range (ordered.lanes i) (range i)) fun sound => sound.range i

/-- Settles O8. -/
theorem resetMeetsInvariants : Obligations.ResetMeetsInvariants :=
  have sound := reset_sound
  ⟨sound.sized, sound.ordered, sound.issuedFirst, sound.roles, sound.range⟩

/-- Settles O1. -/
theorem stepRunsFrontCommand : Obligations.StepRunsFrontCommand :=
  ⟨fun _ _ _ => rfl, fun s h => by simp [step, h]⟩

/-- Settles O2: every lane and every strand stands at its initial value. -/
theorem resetHasManualValues : Obligations.ResetHasManualValues := by
  refine ⟨rfl, rfl, rfl, rfl, rfl, rfl, rfl, rfl, fun i => ?lane, fun k => ?strand, ?_⟩
  case lane =>
    rw [reset_lane]
    exact ⟨rfl, rfl, rfl, rfl, rfl, rfl, rfl, rfl, rfl, fun _ => rfl, rfl, rfl, rfl, rfl, rfl⟩
  case strand =>
    rw [reset_strand]
    exact ⟨rfl, rfl, rfl, rfl, rfl, rfl, rfl, rfl, rfl, rfl, rfl, rfl, rfl⟩
  exact ⟨rfl, rfl, rfl, rfl, rfl, rfl, rfl, rfl, rfl, rfl, rfl, rfl, rfl, rfl, rfl, rfl, rfl, rfl, rfl, rfl, rfl, rfl, rfl⟩

end Sys2Proof.Machine


/-! ### The path unit: taking, issuing and completing requests -/

namespace Sys2Proof.Machine

/-! #### The arbiter (R4, R5) -/

section Heads
variable {p : Path}

theorem passHead_eq_some {pre post : List PassEntry} {h : PassEntry} (hp : p.pass = pre ++ h :: post)
    (issued : ∀ e ∈ pre, e.issue ≠ none) (hh : h.issue = none) : p.passHead = some h :=
  List.find?_eq_some_iff_append.mpr ⟨by simp [hh], pre, post, hp, fun e he => by simpa [Option.isSome_iff_ne_none] using issued e he⟩

theorem passHead_eq_none (issued : ∀ e ∈ p.pass, e.issue ≠ none) : p.passHead = none :=
  List.find?_eq_none.mpr fun e he => by simp [issued e he]

theorem injHead_eq_some {pre post : List InjEntry} {h : InjEntry} (hp : p.injected = pre ++ h :: post)
    (issued : ∀ e ∈ pre, e.issue ≠ none) (hh : h.issue = none) : p.injHead = some h :=
  List.find?_eq_some_iff_append.mpr ⟨by simp [hh], pre, post, hp, fun e he => by simpa [Option.isSome_iff_ne_none] using issued e he⟩

theorem injHead_eq_none (issued : ∀ e ∈ p.injected, e.issue ≠ none) : p.injHead = none :=
  List.find?_eq_none.mpr fun e he => by simp [issued e he]

theorem passIssuable_iff {h : PassEntry} (head : p.passHead = some h) :
    p.passIssuable = true ↔ ∀ e ∈ p.injected, e.order < h.order → requestsOverlap h.req e.req = false := by
  simp only [Path.passIssuable, head, List.all_eq_true]
  exact forall₂_congr fun e _ => by cases requestsOverlap h.req e.req <;> simp

theorem injIssuable_iff {h : InjEntry} (head : p.injHead = some h) :
    p.injIssuable = true ↔ ∀ e ∈ p.pass, e.order < h.order → requestsOverlap h.req e.req = false := by
  simp only [Path.injIssuable, head, List.all_eq_true]
  exact forall₂_congr fun e _ => by cases requestsOverlap h.req e.req <;> simp

end Heads

theorem intervalsMeet_iff (a b c d : Nat) : intervalsMeet a b c d = true ↔ ∃ x, (a ≤ x ∧ x < b) ∧ c ≤ x ∧ x < d := by
  simp only [intervalsMeet, Bool.and_eq_true, decide_eq_true_eq]
  exact ⟨fun _ => ⟨max a c, by omega⟩, fun ⟨x, _⟩ => by omega⟩

/-- Ranges of whole beats share a byte exactly when they share a beat (R4). -/
theorem exists_common_byte_iff_beat {a b n m : Nat} (ha : a % 32 = 0) (hb : b % 32 = 0) :
    (∃ x, (a ≤ x ∧ x < a + 32 * n) ∧ b ≤ x ∧ x < b + 32 * m) ↔ ∃ i j, i < n ∧ j < m ∧ a + 32 * i = b + 32 * j :=
  ⟨fun ⟨x, _⟩ => ⟨(x - a) / 32, (x - b) / 32, by omega⟩, fun ⟨i, j, _⟩ => ⟨a + 32 * i, by omega⟩⟩

theorem exec_issue_pass {s : State} {pre post : List PassEntry} {h : PassEntry} {turn : Turn}
    (hq : s.path.pass = pre ++ h :: post) (issued : ∀ e ∈ pre, e.issue ≠ none) (hh : h.issue = none)
    (grant : arbiter s.path.passIssuable s.path.injIssuable s.path.turn = (some .pass, turn)) :
    exec .issueOpportunity s = .next { s with
      path := { s.path with
        pass := pre ++ { h with issue := some s.path.nextIssue } :: post, turn := turn, nextIssue := s.path.nextIssue + 1 }
      ports := { s.ports with downstream := s.ports.downstream ++ [h.req] } } := by
  simp only [exec, execIssueOpportunity, grant, passHead_eq_some hq issued hh, hq, issuePass_split s.path.nextIssue issued hh]
  rfl

theorem exec_issue_injected {s : State} {pre post : List InjEntry} {h : InjEntry} {turn : Turn}
    (hq : s.path.injected = pre ++ h :: post) (issued : ∀ e ∈ pre, e.issue ≠ none) (hh : h.issue = none)
    (grant : arbiter s.path.passIssuable s.path.injIssuable s.path.turn = (some .injected, turn)) :
    exec .issueOpportunity s = .next { s with
      path := { s.path with
        injected := pre ++ { h with issue := some s.path.nextIssue } :: post, turn := turn
        nextIssue := s.path.nextIssue + 1 }
      ports := { s.ports with downstream := s.ports.downstream ++ [h.req] } } := by
  simp only [exec, execIssueOpportunity, grant, injHead_eq_some hq issued hh, hq, issueInj_split s.path.nextIssue issued hh]
  rfl

/-- Settles O15: the arbiter's table row by row; the head granted is the one that `issuePass` and `issueInj` mark. -/
theorem issueOpportunityFollowsArbiter : Obligations.IssueOpportunityFollowsArbiter := by
  refine ⟨fun s => ⟨?none, ?pass, ?injected⟩, fun p => ⟨?passHead, ?noPass, ?injHead, ?noInjected⟩, fun a b => ⟨?byte, ?beat⟩⟩
  case none => intro hp hi; simp [exec, execIssueOpportunity, hp, hi, arbiter]
  case pass =>
    intro pre h post hq issued hh issuable
    exact ⟨fun hi => exec_issue_pass hq issued hh (by rw [issuable, hi]; cases s.path.turn <;> rfl),
      fun hi ht => exec_issue_pass hq issued hh (by rw [issuable, hi, ht]; rfl)⟩
  case injected =>
    intro pre h post hq issued hh issuable
    exact ⟨fun hp => exec_issue_injected hq issued hh (by rw [issuable, hp]; cases s.path.turn <;> rfl),
      fun hp ht => exec_issue_injected hq issued hh (by rw [issuable, hp, ht]; rfl)⟩
  case passHead =>
    intro pre h post hq issued hh
    have head := passHead_eq_some hq issued hh
    exact ⟨head, passIssuable_iff head⟩
  case noPass => intro issued; simp [Path.passIssuable, passHead_eq_none issued]
  case injHead =>
    intro pre h post hq issued hh
    have head := injHead_eq_some hq issued hh
    exact ⟨head, injIssuable_iff head⟩
  case noInjected => intro issued; simp [Path.injIssuable, injHead_eq_none issued]
  case byte => exact intervalsMeet_iff ..
  case beat => intro ha hb; exact (intervalsMeet_iff ..).trans (exists_common_byte_iff_beat ha hb)

/-! #### The take (R2, R7) -/

/-- What the line capture units make of a request offered: a READ they do not look at (R7). -/
def takeAcc (u : UpRequest) (s : State) : TakeAcc :=
  match u.req.kind with
  | .write => offerWrite u.req s
  | .read => ⟨s, u.req.data, []⟩

/-- The request joins the pass-through queue behind what the line capture units made of it (R2, log 11). -/
def takenAfter (u : UpRequest) (s : State) (acc : TakeAcc) : State :=
  let p := acc.s.path
  let m := p.nextOrder - s.path.nextOrder
  let order := s.path.nextOrder + (if m = 0 then 0 else Config.takeRank acc.s.choice % (m + 1))
  { acc.s with
    choice := if m = 0 then acc.s.choice else acc.s.choice + 1
    path := { p with
      pass := p.pass ++ [⟨{ u.req with data := acc.data }, u.master, u.tag, acc.fed, order, none⟩]
      injected := if m = 0 then p.injected else shiftOrders order p.injected
      nextOrder := p.nextOrder + 1 } }

theorem takeRequest_eq (u : UpRequest) (s : State) : takeRequest u s = takenAfter u s (takeAcc u s) := rfl

/-- A take at which no injected request is made: the request is the next in the take order (R2). -/
theorem takenAfter_of_none_injected {u : UpRequest} {s : State} {acc : TakeAcc}
    (h : acc.s.path.nextOrder = s.path.nextOrder) :
    takenAfter u s acc = { acc.s with path := { acc.s.path with
      pass := acc.s.path.pass ++ [⟨{ u.req with data := acc.data }, u.master, u.tag, acc.fed, s.path.nextOrder, none⟩]
      nextOrder := acc.s.path.nextOrder + 1 } } := by
  simp only [takenAfter, h, Nat.sub_self, if_true, Nat.add_zero]

theorem mem_ringBeats {g : Geometry} {r : Request} {b : RingBeat} :
    b ∈ ringBeats g r ↔ b.pos < r.len ∧ g.base ≤ r.addr + 32 * b.pos ∧ r.addr + 32 * b.pos < ringEnd g ∧
      b.slot = (r.addr + 32 * b.pos - g.base) / slotSize g.w ∧
      b.index = (r.addr + 32 * b.pos - g.base) % slotSize g.w / 32 ∧ b.enables = r.enables.getD b.pos 0 := by
  obtain ⟨slot, index, pos, enables⟩ := b
  simp only [ringBeats, List.mem_filterMap, List.mem_range, Option.ite_none_right_eq_some, Option.some.injEq,
    RingBeat.mk.injEq]
  constructor
  · rintro ⟨j, hj, ⟨lo, hi⟩, rfl, rfl, rfl, rfl⟩; exact ⟨hj, lo, hi, rfl, rfl, rfl⟩
  · rintro ⟨hj, lo, hi, rfl, rfl, rfl⟩; exact ⟨pos, hj, ⟨lo, hi⟩, rfl, rfl, rfl, rfl⟩

theorem ringBeats_of_apart {g : Geometry} {r : Request} (h : apart r.addr (r.addr + 32 * r.len) g.base (ringEnd g)) :
    ringBeats g r = [] :=
  List.eq_nil_iff_forall_not_mem.mpr fun b hb => by
    obtain ⟨_, _, _, _⟩ := mem_ringBeats.mp hb
    unfold apart at h; omega

theorem mem_touchedLanes {s : State} {r : Request} {i : Fin 12} :
    i ∈ touchedLanes s r ↔ (s.lane i).control.state.capturing = true ∧
      ∃ g, (s.lane i).control.geometry = some g ∧ ringBeats g r ≠ [] := by
  simp only [touchedLanes, List.mem_filter, mem_allLanes, true_and, Bool.and_eq_true]
  refine and_congr_right fun _ => ?_
  cases (s.lane i).control.geometry <;> simp

theorem offerWrite_of_untouched {r : Request} {s : State} (h : touchedLanes s r = []) :
    offerWrite r s = ⟨s, r.data, []⟩ := by simp [offerWrite, h, anyOrder]

theorem exec_take {u : UpRequest} {s : State} (hg : s.global ≠ .held) (hl : s.path.pass.length < 32) :
    exec (.upstreamRequestTake u) s = .next (takeRequest u s) := if_pos ⟨hg, hl⟩

theorem exec_take_as_sent {u : UpRequest} {s : State} (hg : s.global ≠ .held) (hl : s.path.pass.length < 32)
    (ha : takeAcc u s = ⟨s, u.req.data, []⟩) : exec (.upstreamRequestTake u) s = .next { s with path := { s.path with
      pass := s.path.pass ++ [⟨u.req, u.master, u.tag, [], s.path.nextOrder, none⟩]
      nextOrder := s.path.nextOrder + 1 } } := by
  have taken : takenAfter u s ⟨s, u.req.data, []⟩ = _ := takenAfter_of_none_injected rfl
  rw [exec_take hg hl, takeRequest_eq, ha, taken]

/-- Settles O13: neither kind of request makes an injected one, so both are taken at the next place. -/
theorem requestsOutsideRingsAreTakenAsSent : Obligations.RequestsOutsideRingsAreTakenAsSent := by
  refine ⟨⟨fun u s kind hg hl => ?read, fun u s h => ?refused⟩, fun u s kind hg hl outside => ?write⟩
  case read =>
    exact exec_take_as_sent hg hl (by simp only [takeAcc, kind])
  case refused => exact if_neg fun ⟨hg, hl⟩ => h.elim hg fun h => absurd hl (Nat.not_lt.mpr h)
  case write =>
    have untouched : touchedLanes s u.req = [] := List.eq_nil_iff_forall_not_mem.mpr fun i hi => by
      obtain ⟨capturing, g, geometry, beats⟩ := mem_touchedLanes.mp hi
      exact beats (ringBeats_of_apart (outside i g capturing geometry))
    exact exec_take_as_sent hg hl (by simp only [takeAcc, kind, offerWrite_of_untouched untouched])

/-! #### Power-on and the reset line (R11, R164) -/

theorem resetAnswers_map (n : Nat) (l : List PassEntry) :
    (resetAnswers n l).map (fun a => (a.master, a.tag, a.okay)) = l.map fun e => (e.master, e.tag, false) := by
  induction l generalizing n with
  | nil => rfl
  | cons e l ih => simp [resetAnswers, resetAnswer, ih]

theorem owedResponses_eq (p : Path) : owedResponses p =
    p.absorb + (p.pass.countP (fun e => e.issue.isSome) + p.injected.countP (fun e => e.issue.isSome)) := by
  simp [owedResponses, issuedCount, List.countP_eq_length_filter]

/-- Settles O20. -/
theorem powerOnAndResetLineResetEveryBlock : Obligations.PowerOnAndResetLineResetEveryBlock := by
  refine ⟨fun s => ⟨_, rfl, ?power, rfl, _, rfl, resetAnswers_map ..⟩,
    fun s => ⟨_, rfl, ?line, rfl, _, rfl, resetAnswers_map ..⟩, fun s held => if_pos held, fun s held => if_neg held⟩
  case power => rw [← owedResponses_eq]; rfl
  case line => rw [← owedResponses_eq]; rfl

end Sys2Proof.Machine


/-! ### Requests made, waited for and completed (R1, R3, R6) -/

namespace Sys2Proof.Machine

/-! #### Making requests (R3) -/

/-- What a block wants does not depend on the path unit. -/
theorem wanted_of_path (b : Block) (s : State) (p : Path) : wanted b { s with path := p } = wanted b s := by
  cases b <;> rfl

@[simp] theorem made_path (b : Block) (s : State) : (made b s).path = s.path := by
  cases b <;> rfl

/-- With a place free and no block waiting, a block's only request is made at once. -/
theorem pump_once {n : Nat} {b : Block} {s t : State} {w : Request × Purpose} (hw : wanted b s = some w) (room : Room 1 s)
    (hm : made b { s with path := s.path.inject w } = t) (hn : wanted b t = none) : pump (n + 1) b s = t := by
  rw [pump_of_wanted_some hw room.1 (Nat.lt_of_succ_le room.2), hm, pump_of_wanted_none hn]

theorem request_once {b : Block} {s t : State} {w : Request × Purpose} (hw : wanted b s = some w) (room : Room 1 s)
    (hm : made b { s with path := s.path.inject w } = t) (hn : wanted b t = none) : request b s = t :=
  pump_once hw room hm hn

/-- With no place free, or another block waiting, a block joins the wait list. -/
theorem request_waits {b : Block} {s : State} {w : Request × Purpose} (hw : wanted b s = some w)
    (hb : b ∉ s.path.waitList) (full : s.path.waitList ≠ [] ∨ 16 ≤ s.path.injected.length) :
    request b s = { s with path := s.path.joinWait b } := pump_of_full hw hb full

/-- A block on the wait list stands still. -/
theorem request_stands {b : Block} {s : State} (hb : b ∈ s.path.waitList) : request b s = s := by
  simp only [request, pump]
  split
  · rfl
  · exact if_pos hb

/-! #### Responses (R6) -/

theorem oldestPass_of_head {p : Path} {e : PassEntry} {n : Nat} (h : p.pass.head? = some e) (hi : e.issue = some n) :
    p.oldestPass = some (e, n) := by
  obtain ⟨rest, hp⟩ := List.head?_eq_some_iff.mp h
  simp [Path.oldestPass, hp, hi]

theorem oldestInj_of_head {p : Path} {e : InjEntry} {n : Nat} (h : p.injected.head? = some e) (hi : e.issue = some n) :
    p.oldestInj = some (e, n) := by
  obtain ⟨rest, hp⟩ := List.head?_eq_some_iff.mp h
  simp [Path.oldestInj, hp, hi]

theorem head_of_oldestPass {p : Path} {e : PassEntry} {n : Nat} (h : p.oldestPass = some (e, n)) :
    p.pass.head? = some e ∧ e.issue = some n := by
  revert h
  simp only [Path.oldestPass]
  cases p.pass with
  | nil => exact nofun
  | cons a l =>
    intro h
    obtain ⟨m, hm, ha⟩ := Option.map_eq_some_iff.mp h
    cases ha
    exact ⟨rfl, hm⟩

theorem head_of_oldestInj {p : Path} {e : InjEntry} {n : Nat} (h : p.oldestInj = some (e, n)) :
    p.injected.head? = some e ∧ e.issue = some n := by
  revert h
  simp only [Path.oldestInj]
  cases p.injected with
  | nil => exact nofun
  | cons a l =>
    intro h
    obtain ⟨m, hm, ha⟩ := Option.map_eq_some_iff.mp h
    cases ha
    exact ⟨rfl, hm⟩

section Response
variable {okay : Bool} {data : List Byte} {s : State}

/-- The response completes the pass-through request where that was issued first. -/
theorem exec_response_pass {e : PassEntry} (h : NextIsPass e s) :
    exec (.downstreamResponse okay data) s = .next (completePass e okay data s) := by
  obtain ⟨absorb, head, n, issue, first⟩ := h
  have pass := oldestPass_of_head head issue
  simp only [exec, execDownstreamResponse, absorb, ne_eq, not_true_eq_false, if_false, pass]
  cases hj : s.path.oldestInj with
  | none => rfl
  | some jm =>
    obtain ⟨j, m⟩ := jm
    obtain ⟨hj, hm⟩ := head_of_oldestInj hj
    exact if_pos (first j m hj hm)

/-- The response completes the injected request where that was issued first. -/
theorem exec_response_injected {e : InjEntry} (h : NextIsInjected e s) :
    exec (.downstreamResponse okay data) s = .next (completeInj e okay data s) := by
  obtain ⟨absorb, head, n, issue, first⟩ := h
  have injected := oldestInj_of_head head issue
  simp only [exec, execDownstreamResponse, absorb, ne_eq, not_true_eq_false, if_false, injected]
  cases hp : s.path.oldestPass with
  | none => rfl
  | some pm =>
    obtain ⟨p, m⟩ := pm
    obtain ⟨hp, hm⟩ := head_of_oldestPass hp
    exact if_neg (Nat.not_lt.mpr (first p m hp hm))

/-- Where the oldest request is injected, its completion leaves the queue below its 16 places. -/
theorem freed_length {e : InjEntry} (h : NextIsInjected e s) (hl : s.path.injected.length ≤ 16) :
    (freed s).path.injected.length < 16 := by
  obtain ⟨rest, hq⟩ := List.head?_eq_some_iff.mp h.2.1
  have : (freed s).path.injected = s.path.injected.tail := rfl
  rw [this, hq]
  rw [hq] at hl
  exact hl

@[simp] theorem afterWriteBy_writer (m : Nat) (r : ReportUnit) : (afterWriteBy m okay r).writer = r.writer := by
  simp only [afterWriteBy]; split_ifs <;> rfl

@[simp] theorem afterWriteBy_zeros (m : Nat) (r : ReportUnit) : (afterWriteBy m okay r).zeros = r.zeros := by
  simp only [afterWriteBy]; split_ifs <;> rfl

@[simp] theorem afterWriteBy_run (m : Nat) (r : ReportUnit) : (afterWriteBy m okay r).run = r.run := by
  simp only [afterWriteBy]; split_ifs <;> rfl

@[simp] theorem afterWriteBy_writeIndex (m : Nat) (r : ReportUnit) : (afterWriteBy m okay r).writeIndex = r.writeIndex := by
  simp only [afterWriteBy]; split_ifs <;> rfl

@[simp] theorem afterWriteBy_settings (m : Nat) (r : ReportUnit) : (afterWriteBy m okay r).settings = r.settings := by
  simp only [afterWriteBy]; split_ifs <;> rfl

theorem afterWriteBy_with_writer (m : Nat) (r : ReportUnit) (w : Writer) (n : Nat) :
    afterWriteBy m okay { r with writer := w, writeIndex := n } =
      { afterWriteBy m okay r with writer := w, writeIndex := n } := by
  simp only [afterWriteBy]; split_ifs <;> rfl

/-- The fault of a failed write is all that its kind brings before the completion is delivered (R10). -/
theorem completeInj_of_write {e : InjEntry} (kind : e.req.kind = .write) : completeInj e okay data s =
    deliver e okay data { serveWaiting (freed s) with
      report := afterWriteBy e.purpose.maker okay (serveWaiting (freed s)).report } := by
  show deliver e okay data (if okay = false ∧ e.req.kind = .write then
    (serveWaiting (freed s)).raise .injectWriteError e.purpose.maker else serveWaiting (freed s)) = _
  congr 1
  cases okay with
  | true => rfl
  | false => rw [if_pos ⟨rfl, kind⟩]; rfl

theorem serveWaiting_of_nil (h : s.path.waitList = []) : serveWaiting s = s := by
  simp only [serveWaiting, h]

/-- A write with no block waiting. -/
theorem exec_response_write {e : InjEntry} (h : NextIsInjected e s) (kind : e.req.kind = .write)
    (nobody : s.path.waitList = []) : exec (.downstreamResponse okay data) s =
      .next (deliver e okay data { freed s with report := afterWriteBy e.purpose.maker okay s.report }) := by
  rw [exec_response_injected h, completeInj_of_write kind, serveWaiting_of_nil (s := freed s) nobody]
  rfl

/-- The block at the front of the wait list has its request taken, and joins the back if it has a further one (R3). -/
theorem serveWaiting_of_cons {b : Block} {rest : List Block} {w : Request × Purpose} (hl : s.path.waitList = b :: rest)
    (hw : wanted b s = some w) : serveWaiting s =
      (if (wanted b (made b { s with path := { s.path with waitList := rest }.inject w })).isSome then
        { made b { s with path := { s.path with waitList := rest }.inject w } with
          path := { s.path with waitList := rest }.inject w |>.joinWait b }
      else made b { s with path := { s.path with waitList := rest }.inject w }) := by
  simp only [serveWaiting, hl, wanted_of_path, hw, made_path]

end Response

/-- Settles O18. -/
theorem entryReadCompletes : Obligations.EntryReadCompletes := by
  intro data e s first purpose kind nobody fetching
  have completed (okay : Bool) : exec (.downstreamResponse okay data) s = .next (fetchDone okay data (freed s)) := by
    rw [exec_response_injected first]
    show Host.Outcome.next (deliver e okay data (if okay = false ∧ e.req.kind = .write then
      (serveWaiting (freed s)).raise .injectWriteError e.purpose.maker else serveWaiting (freed s))) = _
    simp [kind, deliver, purpose, serveWaiting_of_nil (s := freed s) nobody]
  have cond : (freed s).command.cond = .fetching true := fetching
  refine ⟨?okay, fun fault => ?error⟩
  case okay => rw [completed, fetchDone, cond]; rfl
  case error =>
    have raised : (freed s).raise .fetchError (freed s).command.consumer =
        { freed s with report := { s.report with fault := .fetchError, detail := s.command.consumer } } := by
      simp only [State.raise, ReportUnit.raise]
      rw [if_pos (show (freed s).report.fault = .none from fault)]
      rfl
    rw [completed, fetchDone, cond, raised]; rfl

/-! #### The writer's completions (R161) -/

section Writer
variable {s : State} {r : ReportUnit}

theorem recordDone_last {run : Nat} (h : run = r.run) (hr : r.writer = .writing [] 1) :
    r.recordDone run = { r with writer := .publishing r.writeIndex false } := by
  simp [ReportUnit.recordDone, h, hr]

theorem recordDone_more {run : Nat} {todo : List Rec} {n : Nat} (h : run = r.run) (hr : r.writer = .writing todo (n + 2)) :
    r.recordDone run = { r with writer := .writing todo (n + 1) } := by
  cases todo <;> simp [ReportUnit.recordDone, h, hr]

theorem recordDone_abandoned {run : Nat} (h : run ≠ r.run) : r.recordDone run = r := if_neg h

theorem producerDone_published {run v w : Nat} (h : run = r.run) (hr : r.writer = .publishing w true) :
    r.producerDone run v = { r with published := v, writer := .idle } := by
  simp [ReportUnit.producerDone, h, hr]

theorem producerDone_abandoned {run v : Nat} (h : run ≠ r.run) : r.producerDone run v = r := if_neg h

theorem wants_publishing {v base : Nat} (hz : r.zeros = 0) (hr : r.writer = .publishing v false) :
    r.wants base = some (producerWordWrite base v, .producer r.run v) := by
  simp [ReportUnit.wants, hz, hr]

theorem wants_record {c : ReportSettings} {x : Rec} {more : List Rec} {n base : Nat} (hz : r.zeros = 0)
    (hs : r.settings = some c) (hr : r.writer = .writing (x :: more) n) :
    r.wants base = some (recordWrite c.base r.writeIndex x, .record r.run) := by
  simp [ReportUnit.wants, hz, hs, hr]

theorem wants_zero {base : Nat} (hz : r.zeros ≠ 0) : r.wants base = some (producerWordWrite base 0, .producerZero) :=
  if_pos hz

/-- With no producer word write of 0 left, the report unit has a request to make while records or the run's producer word
are left. -/
theorem wants_none {base : Nat} (hz : r.zeros = 0)
    (h : r.writer = .idle ∨ (∃ v, r.writer = .publishing v true) ∨ ∃ n, r.writer = .writing [] n) :
    r.wants base = none := by
  rcases h with h | ⟨v, h⟩ | ⟨n, h⟩ <;> simp [ReportUnit.wants, hz, h]

theorem afterMade_publishing {v : Nat} (hz : r.zeros = 0) (hr : r.writer = .publishing v false) :
    r.afterMade = { r with writer := .publishing v true } := by
  simp [ReportUnit.afterMade, hz, hr]

theorem afterMade_record {c : ReportSettings} {x : Rec} {more : List Rec} {n : Nat} (hz : r.zeros = 0)
    (hs : r.settings = some c) (hr : r.writer = .writing (x :: more) n) :
    r.afterMade = { r with writer := .writing more (n + 1), writeIndex := (r.writeIndex + 1) % c.size } := by
  simp [ReportUnit.afterMade, hz, hs, hr]

theorem afterMade_zero (hz : r.zeros ≠ 0) : r.afterMade = { r with zeros := r.zeros - 1, published := 0 } := if_pos hz

/-- A fault held or counted changes nothing of what the report unit wants (R10). -/
theorem wants_afterWriteBy (m : Nat) (okay : Bool) (base : Nat) : (afterWriteBy m okay r).wants base = r.wants base := by
  simp [ReportUnit.wants]

theorem request_report_none (h : s.report.wants s.controlBase = none) : request .report s = s :=
  request_of_wanted_none h

/-- The report unit makes the producer word write of its run at once (R161). -/
theorem request_publishing {v : Nat} (room : Room 1 s) (hz : s.report.zeros = 0)
    (hw : s.report.writer = .publishing v false) : request .report s = { s with
      path := s.path.inject (producerWordWrite s.controlBase v, .producer s.report.run v)
      report := { s.report with writer := .publishing v true } } := by
  refine request_once (wants_publishing hz hw) room ?_ (wants_none hz (.inr (.inl ⟨v, rfl⟩)))
  simp only [made, afterMade_publishing hz hw]

/-- The freed place takes the next record of a report unit that waits for one (R3, R161). -/
theorem serveWaiting_record {c : ReportSettings} {x : Rec} {more : List Rec} {rest : List Block} {n : Nat}
    (zeros : s.report.zeros = 0) (settings : s.report.settings = some c) (writer : s.report.writer = .writing (x :: more) n)
    (waiting : s.path.waitList = .report :: rest) : serveWaiting s = { s with
      path := { s.path with waitList := if more = [] then rest else rest ++ [Block.report] }.inject
        (recordWrite c.base s.report.writeIndex x, .record s.report.run)
      report := { s.report with
        writer := .writing more (n + 1), writeIndex := (s.report.writeIndex + 1) % c.size } } := by
  have want : wanted .report s = _ := wants_record zeros settings writer
  rw [serveWaiting_of_cons waiting want]
  simp only [made, afterMade_record zeros settings writer]
  cases more with
  | nil => rw [if_neg (by simp [wanted, wants_none (r := { s.report with writer := .writing [] (n + 1), writeIndex := _ })
      zeros (.inr (.inr ⟨n + 1, rfl⟩))])]; rfl
  | cons y more => rw [if_pos (by simp [wanted, ReportUnit.wants, zeros, settings])]; rfl

end Writer

/-- Settles O19: each completion is delivered to the report unit of the state in which the fault has been raised. -/
theorem writerPublishesAfterItsRecords : Obligations.WriterPublishesAfterItsRecords := by
  refine ⟨?last, ?published, ?more, ?abandoned⟩
  case last =>
    intro okay data e s first kind purpose room writer zeros
    have done := recordDone_last (r := afterWriteBy 13 okay s.report) (afterWriteBy_run ..).symm (by simpa using writer)
    rw [exec_response_write first kind room.1, deliver, purpose]
    simp only [Purpose.maker, done]
    have free : Room 1 (freed s) := ⟨room.1, freed_length first room.2⟩
    refine congrArg _ ((request_publishing (by exact free) (by simpa using zeros) rfl).trans ?_)
    simp only [afterWriteBy_run, afterWriteBy_writeIndex]
    rfl
  case published =>
    intro okay data e s v w first kind purpose nobody writer
    have done := producerDone_published (r := afterWriteBy 13 okay s.report) (v := v) (afterWriteBy_run ..).symm
      (by simpa using writer)
    rw [exec_response_write first kind nobody, deliver, purpose]
    simp only [Purpose.maker, done]
  case more =>
    intro okay data e s n first kind purpose zeros
    refine ⟨fun nobody writer => ?left, fun c x more rest settings writer waiting once => ?served⟩
    case left =>
      have done := recordDone_more (r := afterWriteBy 13 okay s.report) (afterWriteBy_run ..).symm (by simpa using writer)
      rw [exec_response_write first kind nobody, deliver, purpose]
      simp only [Purpose.maker, done]
      rw [request_report_none (wants_none (by simpa using zeros) (.inr (.inr ⟨n + 1, rfl⟩)))]
    case served =>
      have served : serveWaiting (freed s) = _ := serveWaiting_record (s := freed s) zeros settings writer waiting
      rw [exec_response_injected first, completeInj_of_write kind, served, deliver, purpose]
      have done := recordDone_more (todo := more) (n := n) (r := { afterWriteBy 13 okay s.report with
        writer := .writing more (n + 2), writeIndex := (s.report.writeIndex + 1) % c.size })
        (run := s.report.run) (afterWriteBy_run ..).symm rfl
      refine congrArg _ ((congrArg (request .report) (a₂ := { freed s with
        path := { (freed s).path with waitList := if more = [] then rest else rest ++ [Block.report] }.inject
          (recordWrite c.base s.report.writeIndex x, .record s.report.run)
        report := { afterWriteBy 13 okay s.report with
          writer := .writing more (n + 1), writeIndex := (s.report.writeIndex + 1) % c.size } }) ?_).trans ?_)
      · simp only [freed, Purpose.maker, afterWriteBy_with_writer, done]
      · by_cases left : more = []
        · exact request_report_none (wants_none (by simpa using zeros) (.inr (.inr ⟨n + 1, by simp [left]⟩)))
        · exact request_stands (by simp [left])
  case abandoned =>
    intro okay data e s run first kind abandoned nobody
    refine ⟨fun purpose nothing => ?record, fun v purpose => ?producer⟩
    case record =>
      rw [exec_response_write first kind nobody, deliver, purpose]
      simp only [Purpose.maker, recordDone_abandoned (r := afterWriteBy 13 okay s.report) (by simpa using abandoned)]
      rw [request_report_none ((wants_afterWriteBy ..).trans nothing)]
    case producer =>
      rw [exec_response_write first kind nobody, deliver, purpose]
      simp only [Purpose.maker, producerDone_abandoned (r := afterWriteBy 13 okay s.report) (by simpa using abandoned)]

end Sys2Proof.Machine


/-! ### Responses and error notices (R1, R6, R9, R25) -/

namespace Sys2Proof.Machine

/-! #### Trailer writes (R3, R28) -/

section Trailer
variable {i : Fin 12} {line : Line} {status : TrailerStatus} {segments obscured : Nat} {overflow uncovered : Bool}
  {s : State} {g : Geometry}

theorem makeTrailer_of_disabled (hg : (s.lane i).control.geometry = some g) (h : g.trailers = false) :
    makeTrailer i line status segments obscured overflow uncovered s = s := by
  simp [makeTrailer, hg, h]

/-- The lane asks for its trailer. -/
def State.withTrailer (s : State) (i : Fin 12) (w : Request) : State :=
  s.modCapture i fun c => { c with trailers := c.trailers ++ [w] }

theorem wanted_lane_none (h : (s.lane i).capture.trailers = []) : wanted (.lane i) s = none := by simp [wanted, h]

theorem wanted_lane_some {r : Request} {more : List Request} (h : (s.lane i).capture.trailers = r :: more) :
    wanted (.lane i) s = some (r, .trailer i) := by simp [wanted, h]

theorem made_lane {r : Request} {more : List Request} (h : (s.lane i).capture.trailers = r :: more) :
    made (.lane i) s = s.setLane i { s.lane i with capture := { (s.lane i).capture with trailers := more } } := by
  simp [made, Lane.trailerMade, h]

theorem withTrailer_trailers (w : Request) :
    ((s.withTrailer i w).lane i).capture.trailers = (s.lane i).capture.trailers ++ [w] := by
  simp [State.withTrailer]

theorem wanted_withTrailer (w : Request) : ∃ r, wanted (.lane i) (s.withTrailer i w) = some (r, .trailer i) := by
  obtain ⟨r, more, h⟩ := List.exists_cons_of_ne_nil (l := (s.lane i).capture.trailers ++ [w]) (by simp)
  exact ⟨r, wanted_lane_some ((withTrailer_trailers w).trans h)⟩

theorem makeTrailer_of_enabled (hg : (s.lane i).control.geometry = some g) (h : g.trailers = true) :
    makeTrailer i line status segments obscured overflow uncovered s =
      request (.lane i) (s.withTrailer i (trailerWrite g line status segments obscured overflow uncovered)) := by
  simp only [makeTrailer, hg, h, if_true]; rfl

/-- With room, and no other trailer waiting, the trailer is made at once. -/
theorem makeTrailer_at_once (hg : (s.lane i).control.geometry = some g) (h : g.trailers = true) (room : Room 1 s)
    (none : (s.lane i).capture.trailers = []) :
    makeTrailer i line status segments obscured overflow uncovered s = { s with
      path := s.path.inject (trailerWrite g line status segments obscured overflow uncovered, .trailer i) } := by
  rw [makeTrailer_of_enabled hg h]
  have asked := withTrailer_trailers (s := s) (i := i) (trailerWrite g line status segments obscured overflow uncovered)
  rw [none] at asked
  refine request_once (wanted_lane_some asked) room ?_ (wanted_lane_none none)
  refine (made_lane (by exact asked)).trans ?_
  have back : { (s.lane i).capture with trailers := [] } = (s.lane i).capture := by rw [← none]
  refine State.ext_lanes_strands rfl rfl rfl rfl (fun j => ?_) (fun _ => rfl) rfl rfl rfl rfl rfl rfl
  by_cases hj : j = i
  · subst hj; simp [State.withTrailer, back]
  · simp [State.withTrailer, hj]

theorem makeTrailer_waits (hg : (s.lane i).control.geometry = some g) (h : g.trailers = true)
    (hb : .lane i ∉ s.path.waitList) (full : s.path.waitList ≠ [] ∨ 16 ≤ s.path.injected.length) :
    makeTrailer i line status segments obscured overflow uncovered s =
      { s.withTrailer i (trailerWrite g line status segments obscured overflow uncovered) with
        path := s.path.joinWait (.lane i) } := by
  rw [makeTrailer_of_enabled hg h]
  obtain ⟨r, hr⟩ := wanted_withTrailer (s := s) (i := i) (trailerWrite g line status segments obscured overflow uncovered)
  exact request_waits hr hb full

theorem makeTrailer_stands (hg : (s.lane i).control.geometry = some g) (h : g.trailers = true)
    (hb : .lane i ∈ s.path.waitList) : makeTrailer i line status segments obscured overflow uncovered s =
      s.withTrailer i (trailerWrite g line status segments obscured overflow uncovered) := by
  rw [makeTrailer_of_enabled hg h]
  exact request_stands hb

end Trailer

/-! #### Error notices (R25) -/

theorem State.modCapture_modCapture (s : State) (i : Fin 12) (f h : Capture → Capture) :
    (s.modCapture i f).modCapture i h = s.modCapture i fun c => h (f c) := by
  simp [State.modCapture]

theorem Line.named_iff {l : Line} {n : LineId} : l.named n = true ↔ l.arming = n.arming ∧ l.seq = n.seq := by
  simp [Line.named]

section Buffers
variable {c : Capture} {l : Line}

theorem assemblingLine_eq_some : c.assemblingLine = some l ↔
    c.bufA = .assembling l ∨ (c.bufB = .assembling l ∧ ∀ a, c.bufA ≠ .assembling a) := by
  simp only [Capture.assemblingLine]
  cases c.bufA <;> cases c.bufB <;> simp

theorem waitingLine_eq_some : c.waitingLine = some l ↔
    c.bufA = .waiting l ∨ (c.bufB = .waiting l ∧ ∀ a, c.bufA ≠ .waiting a) := by
  simp only [Capture.waitingLine]
  cases c.bufA <;> cases c.bufB <;> simp

theorem putAssembling_bufA (b : Buffer) (h : c.bufA = .assembling l) : c.putAssembling b = { c with bufA := b } := by
  simp only [Capture.putAssembling, h]

theorem putAssembling_bufB (b : Buffer) (h : c.bufB = .assembling l) (ha : ∀ a, c.bufA ≠ .assembling a) :
    c.putAssembling b = { c with bufB := b } := by
  cases hA : c.bufA with
  | assembling a => exact absurd hA (ha a)
  | _ => simp [Capture.putAssembling, h, hA]

theorem putWaiting_bufA (b : Buffer) (h : c.bufA = .waiting l) : c.putWaiting b = { c with bufA := b } := by
  simp only [Capture.putWaiting, h]

theorem putWaiting_bufB (b : Buffer) (h : c.bufB = .waiting l) (ha : ∀ a, c.bufA ≠ .waiting a) :
    c.putWaiting b = { c with bufB := b } := by
  cases hA : c.bufA with
  | waiting a => exact absurd hA (ha a)
  | _ => simp [Capture.putWaiting, h, hA]

end Buffers

/-- The line capture unit with the notice counted (R25). -/
def Capture.noticed (c : Capture) : Capture :=
  { c with counters := { c.counters with memErrors := bump c.counters.memErrors } }

section Notice
variable {n : LineId} {s : State}

theorem noticed_putAssembling (c : Capture) (b : Buffer) : c.noticed.putAssembling b = (c.putAssembling b).noticed := by
  simp only [Capture.putAssembling, Capture.noticed]; split <;> rfl

theorem noticed_putWaiting (c : Capture) (b : Buffer) : c.noticed.putWaiting b = (c.putWaiting b).noticed := by
  simp only [Capture.putWaiting, Capture.noticed]; split <;> rfl

/-- A line that is ASSEMBLING is marked (R25). -/
theorem lineErrorNotice_assembling {l : Line} (ha : (s.lane n.lane).capture.assemblingLine = some l)
    (named : l.named n = true) : lineErrorNotice s n =
      s.modCapture n.lane fun c => (c.putAssembling (.assembling { l with memError := true })).noticed := by
  simp only [lineErrorNotice, State.modCapture_lane, if_true, State.modCapture_modCapture, ← noticed_putAssembling]
  split
  case h_1 h1 h2 => cases ha.symm.trans h1; exact if_pos named
  case h_2 h1 h2 => cases ha.symm.trans h1; exact if_pos named
  case h_3 h1 h2 => cases ha.symm.trans h1
  case h_4 h1 h2 => cases ha.symm.trans h1

/-- A line that is WAITING is dropped (R25). -/
theorem lineErrorNotice_waiting {w : Line} (hw : (s.lane n.lane).capture.waitingLine = some w) (named : w.named n = true)
    (other : ∀ l, (s.lane n.lane).capture.assemblingLine = some l → l.named n = false) : lineErrorNotice s n =
      makeTrailer n.lane w .memError 0 0 false false
        (s.modCapture n.lane fun c => (c.putWaiting .free).noticed) := by
  simp only [lineErrorNotice, State.modCapture_lane, if_true, State.modCapture_modCapture, ← noticed_putWaiting]
  split
  case h_1 h1 h2 => cases hw.symm.trans h2; rw [if_neg (by simp [other _ h1]), if_pos named]; rfl
  case h_2 h1 h2 => cases hw.symm.trans h2
  case h_3 h1 h2 => cases hw.symm.trans h2; exact if_pos named
  case h_4 h1 h2 => cases hw.symm.trans h2

/-- A line that is neither has the notice counted (R25). -/
theorem lineErrorNotice_neither (other : ∀ l, (s.lane n.lane).capture.assemblingLine = some l ∨
    (s.lane n.lane).capture.waitingLine = some l → l.named n = false) :
    lineErrorNotice s n = s.modCapture n.lane Capture.noticed := by
  simp only [lineErrorNotice, State.modCapture_lane, if_true]
  split
  case h_1 h1 h2 => rw [if_neg (by simp [other _ (.inl h1)]), if_neg (by simp [other _ (.inr h2)])]; rfl
  case h_2 h1 h2 => exact if_neg (by simp [other _ (.inl h1)])
  case h_3 h1 h2 => exact if_neg (by simp [other _ (.inr h2)])
  case h_4 h1 h2 => rfl

end Notice

/-! #### The wait list served (R3) -/

section Serve
variable {s t : State} {b : Block} {rest : List Block} {w : Request × Purpose}

theorem serveWaiting_once (hl : s.path.waitList = b :: rest) (hw : wanted b s = some w)
    (ht : made b { s with path := { s.path with waitList := rest }.inject w } = t) (hn : wanted b t = none) :
    serveWaiting s = t := by
  rw [serveWaiting_of_cons hl hw, ht, hn]; rfl

theorem serveWaiting_again (hl : s.path.waitList = b :: rest) (hw : wanted b s = some w)
    (ht : made b { s with path := { s.path with waitList := rest }.inject w } = t) (hn : wanted b t ≠ none) :
    serveWaiting s = { t with path := { t.path with waitList := rest ++ [b] } } := by
  rw [serveWaiting_of_cons hl hw, ht, if_pos (Option.isSome_iff_ne_none.mpr hn), ← ht, made_path]; rfl

end Serve

/-! #### A write answered (R1, R8, R9, R13) -/

section Answer
variable {e : PassEntry} {okay : Bool} {data : List Byte} {s : State}

theorem completePass_read (kind : e.req.kind = .read) : completePass e okay data s = answered e okay data s := by
  simp only [completePass, kind]; rfl

theorem completePass_okay (kind : e.req.kind = .write) :
    completePass e true data s = offerCompleted e.master e.req (answered e true [] s) := by
  simp only [completePass, kind]; rfl

theorem completePass_error (kind : e.req.kind = .write) : completePass e false data s =
    if s.global = .running then e.fed.foldl lineErrorNotice (answered e false [] s) else answered e false [] s := by
  simp only [completePass, kind]; rfl

theorem offerCompleted_of_not_running {m : Fin 16} {r : Request} (h : s.global ≠ .running) : offerCompleted m r s = s := by
  simp only [offerCompleted]
  split
  next g _ _ => exact absurd g h
  next => rfl

theorem offerCompleted_of_apart {m : Fin 16} {r : Request} {base : Nat} (hb : s.command.base = some base)
    (h : apart r.addr (r.addr + 32 * r.len) base (base + 4096)) : offerCompleted m r s = s := by
  have untouched : touchesControlBlock base r = false := by
    simp only [touchesControlBlock, intervalsMeet, apart] at h ⊢
    simp; omega
  simp only [offerCompleted, hb]
  split
  next _ h _ => cases h; simp [untouched]
  next => rfl

end Answer

/-! #### What the command unit and the report unit ask for (R3) -/

section Wants
variable {s : State}

theorem wants_area_write {u : CommandUnit} {r : Request} {more : List Request} (h : u.writes = r :: more) :
    u.wants = some (r, .commandWrite) := by simp [CommandUnit.wants, h]

theorem afterMade_area_write {u : CommandUnit} {r : Request} {more : List Request} (h : u.writes = r :: more)
    (left : more ≠ [] ∨ ∀ e, u.cond ≠ .executing e (some .snapshot)) : u.afterMade = { u with writes := more } := by
  simp only [CommandUnit.afterMade, h]
  split
  next e hc => exact (left.elim (absurd rfl) fun h => absurd hc (h e))
  next => rfl

theorem afterMade_last_area_write {u : CommandUnit} {r : Request} {e : List Byte} (h : u.writes = [r])
    (hc : u.cond = .executing e (some .snapshot)) :
    u.afterMade = { u with writes := [], cond := .retiring .done false } := by
  simp [CommandUnit.afterMade, h, hc]

section Conditions
variable {u : CommandUnit} (h : u.writes = [])
include h

theorem wants_entry_read (hc : u.cond = .fetching false) :
    u.wants = some (entryRead (u.base.getD 0) u.consumer, .entryRead) := by simp [CommandUnit.wants, h, hc]

theorem wants_status {st : Status} (hc : u.cond = .retiring st false) :
    u.wants = some (statusWrite (u.base.getD 0) u.consumer st, .commandWrite) := by simp [CommandUnit.wants, h, hc]

theorem wants_consumer_word {st : Status} (hc : u.cond = .retiring st true) :
    u.wants = some (consumerWordWrite (u.base.getD 0) ((u.consumer + 1) % 64), .commandWrite) := by
  simp [CommandUnit.wants, h, hc]

theorem wants_nothing (hc : u.cond = .idle ∨ u.cond = .loading ∨ u.cond = .fetching true ∨
    ∃ e held, u.cond = .executing e held) : u.wants = none := by
  rcases hc with hc | hc | hc | ⟨e, held, hc⟩ <;> simp [CommandUnit.wants, h, hc]

theorem afterMade_entry_read (hc : u.cond = .fetching false) : u.afterMade = { u with cond := .fetching true } := by
  simp [CommandUnit.afterMade, h, hc]

theorem afterMade_status {st : Status} (hc : u.cond = .retiring st false) :
    u.afterMade = { u with cond := .retiring st true } := by simp [CommandUnit.afterMade, h, hc]

end Conditions

theorem afterMade_consumer_word {u : CommandUnit} {st : Status} (h : u.writes = []) (hc : u.cond = .retiring st true) :
    u.afterMade = { u with
      consumer := (u.consumer + 1) % 64
      cond := if (u.consumer + 1) % 64 = u.producer then .idle else .fetching false } := by
  simp only [CommandUnit.afterMade, h, hc, CommandUnit.beginNext, true_and]
  split_ifs <;> simp_all

end Wants

/-- Settles O16. -/
theorem responsesCompleteTheirRequests : Obligations.ResponsesCompleteTheirRequests := by
  refine ⟨⟨fun okay data s h => if_pos h, fun okay data e s first kind => ?read⟩, ?injected, ?write, ?notice,
    fun _ _ _ => ⟨rfl, rfl⟩, fun s i => ⟨wanted_lane_none, fun r more h => ⟨wanted_lane_some h, made_lane h⟩⟩, ?command,
    ?report⟩
  case read => rw [exec_response_pass first, completePass_read kind]
  case injected =>
    intro okay data e maker s first kind purpose
    have hm : e.purpose.maker = maker := by rcases purpose with ⟨i, h, rfl⟩ | ⟨h, rfl⟩ | ⟨h, rfl⟩ <;> rw [h] <;> rfl
    have silent (t : State) : deliver e okay data t = t := by
      rcases purpose with ⟨i, h, -⟩ | ⟨h, -⟩ | ⟨h, -⟩ <;> simp only [deliver, h]
    refine ⟨fun nobody => ?nobody, fun b rest w waiting want => ?waiting⟩
    case nobody =>
      rw [exec_response_write first kind nobody, silent, hm]
      exact ⟨fun h => by subst h; rfl, fun h fault => by subst h; simp [afterWriteBy, fault],
        fun h fault => by subst h; simp [afterWriteBy, fault]⟩
    case waiting =>
      intro served after
      rw [exec_response_injected first, completeInj_of_write kind, silent, hm]
      exact ⟨fun nothing => by rw [serveWaiting_once (s := freed s) waiting want rfl nothing]; rfl,
        fun more => by rw [serveWaiting_again (s := freed s) waiting want rfl more]; rfl⟩
  case write =>
    intro e data s first kind
    refine ⟨fun running => ?_, fun h okay => ?_, fun base m hb _ h => ?_⟩
    · rw [exec_response_pass first, completePass_error kind, if_pos running]
    · rw [exec_response_pass first]
      cases okay with
      | true => rw [completePass_okay kind, offerCompleted_of_not_running (s := answered e true [] s) h]
      | false => rw [completePass_error kind, if_neg h]
    · rw [exec_response_pass first, completePass_okay kind, offerCompleted_of_apart (s := answered e true [] s) hb h]
  case notice =>
    intro n s r c counted names noticed drops
    have dropped {l : Line} {c' : Capture} (ht : c'.trailers = c.trailers)
        (hr : r = makeTrailer n.lane l .memError 0 0 false false (noticed c')) : drops l c' := by
      intro g hg w waiting
      have geometry : ((noticed c').lane n.lane).control.geometry = some g := by simp [noticed, hg]
      have asked : (noticed c').withTrailer n.lane w = waiting := by
        simp [waiting, noticed, State.withTrailer, State.modCapture, ht]
      refine ⟨fun off => ?_, fun on room none => ?_, fun on hb full => ?_, fun on hb => ?_⟩
      · rw [hr, makeTrailer_of_disabled geometry off]
      · rw [hr, makeTrailer_at_once geometry on (by exact room) (by simpa [noticed, ht] using none)]; rfl
      · rw [hr, makeTrailer_waits geometry on (by exact hb) (by exact full), asked]; rfl
      · rw [hr, makeTrailer_stands geometry on (by exact hb), asked]
    refine ⟨fun l hA names => ?_, fun l hB names hA => ?_, fun l hA names hB => dropped rfl ?_,
      fun l hB names hA hA' => dropped rfl ?_, fun other => ?_⟩
    · refine (lineErrorNotice_assembling (assemblingLine_eq_some.mpr (.inl hA)) (Line.named_iff.mpr names)).trans ?_
      rw [State.modCapture, putAssembling_bufA _ hA]; rfl
    · refine (lineErrorNotice_assembling (assemblingLine_eq_some.mpr (.inr ⟨hB, hA⟩)) (Line.named_iff.mpr names)).trans ?_
      rw [State.modCapture, putAssembling_bufB _ hB hA]; rfl
    · refine (lineErrorNotice_waiting (waitingLine_eq_some.mpr (.inl hA)) (Line.named_iff.mpr names) fun a ha => ?_).trans ?_
      · rcases assemblingLine_eq_some.mp ha with h | ⟨h, -⟩
        · cases hA.symm.trans h
        · exact Bool.eq_false_iff.mpr fun named => hB a h (Line.named_iff.mp named)
      · rw [State.modCapture, putWaiting_bufA _ hA]; rfl
    · refine (lineErrorNotice_waiting (waitingLine_eq_some.mpr (.inr ⟨hB, hA'⟩)) (Line.named_iff.mpr names)
        fun a ha => ?_).trans ?_
      · rcases assemblingLine_eq_some.mp ha with h | ⟨h, -⟩
        · exact Bool.eq_false_iff.mpr fun named => hA a h (Line.named_iff.mp named)
        · cases hB.symm.trans h
      · rw [State.modCapture, putWaiting_bufB _ hB hA']; rfl
    · exact lineErrorNotice_neither fun l hl => Bool.eq_false_iff.mpr fun named => other l hl (Line.named_iff.mp named)
  case command =>
    intro s u next turned
    exact ⟨fun r more h => ⟨wants_area_write h, fun left => congrArg turned (afterMade_area_write h left),
        fun e last hc => congrArg turned (afterMade_last_area_write (last ▸ h) hc)⟩,
      fun h => ⟨fun hc => ⟨wants_entry_read h hc, congrArg turned (afterMade_entry_read h hc)⟩,
        fun st hc => ⟨wants_status h hc, congrArg turned (afterMade_status h hc)⟩,
        fun st hc => ⟨wants_consumer_word h hc, congrArg turned (afterMade_consumer_word h hc)⟩, wants_nothing h⟩⟩
  case report =>
    intro s r
    have turned {r r' : ReportUnit} (h : r = r') : ({ s with report := r } : State) = { s with report := r' } := by rw [h]
    exact ⟨fun hz => ⟨wants_zero hz, turned (afterMade_zero hz)⟩,
      fun hz => ⟨fun v hw => ⟨wants_publishing hz hw, turned (afterMade_publishing hz hw)⟩,
        fun v n h => wants_none hz (h.imp id (Or.imp (fun h => ⟨v, h⟩) fun h => ⟨n, h⟩))⟩⟩

end Sys2Proof.Machine


/-! ### Host writes to the control block (R150, R151, R158) -/

namespace Sys2Proof.Machine

/-! #### The bytes a write enables -/

section Offsets
variable {base : Nat} {r : Request}

theorem mem_enabledOffsets {o : Nat} : o ∈ enabledOffsets base r ↔ o < 4096 ∧ Enables r (base + o) := by
  simp only [enabledOffsets, List.mem_filterMap, List.mem_range, Option.ite_none_right_eq_some, Option.some.injEq, Enables]
  constructor
  · rintro ⟨n, hn, ⟨bit, lo, hi⟩, rfl⟩; exact ⟨by omega, n, hn, by omega, bit⟩
  · rintro ⟨ho, n, hn, ha, bit⟩; exact ⟨n, hn, ⟨bit, by omega, by omega⟩, by omega⟩

theorem touchesControlBlock_of_enables {o : Nat} (ho : o < 4096) (h : Enables r (base + o)) :
    touchesControlBlock base r = true := by
  obtain ⟨n, hn, ha, -⟩ := h
  exact (intervalsMeet_iff ..).mpr ⟨base + o, by omega⟩

/-- The write enables all four bytes of the host word at `off`. -/
def Whole (base : Nat) (r : Request) (off : Nat) : Prop := ∀ o, off ≤ o → o < off + 4 → Enables r (base + o)

/-- The write enables some, but not all four bytes of the host word at `off`. -/
def Part (base : Nat) (r : Request) (off : Nat) : Prop :=
  ¬ Whole base r off ∧ ∃ o, off ≤ o ∧ o < off + 4 ∧ Enables r (base + o)

/-- The write raises the foreign-write counter (R150). -/
def CallsForeign (base : Nat) (r : Request) : Prop := Part base r 48 ∨ Part base r 60 ∨
  ∃ o, o < 4096 ∧ (52 ≤ o ∧ o < 60 ∨ 64 ≤ o ∧ 48 ≤ o % 64) ∧ Enables r (base + o)

theorem wordFull_iff {off : Nat} (h : off + 4 ≤ 4096) : wordFull (enabledOffsets base r) off = true ↔ Whole base r off := by
  simp only [wordFull, Bool.and_eq_true, List.contains_iff_mem, mem_enabledOffsets, Whole]
  constructor
  · rintro ⟨⟨⟨⟨-, h0⟩, -, h1⟩, -, h2⟩, -, h3⟩ o lo hi
    obtain rfl | rfl | rfl | rfl : o = off ∨ o = off + 1 ∨ o = off + 2 ∨ o = off + 3 := by omega
    · exact h0
    · exact h1
    · exact h2
    · exact h3
  · intro whole
    exact ⟨⟨⟨⟨by omega, whole _ (by omega) (by omega)⟩, by omega, whole _ (by omega) (by omega)⟩, by omega,
      whole _ (by omega) (by omega)⟩, by omega, whole _ (by omega) (by omega)⟩

theorem wordTouched_iff {off : Nat} (h : off + 4 ≤ 4096) :
    wordTouched (enabledOffsets base r) off = true ↔ ∃ o, off ≤ o ∧ o < off + 4 ∧ Enables r (base + o) := by
  simp only [wordTouched, List.any_eq_true, Bool.and_eq_true, decide_eq_true_eq, mem_enabledOffsets]
  exact ⟨fun ⟨o, ⟨_, e⟩, lo, hi⟩ => ⟨o, lo, hi, e⟩, fun ⟨o, lo, hi, e⟩ => ⟨o, ⟨by omega, e⟩, lo, hi⟩⟩

theorem countsForeign_iff : countsForeign (enabledOffsets base r) = true ↔ CallsForeign base r := by
  have full (off : Nat) (h : off + 4 ≤ 4096) : (!wordFull (enabledOffsets base r) off) = true ↔ ¬ Whole base r off := by
    rw [← wordFull_iff h]; simp
  simp only [countsForeign, Bool.or_eq_true, Bool.and_eq_true, wordTouched_iff, full, Nat.reduceAdd, Nat.reduceLeDiff,
    List.any_eq_true, decide_eq_true_eq, mem_enabledOffsets, CallsForeign, Part, or_assoc]
  refine or_congr and_comm (or_congr and_comm ⟨?_, ?_⟩)
  · rintro ⟨o, ⟨lt, e⟩, place⟩; exact ⟨o, lt, place, e⟩
  · rintro ⟨o, lt, place, e⟩; exact ⟨o, ⟨lt, e⟩, place⟩

theorem Whole.offset {off : Nat} (h : Whole base r off) : Enables r (base + off) := h off (Nat.le_refl _) (by omega)

theorem not_whole_of_entries_only {off : Nat} (lt : off < 4096) (place : 48 ≤ off % 64)
    (h : ∀ o, o < 4096 → Enables r (base + o) → o % 64 < 48) : ¬ Whole base r off :=
  fun whole => absurd (h off lt whole.offset) (Nat.not_lt.mpr place)

theorem not_callsForeign_of_entries_only (h : ∀ o, o < 4096 → Enables r (base + o) → o % 64 < 48) :
    ¬ CallsForeign base r := by
  rintro (⟨-, o, lo, hi, e⟩ | ⟨-, o, lo, hi, e⟩ | ⟨o, lt, place, e⟩)
  · have := h o (by omega) e; omega
  · have := h o (by omega) e; omega
  · have := h o lt e; omega

/-- The bytes that a write of the one beat behind the first of the control block enables. -/
theorem enables_second_beat {k : ReqKind} {m : BitVec 32} {d : List Byte} {o : Nat} :
    Enables ⟨k, base + 32, 1, [m], d⟩ (base + o) ↔ 32 ≤ o ∧ o < 64 ∧ m.getLsbD (o - 32) = true := by
  constructor
  · rintro ⟨n, hn, ha, bit⟩
    replace hn : n < 32 := hn
    replace ha : base + 32 + n = base + o := ha
    have hz : n / 32 = 0 := by omega
    have hm : n % 32 = o - 32 := by omega
    simp only [hz, hm] at bit
    exact ⟨by omega, by omega, bit⟩
  · rintro ⟨lo, hi, bit⟩
    have hz : (o - 32) / 32 = 0 := by omega
    have hm : (o - 32) % 32 = o - 32 := by omega
    exact ⟨o - 32, show o - 32 < 32 by omega, show base + 32 + (o - 32) = base + o by omega, by simp only [hz, hm]; exact bit⟩

end Offsets

/-! #### What the command unit makes of a write -/

section Act
variable {base : Nat} {m : Fin 16} {r : Request} {s : State}

/-- A control-master write acts on each whole host word and is counted foreign where a byte calls for it (R150, R151). -/
theorem offerCompleted_control (g : s.global = .running) (hb : s.command.base = some base) (hm : s.command.master = some m)
    {report : ReportUnit} {foreign : Nat}
    (whole : Whole base r 60 → report = s.report.consumerUpdate (wordValue base r 60))
    (kept : ¬ Whole base r 60 → report = s.report)
    (counted : CallsForeign base r → foreign = bump s.command.foreign)
    (uncounted : ¬ CallsForeign base r → foreign = s.command.foreign) :
    (Whole base r 48 → offerCompleted m r s = takeProducer (wordValue base r 48)
      { s with report := report, command := { s.command with foreign := foreign } }) ∧
    (¬ Whole base r 48 → offerCompleted m r s =
      { s with report := report, command := { s.command with foreign := foreign } }) := by
  have consumer : (if wordFull (enabledOffsets base r) 60 then
      { s with report := s.report.consumerUpdate (wordValue base r 60) } else s) = { s with report := report } := by
    by_cases h : Whole base r 60
    · rw [if_pos ((wordFull_iff (by omega)).mpr h), whole h]
    · rw [if_neg (mt (wordFull_iff (by omega)).mp h), kept h]
  have counter : (if countsForeign (enabledOffsets base r) then countForeign { s with report := report } else
      { s with report := report }) = { s with report := report, command := { s.command with foreign := foreign } } := by
    by_cases h : CallsForeign base r
    · rw [if_pos (countsForeign_iff.mpr h), counted h]; rfl
    · rw [if_neg (mt countsForeign_iff.mp h), uncounted h]
  by_cases touched : touchesControlBlock base r = true
  · have acts : offerCompleted m r s = if wordFull (enabledOffsets base r) 48 then takeProducer (wordValue base r 48)
        { s with report := report, command := { s.command with foreign := foreign } } else
        { s with report := report, command := { s.command with foreign := foreign } } := by
      unfold offerCompleted
      split
      next base' m' _ hb' hm' =>
        cases hb.symm.trans hb'
        cases hm.symm.trans hm'
        simp only [touched, if_true, consumer, counter]
      next h => exact absurd hm (h base m g hb)
    exact ⟨fun h => acts.trans (if_pos ((wordFull_iff (by omega)).mpr h)),
      fun h => acts.trans (if_neg (mt (wordFull_iff (by omega)).mp h))⟩
  · have none (o : Nat) (ho : o < 4096) : ¬ Enables r (base + o) := mt (touchesControlBlock_of_enables ho) touched
    have stands : offerCompleted m r s = s := by simp only [offerCompleted, g, hb, hm, touched]; rfl
    have foreign_eq : foreign = s.command.foreign := uncounted <| by
      rintro (⟨-, o, lo, hi, e⟩ | ⟨-, o, lo, hi, e⟩ | ⟨o, lt, -, e⟩)
      · exact none o (by omega) e
      · exact none o (by omega) e
      · exact none o lt e
    have report_eq : report = s.report := kept fun h => none 60 (by omega) h.offset
    exact ⟨fun h => absurd h.offset (none 48 (by omega)), fun _ => by rw [stands, foreign_eq, report_eq]⟩

/-- A write by another master is counted where its range meets the control block (log 15). -/
theorem offerCompleted_foreign {other : Fin 16} (g : s.global = .running) (hb : s.command.base = some base)
    (hm : s.command.master = some m) (ho : other ≠ m) (touched : touchesControlBlock base r = true) :
    offerCompleted other r s = { s with command := { s.command with foreign := bump s.command.foreign } } := by
  simp only [offerCompleted, g, hb, hm, touched, if_true, if_neg ho, countForeign]

/-- An IDLE unit behind the producer copy makes the entry read (R151, R152). -/
theorem takeProducer_fetches {v : Nat} (nothing : s.command.writes = []) (idle : s.command.cond = .idle)
    (behind : s.command.consumer ≠ v % 64) (room : Room 1 s) (hb : s.command.base = some base) :
    takeProducer v s = { s with
      path := s.path.inject (entryRead base s.command.consumer, .entryRead)
      command := { s.command with producer := v % 64, cond := .fetching true } } := by
  have begun : ({ s.command with producer := v % 64 } : CommandUnit).beginNext =
      { s.command with producer := v % 64, cond := .fetching false } := if_pos ⟨idle, behind⟩
  rw [takeProducer, begun]
  refine request_once (wants_entry_read nothing rfl) room ?_ (wants_nothing (by exact nothing) (.inr (.inr (.inl rfl))))
  simp only [made]
  rw [afterMade_entry_read (by exact nothing) rfl, hb]
  rfl

/-- A unit at work, or level with the copy, takes the copy only (R151). -/
theorem takeProducer_copies {v : Nat} (nothing : s.command.writes = [])
    (h : s.command.cond = .idle ∧ s.command.consumer = v % 64 ∨ (∃ b h, s.command.cond = .executing b h) ∨
      s.command.cond = .fetching true) :
    takeProducer v s = { s with command := { s.command with producer := v % 64 } } := by
  have begun : ({ s.command with producer := v % 64 } : CommandUnit).beginNext =
      { s.command with producer := v % 64 } := if_neg fun ⟨idle, behind⟩ => by
    rcases h with ⟨-, level⟩ | ⟨b, h, hc⟩ | hc
    · exact behind level
    · exact absurd (idle.symm.trans hc) nofun
    · exact absurd (idle.symm.trans hc) nofun
  rw [takeProducer, begun]
  refine request_of_wanted_none (wants_nothing nothing ?_)
  rcases h with ⟨idle, -⟩ | ⟨b, h, hc⟩ | hc
  · exact .inl idle
  · exact .inr (.inr (.inr ⟨b, h, hc⟩))
  · exact .inr (.inr (.inl hc))

end Act

section Settle
variable {e : PassEntry} {s : State} {base : Nat} {m : Fin 16}

/-- The control master's write, answered with OKAY and then acted on. -/
theorem exec_control_write (first : NextIsPass e s) (kind : e.req.kind = .write) (g : s.global = .running)
    (hb : s.command.base = some base) (hm : s.command.master = some m) (master : e.master = m)
    {report : ReportUnit} {foreign : Nat}
    (whole : Whole base e.req 60 → report = s.report.consumerUpdate (wordValue base e.req 60))
    (kept : ¬ Whole base e.req 60 → report = s.report)
    (counted : CallsForeign base e.req → foreign = bump s.command.foreign)
    (uncounted : ¬ CallsForeign base e.req → foreign = s.command.foreign) :
    (Whole base e.req 48 → exec (.downstreamResponse true []) s = .next (takeProducer (wordValue base e.req 48)
      { answered e true [] s with report := report, command := { s.command with foreign := foreign } })) ∧
    (¬ Whole base e.req 48 → exec (.downstreamResponse true []) s =
      .next { answered e true [] s with report := report, command := { s.command with foreign := foreign } }) := by
  rw [exec_response_pass first, completePass_okay kind, master]
  obtain ⟨acts, stands⟩ := offerCompleted_control (s := answered e true [] s) g hb hm whole kept counted uncounted
  exact ⟨fun h => congrArg _ (acts h), fun h => congrArg _ (stands h)⟩

end Settle

/-- The bits that the mask of the command producer word, and of the report consumer word, sets. -/
theorem producer_mask_bits : ∀ n < 32, (0x000F0000#32).getLsbD n = true ↔ 16 ≤ n ∧ n < 20 := by decide

theorem consumer_mask_bits : ∀ n < 32, (0xF0000000#32).getLsbD n = true ↔ 28 ≤ n := by decide

/-- Settles O17: each form of write is a case of `exec_control_write`, by the bytes it enables. -/
theorem controlBlockWritesAreActedOnOrCounted : Obligations.ControlBlockWritesAreActedOnOrCounted := by
  refine ⟨⟨?producer, ?consumer⟩, ?forms, ?other, ?error, ?all⟩
  case producer =>
    intro e s base v m first g hb hm master req aligned hv room nothing
    have enables (o : Nat) : Enables e.req (base + o) ↔ 48 ≤ o ∧ o < 52 := by
      rw [req, enables_second_beat]
      refine ⟨fun ⟨lo, hi, bit⟩ => ?_, fun h => ⟨by omega, by omega, (producer_mask_bits _ (by omega)).mpr (by omega)⟩⟩
      have := (producer_mask_bits _ (by omega)).mp bit
      omega
    have whole : Whole base e.req 48 := fun o lo hi => (enables o).mpr ⟨lo, hi⟩
    have not60 : ¬ Whole base e.req 60 := fun h => by have := (enables 60).mp h.offset; omega
    have uncounted : ¬ CallsForeign base e.req := by
      simp only [CallsForeign, Part, enables]
      rintro (⟨h, -⟩ | ⟨-, o, h⟩ | ⟨o, h⟩)
      · exact h whole
      · omega
      · omega
    have value : wordValue base e.req 48 = v := by
      rw [req]
      show fromLe (((zeroBytes 16 ++ le 4 v ++ zeroBytes 12).drop (base + 48 - (base + 32))).take 4) = v
      rw [show base + 48 - (base + 32) = (zeroBytes 16).length + 0 by simp, drop_take_middle _ _ _ _ _ (by simp)]
      rw [List.drop_zero, List.take_of_length_le (by simp)]; exact fromLe_le 4 v hv
    obtain ⟨acts, -⟩ := exec_control_write first (by rw [req]) g hb hm master (report := s.report)
      (foreign := s.command.foreign) (fun h => absurd h not60) (fun _ => rfl) (fun h => absurd h uncounted) fun _ => rfl
    rw [acts whole, value]
    exact ⟨fun idle behind => congrArg _ (takeProducer_fetches nothing idle behind room hb),
      fun idle level => congrArg _ (takeProducer_copies nothing (.inl ⟨idle, level⟩)),
      fun b h hc => congrArg _ (takeProducer_copies nothing (.inr (.inl ⟨b, h, hc⟩)))⟩
  case consumer =>
    intro e s base v m first g hb hm master req aligned hv
    have enables (o : Nat) : Enables e.req (base + o) ↔ 60 ≤ o ∧ o < 64 := by
      rw [req, enables_second_beat]
      refine ⟨fun ⟨lo, hi, bit⟩ => ?_, fun h => ⟨by omega, by omega, (consumer_mask_bits _ (by omega)).mpr (by omega)⟩⟩
      have := (consumer_mask_bits _ (by omega)).mp bit
      omega
    have whole : Whole base e.req 60 := fun o lo hi => (enables o).mpr ⟨lo, hi⟩
    have not48 : ¬ Whole base e.req 48 := fun h => by have := (enables 48).mp h.offset; omega
    have uncounted : ¬ CallsForeign base e.req := by
      simp only [CallsForeign, Part, enables]
      rintro (⟨-, o, h⟩ | ⟨h, -⟩ | ⟨o, h⟩)
      · omega
      · exact h whole
      · omega
    have value : wordValue base e.req 60 = v := by
      rw [req]
      show fromLe (((zeroBytes 28 ++ le 4 v).drop (base + 60 - (base + 32))).take 4) = v
      rw [show base + 60 - (base + 32) = (zeroBytes 28).length by simp, List.drop_left, List.take_of_length_le (by simp)]
      exact fromLe_le 4 v hv
    obtain ⟨-, stands⟩ := exec_control_write first (by rw [req]) g hb hm master (report := s.report.consumerUpdate v)
      (foreign := s.command.foreign) (fun _ => by rw [value]) (fun h => absurd whole h) (fun h => absurd h uncounted)
      fun _ => rfl
    exact stands not48
  case forms =>
    intro e s base m first kind g hb hm master
    refine ⟨fun entries => ?_, fun ⟨o, lt, place, enabled⟩ ⟨p, plo, phi, hp⟩ ⟨q, qlo, qhi, hq⟩ => ?_⟩
    · have uncounted := not_callsForeign_of_entries_only entries
      obtain ⟨-, stands⟩ := exec_control_write first kind g hb hm master (report := s.report)
        (foreign := s.command.foreign)
        (fun h => absurd h (not_whole_of_entries_only (by omega) (by omega) entries)) (fun _ => rfl)
        (fun h => absurd h uncounted) fun _ => rfl
      exact stands (not_whole_of_entries_only (by omega) (by omega) entries)
    · have not48 : ¬ Whole base e.req 48 := fun h => hp (h p plo phi)
      have not60 : ¬ Whole base e.req 60 := fun h => hq (h q qlo (by omega))
      have counts : CallsForeign base e.req := by
        by_cases h48 : o < 52 ∧ 48 ≤ o
        · exact .inl ⟨not48, o, by omega, by omega, enabled⟩
        · by_cases h60 : 60 ≤ o ∧ o < 64
          · exact .inr (.inl ⟨not60, o, by omega, by omega, enabled⟩)
          · exact .inr (.inr ⟨o, lt, by omega, enabled⟩)
      obtain ⟨-, stands⟩ := exec_control_write first kind g hb hm master (report := s.report)
        (fun h => absurd h not60) (fun _ => rfl) (fun _ => rfl) fun h => absurd counts h
      exact stands not48
  case other =>
    intro e s base m first kind g hb hm master meets held
    have touched : touchesControlBlock base e.req = true :=
      (intervalsMeet_iff ..).mpr ⟨max e.req.addr base, by unfold apart at meets; omega⟩
    rw [exec_response_pass first, completePass_okay kind,
      offerCompleted_foreign (s := answered e true [] s) g hb hm master touched]
    rfl
  case error =>
    intro e data s first kind fed
    rw [exec_response_pass first, completePass_error kind, fed, List.foldl_nil, ite_self]
  case all =>
    intro e s base foreign m report first kind g hb hm master whole word part counts consumed kept counted uncounted u v
    obtain ⟨acts, stands⟩ := exec_control_write first kind g hb hm master consumed kept counted uncounted
    exact ⟨stands, fun h nothing idle behind room =>
        (acts h).trans (congrArg _ (takeProducer_fetches nothing idle behind room hb)),
      fun h nothing hc => (acts h).trans (congrArg _ (takeProducer_copies nothing
        (hc.imp id (Or.imp id id))))⟩

end Sys2Proof.Machine


/-! ### Marking, steps, cuts and pulses of a strand (chapters 3 and 8) -/

namespace Sys2Proof.Machine

/-! #### The units of a strand changed twice -/

section Twice
variable (s : State) (k : Fin 6)

theorem State.modMotion_modMotion (f h : Motion → Motion) : (s.modMotion k f).modMotion k h = s.modMotion k fun m => h (f m) := by
  simp [State.modMotion]

theorem State.modMarker_modMarker (f h : Marker → Marker) : (s.modMarker k f).modMarker k h = s.modMarker k fun m => h (f m) := by
  simp [State.modMarker]

end Twice

/-- An event joins a queue with room (R162). -/
theorem State.emit_of_room {s : State} (e : Event) (room : s.report.events.length < 16) :
    s.emit e = { s with report := { s.report with events := s.report.events ++ [e] } } := by
  simp only [State.emit, ReportUnit.emit, if_pos room]

/-! #### The offer of a record (R125 to R127) -/

theorem within_iff {h a b : Nat} : within h a b = true ↔ a < b + h ∧ b < a + h := by
  simp only [within, decide_eq_true_eq]; omega

theorem coalesces_iff {m : Marker} {h f : Nat} : m.coalesces h f = true ↔
    (∃ e ∈ m.queue, f < e.fire + h ∧ e.fire < f + h) ∨ ∃ x, m.lastFired = some x ∧ f < x + h ∧ x < f + h := by
  simp only [Marker.coalesces, Bool.or_eq_true, List.any_eq_true, within_iff]
  refine or_congr Iff.rfl ?_
  cases m.lastFired <;> simp [within_iff]

theorem headAt_iff {m : Marker} {f : Nat} : m.headAt f = true ↔ ∀ e, m.queue.head? = some e → f < e.fire := by
  cases h : m.queue <;> simp [Marker.headAt, h]

theorem insertMark_eq (e : MarkEntry) (l : List MarkEntry) : insertMark e l =
    l.takeWhile (fun x => decide (x.fire ≤ e.fire)) ++ [e] ++ l.dropWhile (fun x => decide (x.fire ≤ e.fire)) := by
  induction l with
  | nil => rfl
  | cons x l ih => by_cases h : x.fire ≤ e.fire <;> simp [insertMark, h, ih]

/-- Settles O30: the cases of `offerMark` in their order. -/
theorem offeredRecordIsJudged : Obligations.OfferedRecordIsJudged := by
  intro k c d s m coord f near shared
  have coalesces : m.coalesces c.holdoff f = true ↔ shared := coalesces_iff
  have apart (h : ¬ shared) : m.coalesces c.holdoff f ≠ true := mt coalesces.mp h
  refine ⟨fun h => if_pos (coalesces.mpr h), fun h late => ?late, fun h inTime full => ?lost,
    fun h inTime room waits => ?queued, fun h inTime room idle due head => ?fired⟩
  case late => exact (if_neg (apart h)).trans (if_pos late)
  case lost => exact (if_neg (apart h)).trans ((if_neg (Nat.not_lt.mpr inTime)).trans (if_pos full))
  case queued =>
    refine (if_neg (apart h)).trans ((if_neg (Nat.not_lt.mpr inTime)).trans ((if_neg (Nat.not_le.mpr room)).trans
      ((if_neg ?_).trans ?_)))
    · rintro ⟨-, idle, due⟩
      rcases waits with pulsing | early
      · exact absurd (idle.symm.trans pulsing) nofun
      · exact absurd due (Nat.not_le.mpr early)
    · rw [State.modMarker, insertMark_eq]
  case fired =>
    exact (if_neg (apart h)).trans ((if_neg (Nat.not_lt.mpr inTime)).trans ((if_neg (Nat.not_le.mpr room)).trans
      (if_pos ⟨headAt_iff.mpr head, idle, due⟩)))

/-! #### The record of an entry (R131) -/

theorem isNamed_iff {d : Defect} {lane : Fin 12} {serial start : Nat} :
    d.isNamed lane serial start = true ↔ d.lane = lane ∧ d.serial = serial ∧ d.start = start := by
  simp [Defect.isNamed, and_assoc]

theorem Defect.remark_eq (d : Defect) (lane : Fin 12) (serial start : Nat) (m : Mark) : d.remark lane serial start m =
    if d.lane = lane ∧ d.serial = serial ∧ d.start = start then { d with mark := m } else d :=
  if_congr isNamed_iff rfl rfl

section Remark
variable (k : Fin 6) (e : MarkEntry) (m : Mark) (s : State)

@[simp] theorem remarkRecord_clock : (remarkRecord k e m s).clock = s.clock := rfl

theorem remarkRecord_strand_self : (remarkRecord k e m s).strand k = { s.strand k with billet := { (s.strand k).billet with
    waiting := (s.strand k).billet.waiting.map fun d => d.remark e.lane e.serial e.start m } } := by
  simp only [remarkRecord, State.mk_strand, State.strands_get, State.setStrand_strand_self]

theorem remarkRecord_jobs : (remarkRecord k e m s).report.jobs =
    s.report.jobs.map (Job.remark k e.lane e.serial e.start m) := rfl

theorem remarkRecord_writer : (remarkRecord k e m s).report.writer = s.report.writer.remark k e.lane e.serial e.start m := rfl

theorem remarkRecord_modMarker (f : Marker → Marker) :
    (remarkRecord k e m s).modMarker k f = remarkRecord k e m (s.modMarker k f) := by
  simp [remarkRecord, State.modMarker, State.setStrand, get_set]

theorem Writer.remark_of_not_writing {w : Writer} (h : ∀ todo n, w ≠ .writing todo n) (lane : Fin 12) (serial start : Nat) :
    w.remark k lane serial start m = w := by
  cases w with
  | writing todo n => exact absurd rfl (h todo n)
  | _ => rfl

end Remark

/-! #### The pulse end (R129) -/

section Pulse
variable {k : Fin 6} {c : MarkSettings} {s : State}

theorem exec_pulseEnd (g : s.global = .running) : exec (.pulseEnd k) s = .next (endDuePulse k s) := if_pos g

theorem pulseDue_iff : pulseDue k c s = true ↔
    1000 * c.pulse ≤ (s.clock + 2 ^ 48 - (s.strand k).marker.pulseStart) % 2 ^ 48 := by
  rw [pulseDue, decide_eq_true_eq, Nat.mul_comm]

theorem endDuePulse_stands (h : (s.strand k).marker.pulsing = true → ∀ c, (s.strand k).marker.settings = some c →
    (s.clock + 2 ^ 48 - (s.strand k).marker.pulseStart) % 2 ^ 48 < 1000 * c.pulse) : endDuePulse k s = s := by
  simp only [endDuePulse]
  split
  next c hc => exact if_neg fun ⟨pulsing, due⟩ => absurd (pulseDue_iff.mp due) (Nat.not_le.mpr (h pulsing c hc))
  next => rfl

theorem endDuePulse_ended (hc : (s.strand k).marker.settings = some c) (pulsing : (s.strand k).marker.pulsing = true)
    (due : 1000 * c.pulse ≤ (s.clock + 2 ^ 48 - (s.strand k).marker.pulseStart) % 2 ^ 48) :
    endDuePulse k s = endPulse k c s := by
  simp only [endDuePulse, hc, if_pos (show _ ∧ _ from ⟨pulsing, pulseDue_iff.mpr due⟩)]

theorem pulseScan_of_early {coord late : Nat} {l : List MarkEntry} (h : ∀ e, l.head? = some e → coord < e.fire) :
    pulseScan coord late l = ([], none, l) := by
  cases l with
  | nil => rfl
  | cons e l => exact if_pos (h e rfl)

theorem pulseScan_of_due {coord late : Nat} {e : MarkEntry} {l : List MarkEntry} (due : e.fire ≤ coord)
    (inTime : coord ≤ e.fire + late) : pulseScan coord late (e :: l) = ([], some e, l) := by
  simp only [pulseScan, if_neg (Nat.not_lt.mpr due), if_pos inTime]

theorem pulseScan_of_late {coord late : Nat} {e : MarkEntry} {l : List MarkEntry} (h : e.fire + late < coord) :
    pulseScan coord late (e :: l) = (e :: (pulseScan coord late l).1, (pulseScan coord late l).2) := by
  simp only [pulseScan, if_neg (show ¬ coord < e.fire by omega), if_neg (Nat.not_le.mpr h)]

/-- A head passed as late is removed, and the new head is looked at in its place (R129). -/
theorem endPulse_of_late {e : MarkEntry} {rest : List MarkEntry} (hq : (s.strand k).marker.queue = e :: rest)
    (late : e.fire + c.lateMax < (s.strand k).motion.coord) :
    endPulse k c s = endPulse k c (remarkRecord k e .late (s.setStrand k { s.strand k with
      marker := { (s.strand k).marker with queue := rest, late := bump (s.strand k).marker.late } })) := by
  have scan := pulseScan_of_late (l := rest) late
  have removed (q : List MarkEntry) : removeLate k (s.modMarker k fun m => { m with queue := q }) e =
      (remarkRecord k e .late (s.setStrand k { s.strand k with
        marker := { (s.strand k).marker with queue := rest, late := bump (s.strand k).marker.late } })).modMarker k
          fun m => { m with queue := q } := by
    rw [remarkRecord_modMarker]
    simp [removeLate, State.modMarker]
  simp only [endPulse, hq, scan, List.foldl_cons, removed, remarkRecord_strand_self, State.setStrand_strand_self]

end Pulse

/-- Settles O29: the cases of the scan, and what `remarkRecord` names. -/
theorem pulseEndIdlesOrFires : Obligations.PulseEndIdlesOrFires := by
  refine ⟨fun k s c g hc pulsing => ⟨fun early => ?early, fun due nothing => ?idle, fun e rest due hq reached inTime => ?fires,
    fun e rest due hq late => ?late⟩, fun k e m s => ⟨rfl, fun j hj => remarkRecord_strand s hj e m, ?strand, ?jobs, ?kept,
    ?todo⟩⟩
  case early =>
    refine (exec_pulseEnd g).trans (congrArg _ (endDuePulse_stands fun _ c' hc' => ?_))
    cases hc.symm.trans hc'
    exact early
  case idle =>
    rw [exec_pulseEnd g, endDuePulse_ended hc pulsing due]
    simp only [endPulse, pulseScan_of_early nothing, List.foldl_nil, State.modMarker_modMarker]
    rfl
  case fires =>
    rw [exec_pulseEnd g, endDuePulse_ended hc pulsing due]
    simp only [endPulse, hq, pulseScan_of_due reached inTime, List.foldl_nil, fireEntry, State.modMarker_modMarker]
    rfl
  case late =>
    rw [exec_pulseEnd g, exec_pulseEnd (by exact g), endDuePulse_ended hc pulsing due]
    rw [endDuePulse_ended (c := c) (by simpa [remarkRecord_strand_self] using hc)
      (by simpa [remarkRecord_strand_self] using pulsing) (by simpa [remarkRecord_strand_self] using due),
      endPulse_of_late hq late]
    rfl
  case strand => simp only [remarkRecord_strand_self, Defect.remark_eq]
  case jobs => exact List.map_congr_left fun j _ => by simp only [Job.remark, Defect.remark_eq]
  case kept => exact fun h => Writer.remark_of_not_writing k m h e.lane e.serial e.start
  case todo =>
    intro todo n h
    rw [remarkRecord_writer, h]
    refine congrArg (Writer.writing · n) (List.map_congr_left fun x _ => ?_)
    cases x with
    | defect d => simp only [Rec.remark, Defect.remark_eq]; split_ifs <;> rfl
    | billet b => rfl
    | event v => rfl

end Sys2Proof.Machine


/-! ### Steps, cuts and the increment of the bay clock (chapter 3) -/

namespace Sys2Proof.Machine

/-! #### The sample decoded (R37) -/

section Decode
variable {k : Fin 6} {p : Pair} {s : State}

theorem decodeDue_none (h : (s.strand k).motion.pairDue = none) : decodeDue k s = s := by
  simp only [decodeDue, h]

section Shown
variable (hp : (s.strand k).motion.pairDue = some p)
include hp

theorem decodeDue_noChange (h : decodePair (s.strand k).motion.refPair p = .noChange) :
    decodeDue k s = takePair k p s := by simp only [decodeDue, hp, h]

theorem decodeDue_forward (h : decodePair (s.strand k).motion.refPair p = .forward) :
    decodeDue k s = stepForward k (takePair k p s) := by simp only [decodeDue, hp, h]

theorem decodeDue_reverse (h : decodePair (s.strand k).motion.refPair p = .reverse) :
    decodeDue k s = stepReverse k (takePair k p s) := by simp only [decodeDue, hp, h]

theorem decodeDue_error (h : decodePair (s.strand k).motion.refPair p = .error) :
    decodeDue k s = countEncoderError k (takePair k p s) := by simp only [decodeDue, hp, h]

theorem sampleShows_of {d : Decoded} (g : s.global = .running) (h : decodePair (s.strand k).motion.refPair p = d) :
    s.sampleShows k p d = true := decide_eq_true ⟨g, hp, h⟩

theorem exec_forwardStep (g : s.global = .running) (h : decodePair (s.strand k).motion.refPair p = .forward) :
    exec (.forwardStep k p) s = .next (decodeDue k s) := if_pos (sampleShows_of hp g h)

theorem exec_reverseStep (g : s.global = .running) (h : decodePair (s.strand k).motion.refPair p = .reverse) :
    exec (.reverseStep k p) s = .next (decodeDue k s) := if_pos (sampleShows_of hp g h)

theorem exec_encoderError (g : s.global = .running) (h : decodePair (s.strand k).motion.refPair p = .error) :
    exec (.encoderError k p) s = .next (decodeDue k s) := if_pos (sampleShows_of hp g h)

end Shown

/-- The pair is decoded once. -/
theorem decodeDue_decodeDue : decodeDue k (decodeDue k s) = decodeDue k s :=
  decodeDue_none (decodeDue_motion k s).1

theorem takePair_motion : ((takePair k p s).strand k).motion = { (s.strand k).motion with refPair := p, pairDue := none } := by
  simp [takePair]

end Decode

/-! #### Steps (R38, R39) -/

section Step
variable {k : Fin 6} {s : State}

theorem stepForward_repays (h : 0 < (s.strand k).motion.debt) : stepForward k s = s.modMotion k fun m =>
    { m with debt := m.debt - 1, reportArmed := if m.debt = 1 then true else m.reportArmed } := if_pos h

theorem stepForward_advances (h : (s.strand k).motion.debt = 0) (lt : (s.strand k).motion.coord < topCoord) :
    stepForward k s = markAdvance k (s.modMotion k fun m => { m with coord := m.coord + 1 }) := by
  simp only [stepForward, h, Nat.lt_irrefl, if_false, if_pos lt]

theorem stepForward_saturated (h : (s.strand k).motion.debt = 0) (eq : (s.strand k).motion.coord = topCoord) :
    stepForward k s = s := by
  simp only [stepForward, h, eq, Nat.lt_irrefl, if_false]

theorem markAdvance_stands (h : (s.strand k).marker.pulsing = true ∨
    ∀ e, (s.strand k).marker.queue.head? = some e → (s.strand k).motion.coord < e.fire) : markAdvance k s = s := by
  simp only [markAdvance]
  split
  next => rfl
  next e es hq =>
    refine if_neg fun ⟨idle, due⟩ => ?_
    rcases h with pulsing | early
    · exact absurd (idle.symm.trans pulsing) nofun
    · exact absurd due (Nat.not_le.mpr (early e (by rw [hq]; rfl)))

theorem markAdvance_fires {e : MarkEntry} {rest : List MarkEntry} (idle : (s.strand k).marker.pulsing = false)
    (hq : (s.strand k).marker.queue = e :: rest) (due : e.fire ≤ (s.strand k).motion.coord) :
    markAdvance k s = remarkRecord k e .fired (s.modMarker k fun m => { m with
      queue := rest, pulsing := true, pulseStart := s.clock, lastFired := some e.fire, fired := bump m.fired }) := by
  simp only [markAdvance, hq, if_pos (show _ ∧ _ from ⟨idle, due⟩), fireEntry, State.modMarker_modMarker, State.modMarker_clock]

theorem stepReverse_saturated (h : (s.strand k).motion.debt = 65535) : stepReverse k s = s := by
  simp [stepReverse, h]

theorem stepReverse_raises (h : (s.strand k).motion.debt < 65535) : stepReverse k s =
    testReverseReport k (s.modMotion k fun m => { m with debt := m.debt + 1 }) := if_pos h

theorem testReverseReport_stands (h : (s.strand k).motion.reportArmed = false ∨ (s.strand k).setup = none ∨
    ∀ c, (s.strand k).setup = some c → (s.strand k).motion.debt < c.reverseLimit) : testReverseReport k s = s := by
  simp only [testReverseReport]
  split
  next => rfl
  next c hc =>
    refine if_neg fun ⟨armed, reached⟩ => ?_
    rcases h with disarmed | unset | below
    · exact absurd (armed.symm.trans disarmed) nofun
    · exact absurd (hc.symm.trans unset) nofun
    · exact absurd reached (Nat.not_le.mpr (below c hc))

theorem testReverseReport_reports {c : StrandSetup} (hc : (s.strand k).setup = some c)
    (armed : (s.strand k).motion.reportArmed = true) (reached : c.reverseLimit ≤ (s.strand k).motion.debt) :
    testReverseReport k s = (s.modMotion k fun m => { m with reportArmed := false }).emit
      (.reverseTravel k (s.strand k).motion.coord (s.strand k).motion.debt s.clock) := by
  simp only [testReverseReport, hc, if_pos (show _ ∧ _ from ⟨armed, reached⟩)]

end Step

/-- The advance that brings the coordinate up to the head's fire coordinate fires the head (R127, R128). -/
theorem decodeDue_fires {k : Fin 6} {p : Pair} {s : State} {e : MarkEntry} {rest : List MarkEntry}
    (hp : (s.strand k).motion.pairDue = some p) (hd : decodePair (s.strand k).motion.refPair p = .forward)
    (debt : (s.strand k).motion.debt = 0) (lt : (s.strand k).motion.coord < topCoord)
    (idle : (s.strand k).marker.pulsing = false) (hq : (s.strand k).marker.queue = e :: rest)
    (due : e.fire ≤ (s.strand k).motion.coord + 1) :
    decodeDue k s = remarkRecord k e .fired (s.setStrand k { s.strand k with
      motion := { (s.strand k).motion with refPair := p, pairDue := none, coord := (s.strand k).motion.coord + 1 }
      marker := { (s.strand k).marker with
        queue := rest, pulsing := true, pulseStart := s.clock, lastFired := some e.fire
        fired := bump (s.strand k).marker.fired } }) := by
  rw [decodeDue_forward hp hd, stepForward_advances (by rw [takePair_motion]; exact debt) (by rw [takePair_motion]; exact lt),
    takePair, State.modMotion_modMotion, markAdvance_fires (e := e) (rest := rest) (by simpa using idle) (by simpa using hq)
      (by simpa using due)]
  simp [State.modMarker, State.modMotion]

/-- Settles O23. -/
theorem forwardStepRepaysAdvancesOrFires : Obligations.ForwardStepRepaysAdvancesOrFires := by
  refine ⟨fun k p s g hp hd => ⟨fun debt => ?repays, fun debt lt waits => ?advances, fun debt top => ?saturated⟩,
    fun k p s e rest g hp hd debt lt idle hq due => ?fires, fun d lane serial start => isNamed_iff⟩
  case repays =>
    rw [exec_forwardStep hp g hd, decodeDue_forward hp hd, stepForward_repays (by rw [takePair_motion]; exact debt), takePair,
      State.modMotion_modMotion, State.modMotion]
    by_cases h : (s.strand k).motion.debt = 1 <;> simp [h]
  case advances =>
    rw [exec_forwardStep hp g hd, decodeDue_forward hp hd,
      stepForward_advances (by rw [takePair_motion]; exact debt) (by rw [takePair_motion]; exact lt), takePair,
      State.modMotion_modMotion, markAdvance_stands (by simpa using waits)]
    rfl
  case saturated =>
    rw [exec_forwardStep hp g hd, decodeDue_forward hp hd,
      stepForward_saturated (by rw [takePair_motion]; exact debt) (by rw [takePair_motion]; exact top)]
    rfl
  case fires =>
    have fired := decodeDue_fires hp hd debt lt idle hq due
    refine ⟨_, exec_forwardStep hp g hd, ?_⟩
    rw [fired]
    refine ⟨?motion, ?marker, ?setup, ?current, ?waiting, rfl, ?kept, ?todo, ?others, ?frame⟩
    case motion | marker | setup | current | waiting =>
      simp only [remarkRecord_strand_self, State.setStrand_strand_self] <;> rfl
    case kept => exact fun h => Writer.remark_of_not_writing k .fired h e.lane e.serial e.start
    case todo =>
      intro todo n h
      refine (remarkRecord_writer ..).trans ((congrArg _ h).trans (congrArg (Writer.writing · n)
        (List.map_congr_left fun x _ => ?_)))
      cases x with
      | defect d =>
        by_cases strand : d.strand = k <;> by_cases named : d.isNamed e.lane e.serial e.start = true <;>
          simp [Rec.remark, Defect.remark, strand, named]
      | billet b => rfl
      | event v => rfl
    case others => exact fun j hj => (remarkRecord_strand _ hj e .fired).trans (by simp [hj])
    case frame => rfl

/-- Settles O24. -/
theorem reverseStepRaisesDebt : Obligations.ReverseStepRaisesDebt := by
  refine fun k p s g hp hd => ⟨fun top => ?saturated, fun lt silent => ?raises, fun c lt armed hc reached room => ?reports⟩
  case saturated =>
    rw [exec_reverseStep hp g hd, decodeDue_reverse hp hd, stepReverse_saturated (by rw [takePair_motion]; exact top)]
    rfl
  case raises =>
    rw [exec_reverseStep hp g hd, decodeDue_reverse hp hd, stepReverse_raises (by rw [takePair_motion]; exact lt), takePair,
      State.modMotion_modMotion, testReverseReport_stands (by simpa using silent)]
    rfl
  case reports =>
    rw [exec_reverseStep hp g hd, decodeDue_reverse hp hd, stepReverse_raises (by rw [takePair_motion]; exact lt), takePair,
      State.modMotion_modMotion, testReverseReport_reports (c := c) (by simpa using hc) (by simpa using armed)
        (by simpa using reached), State.modMotion_modMotion, State.emit_of_room _ (by exact room)]
    simp
    rfl

/-- Settles O25. -/
theorem encoderErrorCountsAndTakesPair : Obligations.EncoderErrorCountsAndTakesPair := by
  refine ⟨fun ⟨a, b⟩ ⟨c, d⟩ => ?table, fun k p s g hp hd => ?error, fun t counts => ?bytes⟩
  case table => revert a b c d; decide
  case error =>
    rw [exec_encoderError hp g hd, decodeDue_error hp hd, countEncoderError, takePair, State.modMotion_modMotion]
    rfl
  case bytes =>
    simp [strandSection, List.drop_append, List.take_append, List.drop_of_length_le]

/-! #### The level compared (R44) -/

section Compare
variable {k : Fin 6} {s : State} {c : StrandSetup}

theorem compareDue_none (h : (s.strand k).motion.cutDue = none) : compareDue k s = s := by
  simp only [compareDue, h]

theorem compareDue_low (h : (s.strand k).motion.cutDue = some false) : compareDue k s = takeLevel k false s := by
  simp [compareDue, h]

theorem compareDue_high (h : (s.strand k).motion.cutDue = some true) (high : (s.strand k).motion.cutHigh = true) :
    compareDue k s = takeLevel k true s := by
  simp [compareDue, h, high]

theorem compareDue_unset (h : (s.strand k).motion.cutDue = some true) (hc : (s.strand k).setup = none) :
    compareDue k s = takeLevel k true s := by
  simp only [compareDue, h]
  split
  next hs => cases hc.symm.trans hs
  next => rfl

theorem compareDue_rise (h : (s.strand k).motion.cutDue = some true) (low : (s.strand k).motion.cutHigh = false)
    (hc : (s.strand k).setup = some c) : compareDue k s = judgeCut k c (takeLevel k true s) := by
  simp [compareDue, h, low, hc]

theorem exec_cutInputFall (g : s.global = .running) (h : (s.strand k).motion.cutDue = some false) :
    exec (.cutInputFall k) s = .next (compareDue k s) := if_pos ⟨g, h⟩

theorem exec_cutEvent (g : s.global = .running) (h : (s.strand k).motion.cutDue = some true)
    (low : (s.strand k).motion.cutHigh = false) :
    exec (.cutEvent k) s = .next (compareDue k (decodeDue k s)) := if_pos ⟨g, h, low⟩

theorem judgeCut_refused (h : (s.strand k).motion.coord < c.cutDist ∨
    (s.strand k).motion.coord - c.cutDist ≤ (s.strand k).billet.current.start) : judgeCut k c s =
      s.emit (.cutRefused k (s.strand k).motion.coord c.cutDist (s.strand k).billet.current.start s.clock) := by
  exact if_neg fun ⟨reached, above⟩ => h.elim (fun h => absurd reached (Nat.not_le.mpr h))
    fun h => absurd above (Nat.not_lt.mpr h)

end Compare

/-- Settles O26. -/
theorem cutInputFallsAndRefusedCuts : Obligations.CutInputFallsAndRefusedCuts := by
  refine ⟨fun k s g => ⟨decodeDue_none, fun p hp => ⟨fun hd => decodeDue_noChange hp hd, exec_forwardStep hp g,
    exec_reverseStep hp g, exec_encoderError hp g⟩⟩, fun k s g => ⟨fun h => ?fall, fun low h => ?step, fun low h hp hc => ?unset,
    fun c low h hp hc room refused => ?refused⟩⟩
  case fall => rw [exec_cutInputFall g h, compareDue_low h]; rfl
  case step =>
    obtain ⟨-, -, cutHigh, cutDue, -⟩ := decodeDue_motion k s
    rw [exec_cutEvent g h low, exec_cutEvent ((ofStrand_decodeDue k s).global.trans g) (cutDue.trans h) (cutHigh.trans low),
      decodeDue_decodeDue]
  case unset => rw [exec_cutEvent g h low, decodeDue_none hp, compareDue_unset h hc]; rfl
  case refused =>
    rw [exec_cutEvent g h low, decodeDue_none hp, compareDue_rise h low hc, judgeCut_refused (by simpa [takeLevel] using refused),
      State.emit_of_room _ (by exact room)]
    simp [takeLevel, State.modMotion]

/-! #### The increment of the clock (R34 to R36) -/

theorem finishSample_stands {k : Fin 6} {s : State} (hp : (s.strand k).motion.pairDue = none)
    (hc : (s.strand k).motion.cutDue = none) (early : (s.strand k).marker.pulsing = true →
      ∀ c, (s.strand k).marker.settings = some c →
        (s.clock + 2 ^ 48 - (s.strand k).marker.pulseStart) % 2 ^ 48 < 1000 * c.pulse) : finishSample s k = s := by
  rw [finishSample, decodeDue_none hp, compareDue_none hc, endDuePulse_stands early]

theorem mem_allStrands (k : Fin 6) : k ∈ allStrands := by revert k; decide

theorem foldl_finishSample_ofStrand (l : List (Fin 6)) (s : State) :
    (l.foldl finishSample s).clock = s.clock ∧ (l.foldl finishSample s).global = s.global ∧
      ∀ k, k ∉ l → (l.foldl finishSample s).strand k = s.strand k := by
  induction l generalizing s with
  | nil => exact ⟨rfl, rfl, fun _ _ => rfl⟩
  | cons j l ih =>
    obtain ⟨clock, global, others⟩ := ih (finishSample s j)
    have first := ofStrand_finishSample j s
    refine ⟨clock.trans first.clock, global.trans first.global, fun k hk => ?_⟩
    obtain ⟨hj, hl⟩ := not_or.mp (mt List.mem_cons.mpr hk)
    exact (others k hl).trans (first.strands k hj)

/-- In the order of the strands, each one finishes its sample with the strand as the increment before left it. -/
theorem foldl_finishSample_strand {l : List (Fin 6)} (hl : l.Nodup) {k : Fin 6} (hk : k ∈ l) (s : State) :
    ∃ u, u.strand k = s.strand k ∧ u.clock = s.clock ∧
      (l.foldl finishSample s).strand k = (finishSample u k).strand k := by
  obtain ⟨pre, post, rfl⟩ := List.append_of_mem hk
  obtain ⟨-, hpost, apart⟩ := List.nodup_append.mp hl
  have hpre : k ∉ pre := fun h => apart k h k List.mem_cons_self rfl
  obtain ⟨clock, -, before⟩ := foldl_finishSample_ofStrand pre s
  obtain ⟨-, -, after⟩ := foldl_finishSample_ofStrand post (finishSample (pre.foldl finishSample s) k)
  refine ⟨pre.foldl finishSample s, before k hpre, clock, ?_⟩
  rw [List.foldl_append, List.foldl_cons, after k (List.nodup_cons.mp hpost).1]

theorem holdSamples_strand (v : Vector Sample 6) (s : State) (k : Fin 6) : (holdSamples v s).strand k = { s.strand k with
    motion := { (s.strand k).motion with pairDue := some (v.get k).pair, cutDue := some (v.get k).cut } } := by
  simp only [holdSamples, State.mk_strand, buildStrands_get]

/-- A pulse that has lasted its duration has ended when the sample is finished, or runs again. -/
theorem finishSample_pulse {k : Fin 6} {c : MarkSettings} {s : State} (hc : (s.strand k).marker.settings = some c)
    (due : 1000 * c.pulse ≤ (s.clock + 2 ^ 48 - (s.strand k).marker.pulseStart) % 2 ^ 48) :
    ((finishSample s k).strand k).marker.pulsing = false ∨ ((finishSample s k).strand k).marker.pulseStart = s.clock := by
  have before := (ofStrand_decodeDue k s).trans (ofStrand_compareDue k _)
  have settings := (before.settings k).trans hc
  have ended := (marked_endDuePulse k (compareDue k (decodeDue k s))).pulse k
  rw [before.clock] at ended
  rcases before.pulse k with ⟨-, start⟩ | start | idle
  · have lasted := endDuePulse_ends k c _ settings (pulseDue_iff.mpr (by rw [before.clock, start]; exact due))
    rw [before.clock] at lasted
    exact lasted
  · rcases ended with ⟨-, kept⟩ | now | idle
    · exact .inr (kept.trans start)
    · exact .inr now
    · exact .inl idle
  · rcases ended with ⟨kept, -⟩ | now | idle'
    · exact .inl (kept.trans idle)
    · exact .inr now
    · exact .inl idle'

theorem exec_increment_running (v : Vector Sample 6) {s : State} (g : s.global = .running) :
    ∃ u, u = allStrands.foldl finishSample s ∧ exec (.bayClockIncrement v) s = .next (holdSamples v (tickClock u)) :=
  ⟨_, rfl, by simp only [exec, execBayClockIncrement, g]⟩

/-- Settles O31. -/
theorem clockIncrementSamplesWhileNotRunning : Obligations.ClockIncrementSamplesWhileNotRunning := by
  refine fun v s => ⟨fun g nothing => ?nothing, fun g => ?running, fun g => ?rows, fun g k => ?row,
    fun g => ?held, fun g => ?adopts⟩
  case nothing =>
    have stands : allStrands.foldl finishSample s = s := List.foldl_fixed' (fun k => by
      obtain ⟨hp, hc, early⟩ := nothing k
      exact finishSample_stands hp hc early) _
    obtain ⟨u, hu, increment⟩ := exec_increment_running v g
    obtain rfl : u = s := hu.trans stands
    exact ⟨_, increment, rfl, holdSamples_strand v (tickClock u)⟩
  case running =>
    obtain ⟨clock, global, -⟩ := foldl_finishSample_ofStrand allStrands s
    obtain ⟨w, hw, increment⟩ := exec_increment_running v g
    rw [← hw] at clock global
    refine ⟨_, increment, global.trans g, congrArg (fun n => (n + 1) % 2 ^ 48) clock, fun k => ?_⟩
    obtain ⟨u, strand, now, finished⟩ := foldl_finishSample_strand (by decide : allStrands.Nodup) (mem_allStrands k) s
    rw [← hw] at finished
    obtain ⟨-, refPair, -, -, advanced, stood⟩ := decodeDue_motion k u
    have motion := finishSample_motion k u
    rw [strand] at refPair advanced stood motion
    intro m m'
    have held : m' = { ((finishSample u k).strand k).motion with
        pairDue := some (v.get k).pair, cutDue := some (v.get k).cut } := by
      simp only [m', holdSamples_strand]; exact congrArg (fun t : Strand => { t.motion with
        pairDue := some (v.get k).pair, cutDue := some (v.get k).cut }) finished
    rw [motion] at held
    refine ⟨by rw [held], by rw [held], by rw [held], by rw [held]; exact refPair, fun p hp hd debt lt => ?_, fun still => ?_,
      fun c hc _ due => ?_⟩
    · rw [held]; exact advanced p hp hd debt lt
    · rw [held]; exact stood still
    · have ended := finishSample_pulse (k := k) (c := c) (s := u) (by rw [strand]; exact hc)
        (by rw [strand, now]; exact due)
      rw [now, ← finished] at ended
      rw [holdSamples_strand]; exact ended
  case rows =>
    intro finish u
    obtain ⟨clock, -, -⟩ := foldl_finishSample_ofStrand allStrands s
    obtain ⟨w, hw, increment⟩ := exec_increment_running v g
    have hu : u = allStrands.foldl finishSample s :=
      congrArg₂ (fun f l => List.foldl f s l) (rfl : finish = finishSample) (rfl : _ = allStrands)
    clear_value u
    obtain rfl : u = w := hu.trans hw.symm
    rw [← hw] at clock
    refine ⟨_, increment, ?_, holdSamples_strand v (tickClock u)⟩
    rw [← clock]; rfl
  case row =>
    intro m level
    exact ⟨decodeDue_none, fun p hp => ⟨fun hd => decodeDue_noChange hp hd, exec_forwardStep hp g, exec_reverseStep hp g,
        exec_encoderError hp g⟩, compareDue_none, fun h => ⟨compareDue_low h, exec_cutInputFall g h⟩,
      fun h high => compareDue_high h high,
      fun h low => ⟨exec_cutEvent g h low, fun hp => by rw [exec_cutEvent g h low, decodeDue_none hp]⟩, exec_pulseEnd g⟩
  case held => simp only [exec, execBayClockIncrement, g]
  case adopts =>
    refine ⟨adoptSamples v (tickClock s), ?_, rfl, fun k => ?_⟩
    · rcases g with g | g <;> simp only [exec, execBayClockIncrement, g]
    · simp only [adoptSamples, State.mk_strand, buildStrands_get]; rfl

end Sys2Proof.Machine


/-! ### The host commands: dispatch, faults, settings (chapters 9 and 10) -/

namespace Sys2Proof.Machine

/-! #### Faults and events (R156, R162) -/

section Report
variable {r : ReportUnit} {s : State}

theorem ReportUnit.raise_first {code : FaultCode} {d : Nat} (h : r.fault = .none) :
    r.raise code d = { r with fault := code, detail := d } := if_pos h

theorem ReportUnit.raise_later {code : FaultCode} {d : Nat} (h : r.fault ≠ .none) :
    r.raise code d = { r with suppressed := min 255 (r.suppressed + 1) } := if_neg h

theorem ReportUnit.emit_of_room {e : Event} (h : r.events.length < 16) : r.emit e = { r with events := r.events ++ [e] } :=
  if_pos h

theorem ReportUnit.emit_of_full {e : Event} (h : 16 ≤ r.events.length) :
    r.emit e = { r with lostEvents := bump r.lostEvents }.raise .eventLost e.kindCode := if_neg (Nat.not_lt.mpr h)

end Report

/-! #### The row of the command in hand (R153, R154) -/

/-- The rows that carry out a command in hand as the start-up loader carries out a preset (R153, R166, log 16). -/
inductive Carries : Instr → Command → Prop where
  | laneGeometry (t : Nat) (p : GeometryParams) : Carries .laneGeometry (.laneGeometry t p)
  | laneZones (t n : Nat) (z : List ZoneParams) : Carries .laneZones (.laneZones t n z)
  | deadColumnsMark (t f n : Nat) {a : Nat} (h : a ≠ 0) : Carries .deadColumnsMark (.deadColumns t f n a)
  | deadColumnsClear (t f n : Nat) {a : Nat} (h : a ≠ 1) : Carries .deadColumnsClear (.deadColumns t f n a)
  | laneDetect (t : Nat) (d : Detect) : Carries .laneDetect (.laneDetect t d)
  | strandSetup (t : Nat) (c : StrandSetup) : Carries .strandSetup (.strandSetup t c)
  | strandMarking (t : Nat) (c : MarkSettings) : Carries .strandMarking (.strandMarking t c)
  | classifySetup (c : Classify) : Carries .classifySetup (.classifySetup c)
  | arm (t : Nat) : Carries .arm (.arm t)
  | reseed (t : Nat) : Carries .reseed (.reseed t)
  | testOn (t : Nat) (p : TestParams) {a : Nat} (h : a ≠ 0) : Carries .testOn (.test t a p)
  | testOff (t : Nat) (p : TestParams) {a : Nat} (h : a ≠ 1) : Carries .testOff (.test t a p)
  | clearFault : Carries .clearFault .clearFault
  | laneReset (t : Nat) : Carries .laneReset (.laneReset t)
  | unknown (n : Nat) : Carries .unknownCommand (.unknown n)

/-- Each of these rows retires its command with the status, and on the state, that carrying it out gives. -/
theorem exec_carries {row : Instr} {c : Command} {s u : State} {st : Status} (hr : Carries row c) (h : inHand s = some c)
    (hc : carryPreset c s = (st, u)) : exec row s = .next (retire st u) := by
  have carried : exec row s = conclude (carryPreset c s) := by
    cases hr with
    | laneGeometry => simp only [exec, execLaneGeometry, h, carryPreset]
    | laneZones => simp only [exec, execLaneZones, h, carryPreset]
    | deadColumnsMark _ _ _ ha => simp only [exec, execDeadColumnsMark, h, carryPreset, if_pos ha]
    | deadColumnsClear _ _ _ ha => simp only [exec, execDeadColumnsClear, h, carryPreset, if_pos ha]
    | laneDetect => simp only [exec, execLaneDetect, h, carryPreset]
    | strandSetup => simp only [exec, execStrandSetup, h, carryPreset]
    | strandMarking => simp only [exec, execStrandMarking, h, carryPreset]
    | classifySetup => simp only [exec, execClassifySetup, h, carryPreset]
    | arm => simp only [exec, execArm, h, carryPreset]
    | reseed => simp only [exec, execReseed, h, carryPreset]
    | testOn _ _ ha => simp only [exec, execTestOn, h, carryPreset, if_pos ha]
    | testOff _ _ ha => simp only [exec, execTestOff, h, carryPreset, if_pos ha]
    | clearFault => simp only [exec, execClearFault, h, carryPreset]
    | laneReset => simp only [exec, execLaneReset, h, carryPreset]
    | unknown => simp only [exec, execUnknownCommand, h, carryPreset]
  rw [carried, hc]; rfl

/-- Settles O44. -/
theorem faultsAndEventsAreHeldAndCleared : Obligations.FaultsAndEventsAreHeldAndCleared := by
  refine ⟨fun r => ⟨fun _ _ => ReportUnit.raise_first, fun _ _ => ReportUnit.raise_later, fun _ => ReportUnit.emit_of_room,
    fun e full h => ?first, fun e full h => ?later⟩, fun s h => ⟨exec_carries .clearFault h rfl, by simp [faultLine]⟩⟩
  case first => rw [ReportUnit.emit_of_full full, ReportUnit.raise_first (by exact h)]; rfl
  case later => rw [ReportUnit.emit_of_full full, ReportUnit.raise_later (by exact h)]; rfl

/-! #### Retiring (R154) -/

theorem Room.inject {n : Nat} {s t : State} {w : Request × Purpose} (h : Room (n + 1) s) (ht : t.path = s.path.inject w) :
    Room n t := by
  obtain ⟨waitList, length⟩ := h
  refine ⟨by rw [ht]; exact waitList, ?_⟩
  rw [ht, Path.inject_injected, List.length_append, List.length_singleton]; omega

theorem Room.mono {m n : Nat} {s : State} (h : Room n s) (le : m ≤ n) : Room m s := ⟨h.1, by have := h.2; omega⟩

/-- With a place free the command unit's next request is made, and it goes on. -/
theorem pump_command {n : Nat} {s : State} {w : Request × Purpose} {c : CommandUnit} (hw : s.command.wants = some w)
    (hc : s.command.afterMade = c) (room : Room 1 s) :
    pump (n + 1) .command s = pump n .command { s with path := s.path.inject w, command := c } := by
  have want : wanted .command s = some w := hw
  rw [pump_of_wanted_some want room.1 room.2, ← hc]; rfl

/-- A command unit with a request to make waits where there is no place. -/
theorem pump_command_waits {n : Nat} {s : State} {w : Request × Purpose} (hw : s.command.wants = some w)
    (hb : .command ∉ s.path.waitList) (full : s.path.waitList ≠ [] ∨ 16 ≤ s.path.injected.length) :
    pump (n + 1) .command s = { s with path := s.path.joinWait .command } := pump_of_full hw hb full

section Pump
variable {n : Nat} {s : State} (nothing : s.command.writes = [])
include nothing

theorem pump_status {st : Status} (hc : s.command.cond = .retiring st false) (room : Room 1 s) :
    pump (n + 1) .command s = pump n .command { s with
      path := s.path.inject (statusWrite s.controlBase s.command.consumer st, .commandWrite)
      command := { s.command with cond := .retiring st true } } :=
  pump_command (wants_status nothing hc) (afterMade_status nothing hc) room

theorem pump_consumer_word {st : Status} (hc : s.command.cond = .retiring st true) (room : Room 1 s) :
    pump (n + 1) .command s = pump n .command { s with
      path := s.path.inject (consumerWordWrite s.controlBase ((s.command.consumer + 1) % 64), .commandWrite)
      command := { s.command with
        consumer := (s.command.consumer + 1) % 64
        cond := if (s.command.consumer + 1) % 64 = s.command.producer then .idle else .fetching false } } :=
  pump_command (wants_consumer_word nothing hc) (afterMade_consumer_word nothing hc) room

theorem pump_entry_read (hc : s.command.cond = .fetching false) (room : Room 1 s) :
    pump (n + 1) .command s = { s with
      path := s.path.inject (entryRead s.controlBase s.command.consumer, .entryRead)
      command := { s.command with cond := .fetching true } } :=
  (pump_command (wants_entry_read nothing hc) (afterMade_entry_read nothing hc) room).trans
    (pump_of_wanted_none (wants_nothing (by exact nothing) (.inr (.inr (.inl rfl)))))

end Pump

/-- Settles O45: the status write, the consumer word write and the entry read are made one after another while there is
room. -/
theorem retireWritesStatusThenConsumer : Obligations.RetireWritesStatusThenConsumer := by
  refine ⟨fun base n v st => ⟨?status, ?consumer, ?producer, rfl, rfl⟩, fun st s nothing => ?retire⟩
  case status =>
    refine ⟨rfl, rfl, rfl, rfl, by simp [statusWrite, beatWrite], ?_⟩
    simp [HoldsFields, statusWrite, beatWrite, List.drop_append, List.take_append, List.drop_of_length_le]
  case consumer =>
    refine ⟨rfl, rfl, rfl, rfl, by simp [consumerWordWrite, beatWrite], ?_⟩
    simp [HoldsFields, consumerWordWrite, beatWrite, List.drop_append, List.take_append, List.drop_of_length_le]
  case producer =>
    refine ⟨rfl, rfl, rfl, rfl, by simp [producerWordWrite, beatWrite], ?_⟩
    simp [HoldsFields, producerWordWrite, beatWrite, List.drop_append, List.take_append, List.drop_of_length_le]
  case retire =>
    intro base n n' p
    let r : State := { s with command := { s.command with cond := .retiring st false } }
    have begun (room : Room 1 s) : retire st s = pump 16 .command { s with
        path := s.path.inject (statusWrite base n st, .commandWrite)
        command := { s.command with cond := .retiring st true } } :=
      pump_status (s := r) nothing rfl room
    have turned (room : Room 2 s) : retire st s = pump 15 .command { s with
        path := p
        command := { s.command with
          consumer := n', cond := if n' = s.command.producer then .idle else .fetching false } } :=
      (begun (room.mono (by omega))).trans (pump_consumer_word (by exact nothing) rfl (Room.inject room rfl))
    refine ⟨fun room level => ?level, fun room behind => ?behind, fun nobody two behind => ?fetchWaits,
      fun nobody one => ?consumerWaits, fun hb full => pump_command_waits (s := r) (wants_status (u := r.command) nothing rfl) hb full⟩
    case level =>
      rw [turned room, if_pos level.symm]
      exact pump_of_wanted_none (wants_nothing (by exact nothing) (.inl rfl))
    case behind =>
      rw [turned (room.mono (by omega)), if_neg (Ne.symm behind)]
      exact pump_entry_read (by exact nothing) rfl ((room.inject (t := { s with path := s.path.inject _ }) rfl).inject rfl)
    case fetchWaits =>
      rw [turned ⟨nobody, by omega⟩, if_neg (Ne.symm behind)]
      exact pump_command_waits (wants_entry_read (by exact nothing) rfl) (by simp [p, nobody]) (.inr (by simp [p, two]))
    case consumerWaits =>
      rw [begun ⟨nobody, by omega⟩]
      exact pump_command_waits (wants_consumer_word (by exact nothing) rfl) (by simp [nobody]) (.inr (by simp [one]))

end Sys2Proof.Machine


/-! ### The host commands: entries and settings (chapter 9, 12.4) -/

namespace Sys2Proof.Machine

/-! #### Entries decoded (R153, R170) -/

theorem inHand_iff {s : State} {c : Command} :
    inHand s = some c ↔ ∃ e, s.command.cond = .executing e none ∧ decodeEntry e = c := by
  simp only [inHand]
  split
  next e h => exact ⟨fun hc => ⟨e, h, Option.some.inj hc⟩, fun ⟨e', h', hc⟩ => by cases h.symm.trans h'; rw [hc]⟩
  next h => exact ⟨nofun, fun ⟨e, h', _⟩ => absurd h' (h e)⟩

theorem decodeEntry_unknown {e : List Byte} (h : fieldAt e 0 1 = 0 ∨ 0x11 ≤ fieldAt e 0 1) :
    decodeEntry e = .unknown (fieldAt e 0 1) := by
  simp only [decodeEntry]
  split <;> first | rfl | omega

theorem zonesOf_of_le {e : List Byte} {n : Nat} (h : n ≤ 8) : zonesOf e n = (List.range n).map fun z =>
    ⟨fieldAt e (8 + 5 * z) 2, fieldAt e (8 + 5 * z + 2) 2, fieldAt e (8 + 5 * z + 4) 1⟩ := by
  rw [zonesOf, if_pos h]
  exact List.map_congr_left fun z _ => by rw [show 10 + 5 * z = 8 + 5 * z + 2 by omega, show 12 + 5 * z = 8 + 5 * z + 4 by omega]

theorem zonesOf_of_lt {e : List Byte} {n : Nat} (h : 8 < n) : zonesOf e n = [] := by
  rw [zonesOf, if_neg (Nat.not_le.mpr h)]; rfl

/-- A target out of range has its status and does nothing else (R153). -/
theorem exec_lane_out {row : Instr} {c : Command} {s : State} {t : Nat} {f} (out : 12 ≤ t) (hr : Carries row c)
    (h : inHand s = some c) (hc : carryPreset c s = onLane t f s) : exec row s = .next (retire .badTarget s) :=
  exec_carries hr h (hc.trans (onLane_out out f s))

theorem exec_strand_out {row : Instr} {c : Command} {s : State} {t : Nat} {f} (out : 6 ≤ t) (hr : Carries row c)
    (h : inHand s = some c) (hc : carryPreset c s = onStrand t f s) : exec row s = .next (retire .badTarget s) :=
  exec_carries hr h (hc.trans (onStrand_out out f s))

/-- Settles O46: the table of `decodeEntry`, and the target checks of `onLane` and `onStrand`. -/
theorem badTargetAndUnknownDoNothing : Obligations.BadTargetAndUnknownDoNothing := by
  refine ⟨⟨rfl, fun _ _ => rfl, fun _ => rfl, fun _ _ => inHand_iff⟩, fun e => ?table, fun s t => ⟨fun out => ?lane,
    fun out => ?strand⟩⟩
  case table =>
    intro f t
    refine ⟨decodeEntry_unknown, fun h => ?_, fun h => ⟨fun big => ?_, fun small => ?_⟩, fun h => ?_, fun h => ?_,
      fun h => ?_, fun h => ?_, fun h => ?_, fun h => ?_, fun h => ?_, fun h => ?_, fun h => ?_, fun h => ?_, fun h => ?_,
      fun h => ?_, fun h => ?_, fun h => ?_, fun s hc h => exec_carries (.unknown _)
        (inHand_iff.mpr ⟨e, hc, decodeEntry_unknown h⟩) rfl⟩
    all_goals simp only [decodeEntry, show fieldAt e 0 1 = _ from h]
    all_goals first | rfl | skip
    · exact congrArg (Command.laneZones t _) (zonesOf_of_lt big)
    · exact congrArg (Command.laneZones t _) (zonesOf_of_le small)
  case lane =>
    refine ⟨fun p h => exec_lane_out (f := fun i => doLaneGeometry i p) out (.laneGeometry t p) h rfl,
      fun n z h => exec_lane_out (f := fun i => doLaneZones i n z) out (.laneZones t n z) h rfl, fun f n a h => ⟨?_, ?_⟩,
      fun d h => exec_lane_out (f := fun i => doLaneDetect i d) out (.laneDetect t d) h rfl, fun h => exec_lane_out out (.arm t) h rfl, fun h => ?_,
      fun h => exec_lane_out out (.reseed t) h rfl, fun a p h => ⟨?_, ?_⟩,
      fun h => exec_lane_out out (.laneReset t) h rfl⟩
    · split_ifs with ha
      · simp only [exec, execDeadColumnsMark, h, ha]; rfl
      · exact exec_lane_out (f := fun i => doDeadColumns i f n a) out (.deadColumnsMark t f n ha) h rfl
    · split_ifs with ha
      · simp only [exec, execDeadColumnsClear, h, ha]; rfl
      · exact exec_lane_out (f := fun i => doDeadColumns i f n a) out (.deadColumnsClear t f n ha) h rfl
    · simp only [exec, execDisarm, h, dif_neg (Nat.not_lt.mpr out)]; rfl
    · split_ifs with ha
      · simp only [exec, execTestOn, h, ha]; rfl
      · exact exec_lane_out (f := fun i => doTest i a p) out (.testOn t p ha) h rfl
    · split_ifs with ha
      · simp only [exec, execTestOff, h, ha]; rfl
      · exact exec_lane_out (f := fun i => doTest i a p) out (.testOff t p ha) h rfl
  case strand =>
    exact ⟨fun c h => exec_strand_out (f := fun k => doStrandSetup k c) out (.strandSetup t c) h rfl,
      fun c h => exec_strand_out (f := fun k => doStrandMarking k c) out (.strandMarking t c) h rfl⟩

/-! #### The geometry (R146) -/

theorem intervalsMeet_eq_false_iff {a b c d : Nat} (h : a < b) : intervalsMeet a b c d = false ↔ (c < d → apart a b c d) := by
  simp only [intervalsMeet, apart, Bool.and_eq_false_iff, decide_eq_false_iff_not]
  omega

theorem slotSize_pos (w : Nat) : 0 < slotSize w := by unfold slotSize; omega

theorem ringEnd_gt_iff {g : Geometry} : g.base < ringEnd g ↔ 0 < g.n := by
  rw [ringEnd, Nat.lt_add_right_iff_pos]
  exact ⟨fun h => Nat.pos_of_mul_pos_right h, fun h => Nat.mul_pos h (slotSize_pos g.w)⟩

section Meets
variable {s : State} {a b : Nat} (h : a < b)
include h

theorem meetsControlBlock_eq_false_iff : meetsControlBlock s a b = false ↔
    ∀ base, s.command.base = some base → apart a b base (base + 4096) := by
  simp only [meetsControlBlock]
  cases s.command.base with
  | none => exact iff_of_true rfl nofun
  | some base =>
    rw [intervalsMeet_eq_false_iff h]
    exact ⟨fun meets _ e => by cases e; exact meets (by omega), fun meets _ => meets base rfl⟩

theorem meetsReportRing_eq_false_iff : meetsReportRing s a b = false ↔
    ∀ r, s.report.settings = some r → 0 < r.size → apart a b r.base (r.base + 64 * r.size) := by
  simp only [meetsReportRing]
  cases s.report.settings with
  | none => exact iff_of_true rfl nofun
  | some r =>
    rw [intervalsMeet_eq_false_iff h]
    exact ⟨fun meets _ e size => by cases e; exact meets (by omega), fun meets _ => meets r rfl (by omega)⟩

theorem meetsLaneRing_eq_false_iff {j : Fin 12} : meetsLaneRing s a b j = false ↔
    ∀ o, (s.lane j).control.geometry = some o → 0 < o.n → apart a b o.base (ringEnd o) := by
  simp only [meetsLaneRing]
  cases (s.lane j).control.geometry with
  | none => exact iff_of_true rfl nofun
  | some o =>
    rw [intervalsMeet_eq_false_iff h, ringEnd_gt_iff]
    exact ⟨fun meets _ e => by cases e; exact meets, fun meets => meets o rfl⟩

end Meets

theorem tapOfCode_eq_some_iff {n : Nat} {tap : TapOrder} : tapOfCode n = some tap ↔
    (n = 0 ∧ tap = .linear) ∨ (n = 1 ∧ tap = .mirrored) ∨ (n = 2 ∧ tap = .interleaved) := by
  match n with
  | 0 | 1 | 2 => cases tap <;> simp [tapOfCode]
  | n + 3 => simp [tapOfCode]

/-- The conditions of R146 on the values asked for. -/
structure Fits (i : Fin 12) (p : GeometryParams) (s : State) (k : Fin 6) : Prop where
  least : 64 ≤ p.w
  most : p.w ≤ 2048
  whole : p.w % 16 = 0
  fewest : 4 ≤ p.n
  slots : p.n ≤ 1024
  aligned : p.base % 64 = 0
  top : p.base + p.n * slotSize p.w ≤ 2 ^ 40
  control : ∀ b, s.command.base = some b → apart p.base (p.base + p.n * slotSize p.w) b (b + 4096)
  report : ∀ r, s.report.settings = some r → 0 < r.size →
    apart p.base (p.base + p.n * slotSize p.w) r.base (r.base + 64 * r.size)
  lanes : ∀ j o, j ≠ i → (s.lane j).control.geometry = some o → 0 < o.n →
    apart p.base (p.base + p.n * slotSize p.w) o.base (ringEnd o)
  bound : ((boundLanes s k).filter (fun j => decide (j ≠ i))).length < 4

/-- The geometry that the values asked for give (R146). -/
def geometryFor (p : GeometryParams) (k : Fin 6) (tap : TapOrder) : Geometry :=
  ⟨k, p.w, p.n, p.base, tap, clamp 50 2000 p.pitch, clamp 1 4095 p.span, clamp 1 1000 p.obscureLimit,
    decide (p.trailers ≠ 0)⟩

theorem geometryOf_eq_some_iff {i : Fin 12} {p : GeometryParams} {s : State} {g : Geometry} : geometryOf i p s = some g ↔
    ∃ (k : Fin 6) (tap : TapOrder), p.strand = k.val ∧ tapOfCode p.tap = some tap ∧ Fits i p s k ∧ g = geometryFor p k tap := by
  have conditions (k : Fin 6) : Fits i p s k ↔ (64 ≤ p.w ∧ p.w ≤ 2048 ∧ p.w % 16 = 0 ∧ 4 ≤ p.n ∧ p.n ≤ 1024 ∧ p.base % 64 = 0 ∧
      p.base + p.n * slotSize p.w ≤ 2 ^ 40 ∧ meetsControlBlock s p.base (p.base + p.n * slotSize p.w) = false ∧
      meetsReportRing s p.base (p.base + p.n * slotSize p.w) = false ∧
      (allLanes.any fun j => decide (j ≠ i) && meetsLaneRing s p.base (p.base + p.n * slotSize p.w) j) = false ∧
      ((boundLanes s k).filter (fun j => decide (j ≠ i))).length < 4) := by
    by_cases few : 4 ≤ p.n
    · have filled : p.base < p.base + p.n * slotSize p.w :=
        Nat.lt_add_of_pos_right (Nat.mul_pos (by omega) (slotSize_pos p.w))
      have lanes : (allLanes.any fun j => decide (j ≠ i) && meetsLaneRing s p.base (p.base + p.n * slotSize p.w) j) = false ↔
          ∀ j o, j ≠ i → (s.lane j).control.geometry = some o → 0 < o.n →
            apart p.base (p.base + p.n * slotSize p.w) o.base (ringEnd o) := by
        simp only [List.any_eq_false, mem_allLanes, true_implies, Bool.and_eq_true, decide_eq_true_eq, not_and,
          Bool.not_eq_true, meetsLaneRing_eq_false_iff filled]
        exact forall_congr' fun j => forall_comm
      rw [meetsControlBlock_eq_false_iff filled, meetsReportRing_eq_false_iff filled, lanes]
      exact ⟨fun ⟨a, b, c, d, e, f, g, h, i, j, k⟩ => ⟨a, b, c, d, e, f, g, h, i, j, k⟩,
        fun ⟨a, b, c, d, e, f, g, h, i, j, k⟩ => ⟨a, b, c, d, e, f, g, h, i, j, k⟩⟩
    · exact iff_of_false (fun fits => few fits.fewest) fun ⟨_, _, _, fewest, _⟩ => few fewest
  constructor
  · intro h
    simp only [geometryOf] at h
    split at h
    · cases h
    · next tap htap =>
      split at h
      · next hk =>
        split at h
        · next fits => exact ⟨⟨p.strand, hk⟩, tap, rfl, htap, (conditions _).mpr fits, (Option.some.inj h).symm⟩
        · cases h
      · cases h
  · rintro ⟨k, tap, hk, htap, fits, rfl⟩
    have lt : p.strand < 6 := hk ▸ k.isLt
    obtain rfl : k = ⟨p.strand, lt⟩ := Fin.ext hk.symm
    simp only [geometryOf, htap, dif_pos lt, if_pos ((conditions _).mp fits)]
    rfl

/-- Settles O47. -/
theorem geometryIsAcceptedByItsConditions : Obligations.GeometryIsAcceptedByItsConditions := by
  refine ⟨fun i p s g => geometryOf_eq_some_iff.trans ⟨?_, ?_⟩, fun n tap => tapOfCode_eq_some_iff, fun s k => ⟨?_, fun j => ?_⟩⟩
  · rintro ⟨k, tap, hk, htap, f, rfl⟩
    exact ⟨⟨hk, f.least, f.most, f.whole, f.fewest, f.slots, f.aligned, htap, f.top, f.control, f.report, f.lanes, f.bound⟩,
      rfl, rfl, rfl, rfl, rfl, rfl, rfl⟩
  · rintro ⟨⟨hk, least, most, whole, fewest, slots, aligned, htap, top, control, report, lanes, bound⟩, hw, hn, hb, hp, hs,
      ho, ht⟩
    refine ⟨g.strand, g.tap, hk, htap, ⟨least, most, whole, fewest, slots, aligned, top, control, report, lanes, bound⟩, ?_⟩
    obtain ⟨strand, w, n, base, tap, pitch, span, obscure, trailers⟩ := g
    simp only [geometryFor, clamp, Geometry.mk.injEq]
    exact ⟨trivial, hw, hn, hb, trivial, hp, hs, ho, ht⟩
  · exact List.Pairwise.filter _ (by decide)
  · rw [mem_boundLanes, Lane.binding, Option.map_eq_some_iff]

end Sys2Proof.Machine


/-! ### The settings commands (R64, R65, R132, R145, R146, R148, R157) -/

namespace Sys2Proof.Machine

section Rows
variable {row : Instr} {c : Command} {s u : State} {st : Status}

/-- The row of a command on a lane retires with what the lane's own rule answers. -/
theorem exec_lane {i : Fin 12} {f : Fin 12 → State → Status × State} (hr : Carries row c) (h : inHand s = some c)
    (hc : carryPreset c s = onLane i.val f s) (hf : f i s = (st, u)) : exec row s = .next (retire st u) :=
  exec_carries hr h (hc.trans ((onLane_val i f s).trans hf))

theorem exec_strand {k : Fin 6} {f : Fin 6 → State → Status × State} (hr : Carries row c) (h : inHand s = some c)
    (hc : carryPreset c s = onStrand k.val f s) (hf : f k s = (st, u)) : exec row s = .next (retire st u) :=
  exec_carries hr h (hc.trans ((onStrand_val k f s).trans hf))

end Rows

@[simp] theorem clamp_zero (n x : Nat) : clamp 0 n x = min n x := Nat.zero_max _

/-! #### LANE_GEOMETRY -/

section Geometry
variable {s : State} {i : Fin 12} {p : GeometryParams} {g : Geometry}

theorem geometryOf_clamps (h : geometryOf i p s = some g) : (g.pitch = p.pitch ∧ g.span = p.span ∧
    g.obscureLimit = p.obscureLimit) ↔ 50 ≤ p.pitch ∧ p.pitch ≤ 2000 ∧ 1 ≤ p.span ∧ p.span ≤ 4095 ∧ 1 ≤ p.obscureLimit ∧
      p.obscureLimit ≤ 1000 := by
  obtain ⟨k, tap, -, -, -, rfl⟩ := geometryOf_eq_some_iff.mp h
  simp only [geometryFor, clamp]
  omega

theorem leaveBillet_stays (h : ∀ o, (s.lane i).control.geometry = some o → o.strand = g.strand ∨
    i ∉ (s.strand o.strand).billet.current.active) : leaveBillet i g.strand s = s := by
  simp only [leaveBillet, Lane.binding]
  cases hg : (s.lane i).control.geometry with
  | none => rfl
  | some o => exact if_neg fun ⟨moved, active⟩ => (h o hg).elim moved fun out => out active

theorem leaveBillet_leaves {o : Geometry} (hg : (s.lane i).control.geometry = some o) (moved : o.strand ≠ g.strand)
    (active : i ∈ (s.strand o.strand).billet.current.active) : leaveBillet i g.strand s =
      s.modBillet o.strand fun b => { b with laneLeft := true, active := b.active.filter (· ≠ i) } := by
  simp only [leaveBillet, Lane.binding, hg, Option.map_some]
  exact if_pos ⟨moved, active⟩

theorem withGeometry_eq (l : Lane) (g : Geometry) : l.withGeometry g = { l with
    control := { l.control with
      geometry := some g
      zones := if (∃ o, l.control.geometry = some o ∧ o.w = g.w) then l.control.zones else none }
    runs := [] } := by
  simp only [Lane.withGeometry, Option.map_eq_some_iff]

theorem doLaneGeometry_accepts (off : (s.lane i).control.state = .off) (h : geometryOf i p s = some g) :
    doLaneGeometry i p s = (if 50 ≤ p.pitch ∧ p.pitch ≤ 2000 ∧ 1 ≤ p.span ∧ p.span ≤ 4095 ∧ 1 ≤ p.obscureLimit ∧
        p.obscureLimit ≤ 1000 then .done else .doneClamped,
      (leaveBillet i g.strand s).setLane i (((leaveBillet i g.strand s).lane i).withGeometry g)) := by
  simp only [doLaneGeometry, off, ne_eq, not_true_eq_false, if_false, h, geometryOf_clamps h]

end Geometry

/-- Settles O48. -/
theorem laneGeometryReplacesOffLane : Obligations.LaneGeometryReplacesOffLane := by
  intro s i p h
  have row {st : Status} {u : State} (hf : doLaneGeometry i p s = (st, u)) : exec .laneGeometry s = .next (retire st u) :=
    exec_lane (f := fun i => doLaneGeometry i p) (.laneGeometry i.val p) h rfl hf
  refine ⟨fun armed => row (if_pos armed), fun off none => row ?bad, fun g off hg => ⟨fun stays => row ?stays,
    fun o ho moved active => row ?leaves⟩⟩
  case bad => simp only [doLaneGeometry, off, ne_eq, not_true_eq_false, if_false, none]
  case stays => rw [doLaneGeometry_accepts off hg, leaveBillet_stays stays, withGeometry_eq]
  case leaves =>
    rw [doLaneGeometry_accepts off hg, leaveBillet_leaves ho moved active, withGeometry_eq]
    rfl

/-! #### LANE_DEAD_COLUMNS and LANE_DETECT -/

theorem mem_foldl_insertNum (first : Nat) (l m : List Nat) (c : Nat) :
    c ∈ l.foldl (fun m n => insertNum m (first + n)) m ↔ c ∈ m ∨ ∃ n ∈ l, c = first + n := by
  induction l generalizing m with
  | nil => simp
  | cons n l ih =>
    rw [List.foldl_cons, ih, mem_insertNum, List.exists_mem_cons_iff]
    tauto

theorem mem_markColumns_mark {dead : List Nat} {first count c : Nat} :
    c ∈ markColumns dead first count true ↔ c ∈ dead ∨ (first ≤ c ∧ c < first + count) := by
  rw [markColumns, if_pos rfl, mem_foldl_insertNum]
  refine or_congr_right ⟨fun ⟨n, hn, e⟩ => ?_, fun ⟨lo, hi⟩ => ⟨c - first, ?_, ?_⟩⟩
  · have := List.mem_range.mp hn; omega
  · exact List.mem_range.mpr (by omega)
  · omega

theorem mem_markColumns_clear {dead : List Nat} {first count c : Nat} :
    c ∈ markColumns dead first count false ↔ c ∈ dead ∧ ¬ (first ≤ c ∧ c < first + count) := by
  simp only [markColumns, Bool.false_eq_true, if_false, List.mem_filter, Bool.not_eq_true', Bool.and_eq_false_iff,
    decide_eq_false_iff_not]
  tauto

theorem Detect.clamped_eq (d : Detect) : d.clamped =
    ⟨max 1 (min 254 d.tLow), max (max 1 (min 254 d.tLow)) (min 255 d.tHigh), max 2 (min 7 d.bgShift),
      max 1 (min 1023 d.bgFloor), max 4 (min 64 d.seedLines), min 7 d.linkGap, min 15 d.gapLines,
      max 1 (min 64 d.minLines), min 255 d.minAdvance, max 1 (min 255 d.stallLines)⟩ := by
  simp only [Detect.clamped, clamp_zero]; rfl

/-- Settles O50: both rows of LANE_DEAD_COLUMNS answer by one rule. -/
theorem detectionSettingsAreReplaced : Obligations.DetectionSettingsAreReplaced := by
  refine ⟨fun s i first count => ⟨fun h => ⟨fun bad => ?mark, fun some fits => ?marked⟩,
    fun h => ⟨fun bad => ?clear, fun some fits => ?cleared⟩, fun a ha h => ⟨?action, ?action'⟩⟩, fun s i d h => ?detect⟩
  case mark =>
    exact exec_lane (f := fun i => doDeadColumns i first count 1) (.deadColumnsMark i.val first count (by decide)) h rfl
      (if_pos (.inr bad))
  case marked =>
    exact ⟨_, exec_lane (f := fun i => doDeadColumns i first count 1) (.deadColumnsMark i.val first count (by decide)) h rfl
      (if_neg (by omega)), fun c => mem_markColumns_mark⟩
  case clear =>
    exact exec_lane (f := fun i => doDeadColumns i first count 0) (.deadColumnsClear i.val first count (by decide)) h rfl
      (if_pos (.inr bad))
  case cleared =>
    exact ⟨_, exec_lane (f := fun i => doDeadColumns i first count 0) (.deadColumnsClear i.val first count (by decide)) h rfl
      (if_neg (by omega)), fun c => mem_markColumns_clear⟩
  case action =>
    exact exec_lane (f := fun i => doDeadColumns i first count a) (.deadColumnsMark i.val first count (by omega)) h rfl
      (if_pos (.inl ha))
  case action' =>
    exact exec_lane (f := fun i => doDeadColumns i first count a) (.deadColumnsClear i.val first count (by omega)) h rfl
      (if_pos (.inl ha))
  case detect =>
    refine exec_lane (f := fun i => doLaneDetect i d) (.laneDetect i.val d) h rfl ?_
    rw [doLaneDetect, Detect.clamped_eq]; rfl

/-! #### STRAND_SETUP and STRAND_MARKING -/

theorem StrandSetup.clamped_eq (c : StrandSetup) : c.clamped = ⟨max 1000 (min 100000 c.countsPerM), min 16777215 c.cutDist,
    max 1 (min 65535 c.reverseLimit), min 1000 c.coverMin, max 1 (min 3 c.rejectGrade)⟩ := by
  simp only [StrandSetup.clamped, clamp_zero]; rfl

theorem MarkSettings.clamped_eq (c : MarkSettings) : c.clamped = ⟨min 16777215 c.dist, max 1 (min 4 c.grade),
    min 65535 c.holdoff, max 1 (min 1000 c.pulse), min 65535 c.lateMax⟩ := by
  simp only [MarkSettings.clamped, clamp_zero]; rfl

theorem boundLanes_any_armed {s : State} {k : Fin 6} :
    (boundLanes s k).any (fun i => decide ((s.lane i).control.state ≠ .off)) = true ↔
      ∃ i, (s.lane i).binding = some k ∧ (s.lane i).control.state ≠ .off := by
  simp only [List.any_eq_true, mem_boundLanes, decide_eq_true_eq]

/-- Once the offers of a strand are over, so are those of the state they leave. -/
theorem finishSample_of_decoded (k : Fin 6) (s : State) : finishSample (decodeDue k s) k = finishSample s k := by
  rw [finishSample, decodeDue_decodeDue, finishSample]

theorem finishSample_of_compared (k : Fin 6) (s : State) :
    finishSample (compareDue k (decodeDue k s)) k = finishSample s k := by
  have motion := compareDue_motion k (decodeDue k s)
  obtain ⟨pair, -⟩ := decodeDue_motion k s
  have noPair : ((compareDue k (decodeDue k s)).strand k).motion.pairDue = none := by rw [motion]; exact pair
  have noCut : ((compareDue k (decodeDue k s)).strand k).motion.cutDue = none := by rw [motion]
  rw [finishSample, decodeDue_none noPair, compareDue_none noCut, finishSample]

/-- Settles O51. -/
theorem strandSettingsAreClampedOrRefused : Obligations.StrandSettingsAreClampedOrRefused := by
  refine fun s k => ⟨fun c h => ⟨fun armed => ?refused, fun off => ?setup⟩, fun c h => ⟨fun busy => ?busy, fun none idle => ?marking⟩,
    finishSample_stands, fun g hp hc => ?pulse, fun v h => ?finished⟩
  case refused =>
    exact exec_strand (f := fun k => doStrandSetup k c) (.strandSetup k.val c) h rfl (if_pos (boundLanes_any_armed.mpr armed))
  case setup =>
    refine exec_strand (f := fun k => doStrandSetup k c) (.strandSetup k.val c) h rfl ?_
    rw [doStrandSetup, if_neg (fun armed => ?_), StrandSetup.clamped_eq]
    · rfl
    · obtain ⟨i, bound, armed⟩ := boundLanes_any_armed.mp armed
      exact armed (off i bound)
  case busy =>
    exact exec_strand (f := fun k => doStrandMarking k c) (.strandMarking k.val c) h rfl (if_pos busy)
  case marking =>
    refine exec_strand (f := fun k => doStrandMarking k c) (.strandMarking k.val c) h rfl ?_
    rw [doStrandMarking, if_neg (by simp [none, idle]), MarkSettings.clamped_eq]
    rfl
  case pulse => rw [exec_pulseEnd g, finishSample, decodeDue_none hp, compareDue_none hc]
  case finished =>
    rcases h with ⟨p, h⟩ | h
    · replace h : execForwardStep k p s = .next v := h
      rw [execForwardStep] at h
      split at h <;> obtain rfl := Host.Outcome.next.inj h
      · exact finishSample_of_decoded k s
      · rfl
    · replace h : execCutEvent k s = .next v := h
      rw [execCutEvent] at h
      split at h <;> obtain rfl := Host.Outcome.next.inj h
      · exact finishSample_of_compared k s
      · rfl

/-! #### REPORT_SETUP -/

section Zero
variable {s : State}

/-- With room, the producer word write of 0 is made at once. -/
theorem writeZeroProducer_at_once (room : Room 1 s) (hz : s.report.zeros = 0) (idle : s.report.writer = .idle) :
    writeZeroProducer s = { s with
      path := s.path.inject (producerWordWrite s.controlBase 0, .producerZero)
      report := { s.report with published := 0 } } := by
  refine request_once (wants_zero (Nat.succ_ne_zero _)) room ?_ (wants_none (by exact hz) (.inl idle))
  show { s with path := _, report := ReportUnit.afterMade _ } = _
  rw [afterMade_zero (Nat.succ_ne_zero _)]
  rfl

/-- Without, the report unit waits with it. -/
theorem writeZeroProducer_waits (hb : .report ∉ s.path.waitList)
    (full : s.path.waitList ≠ [] ∨ 16 ≤ s.path.injected.length) : writeZeroProducer s = { s with
      path := s.path.joinWait .report
      report := { s.report with zeros := s.report.zeros + 1 } } :=
  request_waits (wants_zero (Nat.succ_ne_zero _)) hb full

theorem writeZeroProducer_stands (hb : .report ∈ s.path.waitList) : writeZeroProducer s = { s with
    report := { s.report with zeros := s.report.zeros + 1 } } := request_stands hb

/-- An IDLE writer whose published producer is 0 only has producer word writes of 0 to make. -/
theorem pump_report_zeros (n : Nat) (s : State) (idle : s.report.writer = .idle) (hp : s.report.published = 0) :
    ∃ p z, pump n .report s = { s with path := p, report := { s.report with zeros := z } } := by
  induction n generalizing s with
  | zero => exact ⟨_, _, rfl⟩
  | succ n ih =>
    by_cases hz : s.report.zeros = 0
    · exact ⟨_, _, pump_of_wanted_none (wants_none hz (.inl idle))⟩
    have want : wanted .report s = some _ := wants_zero hz
    by_cases hb : .report ∈ s.path.waitList
    · exact ⟨s.path, s.report.zeros, by simp only [pump, want, if_pos hb]⟩
    by_cases room : s.path.waitList = [] ∧ s.path.injected.length < 16
    · obtain ⟨p, z, e⟩ := ih { s with
        path := s.path.inject (producerWordWrite s.controlBase 0, .producerZero)
        report := { s.report with zeros := s.report.zeros - 1 } } idle hp
      have after : s.report.afterMade = { s.report with zeros := s.report.zeros - 1 } := (afterMade_zero hz).trans
        (congrArg (fun n => { s.report with zeros := s.report.zeros - 1, published := n }) hp.symm)
      refine ⟨p, z, ?_⟩
      rw [pump_of_wanted_some want room.1 room.2]
      simp only [made, after]
      exact e
    · exact ⟨_, _, pump_of_full want hb (by
        rw [not_and_or] at room
        exact room.imp_right Nat.not_lt.mp)⟩

theorem writeZeroProducer_frame (idle : s.report.writer = .idle) (hp : s.report.published = 0) :
    ∃ p z, writeZeroProducer s = { s with path := p, report := { s.report with zeros := z } } :=
  pump_report_zeros 17 { s with report := { s.report with zeros := s.report.zeros + 1 } } idle hp

end Zero

section ReportSetup
variable {s : State} {c : ReportSettings}

theorem ringSizeValid_iff {n : Nat} : ringSizeValid n = true ↔
    n ∈ [256, 512, 1024, 2048, 4096, 8192, 16384, 32768, 65536] := List.contains_iff_mem

theorem ringSizeValid_pos {n : Nat} (h : n ∈ [256, 512, 1024, 2048, 4096, 8192, 16384, 32768, 65536]) : 0 < n := by
  revert n; decide

/-- The conditions that REPORT_SETUP's values meet (R157). -/
structure ReportFits (c : ReportSettings) (s : State) : Prop where
  size : c.size ∈ [256, 512, 1024, 2048, 4096, 8192, 16384, 32768, 65536]
  aligned : c.base % 64 = 0
  marks : c.high < c.low
  low : c.low ≤ c.size - 1
  top : c.base + 64 * c.size ≤ 2 ^ 40
  control : ∀ b, s.command.base = some b → apart c.base (c.base + 64 * c.size) b (b + 4096)
  lanes : ∀ i g, (s.lane i).control.geometry = some g → 0 < g.n → apart c.base (c.base + 64 * c.size) g.base (ringEnd g)

theorem reportSettingsValid_iff : reportSettingsValid c s = true ↔ ReportFits c s := by
  by_cases sized : c.size ∈ [256, 512, 1024, 2048, 4096, 8192, 16384, 32768, 65536]
  · have filled : c.base < c.base + 64 * c.size := by have := ringSizeValid_pos sized; omega
    simp only [reportSettingsValid, Bool.and_eq_true, ringSizeValid_iff, decide_eq_true_eq, Bool.not_eq_true',
      meetsControlBlock_eq_false_iff filled, List.any_eq_false, mem_allLanes, true_implies, Bool.not_eq_true,
      meetsLaneRing_eq_false_iff filled]
    exact ⟨fun ⟨⟨⟨⟨⟨⟨a, b⟩, c⟩, d⟩, e⟩, f⟩, g⟩ => ⟨a, b, c, d, e, f, g⟩,
      fun ⟨a, b, c, d, e, f, g⟩ => ⟨⟨⟨⟨⟨⟨a, b⟩, c⟩, d⟩, e⟩, f⟩, g⟩⟩
  · refine iff_of_false (fun valid => sized ?_) fun fits => sized fits.size
    simp only [reportSettingsValid, Bool.and_eq_true, ringSizeValid_iff] at valid
    exact valid.1.1.1.1.1.1

theorem doReportSetup_refused (h : (∃ i, (s.lane i).control.state ≠ .off) ∨ s.report.writer ≠ .idle) :
    doReportSetup c s = (.refused, s) := by
  refine if_pos (h.imp_left fun ⟨i, armed⟩ => ?_)
  exact List.any_eq_true.mpr ⟨i, mem_allLanes i, decide_eq_true armed⟩

theorem doReportSetup_judges (off : ∀ i, (s.lane i).control.state = .off) (idle : s.report.writer = .idle) :
    doReportSetup c s = if reportSettingsValid c s = false then (.badValue, s)
      else (clampStatus c c.clamped, { s with report := s.report.withSettings c.clamped }) := by
  refine if_neg fun busy => busy.elim (fun armed => ?_) fun busy => busy idle
  obtain ⟨i, -, armed⟩ := List.any_eq_true.mp armed
  exact of_decide_eq_true armed (off i)

theorem exec_reportSetup_refused {st : Status} {u : State} (h : inHand s = some (.reportSetup c)) (hr : doReportSetup c s = (st, u))
    (done : st ≠ .done) (clamped : st ≠ .doneClamped) : exec .reportSetup s = .next (retire st u) := by
  simp only [exec, execReportSetup, h, hr, conclude]

theorem exec_reportSetup_accepted {st : Status} {u : State} (h : inHand s = some (.reportSetup c))
    (hr : doReportSetup c s = (st, u)) (accepted : st = .done ∨ st = .doneClamped) :
    exec .reportSetup s = .next (retire st (writeZeroProducer u)) := by
  rcases accepted with rfl | rfl <;> simp only [exec, execReportSetup, h, hr, conclude]

theorem clampStatus_done_or {α : Type} [DecidableEq α] (asked held : α) :
    clampStatus asked held = .done ∨ clampStatus asked held = .doneClamped := ite_eq_or_eq ..

end ReportSetup

/-- Settles O53. -/
theorem reportSetupStartsTheRing : Obligations.ReportSetupStartsTheRing := by
  refine fun s c h => ⟨fun busy => exec_reportSetup_refused h (doReportSetup_refused busy) (by decide) (by decide),
    fun off idle => ⟨fun bad => ?bad, fun size aligned marks low top control lanes => ?accepted⟩⟩
  case bad =>
    refine exec_reportSetup_refused h ?_ (by decide) (by decide)
    rw [doReportSetup_judges off idle, if_pos]
    refine Bool.eq_false_iff.mpr fun valid => ?_
    have fits := reportSettingsValid_iff.mp valid
    rcases bad with b | b | b | b | b | ⟨a, ha, b⟩ | ⟨i, g, hg, filled, b⟩
    · exact b fits.size
    · exact b fits.aligned
    · exact absurd fits.marks (Nat.not_lt.mpr b)
    · have := fits.low; have := ringSizeValid_pos fits.size; omega
    · exact absurd fits.top (Nat.not_le.mpr b)
    · exact b (fits.control a ha)
    · exact b (fits.lanes i g hg filled)
  case accepted =>
    intro held st
    let v : State := { s with report := s.report.withSettings held }
    have valid := reportSettingsValid_iff.mpr (⟨size, aligned, marks, low, top, control, fun i g hg _ => lanes i g hg⟩ :
      ReportFits c s)
    have judged := doReportSetup_judges (c := c) off idle
    rw [if_neg (by simp [valid])] at judged
    have row : exec .reportSetup s = .next (retire st (writeZeroProducer v)) := exec_reportSetup_accepted h judged (clampStatus_done_or ..)
    refine ⟨⟨_, row, ?frame⟩, fun room zeros => ?room, fun hb full => ?waits, fun hb => ?stands⟩
    case frame =>
      obtain ⟨p, z, e⟩ := writeZeroProducer_frame (s := v) idle rfl
      rw [e]; rfl
    case room => rw [row, writeZeroProducer_at_once (s := v) room zeros idle]; rfl
    case waits => rw [row, writeZeroProducer_waits (s := v) hb full]; rfl
    case stands => rw [row, writeZeroProducer_stands (s := v) hb]; rfl

end Sys2Proof.Machine


/-! ### Lane control and the resets of the host (R138, R141 to R143, R149, R163) -/

namespace Sys2Proof.Machine

theorem changeLaneState_of_room {s : State} (i : Fin 12) (new : LaneState) (cause : Cause) (line : Nat)
    (room : s.report.events.length < 16) : changeLaneState i new cause line s =
      { s.setLane i { s.lane i with control := { (s.lane i).control with state := new } } with
        report := { s.report with events := s.report.events ++
          [.laneState i (s.lane i).binding (s.lane i).control.state new cause line s.clock] } } :=
  State.emit_of_room _ room

/-! #### ARM (R138) -/

theorem mem_insertLane {l : List (Fin 12)} {i j : Fin 12} : j ∈ insertLane l i ↔ j = i ∨ j ∈ l := by
  induction l with
  | nil => simp [insertLane]
  | cons a l ih =>
    simp only [insertLane]
    split_ifs with lt eq
    · simp
    · simp [eq]
    · rw [List.mem_cons, ih, List.mem_cons]; tauto

theorem pairwise_insertLane {l : List (Fin 12)} {i : Fin 12} (h : l.Pairwise (· < ·)) : (insertLane l i).Pairwise (· < ·) := by
  induction l with
  | nil => simp [insertLane]
  | cons a l ih =>
    obtain ⟨first, rest⟩ := List.pairwise_cons.mp h
    simp only [insertLane]
    split_ifs with lt eq
    · exact List.pairwise_cons.mpr ⟨fun b hb => by
        rcases List.mem_cons.mp hb with rfl | hb
        · exact lt
        · exact lt.trans (first b hb), h⟩
    · exact h
    · refine List.pairwise_cons.mpr ⟨fun b hb => ?_, ih rest⟩
      rcases mem_insertLane.mp hb with rfl | hb
      · omega
      · exact first b hb

section Lane
variable {s : State} {i : Fin 12} {g : Geometry}

theorem modBoundBillet_bound (hg : (s.lane i).control.geometry = some g) (f : OpenBillet → OpenBillet) :
    modBoundBillet i f s = s.modBillet g.strand f := by
  simp only [modBoundBillet, Lane.binding, hg, Option.map_some]

theorem binding_of_geometry (hg : (s.lane i).control.geometry = some g) : (s.lane i).binding = some g.strand := by
  rw [Lane.binding, hg, Option.map_some]

theorem settingsComplete_iff : settingsComplete i s = true ↔ (s.lane i).control.zones ≠ none ∧
    (s.lane i).control.detect ≠ none ∧ s.report.settings ≠ none ∧
    ∃ g, (s.lane i).control.geometry = some g ∧ (s.strand g.strand).setup ≠ none := by
  simp only [settingsComplete, Bool.and_eq_true, Option.isSome_iff_ne_none, and_assoc]
  cases (s.lane i).control.geometry with
  | none => simp
  | some g => simp [Option.isSome_iff_ne_none]

theorem doArm_incomplete (running : s.global = .running) (off : (s.lane i).control.state = .off)
    (h : (s.lane i).control.geometry = none ∨ (s.lane i).control.zones = none ∨ (s.lane i).control.detect = none ∨
      s.report.settings = none ∨ ∃ g, (s.lane i).control.geometry = some g ∧ (s.strand g.strand).setup = none) :
    doArm i s = (.incomplete, s) := by
  have missing : settingsComplete i s = false := Bool.eq_false_iff.mpr fun complete => by
    obtain ⟨zones, detect, settings, g, hg, setup⟩ := settingsComplete_iff.mp complete
    rcases h with h | h | h | h | ⟨g', hg', h⟩
    · cases hg.symm.trans h
    · exact zones h
    · exact detect h
    · exact settings h
    · cases hg.symm.trans hg'
      exact setup h
  simp [doArm, running, off, missing]

theorem doArm_arms (running : s.global = .running) (off : (s.lane i).control.state = .off)
    (complete : settingsComplete i s = true) : doArm i s =
      (.done, changeLaneState i .armed .arm 0 (modBoundBillet i (fun b => b.join i) (s.setLane i (s.lane i).atArm))) := by
  simp [doArm, running, off, complete]

end Lane

/-- Settles O54. -/
theorem armPreparesTheLane : Obligations.ArmPreparesTheLane := by
  refine ⟨fun s i h => ?lane, fun l i => ⟨fun j => mem_insertLane, pairwise_insertLane⟩⟩
  have row {st : Status} {u : State} (hf : doArm i s = (st, u)) : exec .arm s = .next (retire st u) :=
    exec_lane (.arm i.val) h rfl hf
  refine ⟨fun barred => row ?refused, fun running off missing => row (doArm_incomplete running off missing),
    fun g running off hg zones detect settings setup room => row ?armed⟩
  case refused =>
    by_cases running : s.global = .running
    · simp [doArm, barred.resolve_left (not_not_intro running)]
    · simp [doArm, running]
  case armed =>
    rw [doArm_arms running off (settingsComplete_iff.mpr ⟨zones, detect, settings, g, hg, setup⟩),
      modBoundBillet_bound (g := g) (by simp [Lane.atArm, hg]), changeLaneState_of_room _ _ _ _ (by exact room)]
    have bound : (s.lane i).atArm.binding = some g.strand := by simp [Lane.binding, Lane.atArm, hg]
    simp only [State.modBillet, State.setStrand_lane, State.setLane_lane, if_true, bound]
    simp [Lane.atArm, off, State.setLane, State.setStrand, OpenBillet.join, Capture.atArm, Detection.atArm, wrap32]

/-! #### DISARM (R143) -/

section Disarm
variable {s : State} {i : Fin 12}

theorem putAssembling_none {c : Capture} (b : Buffer) (h : ∀ l, c.bufA ≠ .assembling l ∧ c.bufB ≠ .assembling l) :
    c.putAssembling b = c := by
  unfold Capture.putAssembling
  split
  · exact absurd ‹c.bufA = _› (h _).1
  · exact absurd ‹c.bufB = _› (h _).2
  · rfl

theorem emptied_of_empty {m : TrackTable} (h : m.tracks = []) : { m with tracks := [] } = m := by
  cases m; cases h; rfl

theorem exec_disarm {e : List Byte} {st : Status} {u : State} (hc : s.command.cond = .executing e none)
    (he : decodeEntry e = .disarm i.val) (h : doDisarm i s = (some st, u)) : exec .disarm s = .next (retire st u) := by
  have hand : inHand s = some (.disarm i.val) := inHand_iff.mpr ⟨e, hc, he⟩
  simp only [exec, execDisarm, hand, dif_pos i.isLt, h, conclude]

theorem exec_disarm_held {e : List Byte} {u : State} (hc : s.command.cond = .executing e none)
    (he : decodeEntry e = .disarm i.val) (h : doDisarm i s = (none, u)) : exec .disarm s = .next (hold (.disarm i) u) := by
  have hand : inHand s = some (.disarm i.val) := inHand_iff.mpr ⟨e, hc, he⟩
  simp only [exec, execDisarm, hand, dif_pos i.isLt, h]

theorem doDisarm_off (off : (s.lane i).control.state = .off) : doDisarm i s = (some .done, s) := if_pos off

theorem doDisarm_drains (armed : (s.lane i).control.state ≠ .off) (idle : (s.lane i).capture.inProcessing = none) :
    doDisarm i s = (some .done, changeLaneState i .off .disarm 0
      (drainTracks i ((s.lane i).control.detect.getD Detect.zero).minLines (s.modCapture i Capture.atDisarm))) := by
  simp [doDisarm, armed, Capture.busy, idle]

theorem doDisarm_waits {p : Line × Copy} (armed : (s.lane i).control.state ≠ .off)
    (busy : (s.lane i).capture.inProcessing = some p) : doDisarm i s = (none, changeLaneState i .stopping .disarm 0
      (s.setLane i { s.lane i with
        capture := (s.lane i).capture.atDisarm
        control := { (s.lane i).control with stateLeft := some (s.lane i).control.state } })) := by
  simp [doDisarm, armed, Capture.busy, busy]

/-- A drained lane goes OFF with its table empty. -/
theorem changeLaneState_drained {n : Nat} (room : s.report.events.length < 16) :
    let u := (s.lane i).table.tracks.foldl (closeToPending i n .drain) (s.setLane i { s.lane i with
      capture := { (s.lane i).capture.putAssembling .free with assembler := .noSlot }
      table := { (s.lane i).table with tracks := [] } })
    changeLaneState i .off .disarm 0 (drainTracks i n (s.modCapture i Capture.atDisarm)) =
      { u.setLane i { u.lane i with control := { (u.lane i).control with state := .off } } with
        report := { u.report with events := s.report.events ++
          [.laneState i (s.lane i).binding (s.lane i).control.state .off .disarm 0 s.clock] } } := by
  intro u
  have drained : drainTracks i n (s.modCapture i Capture.atDisarm) = u := by
    simp [drainTracks, State.modCapture, Capture.atDisarm, u]
  have marked : Marked (s.setLane i { s.lane i with
      capture := { (s.lane i).capture.putAssembling .free with assembler := .noSlot }
      table := { (s.lane i).table with tracks := [] } }) u := Marked.foldl _ (marked_closeToPending i n .drain) ..
  obtain ⟨jobs, writer, report, -⟩ := marked.report
  have events : u.report.events = s.report.events := by rw [report]; rfl
  have lane : u.lane i = { s.lane i with
      capture := { (s.lane i).capture.putAssembling .free with assembler := .noSlot }
      table := { (s.lane i).table with tracks := [] } } := by
    rw [← State.lanes_get, marked.lanes, State.lanes_get, State.setLane_lane, if_pos rfl]
  have clock : u.clock = s.clock := marked.clock
  rw [drained, changeLaneState_of_room _ _ _ _ (by rw [events]; exact room), events, clock]
  simp only [lane]
  rfl

end Disarm

/-- Settles O55. -/
theorem disarmStopsTheLane : Obligations.DisarmStopsTheLane := by
  refine ⟨fun s i e hc he => ⟨fun off => ?off, fun armed idle none room => ?empty, fun d armed idle hd room => ?drains,
    fun line copy armed busy room => ?stopping⟩, fun c b => ⟨fun l => putAssembling_bufA b,
      fun l ha hb => putAssembling_bufB b hb ha, putAssembling_none b⟩⟩
  case off => exact exec_disarm hc he (doDisarm_off off)
  case empty =>
    rw [exec_disarm hc he (doDisarm_drains armed idle), changeLaneState_drained room, none]
    simp [emptied_of_empty none]
  case drains =>
    rw [exec_disarm hc he (doDisarm_drains armed idle), changeLaneState_drained room, hd, Option.getD_some]
  case stopping =>
    rw [exec_disarm_held hc he (doDisarm_waits armed busy), changeLaneState_of_room _ _ _ _ (by exact room)]
    simp [hold, hc, Capture.atDisarm, Lane.binding]

/-! #### RESEED and TEST (R141, R142, R170) -/

section Test
variable {s : State} {i : Fin 12} {p : TestParams} {g : Geometry} {a : Nat}

theorem TestParams.clamped_eq (p : TestParams) (w : Nat) : p.clamped w = ⟨min 4094 p.base, min 4095 p.depth,
    min (w - 1) p.col, max 1 (min w p.width), max 1 (min (max 1 (min 255 p.period)) p.lines), max 1 (min 255 p.period)⟩ := by
  simp only [TestParams.clamped, clamp_zero]; rfl

theorem doTest_refused (h : (s.lane i).control.state = .off ∨ (s.lane i).control.state = .stopping) :
    doTest i a p s = (.refused, s) := if_pos h

theorem doTest_on (off : (s.lane i).control.state ≠ .off) (stopping : (s.lane i).control.state ≠ .stopping) :
    doTest i 1 p s = doTestOn i p s := by
  simp [doTest, off, stopping]

theorem doTest_off (off : (s.lane i).control.state ≠ .off) (stopping : (s.lane i).control.state ≠ .stopping) :
    doTest i 0 p s = doTestOff i s := by
  simp [doTest, off, stopping]

theorem doTestOn_again (hg : (s.lane i).control.geometry = some g) (h : (s.lane i).control.state = .test) :
    doTestOn i p s = (clampStatus p (p.clamped g.w), s.setLane i ((s.lane i).withTest (p.clamped g.w))) := by
  simp only [doTestOn, h, hg, Option.map_some, Option.getD_some]

theorem doTestOn_enters (hg : (s.lane i).control.geometry = some g) (off : (s.lane i).control.state ≠ .off)
    (stopping : (s.lane i).control.state ≠ .stopping) (test : (s.lane i).control.state ≠ .test) :
    doTestOn i p s = (clampStatus p (p.clamped g.w), changeLaneState i .test .testOn 0
      (modBoundBillet i (fun b => { b with testSeen := true }) (s.setLane i ((s.lane i).withTest (p.clamped g.w))))) := by
  simp only [doTestOn, hg, Option.map_some, Option.getD_some]
  cases h : (s.lane i).control.state <;> first | contradiction | rfl

theorem doTestOff_leaves (h : (s.lane i).control.state = .test) : doTestOff i s =
    (.done, changeLaneState i .seeding .testOff 0 (s.modControl i fun c => { c with seed := 0 })) := by
  simp only [doTestOff, h]

theorem doTestOff_stands (off : (s.lane i).control.state ≠ .off) (stopping : (s.lane i).control.state ≠ .stopping)
    (test : (s.lane i).control.state ≠ .test) : doTestOff i s = (.done, s) := by
  cases h : (s.lane i).control.state <;> first | contradiction | simp only [doTestOff, h]

end Test

/-- Settles O56. -/
theorem reseedAndTestChangeTheLane : Obligations.ReseedAndTestChangeTheLane := by
  refine ⟨fun s i h => ?reseed, fun s i p g hg => ?test, fun s i a p ha h => ?action⟩
  case reseed =>
    have row {st : Status} {u : State} (hf : doReseed i s = (st, u)) : exec .reseed s = .next (retire st u) :=
      exec_lane (.reseed i.val) h rfl hf
    refine ⟨fun barred => row ?_, fun stays => row ?_, fun moves room => row ?_⟩
    · rcases barred with h | h <;> simp only [doReseed, h]
    · have : doReseed i s = (.done, s.modControl i fun c => { c with seed := 0 }) := by
        rcases stays with h | h | h <;> simp only [doReseed, h]
      exact this
    · have : doReseed i s = (.done, changeLaneState i .seeding .reseed 0 (s.modControl i fun c => { c with seed := 0 })) := by
        rcases moves with h | h <;> simp only [doReseed, h]
      rw [this, changeLaneState_of_room _ _ _ _ (by exact room)]
      simp [State.modControl, Lane.binding]
  case test =>
    intro l h st on t
    have entered : clampStatus p (p.clamped g.w) = st := by rw [TestParams.clamped_eq]; rfl
    have withTest : l.withTest (p.clamped g.w) = on := by rw [TestParams.clamped_eq]; rfl
    have bound : on.binding = some g.strand := binding_of_geometry hg
    refine ⟨fun hand => ?on, fun hand => ?off⟩
    case on =>
      have row {st : Status} {u : State} (hf : doTest i 1 p s = (st, u)) : exec .testOn s = .next (retire st u) :=
        exec_lane (f := fun i => doTest i 1 p) (.testOn i.val p (by decide)) hand rfl hf
      refine ⟨fun barred => row (doTest_refused barred), fun test => row ?_, fun off stopping test room => row ?_⟩
      · rw [doTest_on (by simp [l, test]) (by simp [l, test]), doTestOn_again hg test, entered, withTest]
      · rw [doTest_on off stopping, doTestOn_enters hg off stopping test, entered, withTest,
          modBoundBillet_bound (g := g) (by simpa [on] using hg), changeLaneState_of_room _ _ _ _ (by exact room)]
        simp only [State.modBillet, State.setStrand_lane, State.setLane_lane, if_true, bound]
        simp [State.setLane, State.setStrand, on, l, t]
    case off =>
      have row {st : Status} {u : State} (hf : doTest i 0 p s = (st, u)) : exec .testOff s = .next (retire st u) :=
        exec_lane (f := fun i => doTest i 0 p) (.testOff i.val p (by decide)) hand rfl hf
      refine ⟨fun barred => row (doTest_refused barred), fun test room => row ?_, fun off stopping test => row ?_⟩
      · rw [doTest_off (by simp [l, test]) (by simp [l, test]), doTestOff_leaves test,
          changeLaneState_of_room _ _ _ _ (by exact room)]
        simp [State.modControl, Lane.binding, l, test, hg]
      · rw [doTest_off off stopping, doTestOff_stands off stopping test]
  case action =>
    have answered : doTest i a p s = (if (s.lane i).control.state = .off ∨ (s.lane i).control.state = .stopping then .refused
        else .badValue, s) := by
      unfold doTest
      split_ifs <;> first | rfl | omega
    exact ⟨exec_lane (f := fun i => doTest i a p) (.testOn i.val p (by omega)) h rfl answered,
      exec_lane (f := fun i => doTest i a p) (.testOff i.val p (by omega)) h rfl answered⟩

/-! #### LANE_RESET and BAY_RESET (R149, R163) -/

/-- Settles O59. -/
theorem laneResetKeepsSettings : Obligations.LaneResetKeepsSettings := by
  refine fun s i h => ⟨fun off => ?off, fun armed room => ?armed⟩
  case off => exact exec_lane (.laneReset i.val) h rfl (if_pos off)
  case armed =>
    refine exec_lane (.laneReset i.val) h rfl ((if_neg armed).trans ?_)
    rw [State.emit_of_room _ (by exact room)]
    rfl

/-- Settles O60. -/
theorem bayResetResetsTheBay : Obligations.BayResetResetsTheBay := by
  intro s keep h
  have row : exec .bayReset s = .next (retire .done (writeZeroProducer (bayReset keep s))) := by
    simp only [exec, execBayReset, h, conclude]
  have lane (i : Fin 12) : (bayReset keep s).lane i = (s.lane i).atBayReset keep := by
    simp only [bayReset, State.mk_lane, buildLanes_get]
  have strand (k : Fin 6) : (bayReset keep s).strand k = (s.strand k).atBayReset keep := by
    simp only [bayReset, State.mk_strand, buildStrands_get]
  obtain ⟨p, z, zeroed⟩ : ∃ p z, writeZeroProducer (bayReset keep s) =
      { bayReset keep s with path := p, report := { (bayReset keep s).report with zeros := z } } :=
    writeZeroProducer_frame rfl rfl
  have atOnce (room : s.path.injected.length < 16) := writeZeroProducer_at_once (s := bayReset keep s) ⟨rfl, room⟩ rfl rfl
  have waits (full : 16 ≤ s.path.injected.length) := writeZeroProducer_waits (s := bayReset keep s) List.not_mem_nil (.inr full)
  refine ⟨_, row, fun room => ?room, fun full => ?full, fun i => ?lane, fun k => ?strand, ?report, ?rest⟩
  case room => rw [atOnce room]; rfl
  case full => rw [waits full]; rfl
  case lane =>
    rw [zeroed]
    refine (lane i).trans ?_
    cases keep <;> rfl
  case strand =>
    have : (writeZeroProducer (bayReset keep s)).strand k = (s.strand k).atBayReset keep := by rw [zeroed]; exact strand k
    rw [this]
    exact ⟨rfl, rfl, rfl, rfl⟩
  case report =>
    by_cases room : s.path.injected.length < 16
    · rw [atOnce room, if_pos room]; rfl
    · rw [waits (Nat.not_lt.mp room), if_neg room]; rfl
  case rest => rw [zeroed]; exact ⟨rfl, rfl, rfl, rfl, rfl, rfl, rfl, rfl⟩

end Sys2Proof.Machine


/-! ### Stripes and start-up (R164 to R169) -/

namespace Sys2Proof.Machine

/-! #### A write that carries stripes (R169) -/

/-- The bytes of blocks of one size laid end to end. -/
theorem getD_flatMap_blocks {f : Nat → List Byte} {c : Nat} (hf : ∀ j, (f j).length = c) (n : Nat) {k : Nat} (hk : k < c * n) :
    ((List.range n).flatMap f).getD k 0 = (f (k / c)).getD (k % c) 0 := by
  have length (n : Nat) : ((List.range n).flatMap f).length = c * n := by simp [hf, Nat.mul_comm]
  induction n with
  | zero => omega
  | succ n ih =>
    rw [List.range_succ, List.flatMap_append, List.flatMap_singleton]
    by_cases inside : k < c * n
    · rw [List.getD_append _ _ _ _ (by rw [length]; exact inside), ih inside]
    · have pos : 0 < c := by
        rcases Nat.eq_zero_or_pos c with rfl | pos
        · simp at hk
        · exact pos
      have block : k / c = n := Nat.div_eq_of_lt_le (by rw [Nat.mul_comm]; omega) (by rw [Nat.mul_comm]; exact hk)
      rw [List.getD_append_right _ _ _ _ (by rw [length]; omega), length, block]
      congr 1
      have := Nat.div_add_mod k c
      rw [block] at this
      omega

theorem take_one_drop {l : List Byte} {n : Nat} (h : n < l.length) : (l.drop n).take 1 = [l.getD n 0] := by
  rw [List.drop_eq_getElem_cons h, List.take_succ_cons, List.take_zero, List.getD_eq_getElem _ _ h]

section Stripes
variable (base : Nat) (area : List Byte) {places : List Nat} {p q : Nat}

/-- The beat `j` of a write from place `p` on carries the stripe of one of its places. -/
def CarriesStripe (places : List Nat) (p j : Nat) : Prop := j % 2 = 0 ∧ p + j / 2 ∈ places

theorem stripesWrite_shape (hp : places.headD 0 = p) (hq : places.getLastD 0 = q) :
    (stripesWrite base area places).kind = .write ∧ (stripesWrite base area places).addr = base + 64 * p + 32 ∧
      (stripesWrite base area places).len = 2 * (q - p) + 1 ∧
      (stripesWrite base area places).enables.length = 2 * (q - p) + 1 := by
  subst hp hq
  exact ⟨rfl, rfl, rfl, by simp [stripesWrite]⟩

theorem stripe_mask_bits : ∀ b < 32, (0xFFFF0000 : BitVec 32).getLsbD b = true ↔ 16 ≤ b := by decide

/-- The bytes that such a write enables: the upper half of the beats that carry a stripe. -/
theorem stripesWrite_enables (hp : places.headD 0 = p) (hq : places.getLastD 0 = q) {n : Nat}
    (hn : n < 32 * (2 * (q - p) + 1)) : ((stripesWrite base area places).enables.getD (n / 32) 0).getLsbD (n % 32) = true ↔
      CarriesStripe places p (n / 32) ∧ 16 ≤ n % 32 := by
  have beat : n / 32 < 2 * (q - p) + 1 := by omega
  simp only [stripesWrite, hp, hq]
  rw [List.getD_eq_getElem _ _ (by simpa using beat)]
  simp only [List.getElem_map, List.getElem_range, Bool.and_eq_true, beq_iff_eq, List.contains_iff_mem]
  split_ifs with carried
  · rw [stripe_mask_bits _ (Nat.mod_lt _ (by decide))]
    exact ⟨fun h => ⟨carried, h⟩, And.right⟩
  · exact iff_of_false (by simp) fun ⟨h, _⟩ => carried h

/-- The bytes it carries, in the upper half of such a beat. -/
theorem stripesWrite_data (hp : places.headD 0 = p) (hq : places.getLastD 0 = q)
    (held : ∀ x ∈ places, 1 ≤ x ∧ 16 * x ≤ area.length) : (stripesWrite base area places).data.length =
        32 * (2 * (q - p) + 1) ∧
      ∀ n, n < 32 * (2 * (q - p) + 1) → CarriesStripe places p (n / 32) → 16 ≤ n % 32 →
        (stripesWrite base area places).data.getD n 0 = area.getD (16 * (p + n / 32 / 2 - 1) + (n % 32 - 16)) 0 := by
  have stripe {x : Nat} (hx : x ∈ places) : (stripeBytes area x).length = 16 :=
    stripeBytes_length area x (held x hx).1 (held x hx).2
  have block (j : Nat) : (if j % 2 == 0 && places.contains (p + j / 2) then
      zeroBytes 16 ++ stripeBytes area (p + j / 2) else zeroBytes 32).length = 32 := by
    simp only [Bool.and_eq_true, beq_iff_eq, List.contains_iff_mem]
    split_ifs with carried
    · rw [List.length_append, stripe carried.2, zeroBytes, List.length_replicate]
    · exact List.length_replicate
  refine ⟨?_, fun n hn ⟨even, mem⟩ upper => ?_⟩
  · simp only [stripesWrite, hp, hq, List.length_flatMap, block]
    simp [Nat.mul_comm]
  · have inside : n % 32 - 16 < 16 := by omega
    obtain ⟨low, high⟩ := held _ mem
    simp only [stripesWrite, hp, hq]
    rw [getD_flatMap_blocks block _ hn, if_pos (by simpa [even] using mem),
      List.getD_append_right _ _ _ _ (by simpa [zeroBytes] using upper), zeroBytes, List.length_replicate,
      List.getD_eq_getElem _ _ (by rw [stripe mem]; exact inside), List.getD_eq_getElem _ _ (by omega)]
    simp [stripeBytes]

end Stripes

theorem presetSectionWrite_data (base : Nat) (p : Partition) (count : Nat) (statuses : List Status) {m : Nat} (hm : m < 48) :
    ((presetSectionWrite base p count statuses).data.drop (64 * (m / 16) + 16 + m % 16)).take 1 =
      [(presetSection p count statuses).getD m 0] := by
  have held : ∀ x ∈ [3, 4, 5], 1 ≤ x ∧ 16 * x ≤ (zeroBytes 32 ++ presetSection p count statuses).length := by
    simp [presetSection_length, zeroBytes]
  obtain ⟨length, data⟩ := stripesWrite_data base _ (p := 3) (q := 5) rfl rfl held
  have inside : 64 * (m / 16) + 16 + m % 16 < 32 * (2 * (5 - 3) + 1) := by omega
  rw [presetSectionWrite, take_one_drop (by rw [length]; exact inside), data _ inside
    ⟨by omega, by simp only [List.mem_cons]; omega⟩ (by omega), List.getD_append_right _ _ _ _ (by simp [zeroBytes]; omega)]
  congr 2
  simp [zeroBytes]; omega

theorem presetSection_getD_status (p : Partition) (count : Nat) (statuses : List Status) {m : Nat} (hm : m < 46) :
    (presetSection p count statuses).getD (m + 2) 0 = BitVec.ofNat 8 ((statuses[m]?.map (·.code)).getD 0) := by
  have field : (presetSection p count statuses)[m + 2]? = (statuses.map (fun st => byteOf st.code) ++ zeroBytes 46)[m]? :=
    List.getElem?_take_of_lt hm
  rw [List.getD_eq_getElem?_getD, field]
  by_cases held : m < statuses.length
  · rw [List.getElem?_append_left (by simpa using held)]
    simp [held, byteOf]
  · rw [List.getElem?_append_right (by simpa using held), zeroBytes, List.getElem?_replicate_of_lt (by simp; omega)]
    simp [held]

/-! #### The entry to RUNNING and the judgement of the image (R165 to R168) -/

section Enter
variable {s : State}

/-- The state of the part in RUNNING with `statuses` presets carried out, with room for its three writes (R167). -/
def State.entered (s : State) (loader : Loader) (p : Partition) (count : Nat) (statuses : List Status) : State :=
  { s with
    global := .running
    loader := loader
    command := { s.command with cond := .idle, consumer := 0, producer := 0, writes := [] }
    report := { s.report with published := 0 }
    path := ((s.path.inject (presetSectionWrite s.controlBase p count statuses, .commandWrite)).inject
      (consumerWordWrite s.controlBase 0, .commandWrite)).inject (producerWordWrite s.controlBase 0, .producerZero) }

/-- The command unit makes its two writes of the entry, and then the report unit its one. -/
theorem enterRunning_of_room (room : Room 3 s) (hz : s.report.zeros = 0) (idle : s.report.writer = .idle) :
    enterRunning s = s.entered { s.loader with state := .finished } s.loader.partition s.loader.presets.length
      s.loader.statuses := by
  let presets := presetSectionWrite s.controlBase s.loader.partition s.loader.presets.length s.loader.statuses
  let word := consumerWordWrite s.controlBase 0
  let c : CommandUnit := { s.command with cond := .idle, consumer := 0, producer := 0 }
  let begun : State := { s with
    global := .running
    loader := { s.loader with state := .finished }
    command := { c with writes := [presets, word] } }
  have made : request .command begun = { begun with
      path := (s.path.inject (presets, .commandWrite)).inject (word, .commandWrite)
      command := { c with writes := [] } } := by
    have one : pump 17 .command begun = pump 16 .command { begun with
        path := s.path.inject (presets, .commandWrite), command := { c with writes := [word] } } :=
      pump_command (wants_area_write rfl) (afterMade_area_write rfl (.inr nofun)) (room.mono (by omega))
    have two : pump 16 .command { begun with
        path := s.path.inject (presets, .commandWrite), command := { c with writes := [word] } } = pump 15 .command { begun with
        path := (s.path.inject (presets, .commandWrite)).inject (word, .commandWrite), command := { c with writes := [] } } :=
      pump_command (wants_area_write rfl) (afterMade_area_write rfl (.inr nofun))
        (Room.inject (s := s) (n := 1) (room.mono (by omega)) rfl)
    have nothing : CommandUnit.wants { c with writes := [] } = none := wants_nothing rfl (.inl rfl)
    exact one.trans (two.trans (pump_of_wanted_none nothing))
  have two : Room 2 { s with path := s.path.inject (presets, .commandWrite) } := Room.inject room rfl
  have last : Room 1 { begun with
      path := (s.path.inject (presets, .commandWrite)).inject (word, .commandWrite), command := { c with writes := [] } } :=
    Room.inject two rfl
  calc enterRunning s = writeZeroProducer (request .command begun) := rfl
    _ = _ := by rw [made, writeZeroProducer_at_once last hz idle]; rfl

theorem runIfPresetsDone_done (h : s.loader.presets.length ≤ s.loader.statuses.length) :
    runIfPresetsDone s = enterRunning s := if_pos h

theorem runIfPresetsDone_left (h : s.loader.statuses.length < s.loader.presets.length) : runIfPresetsDone s = s :=
  if_neg (Nat.not_le.mpr h)

end Enter

theorem headerAt_valid_iff {bytes : List Byte} {off : Nat} : (headerAt bytes off).valid = true ↔
    fromLe (storeSlice bytes off 5) % 4096 = 0 ∧ fromLe (storeSlice bytes off 5) + 4096 ≤ 2 ^ 40 ∧
      (storeByte bytes (off + 5)).toNat ≤ 15 ∧ (storeByte bytes (off + 6)).toNat ≤ 31 := by
  simp only [Header.valid, Bool.and_eq_true, decide_eq_true_eq, and_assoc]
  exact Iff.rfl

theorem partitionOf_eq_none {b : Byte} (first : b ≠ 0x5A) (second : b ≠ 0xA5) : partitionOf b = none :=
  (if_neg first).trans (if_neg second)

theorem partitionOf_eq_some {b : Byte} {p : Partition} {off : Nat}
    (h : (b = 0x5A ∧ p = .first ∧ off = 0x010) ∨ (b = 0xA5 ∧ p = .second ∧ off = 0x810)) : partitionOf b = some (p, off) := by
  rcases h with ⟨rfl, rfl, rfl⟩ | ⟨rfl, rfl, rfl⟩ <;> rfl

section Store
variable {bytes : List Byte} {s : State} {p : Partition} {off : Nat} (loading : s.global = .loading)
  (reading : s.loader.state = .reading)
include loading reading

theorem exec_storeReadEnd_unsigned (h : partitionOf (storeByte bytes 0) = none) :
    exec (.storeReadEnd bytes) s = .next (enterPassOnly .none s) := by
  simp only [exec, execStoreReadEnd, if_pos (And.intro loading reading), h]

theorem exec_storeReadEnd_invalid (h : partitionOf (storeByte bytes 0) = some (p, off))
    (invalid : ¬ (headerAt bytes off).valid = true) : exec (.storeReadEnd bytes) s = .next (enterPassOnly p s) := by
  simp only [exec, execStoreReadEnd, if_pos (And.intro loading reading), h, if_neg invalid]

theorem exec_storeReadEnd_valid (h : partitionOf (storeByte bytes 0) = some (p, off))
    (valid : (headerAt bytes off).valid = true) : exec (.storeReadEnd bytes) s = .next (runIfPresetsDone
      (enterPresets p (headerAt bytes off) (presetPlaces bytes off (headerAt bytes off).count) s)) := by
  simp only [exec, execStoreReadEnd, if_pos (And.intro loading reading), h, if_pos valid]

end Store

theorem presetPlaces_length (bytes : List Byte) (off count : Nat) : (presetPlaces bytes off count).length = count := by
  simp [presetPlaces]

/-- Settles O21. -/
theorem storeReadEndJudgesImage : Obligations.StoreReadEndJudgesImage := by
  refine ⟨fun base p count statuses => ⟨rfl, rfl, rfl, rfl, rfl, ?fields, fun m hm => ?statuses⟩, fun _ _ _ => ⟨rfl, rfl⟩,
    fun bytes s loading reading => ⟨fun first second => ?unsigned, fun p off h => ?judged⟩⟩
  case fields =>
    simp only [HoldsFields, List.forall_mem_cons, List.not_mem_nil, false_implies, implies_true, and_true]
    exact ⟨presetSectionWrite_data base p count statuses (m := 0) (by decide),
      presetSectionWrite_data base p count statuses (m := 1) (by decide)⟩
  case statuses =>
    simp only [HoldsFields, List.forall_mem_cons, List.not_mem_nil, false_implies, implies_true, and_true]
    rw [presetSectionWrite_data base p count statuses (m := m + 2) (by omega), presetSection_getD_status p count statuses hm]
    rfl
  case unsigned => exact exec_storeReadEnd_unsigned loading reading (partitionOf_eq_none first second)
  case judged =>
    have signed := partitionOf_eq_some h
    refine ⟨fun invalid => exec_storeReadEnd_invalid loading reading signed (mt headerAt_valid_iff.mp invalid),
      fun valid some => ?presets, fun valid none room zeros idle => ?running⟩
    case presets =>
      rw [exec_storeReadEnd_valid loading reading signed (headerAt_valid_iff.mpr valid), runIfPresetsDone_left]
      · rfl
      · simpa [enterPresets, presetPlaces_length] using (show 0 < (headerAt bytes off).count from some)
    case running =>
      have places : presetPlaces bytes off (headerAt bytes off).count = [] :=
        List.eq_nil_of_length_eq_zero ((presetPlaces_length ..).trans none)
      rw [exec_storeReadEnd_valid loading reading signed (headerAt_valid_iff.mpr valid), places,
        runIfPresetsDone_done (Nat.le_refl _), enterRunning_of_room (by exact room) (by exact zeros) (by exact idle)]
      rfl

end Sys2Proof.Machine


/-! ### Presets (R166, R167) -/

namespace Sys2Proof.Machine

section Handover
variable {s u : State} {place : List Byte} {st : Status}

theorem presetFault_of_done (h : st = .done ∨ st = .doneClamped) (n : Nat) : presetFault st n s = s := by
  rcases h with rfl | rfl <;> rfl

theorem presetFault_of_failed (done : st ≠ .done) (clamped : st ≠ .doneClamped) (n : Nat) :
    presetFault st n s = s.raise .presetFailed n := by
  cases st <;> first | contradiction | rfl

/-- The preset at hand is carried out, and the part enters RUNNING after the last one. -/
theorem exec_presetHandover (loading : s.global = .loading) (presets : s.loader.state = .presets)
    (hp : s.loader.presets[s.loader.statuses.length]? = some place)
    (hc : carryPreset (decodeEntry (commandPart place)) s = (st, u)) (hl : u.loader = s.loader) :
    exec .presetHandover s = .next (runIfPresetsDone (presetFault st s.loader.statuses.length
      { u with loader := { s.loader with statuses := s.loader.statuses ++ [st] } })) := by
  simp only [exec, execPresetHandover, hp, if_pos (And.intro loading presets), runPreset, hc, hl]

@[simp] theorem presetFault_loader (n : Nat) : (presetFault st n s).loader = s.loader := by
  cases st <;> rfl

end Handover

/-! #### A preset is carried out as its command is in RUNNING (R166) -/

/-- The state in RUNNING with the entry `e` in hand. -/
def State.inRunning (e : List Byte) (s : State) : State :=
  { s with global := .running, command := { s.command with cond := .executing e none } }

/-- A command whose status and effect are those that it has in RUNNING. -/
def AsInRunning (f : State → Status × State) (e : List Byte) (s : State) : Prop :=
  f (s.inRunning e) = ((f s).1, (f s).2.inRunning e)

section As
variable {e : List Byte} {s : State} {i : Fin 12}

theorem asInRunning_onLane {f : Fin 12 → State → Status × State} (h : ∀ i, AsInRunning (f i) e s) (t : Nat) :
    AsInRunning (onLane t f) e s := by
  unfold AsInRunning onLane
  split
  · exact h _
  · rfl

theorem asInRunning_onStrand {f : Fin 6 → State → Status × State} (h : ∀ k, AsInRunning (f k) e s) (t : Nat) :
    AsInRunning (onStrand t f) e s := by
  unfold AsInRunning onStrand
  split
  · exact h _
  · rfl

theorem leaveBillet_inRunning (k : Fin 6) : leaveBillet i k (s.inRunning e) = (leaveBillet i k s).inRunning e := by
  have lane : (s.inRunning e).lane i = s.lane i := rfl
  simp only [leaveBillet, lane]
  cases (s.lane i).binding with
  | none => rfl
  | some j =>
    have strand : (s.inRunning e).strand j = s.strand j := rfl
    simp only [strand]
    split <;> rfl

theorem asInRunning_laneGeometry (p : GeometryParams) : AsInRunning (doLaneGeometry i p) e s := by
  have same : geometryOf i p (s.inRunning e) = geometryOf i p s := rfl
  have lane : (s.inRunning e).lane i = s.lane i := rfl
  simp only [AsInRunning, doLaneGeometry, same, lane, leaveBillet_inRunning]
  split
  · rfl
  · cases geometryOf i p s <;> rfl

theorem asInRunning_laneZones (n : Nat) (z : List ZoneParams) : AsInRunning (doLaneZones i n z) e s := by
  have lane : (s.inRunning e).lane i = s.lane i := rfl
  simp only [AsInRunning, doLaneZones, lane]
  split
  · rfl
  · cases (s.lane i).control.geometry with
    | none => rfl
    | some g =>
      dsimp only
      split
      · rfl
      · cases zonesKinds z with
        | none => rfl
        | some zs =>
          dsimp only
          split <;> rfl

theorem asInRunning_deadColumns (first count action : Nat) : AsInRunning (doDeadColumns i first count action) e s := by
  unfold AsInRunning doDeadColumns
  split <;> rfl

theorem asInRunning_strandSetup (k : Fin 6) (c : StrandSetup) : AsInRunning (doStrandSetup k c) e s := by
  have any : (boundLanes (s.inRunning e) k).any (fun i => decide (((s.inRunning e).lane i).control.state ≠ .off)) =
    (boundLanes s k).any (fun i => decide ((s.lane i).control.state ≠ .off)) := rfl
  simp only [AsInRunning, doStrandSetup, any]
  split <;> rfl

theorem asInRunning_strandMarking {k : Fin 6} (hp : (s.strand k).motion.pairDue = none)
    (hc : (s.strand k).motion.cutDue = none) (idle : (s.strand k).marker.pulsing = false) (c : MarkSettings) :
    AsInRunning (doStrandMarking k c) e s := by
  have stands : finishSample s k = s := finishSample_stands hp hc (by simp [idle])
  have stands' : finishSample (s.inRunning e) k = s.inRunning e := finishSample_stands hp hc (by
    intro pulsing; cases idle.symm.trans pulsing)
  have strand : (s.inRunning e).strand k = s.strand k := rfl
  simp only [AsInRunning, doStrandMarking, stands, stands', strand]
  split <;> rfl

theorem asInRunning_classifySetup (c : Classify) : AsInRunning (doClassifySetup c) e s := by
  unfold AsInRunning doClassifySetup
  split <;> rfl

theorem asInRunning_reportSetup (c : ReportSettings) : AsInRunning (doReportSetup c) e s := by
  have any : allLanes.any (fun i => decide (((s.inRunning e).lane i).control.state ≠ .off)) =
    allLanes.any (fun i => decide ((s.lane i).control.state ≠ .off)) := rfl
  have writer : (s.inRunning e).report.writer = s.report.writer := rfl
  have valid : reportSettingsValid c (s.inRunning e) = reportSettingsValid c s := rfl
  simp only [AsInRunning, doReportSetup, any, writer, valid]
  split
  · rfl
  · split <;> rfl

theorem asInRunning_reseed : AsInRunning (doReseed i) e s := by
  have lane : (s.inRunning e).lane i = s.lane i := rfl
  simp only [AsInRunning, doReseed, lane]
  cases (s.lane i).control.state <;> rfl

theorem asInRunning_test_of_off (off : (s.lane i).control.state = .off) (a : Nat) (p : TestParams) :
    AsInRunning (doTest i a p) e s := by
  rw [AsInRunning, doTest_refused (.inl off), doTest_refused (s := s.inRunning e) (.inl off)]

theorem asInRunning_laneReset : AsInRunning (doLaneReset i) e s := by
  have lane : (s.inRunning e).lane i = s.lane i := rfl
  simp only [AsInRunning, doLaneReset, lane]
  split <;> rfl

end As

theorem presetDisarm_off {s : State} {i : Fin 12} (off : (s.lane i).control.state = .off) : presetDisarm i s = (.done, s) := by
  simp only [presetDisarm, doDisarm_off off]

/-- The command that a preset's entry spells, where no sample or pulse is due and every lane is OFF. -/
theorem asInRunning_carryPreset {e : List Byte} {s : State} (due : ∀ k, (s.strand k).motion.pairDue = none ∧
      (s.strand k).motion.cutDue = none ∧ (s.strand k).marker.pulsing = false)
    (off : ∀ i, (s.lane i).control.state = .off) {c : Command} (arm : ∀ t, c ≠ .arm t) : AsInRunning (carryPreset c) e s := by
  cases c with
  | laneGeometry t p => exact asInRunning_onLane (f := fun i => doLaneGeometry i p) (fun i => asInRunning_laneGeometry p) t
  | laneZones t n z => exact asInRunning_onLane (f := fun i => doLaneZones i n z) (fun i => asInRunning_laneZones n z) t
  | deadColumns t f n a =>
    exact asInRunning_onLane (f := fun i => doDeadColumns i f n a) (fun i => asInRunning_deadColumns f n a) t
  | laneDetect t d => exact asInRunning_onLane (f := fun i => doLaneDetect i d) (fun i => rfl) t
  | strandSetup t c => exact asInRunning_onStrand (f := fun k => doStrandSetup k c) (fun k => asInRunning_strandSetup k c) t
  | strandMarking t c =>
    exact asInRunning_onStrand (f := fun k => doStrandMarking k c)
      (fun k => asInRunning_strandMarking (due k).1 (due k).2.1 (due k).2.2 c) t
  | classifySetup c => exact asInRunning_classifySetup c
  | reportSetup c => exact asInRunning_reportSetup c
  | arm t => exact absurd rfl (arm t)
  | disarm t =>
    exact asInRunning_onLane (fun i => by
      rw [AsInRunning, presetDisarm_off (off i), presetDisarm_off (s := s.inRunning e) (off i)]) t
  | reseed t => exact asInRunning_onLane (f := doReseed) (fun i => asInRunning_reseed) t
  | test t a p =>
    exact asInRunning_onLane (f := fun i => doTest i a p) (fun i => asInRunning_test_of_off (off i) a p) t
  | snapshot => rfl
  | clearFault => rfl
  | laneReset t => exact asInRunning_onLane (f := doLaneReset) (fun i => asInRunning_laneReset) t
  | bayReset k => rfl
  | unknown n => rfl

/-- Settles O22: the loader's handover is one of `carryPreset`, which every row of `Carries` shares. -/
theorem presetIsCarriedOut : Obligations.PresetIsCarriedOut := by
  refine ⟨fun s place st u loading presets hp hc left hl => ?left, fun s place st u loading presets hp hc last hl room zeros idle =>
    ?last, fun s loading => ?refused, fun e s due off => ?alike, fun s => ⟨writeZeroProducer_at_once, writeZeroProducer_waits⟩⟩
  case left =>
    intro v
    have stays : exec .presetHandover s = .next (presetFault st s.loader.statuses.length v) := by
      rw [exec_presetHandover loading presets hp hc hl, runIfPresetsDone_left]
      simpa using left
    refine ⟨fun h => ?_, fun done clamped none => ?_, fun done clamped held => ?_⟩
    · rw [stays, presetFault_of_done h]
    · rw [stays, presetFault_of_failed done clamped, State.raise, ReportUnit.raise_first (by exact none)]
    · rw [stays, presetFault_of_failed done clamped, State.raise, ReportUnit.raise_later (by exact held)]
  case last =>
    intro base statuses v
    let w : State := { u with loader := { s.loader with statuses := statuses } }
    have enters : exec .presetHandover s = .next (enterRunning (presetFault st s.loader.statuses.length w)) := by
      rw [exec_presetHandover loading presets hp hc hl, runIfPresetsDone_done]
      simp [last]
    refine ⟨fun h => ?_, fun done clamped none => ?_, fun done clamped held => ?_⟩
    · rw [enters, presetFault_of_done h, enterRunning_of_room (by exact room) (by exact zeros) (by exact idle)]; rfl
    · rw [enters, presetFault_of_failed done clamped, State.raise, ReportUnit.raise_first (by exact none),
        enterRunning_of_room (by exact room) (by exact zeros) (by exact idle)]; rfl
    · rw [enters, presetFault_of_failed done clamped, State.raise, ReportUnit.raise_later (by exact held),
        enterRunning_of_room (by exact room) (by exact zeros) (by exact idle)]; rfl
  case refused =>
    have notRunning : s.global ≠ .running := by simp [loading]
    exact ⟨fun i => (onLane_val i doArm s).trans (if_pos notRunning), rfl, fun keep => rfl, fun i a p off =>
      ⟨(onLane_val i doReseed s).trans (by simp only [doReseed, off]),
        (onLane_val i (fun i => doTest i a p) s).trans (doTest_refused (.inl off))⟩⟩
  case alike =>
    intro c r inRunning alike
    have hand : inHand (s.inRunning e) = some c := inHand_iff.mpr ⟨e, rfl, rfl⟩
    have carried {row : Instr} {c' : Command} (h : c = c') (hr : Carries row c') (arm : ∀ t, c' ≠ .arm t) : alike row := by
      subst h
      exact exec_carries hr hand (asInRunning_carryPreset due off arm)
    refine ⟨fun t p h => carried h (.laneGeometry t p) nofun, fun t n z h => carried h (.laneZones t n z) nofun,
      fun t f n a h => ⟨fun ha => carried h (.deadColumnsMark t f n ha) nofun, fun ha => carried h (.deadColumnsClear t f n ha) nofun⟩,
      fun t a p h => ⟨fun ha => carried h (.testOn t p ha) nofun, fun ha => carried h (.testOff t p ha) nofun⟩,
      fun t h => carried h (.reseed t) nofun, fun t d h => carried h (.laneDetect t d) nofun,
      fun t p h => carried h (.strandSetup t p) nofun, fun t p h => carried h (.strandMarking t p) nofun,
      fun p h => carried h (.classifySetup p) nofun, fun t h => ?disarm, fun h => carried h .clearFault nofun,
      fun t h => carried h (.laneReset t) nofun, fun n h => carried h (.unknown n) nofun, fun p h => ?reportSetup⟩
    case disarm =>
      by_cases inside : t < 12
      · have answered : r = (.done, s) := by
          simp only [r, h]
          exact (onLane_val ⟨t, inside⟩ presetDisarm s).trans (presetDisarm_off (off _))
        simp only [alike, answered]
        exact exec_disarm (i := ⟨t, inside⟩) rfl h (doDisarm_off (off ⟨t, inside⟩))
      · have answered : r = (.badTarget, s) := by
          simp only [r, h]
          exact onLane_out (Nat.not_lt.mp inside) presetDisarm s
        have disarm : inHand (s.inRunning e) = some (.disarm t) := hand.trans (congrArg some h)
        simp only [alike, answered]
        simp only [exec, execDisarm, show inHand (inRunning s) = _ from disarm, dif_neg inside, conclude]
    case reportSetup =>
      have setup : inHand (s.inRunning e) = some (.reportSetup p) := hand.trans (congrArg some h)
      have answered : doReportSetup p (s.inRunning e) = (r.1, r.2.inRunning e) := by
        simp only [r, h]
        exact asInRunning_reportSetup p
      exact ⟨exec_reportSetup_refused setup answered, exec_reportSetup_accepted setup answered⟩

end Sys2Proof.Machine


/-! ### SNAPSHOT (R154, R155, R169, R170) -/

namespace Sys2Proof.Machine

/-! #### The groups of places (R155) -/

theorem groupPlaces_flatten (choice : Nat) {fuel k : Nat} {l : List Nat} (h : l.length ≤ fuel) :
    (groupPlaces choice fuel k l).flatten = l := by
  induction fuel generalizing k l with
  | zero => rw [List.eq_nil_of_length_eq_zero (Nat.le_zero.mp h)]; rfl
  | succ fuel ih =>
    cases l with
    | nil => rfl
    | cons p ps =>
      have more : (ps.take (Config.snapshotGroup choice k % 8)).takeWhile (· ≤ p + 7) <+: ps :=
        (List.takeWhile_prefix _).trans (List.take_prefix _ _)
      simp only [groupPlaces, List.flatten_cons]
      rw [ih (by simp only [List.length_drop, List.length_cons] at h ⊢; omega), List.cons_append,
        List.prefix_iff_eq_append.mp more]

theorem groupPlaces_group (choice : Nat) {fuel k : Nat} {l g : List Nat} (h : g ∈ groupPlaces choice fuel k l) :
    ∃ p rest, g = p :: rest ∧ ∀ x ∈ rest, x ≤ p + 7 := by
  induction fuel generalizing k l with
  | zero => cases h
  | succ fuel ih =>
    cases l with
    | nil => cases h
    | cons p ps =>
      rcases List.mem_cons.mp h with rfl | h
      · exact ⟨p, _, rfl, fun x hx => by simpa using List.mem_takeWhile_imp hx⟩
      · exact ih h

/-- A group of places in rising order, from place `p` to place `q`, whose write has at most 16 beats. -/
structure IsGroup (g : List Nat) (p q : Nat) : Prop where
  head : g.headD 0 = p
  last : g.getLastD 0 = q
  first_mem : p ∈ g
  last_mem : q ∈ g
  between : ∀ x ∈ g, p ≤ x ∧ x ≤ q
  short : q ≤ p + 7

theorem isGroup_of_ascending {p : Nat} {rest : List Nat} (asc : (p :: rest).Pairwise (· < ·)) (near : ∀ x ∈ rest, x ≤ p + 7) :
    IsGroup (p :: rest) p ((p :: rest).getLastD 0) := by
  have split : (p :: rest).dropLast ++ [(p :: rest).getLastD 0] = p :: rest := by
    rw [List.getLastD_cons, ← List.getLast_eq_getLastD (List.cons_ne_nil p rest), List.dropLast_append_getLast]
  have last_mem : (p :: rest).getLastD 0 ∈ p :: rest := by rw [← split]; simp
  refine ⟨rfl, rfl, List.mem_cons_self, last_mem, fun x hx => ⟨?_, ?_⟩, ?_⟩
  · rcases List.mem_cons.mp hx with rfl | hx
    · exact Nat.le_refl _
    · exact (List.rel_of_pairwise_cons asc hx).le
  · rw [← split] at hx asc
    rcases List.mem_append.mp hx with hx | hx
    · exact ((List.pairwise_append.mp asc).2.2 x hx _ List.mem_cons_self).le
    · exact (List.mem_singleton.mp hx).le
  · rcases List.mem_cons.mp last_mem with e | hx
    · omega
    · exact near _ hx

theorem snapshotPlaces_ascending : snapshotPlaces.Pairwise (· < ·) := by decide

theorem mem_snapshotPlaces {x : Nat} : x ∈ snapshotPlaces ↔ 1 ≤ x ∧ x ≤ 63 ∧ (x < 3 ∨ 5 < x) := by
  simp only [snapshotPlaces, List.mem_append, List.mem_cons, List.not_mem_nil, or_false, List.mem_map, List.mem_range]
  constructor
  · rintro ((rfl | rfl) | ⟨y, hy, rfl⟩) <;> omega
  · intro ⟨low, high, outside⟩
    by_cases small : x < 3
    · omega
    · exact .inr ⟨x - 6, by omega, by omega⟩

section Groups
variable {choice : Nat} {g : List Nat}

theorem snapshot_group_mem (h : g ∈ groupPlaces choice 60 0 snapshotPlaces) {x : Nat} (hx : x ∈ g) : x ∈ snapshotPlaces := by
  rw [← groupPlaces_flatten choice (fuel := 60) (k := 0) (l := snapshotPlaces) (by decide)]
  exact List.mem_flatten_of_mem h hx

theorem exists_snapshot_group {x : Nat} (hx : x ∈ snapshotPlaces) : ∃ g ∈ groupPlaces choice 60 0 snapshotPlaces, x ∈ g := by
  rw [← groupPlaces_flatten choice (fuel := 60) (k := 0) (l := snapshotPlaces) (by decide)] at hx
  exact List.mem_flatten.mp hx

theorem snapshot_groups_rise : (groupPlaces choice 60 0 snapshotPlaces).Pairwise fun a b => ∀ x ∈ a, ∀ y ∈ b, x < y := by
  have asc := snapshotPlaces_ascending
  rw [← groupPlaces_flatten choice (fuel := 60) (k := 0) (l := snapshotPlaces) (by decide)] at asc
  exact (List.pairwise_flatten.mp asc).2

theorem snapshot_group_isGroup (h : g ∈ groupPlaces choice 60 0 snapshotPlaces) : ∃ p q, IsGroup g p q := by
  have asc := snapshotPlaces_ascending
  rw [← groupPlaces_flatten choice (fuel := 60) (k := 0) (l := snapshotPlaces) (by decide)] at asc
  obtain ⟨p, rest, rfl, near⟩ := groupPlaces_group choice h
  exact ⟨_, _, isGroup_of_ascending ((List.pairwise_flatten.mp asc).1 _ h) near⟩

end Groups

/-! #### The area writes (R155, R169) -/

theorem mem_snapshotWrites {s : State} {w : Request} : w ∈ snapshotWrites s ↔
    ∃ g ∈ groupPlaces s.choice 60 0 snapshotPlaces, w = stripesWrite s.controlBase (snapshotArea s) g := by
  simp only [snapshotWrites, List.mem_map, eq_comm]
  rfl

theorem snapshotArea_holds {s : State} {x : Nat} (hx : x ∈ snapshotPlaces) : 1 ≤ x ∧ 16 * x ≤ (snapshotArea s).length := by
  have := mem_snapshotPlaces.mp hx
  rw [snapshotArea_length]
  omega

theorem snapshotWrites_rise (s : State) : (snapshotWrites s).Pairwise fun a b => a.addr + 32 * a.len ≤ b.addr := by
  rw [snapshotWrites, List.pairwise_map]
  refine snapshot_groups_rise.imp_of_mem fun {a b} ha hb rise => ?_
  obtain ⟨p, q, ga⟩ := snapshot_group_isGroup ha
  obtain ⟨p', q', gb⟩ := snapshot_group_isGroup hb
  obtain ⟨-, addr, len, -⟩ := stripesWrite_shape (s.command.base.getD 0) (snapshotArea s) ga.head ga.last
  obtain ⟨-, addr', -, -⟩ := stripesWrite_shape (s.command.base.getD 0) (snapshotArea s) gb.head gb.last
  have := rise q ga.last_mem p' gb.first_mem
  have := (ga.between q ga.last_mem).1
  rw [addr, len, addr']
  omega

/-- The byte that byte `n` of a write from place `p` on is, in the control block. -/
theorem place_of_byte (base p n : Nat) (even : n / 32 % 2 = 0) (upper : 16 ≤ n % 32) :
    (base + 64 * p + 32 - base + n) % 64 = 32 + n % 32 ∧ (base + 64 * p + 32 - base + n) / 64 = p + n / 32 / 2 := by
  omega

theorem snapshotWrites_touch {s : State} {w : Request} (hw : w ∈ snapshotWrites s) : w.kind = .write ∧ 1 ≤ w.len ∧ w.len ≤ 16 ∧
    w.enables.length = w.len ∧ w.data.length = 32 * w.len ∧ s.controlBase ≤ w.addr ∧
    ∀ n, n < 32 * w.len → (w.enables.getD (n / 32) 0).getLsbD (n % 32) = true →
      let o := w.addr - s.controlBase + n
      48 ≤ o % 64 ∧ 1 ≤ o / 64 ∧ o / 64 ≤ 63 ∧ (o / 64 < 3 ∨ 5 < o / 64) ∧
        w.data.getD n 0 = (snapshotArea s).getD (16 * (o / 64 - 1) + (o % 64 - 48)) 0 := by
  obtain ⟨g, hg, rfl⟩ := mem_snapshotWrites.mp hw
  obtain ⟨p, q, h⟩ := snapshot_group_isGroup hg
  obtain ⟨kind, addr, len, enables⟩ := stripesWrite_shape s.controlBase (snapshotArea s) h.head h.last
  obtain ⟨length, data⟩ := stripesWrite_data s.controlBase (snapshotArea s) h.head h.last
    fun x hx => snapshotArea_holds (snapshot_group_mem hg hx)
  have := h.short
  rw [kind, addr, len, enables, length]
  refine ⟨rfl, by omega, by omega, rfl, rfl, by omega, fun n hn enabled => ?_⟩
  obtain ⟨carries, upper⟩ := (stripesWrite_enables s.controlBase (snapshotArea s) h.head h.last hn).mp enabled
  obtain ⟨offset, place⟩ := place_of_byte s.controlBase p n carries.1 upper
  obtain ⟨low, high, outside⟩ := mem_snapshotPlaces.mp (snapshot_group_mem hg carries.2)
  dsimp only
  rw [offset, place, data n hn carries upper, show 32 + n % 32 - 48 = n % 32 - 16 by omega]
  exact ⟨by omega, low, high, outside, rfl⟩

theorem snapshotWrites_cover {s : State} {sb : Nat} (hsb : sb < 1008) (outside : sb < 32 ∨ 80 ≤ sb) : ∃ w ∈ snapshotWrites s,
    ∃ n, n < 32 * w.len ∧ w.addr + n = s.controlBase + statusOffset sb ∧
      (w.enables.getD (n / 32) 0).getLsbD (n % 32) = true := by
  obtain ⟨g, hg, hx⟩ := exists_snapshot_group (choice := s.choice) (x := 1 + sb / 16) (mem_snapshotPlaces.mpr (by omega))
  obtain ⟨p, q, h⟩ := snapshot_group_isGroup hg
  obtain ⟨-, addr, len, -⟩ := stripesWrite_shape s.controlBase (snapshotArea s) h.head h.last
  have range := h.between _ hx
  have inside : 64 * (1 + sb / 16 - p) + 16 + sb % 16 < 32 * (2 * (q - p) + 1) := by omega
  refine ⟨_, mem_snapshotWrites.mpr ⟨g, hg, rfl⟩, 64 * (1 + sb / 16 - p) + 16 + sb % 16, by rw [len]; exact inside, ?_, ?_⟩
  · rw [addr, statusOffset]; omega
  · refine (stripesWrite_enables s.controlBase (snapshotArea s) h.head h.last inside).mpr ⟨⟨by omega, ?_⟩, by omega⟩
    rw [show p + (64 * (1 + sb / 16 - p) + 16 + sb % 16) / 32 / 2 = 1 + sb / 16 by omega]
    exact hx

/-! #### The captured sections (12.3) -/

theorem le_one (n : Nat) : le 1 n = [byteOf n] := rfl

theorem le_zero_value (k : Nat) : le k 0 = zeroBytes k := by
  induction k with
  | zero => rfl
  | succ k ih => simp only [le, Nat.zero_div, ih, zeroBytes, List.replicate_succ]; rfl

/-- The fields of a section hold in what it stands in, at its place. -/
theorem HoldsFields.within {mid : List Byte} {fields : List (Nat × Nat × Nat)} (h : HoldsFields mid fields)
    (inside : ∀ x ∈ fields, x.1 + x.2.1 ≤ mid.length) (pre post : List Byte) :
    HoldsFields (pre ++ mid ++ post) (fields.map fun x => (pre.length + x.1, x.2)) := by
  intro y hy
  obtain ⟨x, hx, rfl⟩ := List.mem_map.mp hy
  exact (drop_take_middle pre mid post x.1 x.2.1 (inside x hx)).trans (h x hx)

theorem laneSection_fields (l : Lane) : HoldsFields (laneSection l) [(0, 1, l.control.state.code),
    (1, 1, match l.control.geometry with | none => 255 | some g => g.strand.val), (2, 1, l.control.seed), (3, 1, l.control.stall),
    (4, 4, l.capture.counters.processed), (8, 4, l.capture.counters.runt), (12, 4, l.capture.counters.overrun),
    (16, 4, l.capture.counters.slip), (20, 4, l.capture.counters.outOfSeq), (24, 4, l.capture.counters.trailerWrites),
    (28, 4, l.capture.counters.memErrors), (32, 4, l.capture.counters.stationary), (36, 4, l.detection.segOverflow),
    (40, 4, l.table.trackFull), (44, 1, l.table.tracks.length), (45, 3, 0)] := by
  have strand : numberOrNone (l.control.geometry.map (·.strand)) =
      byteOf (match l.control.geometry with | none => 255 | some g => g.strand.val) := by
    cases l.control.geometry <;> rfl
  simp [HoldsFields, laneSection, strand, le_one, le_zero_value, List.drop_append, List.take_append, List.drop_of_length_le]

theorem strandSection_fields (t : Strand) (counts : List Nat) : HoldsFields (strandSection t counts) [(0, 5, t.motion.coord),
    (5, 1, t.marker.pulsing.toNat), (6, 2, t.motion.debt), (8, 4, t.motion.encErrors), (12, 4, t.billet.current.serial),
    (16, 5, t.billet.current.start), (21, 1, t.billet.waiting.length), (22, 2, t.billet.current.osc),
    (24, 2, t.billet.current.noise), (26, 2, t.billet.current.dropped), (28, 1, counts.getD 0 255), (29, 1, counts.getD 1 255),
    (30, 1, counts.getD 2 255), (31, 1, counts.getD 3 255), (32, 5, t.marker.lastFired.getD 0),
    (37, 1, t.marker.lastFired.isSome.toNat), (38, 1, t.marker.queue.length), (39, 1, 0), (40, 4, t.marker.fired),
    (44, 4, t.marker.lost), (48, 4, t.marker.late), (52, 4, 0)] := by
  have bit (b : Bool) : (if b then 1 else 0) = b.toNat := by cases b <;> rfl
  have four : ((counts.map byteOf) ++ List.replicate 4 0xFF).take 4 = [byteOf (counts.getD 0 255), byteOf (counts.getD 1 255),
      byteOf (counts.getD 2 255), byteOf (counts.getD 3 255)] := by
    match counts with
    | [] | [_] | [_, _] | [_, _, _] | _ :: _ :: _ :: _ :: _ => rfl
  have zero : zeroBytes 1 = [0] := rfl
  simp only [HoldsFields, strandSection, bit, four]
  simp [le_one, le_zero_value, zero, List.drop_append, List.take_append, List.drop_of_length_le]

theorem baySection_fields (s : State) : HoldsFields (baySection s) [(0, 6, s.clock), (6, 1, s.command.consumer),
    (7, 1, s.report.mode.code), (8, 4, s.command.foreign), (12, 2, s.report.writeIndex), (14, 2, s.report.published),
    (16, 2, s.report.consumer), (18, 1, s.report.jobs.length), (19, 1, s.report.events.length), (20, 4, s.report.lostJobs),
    (24, 4, s.report.lostEvents), (28, 1, s.report.fault.code), (29, 1, s.report.detail), (30, 1, s.report.suppressed),
    (31, 1, 0)] := by
  have zero : byteOf 0 = 0 := rfl
  simp [HoldsFields, baySection, le_one, zero, List.drop_append, List.take_append, List.drop_of_length_le]

theorem HoldsFields.append {bytes : List Byte} {f g : List (Nat × Nat × Nat)} (hf : HoldsFields bytes f)
    (hg : HoldsFields bytes g) : HoldsFields bytes (f ++ g) := fun x hx => (List.mem_append.mp hx).elim (hf x) (hg x)

theorem allLanes_split (i : Fin 12) : allLanes = allLanes.take i.val ++ i :: allLanes.drop (i.val + 1) := by decide +revert

theorem allStrands_split (k : Fin 6) : allStrands = allStrands.take k.val ++ k :: allStrands.drop (k.val + 1) := by
  decide +revert

theorem snapshotArea_lane (s : State) (i : Fin 12) : ∃ pre post, pre.length = 80 + 48 * i.val ∧
    snapshotArea s = pre ++ laneSection (s.lane i) ++ post := by
  refine ⟨baySection s ++ zeroBytes 48 ++ (allLanes.take i.val).flatMap fun i => laneSection (s.lane i),
    (allLanes.drop (i.val + 1)).flatMap (fun i => laneSection (s.lane i)) ++ allStrands.flatMap (fun k =>
      strandSection (s.strand k) ((boundLanes s k).map fun i => (s.lane i).runs.length)) ++ zeroBytes 16, ?_, ?_⟩
  · have before : (allLanes.take i.val).length = i.val := by decide +revert
    simp only [List.length_append, List.length_flatMap, baySection_length, laneSection_length, zeroBytes, List.length_replicate,
      List.map_const', before, List.sum_replicate, smul_eq_mul]
    omega
  · simp only [snapshotArea, State.lanes_get, State.strands_get]
    rw [allLanes_split i, List.flatMap_append, List.flatMap_cons]
    simp only [List.append_assoc]
    rw [← allLanes_split i]

theorem snapshotArea_strand (s : State) (k : Fin 6) : ∃ pre post, pre.length = 656 + 56 * k.val ∧
    snapshotArea s = pre ++ strandSection (s.strand k) ((boundLanes s k).map fun i => (s.lane i).runs.length) ++ post := by
  refine ⟨baySection s ++ zeroBytes 48 ++ allLanes.flatMap (fun i => laneSection (s.lane i)) ++
      (allStrands.take k.val).flatMap fun k => strandSection (s.strand k) ((boundLanes s k).map fun i => (s.lane i).runs.length),
    (allStrands.drop (k.val + 1)).flatMap (fun k =>
      strandSection (s.strand k) ((boundLanes s k).map fun i => (s.lane i).runs.length)) ++ zeroBytes 16, ?_, ?_⟩
  · have before : (allStrands.take k.val).length = k.val := by decide +revert
    have all : allLanes.length = 12 := rfl
    simp only [List.length_append, List.length_flatMap, baySection_length, laneSection_length, strandSection_length, zeroBytes,
      List.length_replicate, List.map_const', before, all, List.sum_replicate, smul_eq_mul]
    omega
  · simp only [snapshotArea, State.lanes_get, State.strands_get]
    conv_lhs => rw [allStrands_split k, List.flatMap_append, List.flatMap_cons]
    simp only [List.append_assoc]

theorem boundLanes_eq (s : State) (k : Fin 6) : boundLanes s k = allLanes.filter fun j => decide ((s.lane j).binding = some k) :=
  List.filter_congr fun _ _ => Bool.beq_eq_decide_eq ..

/-- Settles O58. -/
theorem snapshotWritesStripesOnly : Obligations.SnapshotWritesStripesOnly := by
  refine ⟨fun s i k => ?_, fun s => ⟨snapshotWrites_rise s, fun w => snapshotWrites_touch, fun sb => snapshotWrites_cover⟩⟩
  intro r l c t o p counts strand
  refine ⟨snapshotArea_length s, rfl, rfl, rfl, ?bay, ?lane, ?strand⟩
  case bay =>
    have bay := (baySection_fields s).within (by simp [baySection_length]) [] (zeroBytes 48 ++
      allLanes.flatMap (fun i => laneSection (s.lane i)) ++ allStrands.flatMap (fun k =>
        strandSection (s.strand k) ((boundLanes s k).map fun i => (s.lane i).runs.length)) ++ zeroBytes 16)
    have last : HoldsFields (zeroBytes 16) [(0, 16, 0)] := by simp [HoldsFields, le_zero_value, zeroBytes]
    have last := last.within (by simp [zeroBytes]) (baySection s ++ zeroBytes 48 ++
      allLanes.flatMap (fun i => laneSection (s.lane i)) ++ allStrands.flatMap fun k =>
        strandSection (s.strand k) ((boundLanes s k).map fun i => (s.lane i).runs.length)) []
    refine HoldsFields.append (f := [(0, 6, s.clock), _, _, _, _, _, _, _, _, _, _, _, _, _, _]) ?_ ?_
    · simpa [snapshotArea, List.append_assoc] using bay
    · simpa [snapshotArea, baySection_length, laneSection_length, strandSection_length, zeroBytes, allLanes, allStrands] using last
  case lane =>
    obtain ⟨pre, post, length, area⟩ := snapshotArea_lane s i
    have fields := (laneSection_fields (s.lane i)).within (by simp [laneSection_length]) pre post
    rw [← area, length] at fields
    exact fields
  case strand =>
    obtain ⟨pre, post, length, area⟩ := snapshotArea_strand s k
    have fields := (strandSection_fields (s.strand k) ((boundLanes s k).map fun i => (s.lane i).runs.length)).within
      (by simp [strandSection_length]) pre post
    rw [← area, length, boundLanes_eq] at fields
    exact fields

end Sys2Proof.Machine


/-! ### The requests of a SNAPSHOT (R154, R155) -/

namespace Sys2Proof.Machine

/-- The path with the requests of the command unit made, one after another. -/
def Path.injectAll (p : Path) (l : List Request) : Path := l.foldl (fun p r => p.inject (r, .commandWrite)) p

section Inject
variable (p : Path) (l : List Request) (r : Request)

theorem injectAll_kept : (p.injectAll l).pass = p.pass ∧ (p.injectAll l).waitList = p.waitList ∧ ∃ made,
    (p.injectAll l).injected = p.injected ++ made ∧ made.map (·.req) = l ∧
      ∀ e ∈ made, e.purpose = .commandWrite ∧ e.issue = none := by
  induction l generalizing p with
  | nil => exact ⟨rfl, rfl, [], (List.append_nil _).symm, rfl, nofun⟩
  | cons r l ih =>
    obtain ⟨pass, waitList, made, injected, requests, each⟩ := ih (p.inject (r, .commandWrite))
    refine ⟨pass, waitList, ⟨r, .commandWrite, p.nextOrder, none⟩ :: made, ?_, congrArg (r :: ·) requests, ?_⟩
    · exact injected.trans (List.append_assoc ..)
    · rintro e he
      rcases List.mem_cons.mp he with rfl | he
      · exact ⟨rfl, rfl⟩
      · exact each e he

theorem injectAll_length : (p.injectAll l).injected.length = p.injected.length + l.length := by
  obtain ⟨-, -, made, injected, requests, -⟩ := injectAll_kept p l
  rw [injected, List.length_append, ← requests, List.length_map]

end Inject

/-- From the unit `c` on, the command unit makes these requests, one after another, and is then `d`. -/
inductive Makes : CommandUnit → List Request → CommandUnit → Prop where
  | nil (c : CommandUnit) : Makes c [] c
  | cons {c d : CommandUnit} {r : Request} {l : List Request} (want : c.wants = some (r, .commandWrite))
      (rest : Makes c.afterMade l d) : Makes c (r :: l) d

theorem Makes.single {c d : CommandUnit} {r : Request} (want : c.wants = some (r, .commandWrite)) (after : c.afterMade = d) :
    Makes c [r] d := after ▸ .cons want (.nil _)

theorem Makes.append {b c d : CommandUnit} {l m : List Request} (h : Makes b l c) (k : Makes c m d) : Makes b (l ++ m) d := by
  induction h with
  | nil => exact k
  | cons want _ ih => exact .cons want (ih k)

/-- With room for them, the pump makes them all. -/
theorem pump_makes {n : Nat} {s : State} {l : List Request} {d : CommandUnit} (h : Makes s.command l d) (room : Room l.length s) :
    pump (n + l.length) .command s = pump n .command { s with path := s.path.injectAll l, command := d } := by
  generalize hc : s.command = c at h
  induction h generalizing s with
  | nil => rw [← hc]; rfl
  | @cons c d r l want rest ih =>
    subst hc
    have one := pump_command (n := n + l.length) want rfl (room.mono (by simp))
    rw [List.length_cons, ← Nat.add_assoc, one]
    exact ih (s := { s with path := s.path.inject (r, .commandWrite), command := s.command.afterMade })
      (Room.inject (by simpa using room) rfl) rfl

section Unit
variable {c : CommandUnit}

/-- The area writes but those left. -/
theorem makes_area_writes {front back : List Request} (hw : c.writes = front ++ back) (left : back ≠ []) :
    Makes c front { c with writes := back } := by
  induction front generalizing c with
  | nil =>
    have : { c with writes := back } = c := by rw [← show c.writes = back from hw]
    rw [this]; exact .nil c
  | cons r front ih =>
    have after : c.afterMade = { c with writes := front ++ back } := afterMade_area_write hw (.inl (by simp [left]))
    exact .cons (wants_area_write hw) (after ▸ ih rfl)

/-- All the area writes of a SNAPSHOT. -/
theorem makes_area {e : List Byte} (nonempty : c.writes ≠ []) (hc : c.cond = .executing e (some .snapshot)) :
    Makes c c.writes { c with writes := [], cond := .retiring .done false } := by
  have split := (List.dropLast_append_getLast nonempty).symm
  have last : Makes { c with writes := [c.writes.getLast nonempty] } [c.writes.getLast nonempty]
      { c with writes := [], cond := .retiring .done false } := .single (wants_area_write rfl) (afterMade_last_area_write rfl hc)
  exact split ▸ (makes_area_writes split (List.cons_ne_nil _ _)).append last

theorem makes_status (hw : c.writes = []) {st : Status} (hc : c.cond = .retiring st false) :
    Makes c [statusWrite (c.base.getD 0) c.consumer st] { c with cond := .retiring st true } :=
  .single (wants_status hw hc) (afterMade_status hw hc)

theorem makes_consumer_word (hw : c.writes = []) {st : Status} (hc : c.cond = .retiring st true)
    (level : c.producer = (c.consumer + 1) % 64) : Makes c [consumerWordWrite (c.base.getD 0) ((c.consumer + 1) % 64)]
      { c with cond := .idle, consumer := (c.consumer + 1) % 64 } :=
  .single (wants_consumer_word hw hc) (by rw [afterMade_consumer_word hw hc, if_pos level.symm])

end Unit

/-- The requests of a command unit that carries out a SNAPSHOT with these area writes, until the places run out. -/
theorem request_snapshot {s : State} {e : List Byte} (nonempty : s.command.writes ≠ [])
    (hc : s.command.cond = .executing e (some .snapshot)) (nobody : s.path.waitList = [])
    (length : s.path.injected.length ≤ 16) (level : s.command.producer = (s.command.consumer + 1) % 64) :
    let area := s.command.writes
    let room := 16 - s.path.injected.length
    ∃ p c, request .command s = { s with path := p, command := c } ∧
      p.injected = (s.path.injectAll ((area ++ [statusWrite s.controlBase s.command.consumer .done,
        consumerWordWrite s.controlBase ((s.command.consumer + 1) % 64)]).take room)).injected ∧
      p.pass = s.path.pass ∧
      (p.waitList, c) = if room < area.length then ([.command], { s.command with writes := area.drop room })
        else if room = area.length then ([.command], { s.command with writes := [], cond := .retiring .done false })
        else if room = area.length + 1 then ([.command], { s.command with writes := [], cond := .retiring .done true })
        else ([], { s.command with writes := [], cond := .idle, consumer := (s.command.consumer + 1) % 64 }) := by
  intro area room
  have held {l : List Request} (hl : l.length ≤ room) : Room l.length s := ⟨nobody, by omega⟩
  -- Where the places run out after the requests `l`, the command unit waits.
  have waits {l : List Request} {c : CommandUnit} {w : Request × Purpose} (h : Makes s.command l c) (hl : l.length = room)
      (want : c.wants = some w) :
      request .command s = { s with path := (s.path.injectAll l).joinWait .command, command := c } := by
    have all := pump_makes (n := 16 - l.length + 1) h (held hl.le)
    rw [show 16 - l.length + 1 + l.length = 17 by omega] at all
    exact all.trans (pump_command_waits want (by rw [(injectAll_kept _ l).2.1, nobody]; exact List.not_mem_nil)
      (.inr (by rw [injectAll_length, hl]; omega)))
  have pass (l : List Request) := (injectAll_kept s.path l).1
  have waiting (l : List Request) : ((s.path.injectAll l).joinWait .command).waitList = [.command] := by
    rw [Path.joinWait, (injectAll_kept _ l).2.1, nobody]; rfl
  have all := makes_area nonempty hc
  have status := all.append (makes_status rfl rfl)
  split_ifs with short exact one
  · have front : Makes s.command (area.take room) { s.command with writes := area.drop room } :=
      makes_area_writes (List.take_append_drop room area).symm (by simpa using short)
    obtain ⟨r, more, left⟩ := List.exists_cons_of_ne_nil (show area.drop room ≠ [] by simpa using short)
    refine ⟨_, _, waits front (by rw [List.length_take]; omega) (wants_area_write left), ?_, pass _, ?_⟩
    · rw [List.take_append_of_le_length short.le]; rfl
    · rw [waiting]
  · refine ⟨_, _, waits all exact.symm (wants_status rfl rfl), ?_, pass _, ?_⟩
    · rw [List.take_append_of_le_length exact.le, List.take_of_length_le exact.ge]; rfl
    · rw [waiting]
  · refine ⟨_, _, waits status (by rw [one]; simp [area]) (wants_consumer_word rfl rfl), ?_, pass _, ?_⟩
    · rw [one, List.take_append, List.take_of_length_le (Nat.le_succ _), Nat.add_sub_cancel_left]; rfl
    · rw [waiting]
  · have word := status.append (makes_consumer_word rfl rfl level)
    have fits : (area ++ [statusWrite s.controlBase s.command.consumer .done,
        consumerWordWrite s.controlBase ((s.command.consumer + 1) % 64)]).length ≤ room := by
      simp only [List.length_append, List.length_cons, List.length_nil]; omega
    have made := pump_makes (n := 17 - (area.length + 2)) word (held (by simpa [area] using fits))
    have nothing : CommandUnit.wants { s.command with
        writes := [], cond := .idle, consumer := (s.command.consumer + 1) % 64 } = none := wants_nothing rfl (.inl rfl)
    rw [show 17 - (area.length + 2) + _ = 17 by simp [area] at fits ⊢; omega] at made
    refine ⟨_, _, made.trans (pump_of_wanted_none (by exact nothing)), ?_, pass _, ?_⟩
    · rw [List.take_of_length_le fits, List.append_assoc]; rfl
    · rw [(injectAll_kept _ _).2.1, nobody]

theorem snapshotWrites_ne_nil (s : State) : snapshotWrites s ≠ [] := by
  simp [snapshotWrites, snapshotPlaces, groupPlaces]

/-- Settles O57. -/
theorem snapshotMakesItsAreaWrites : Obligations.SnapshotMakesItsAreaWrites := by
  intro s h nothing nobody length level
  obtain ⟨e, hc, -⟩ := inHand_iff.mp h
  let u : State := { s with
    command := { s.command with cond := .executing e (some .snapshot), writes := snapshotWrites s }
    choice := s.choice + 1 }
  have row : exec .snapshot s = .next (request .command u) := by
    simp only [exec, execSnapshot, h, hold, hc]
    rfl
  obtain ⟨p, c, made, injected, pass, left⟩ := request_snapshot (s := u) (snapshotWrites_ne_nil s) rfl nobody length level
  obtain ⟨-, -, entries, queue, requests, each⟩ := injectAll_kept s.path ((snapshotWrites s ++
    [statusWrite s.controlBase s.command.consumer .done, consumerWordWrite s.controlBase ((s.command.consumer + 1) % 64)]).take
      (16 - s.path.injected.length))
  refine ⟨_, entries, row.trans (congrArg _ made), rfl, injected.trans queue, pass, requests, each, fun e' he' => ?_⟩
  cases hc.symm.trans he'
  exact left.trans (by rw [← nothing])

end Sys2Proof.Machine


/-! ### The report unit (R158 to R162) -/

namespace Sys2Proof.Machine

/-! #### The free count, the mode and the consumer updates (R158, R159) -/

/-- The distance of one ring index ahead of another. -/
theorem ring_distance {n a b : Nat} (ha : a < n) (hb : b < n) : (a + n - b) % n = if b ≤ a then a - b else a + n - b := by
  split_ifs with le
  · rw [show a + n - b = a - b + n by omega, Nat.add_mod_right, Nat.mod_eq_of_lt (by omega)]
  · exact Nat.mod_eq_of_lt (by omega)

section Consumer
variable {r : ReportUnit} {c : ReportSettings}

theorem freeCount_eq (hw : r.writeIndex < c.size) (hc : r.consumer < c.size) : freeCount r c =
    if r.consumer ≤ r.writeIndex then c.size - 1 - (r.writeIndex - r.consumer)
    else c.size - 1 - (r.writeIndex + c.size - r.consumer) := by
  rw [freeCount, ring_distance hw hc]
  split_ifs <;> rfl

theorem freeCount_reaches (hw : r.writeIndex < c.size) (hc : r.consumer < c.size) :
    (r.writeIndex + 1 + freeCount r c) % c.size = r.consumer := by
  rw [freeCount_eq hw hc]
  split_ifs with le
  · rw [show r.writeIndex + 1 + (c.size - 1 - (r.writeIndex - r.consumer)) = r.consumer + c.size by omega, Nat.add_mod_right,
      Nat.mod_eq_of_lt hc]
  · rw [show r.writeIndex + 1 + (c.size - 1 - (r.writeIndex + c.size - r.consumer)) = r.consumer by omega,
      Nat.mod_eq_of_lt hc]

theorem consumerUpdate_none (h : r.settings = none) (v : Nat) : r.consumerUpdate v = r := by
  simp only [ReportUnit.consumerUpdate, h]

/-- Where the consumer copy goes on a consumer update of value `v` (R158). -/
def ReportUnit.updatedConsumer (r : ReportUnit) (c : ReportSettings) (v : Nat) : Nat :=
  if (r.published + c.size - r.consumer) % c.size < (v % c.size + c.size - r.consumer) % c.size then r.published
  else v % c.size

theorem consumerUpdate_some (h : r.settings = some c) (v : Nat) : r.consumerUpdate v = { r with
    consumer := r.updatedConsumer c v
    mode := nextMode r.mode (freeCount { r with consumer := r.updatedConsumer c v } c) c } := by
  simp only [ReportUnit.consumerUpdate, h]
  rfl

end Consumer

/-- Settles O43. -/
theorem consumerUpdateIsClamped : Obligations.ConsumerUpdateIsClamped := by
  refine ⟨fun r v h => consumerUpdate_none h v, fun r c hw hc => ⟨fun le => ?_, fun lt => ?_, ?_, freeCount_reaches hw hc⟩,
    fun c free => ⟨fun h => if_pos h, fun h => if_neg (Nat.not_lt.mpr h), fun h => if_neg (Nat.not_le.mpr h), fun h => if_pos h⟩,
    fun r c v h pos hp hc => ?_⟩
  · rw [freeCount_eq hw hc, if_pos le]
  · rw [freeCount_eq hw hc, if_neg (Nat.not_le.mpr lt)]
  · exact Nat.sub_le ..
  · intro dist r'
    have hr' : r' = _ := consumerUpdate_some h v
    have held : v % c.size < c.size := Nat.mod_lt _ pos
    refine ⟨fun le => ?_, fun lt => ?_, ?_, ?_, ?_⟩
    · rw [hr']; exact if_neg (Nat.not_lt.mpr le)
    · rw [hr']; exact if_pos lt
    · rw [hr']
      show (r.published + c.size - r.updatedConsumer c v) % c.size ≤ (r.published + c.size - r.consumer) % c.size
      unfold ReportUnit.updatedConsumer
      split_ifs with beyond
      · rw [Nat.add_sub_cancel_left, Nat.mod_self]; exact Nat.zero_le _
      · rw [ring_distance hp hc, ring_distance held hc] at beyond
        rw [ring_distance hp held, ring_distance hp hc]
        split_ifs at beyond ⊢ <;> omega
    · rw [hr']; rfl
    · rw [hr']

/-! #### The plan of a job (R160) -/

theorem not_decide_lt (a b : Nat) : (!decide (a < b)) = decide (b ≤ a) := by
  rw [← decide_not]
  exact decide_eq_decide.mpr Nat.not_lt

section Plan
variable {mode : Mode} {c : ReportSettings} {free : Nat} {j : Job}

/-- The defects of a job that CONDENSED leaves. -/
def Job.remaining (j : Job) (mode : Mode) (c : ReportSettings) : List Defect :=
  if mode = .condensed then j.group.filter (fun d => decide (c.condenseGrade ≤ d.grade)) else j.group

/-- The defects of a job that CONDENSED counts. -/
def Job.condensed (j : Job) (mode : Mode) (c : ReportSettings) : Nat :=
  if mode = .condensed then j.group.countP (fun d => decide (d.grade < c.condenseGrade)) else 0

theorem planJob_eq : planJob mode c free j = .billet { j.billet with
      condensed := j.condensed mode c
      dropped := min 65535 (j.billet.dropped + ((j.remaining mode c).length - ((j.remaining mode c).take (free - 1)).length)) } ::
    ((j.remaining mode c).take (free - 1)).map .defect := by
  cases mode with
  | normal => rfl
  | condensed =>
    simp only [planJob, not_decide_lt, Job.remaining, Job.condensed, if_true, List.countP_eq_length_filter]
    rfl

theorem condensed_add_remaining : j.condensed mode c + (j.remaining mode c).length = j.group.length := by
  cases mode with
  | normal => exact Nat.zero_add _
  | condensed =>
    simp only [Job.condensed, Job.remaining, if_true, ← not_decide_lt, ← List.countP_eq_length_filter]
    rw [List.length_eq_countP_add_countP (fun d : Defect => decide (d.grade < c.condenseGrade)) (l := j.group)]
    simp [not_decide_lt]

end Plan

/-- Settles O42. -/
theorem jobPlanAccountsForEveryDefect : Obligations.JobPlanAccountsForEveryDefect := by
  intro mode c free j some remaining written
  have length : written.length = min (free - 1) remaining.length := List.length_take
  have total : j.condensed mode c + remaining.length = j.group.length := condensed_add_remaining
  refine ⟨_, planJob_eq, ?_, fun normal => ?_, fun condensed => ?_, rfl, fun small => ?_, rfl⟩
  · rw [planJob_eq, List.length_cons, List.length_map]
    exact Nat.add_le_of_le_sub some (length ▸ Nat.min_le_left ..)
  · subst normal; rfl
  · subst condensed; rfl
  · show written.length + j.condensed mode c + (min 65535 (j.billet.dropped + (remaining.length - written.length)) -
      j.billet.dropped) = j.group.length
    omega

/-! #### The writes of the writer (R160 to R162) -/

/-- The path with record writes of the run `run` made, one after another, to the slots from `w` on of a ring. -/
def Path.injectRecords (p : Path) (c : ReportSettings) (run w : Nat) : List Rec → Path
  | [] => p
  | x :: xs => (p.inject (recordWrite c.base w x, .record run)).injectRecords c run ((w + 1) % c.size) xs

theorem injectRecords_made (p : Path) (c : ReportSettings) (run w k : Nat) (l : List Rec) : ∃ made,
    p.injectRecords c run ((w + k) % c.size) l = { p with
      injected := p.injected ++ made, nextOrder := p.nextOrder + l.length } ∧
    made.map (fun e => (e.req, e.purpose, e.issue)) = (l.zipIdx k).map fun (x, m) =>
      (recordWrite c.base ((w + m) % c.size) x, .record run, none) := by
  induction l generalizing p k with
  | nil => exact ⟨[], by simp [Path.injectRecords], rfl⟩
  | cons x l ih =>
    obtain ⟨made, path, entries⟩ := ih (p.inject (recordWrite c.base ((w + k) % c.size) x, .record run)) (k + 1)
    refine ⟨⟨recordWrite c.base ((w + k) % c.size) x, .record run, p.nextOrder, none⟩ :: made, ?_, ?_⟩
    · rw [Path.injectRecords, Nat.mod_add_mod, Nat.add_assoc, path]
      simp [Path.inject, Nat.add_assoc, Nat.add_comm 1]
    · rw [List.map_cons, entries]; rfl

/-- With room for them, the pump makes the record writes of `front`. -/
theorem pump_records {n m : Nat} {s : State} {c : ReportSettings} {front back : List Rec} (hs : s.report.settings = some c)
    (hz : s.report.zeros = 0) (hw : s.report.writer = .writing (front ++ back) m) (inside : s.report.writeIndex < c.size)
    (room : Room front.length s) : pump (n + front.length) .report s = pump n .report { s with
      path := s.path.injectRecords c s.report.run s.report.writeIndex front
      report := { s.report with
        writer := .writing back (m + front.length), writeIndex := (s.report.writeIndex + front.length) % c.size } } := by
  induction front generalizing s m with
  | nil =>
    have : { s.report with writer := .writing back m, writeIndex := s.report.writeIndex % c.size } = s.report := by
      rw [Nat.mod_eq_of_lt inside, ← show s.report.writer = .writing back m from hw]
    simp only [List.length_nil, Nat.add_zero, this, Path.injectRecords]
  | cons x front ih =>
    have want : wanted .report s = some _ := wants_record hz hs hw
    have next := ih (s := { s with
      path := s.path.inject (recordWrite c.base s.report.writeIndex x, .record s.report.run)
      report := { s.report with
        writer := .writing (front ++ back) (m + 1), writeIndex := (s.report.writeIndex + 1) % c.size } })
      hs hz rfl (Nat.mod_lt _ (by omega)) (Room.inject (by simpa using room) rfl)
    rw [List.length_cons, ← Nat.add_assoc, pump_of_wanted_some want room.1 (by have := room.2; simp at this; omega)]
    simp only [made, afterMade_record hz hs hw]
    refine next.trans ?_
    rw [Nat.mod_add_mod, Nat.add_assoc, Nat.add_comm 1 front.length, Nat.add_assoc m, Nat.add_comm 1 front.length]
    rfl

section Starts
variable {s : State} {c : ReportSettings} {j : Job} {rest : List Job} (running : s.global = .running)
  (hs : s.report.settings = some c) (idle : s.report.writer = .idle) (hz : s.report.zeros = 0)
include running hs idle hz

theorem exec_jobStart_lost (hj : s.report.jobs = j :: rest) (full : freeCount s.report c = 0) :
    exec .jobStart s = .next { s with report := { s.report with
      jobs := rest, mode := nextMode s.report.mode (freeCount s.report c) c }.loseJob j.billet.strand } := by
  simp only [exec, execJobStart, hs, hj]
  exact (if_pos ⟨running, idle, hz, .inr full⟩).trans (if_pos full)

theorem exec_jobStart_writes (hj : s.report.jobs = j :: rest) (free : 0 < freeCount s.report c) (none : s.report.events = []) :
    exec .jobStart s = .next (request .report { s with report := { s.report with
      jobs := rest
      mode := nextMode s.report.mode (freeCount s.report c) c
      writer := .writing (planJob (nextMode s.report.mode (freeCount s.report c) c) c (freeCount s.report c) j) 0
      run := s.report.run + 1 } }) := by
  simp only [exec, execJobStart, hs, hj]
  exact (if_pos ⟨running, idle, hz, .inl none⟩).trans (if_neg (Nat.ne_of_gt free))

theorem exec_eventRecordStart_writes {e : Event} {events : List Event} (he : s.report.events = e :: events)
    (free : 0 < freeCount s.report c) : exec .eventRecordStart s = .next (request .report { s with report := { s.report with
      events := events, writer := .writing [.event e] 0, run := s.report.run + 1 } }) := by
  simp only [exec, execEventRecordStart, hs, he]
  exact if_pos ⟨running, idle, hz, free⟩

end Starts

/-- A single record is written at once, with room. -/
theorem request_record_once {s : State} {c : ReportSettings} {x : Rec} (hs : s.report.settings = some c)
    (hz : s.report.zeros = 0) (hw : s.report.writer = .writing [x] 0) (room : Room 1 s) : request .report s = { s with
      path := s.path.inject (recordWrite c.base s.report.writeIndex x, .record s.report.run)
      report := { s.report with writer := .writing [] 1, writeIndex := (s.report.writeIndex + 1) % c.size } } := by
  refine request_once (wants_record hz hs hw) room ?_ (wants_none hz (.inr (.inr ⟨1, rfl⟩)))
  simp only [made, afterMade_record hz hs hw]

theorem pump_record_waits {n m : Nat} {s : State} {c : ReportSettings} {x : Rec} {more : List Rec}
    (hs : s.report.settings = some c) (hz : s.report.zeros = 0) (hw : s.report.writer = .writing (x :: more) m)
    (nobody : s.path.waitList = []) (full : 16 ≤ s.path.injected.length) :
    pump (n + 1) .report s = { s with path := { s.path with waitList := [.report] } } := by
  have want : wanted .report s = some _ := wants_record hz hs hw
  rw [pump_of_full want (by rw [nobody]; exact List.not_mem_nil) (.inr full), Path.joinWait, nobody]
  rfl

theorem pump_records_made {n m : Nat} {s : State} (hz : s.report.zeros = 0) (hw : s.report.writer = .writing [] m) :
    pump n .report s = s := pump_of_wanted_none (wants_none hz (.inr (.inr ⟨m, hw⟩)))

/-- The records of a plan that find places are written at once; for the rest the report unit waits. -/
theorem request_records {s : State} {c : ReportSettings} {plan : List Rec} (hs : s.report.settings = some c)
    (hz : s.report.zeros = 0) (hw : s.report.writer = .writing plan 0) (inside : s.report.writeIndex < c.size)
    (nobody : s.path.waitList = []) (length : s.path.injected.length ≤ 16) :
    let n := min plan.length (16 - s.path.injected.length)
    ∃ made, request .report s = { s with
        path := { s.path with
          injected := s.path.injected ++ made
          nextOrder := s.path.nextOrder + n
          waitList := if n < plan.length then [.report] else [] }
        report := { s.report with
          writer := .writing (plan.drop n) n, writeIndex := (s.report.writeIndex + n) % c.size } } ∧
      made.map (fun e => (e.req, e.purpose, e.issue)) = (plan.take n).zipIdx.map fun (x, m) =>
        (recordWrite c.base ((s.report.writeIndex + m) % c.size) x, .record s.report.run, none) := by
  intro n
  have taken : (plan.take n).length = n := List.length_take.trans (Nat.min_eq_left (Nat.min_le_left ..))
  obtain ⟨made, path, entries⟩ := injectRecords_made s.path c s.report.run s.report.writeIndex 0 (plan.take n)
  rw [Nat.add_zero, Nat.mod_eq_of_lt inside, taken] at path
  refine ⟨made, ?_, entries⟩
  have front := pump_records (n := 16 - n + 1) (front := plan.take n) (back := plan.drop n) hs hz
    (by rw [List.take_append_drop]; exact hw) inside ⟨nobody, by omega⟩
  rw [taken, show 16 - n + 1 + n = 17 by omega, path, Nat.zero_add] at front
  refine front.trans ?_
  split_ifs with left
  · obtain ⟨x, more, back⟩ := List.exists_cons_of_ne_nil (show plan.drop n ≠ [] by simpa using left)
    have count : made.length = n := by simpa [taken] using congrArg List.length entries
    exact pump_record_waits hs hz (congrArg (Writer.writing · n) back) nobody
      (by simp only [List.length_append, count]; omega)
  · have back : plan.drop n = [] := List.drop_of_length_le (Nat.not_lt.mp left)
    refine (pump_records_made (by exact hz) (congrArg (Writer.writing · n) back)).trans ?_
    simp only [nobody]

/-! #### The record layouts (12.1, 12.5) -/

theorem flagByte_cons (b : Bool) (l : List Bool) : flagByte (b :: l) = b.toNat + 2 * flagByte l := by
  cases b <;> rfl

theorem flagByte_nil : flagByte [] = 0 := rfl

theorem coverBytes_fields (e : CoverEntry) : HoldsFields (coverBytes e) [(0, 1, e.lane.val), (1, 1, e.approx.toNat),
    (2, 2, e.perMille)] := by
  simp [HoldsFields, coverBytes, flagByte_cons, flagByte_nil, le_one]

theorem billetBytes_fields (b : BilletRecord) : HoldsFields (billetBytes b) [(0, 1, 1), (1, 1, b.strand.val), (2, 1, b.verdict.code),
    (3, 1, b.maxGrade), (4, 1, b.partialHead.toNat + 2 * b.test.toNat + 4 * b.approx.toNat), (5, 1, b.coverage.length),
    (6, 2, 0), (8, 4, b.serial), (12, 4, b.length), (16, 5, b.start), (21, 5, b.stop), (26, 6, b.time),
    (32, 1, b.corner), (33, 1, b.longitudinal), (34, 1, b.transverse), (35, 1, b.mesh), (36, 2, b.osc),
    (38, 2, b.noise), (40, 2, b.dropped), (42, 2, b.condensed), (44, 4, 0)] := by
  have flags : flagByte [b.partialHead, b.test, b.approx] = b.partialHead.toNat + 2 * b.test.toNat + 4 * b.approx.toNat := by
    simp only [flagByte_cons, flagByte_nil]; omega
  have one : byteOf 1 = 1 := rfl
  have zeros : zeroBytes 2 = [0, 0] := rfl
  simp only [HoldsFields, billetBytes, flags]
  generalize (b.coverage.flatMap coverBytes ++ zeroBytes 16).take 16 = cover
  simp [one, zeros, le_one, le_zero_value, List.drop_append, List.take_append,
    List.drop_of_length_le]

theorem defectBytes_fields (d : Defect) : HoldsFields (defectBytes d) [(0, 1, 2), (1, 1, d.lane.val), (2, 1, d.strand.val),
    (3, 1, d.cls.code), (4, 1, d.grade), (5, 1, d.zone), (6, 1, d.reason.code), (7, 1, d.mark.code), (8, 4, d.serial),
    (12, 4, d.length), (16, 5, d.start), (21, 5, d.stop), (26, 6, d.time), (32, 4, d.width), (36, 2, d.colMin),
    (38, 2, d.colMax), (40, 2, d.lines), (42, 1, d.peak), (43, 1, d.merged), (44, 3, d.sum),
    (47, 1, d.splitHead.toNat + 2 * d.splitTail.toNat + 4 * d.straddle.toNat + 8 * d.test.toNat +
      16 * (decide (0 < d.merged)).toNat), (48, 16, 0)] := by
  have flags : flagByte [d.splitHead, d.splitTail, d.straddle, d.test, decide (1 ≤ d.merged)] = d.splitHead.toNat +
      2 * d.splitTail.toNat + 4 * d.straddle.toNat + 8 * d.test.toNat + 16 * (decide (0 < d.merged)).toNat := by
    simp only [flagByte_cons, flagByte_nil, Nat.succ_le_iff]; omega
  have two : byteOf 2 = 2 := rfl
  simp [HoldsFields, defectBytes, flags, two, le_one, le_zero_value, List.drop_append, List.take_append,
    List.drop_of_length_le]

section Coverage
variable {b : BilletRecord} {n : Nat}

/-- The coverage entries of a billet record stand from byte 48 on. -/
theorem billetBytes_coverage (b : BilletRecord) {x len : Nat} (h : x + len ≤ 16) : ((billetBytes b).drop (48 + x)).take len =
    ((b.coverage.flatMap coverBytes ++ zeroBytes 16).drop x).take len := by
  obtain ⟨front, length, split⟩ : ∃ front : List Byte, front.length = 48 ∧
      billetBytes b = front ++ (b.coverage.flatMap coverBytes ++ zeroBytes 16).take 16 ++ [] :=
    ⟨_, by simp, (List.append_nil _).symm⟩
  rw [split, ← length, drop_take_middle _ _ _ _ _ (by simpa using h), List.drop_take, List.take_take, Nat.min_eq_left (by omega)]

theorem billetBytes_entry {e : CoverEntry} (hn : n < 4) (he : b.coverage[n]? = some e) {o len : Nat} (h : o + len ≤ 4) :
    ((billetBytes b).drop (48 + (4 * n + o))).take len = ((coverBytes e).drop o).take len := by
  have held : n < b.coverage.length := (List.getElem?_eq_some_iff.mp he).1
  have length : (b.coverage.flatMap coverBytes).length = 4 * b.coverage.length := by simp [coverBytes_length, Nat.mul_comm]
  rw [billetBytes_coverage b (by omega), List.drop_append_of_le_length (by omega),
    List.take_append_of_le_length (by rw [List.length_drop]; omega)]
  exact drop_take_section coverBytes 4 coverBytes_length b.coverage n e he o len h

theorem billetBytes_no_entry (hn : n < 4) (he : b.coverage[n]? = none) :
    ((billetBytes b).drop (48 + 4 * n)).take 4 = zeroBytes 4 := by
  have beyond : b.coverage.length ≤ n := List.getElem?_eq_none_iff.mp he
  have length : (b.coverage.flatMap coverBytes).length = 4 * b.coverage.length := by simp [coverBytes_length, Nat.mul_comm]
  rw [billetBytes_coverage b (by omega), List.drop_append, List.drop_of_length_le (by omega), List.nil_append, length, zeroBytes,
    List.drop_replicate, List.take_replicate, Nat.min_eq_left (by omega)]
  rfl

end Coverage

/-- The head of an event record, and its contents behind it. -/
theorem eventBytes_fields {e : Event} {kind lane strand time : Nat} {fields : List (Nat × Nat × Nat)} (hk : e.kindCode = kind)
    (hl : eventLane e = byteOf lane) (hs : eventStrand e = byteOf strand) (ht : eventTime e = time)
    (h : HoldsFields (eventContents e) fields) (inside : ∀ x ∈ fields, x.1 + x.2.1 ≤ 48) :
    HoldsFields (eventBytes e) ([(0, 1, 3), (1, 1, kind), (2, 1, lane), (3, 1, strand), (4, 6, time), (10, 6, 0)] ++
      fields.map fun x => (16 + x.1, x.2)) := by
  have three : byteOf 3 = 3 := rfl
  refine HoldsFields.append ?_ ?_
  · simp [HoldsFields, eventBytes, hk, hl, hs, ht, three, le_one, le_zero_value, List.drop_append, List.take_append]
  · have contents := h.within (by rw [eventContents_length]; exact inside)
      ([3, byteOf e.kindCode, eventLane e, eventStrand e] ++ le 6 (eventTime e) ++ zeroBytes 6) []
    rw [List.append_nil] at contents
    simpa [eventBytes] using contents

/-- Settles O41. -/
theorem writerStartsEventsThenJobs : Obligations.WriterStartsEventsThenJobs := by
  refine ⟨fun s c j rest running hs hj idle hz => ⟨fun full none => ?lost, fun free none empty room => ?one,
      fun free none nobody length inside => ?plan⟩,
    fun s c x rest n hs hz hw => ⟨wants_record hz hs hw, ?made⟩,
    fun s c e rest running hs he idle hz => ⟨fun full => ?waits, fun free room => ?event, fun free => ?after⟩,
    fun base n x => ⟨rfl, recBytes_length x⟩, ⟨rfl, rfl, rfl, rfl, rfl⟩,
    fun b => ⟨billetBytes_fields b, fun n hn => ⟨fun e he => ?entry, fun he => ?noEntry⟩⟩, defectBytes_fields,
    fun i k bound old new cause x y z time => ⟨?laneState, ?lineSlip, ?cutRefused, ?reverseTravel⟩⟩
  case lost =>
    rw [exec_jobStart_lost running hs idle hz hj full, ReportUnit.loseJob, ReportUnit.raise_first (by exact none)]
    rfl
  case one =>
    have plan (mode : Mode) : planJob mode c (freeCount s.report c) j =
        [.billet { j.billet with condensed := 0, dropped := min 65535 j.billet.dropped }] := by
      rw [planJob_eq]
      cases mode <;> simp [Job.remaining, Job.condensed, empty]
    rw [exec_jobStart_writes running hs idle hz hj free none, plan,
      request_record_once (by exact hs) (by exact hz) rfl (by exact room)]
  case plan =>
    intro plan n
    obtain ⟨made, written, entries⟩ := request_records (s := { s with report := { s.report with
      jobs := rest
      mode := nextMode s.report.mode (freeCount s.report c) c
      writer := .writing plan 0
      run := s.report.run + 1 } }) hs hz rfl inside nobody length
    exact ⟨_, made, (exec_jobStart_writes running hs idle hz hj free none).trans (congrArg _ written), rfl, entries, rfl⟩
  case made => simp only [made, afterMade_record hz hs hw]
  case waits =>
    simp only [exec, execEventRecordStart, hs, he]
    exact if_neg fun ⟨_, _, _, free⟩ => absurd full (Nat.ne_of_gt free)
  case event =>
    rw [exec_eventRecordStart_writes running hs idle hz he free,
      request_record_once (by exact hs) (by exact hz) rfl (by exact room)]
  case after =>
    cases hj : s.report.jobs with
    | nil => simp only [exec, execJobStart, hs, hj]
    | cons j jobs =>
      simp only [exec, execJobStart, hs, hj]
      exact if_neg fun ⟨_, _, _, written⟩ => written.elim (by simp [he]) (Nat.ne_of_gt free)
  case entry =>
    have field {o len v : Nat} (h : o + len ≤ 4) (hv : ((coverBytes e).drop o).take len = le len v) :
        ((billetBytes b).drop (48 + (4 * n + o))).take len = le len v := (billetBytes_entry hn he h).trans hv
    have fields := coverBytes_fields e
    simp only [HoldsFields, List.forall_mem_cons, List.not_mem_nil, false_implies, implies_true, and_true] at fields ⊢
    obtain ⟨lane, approx, perMille⟩ := fields
    exact ⟨field (by omega) lane, by simpa [recBytes, ← Nat.add_assoc, Nat.add_right_comm] using field (by omega) approx,
      by simpa [recBytes, ← Nat.add_assoc, Nat.add_right_comm] using field (by omega) perMille⟩
  case noEntry =>
    simp only [HoldsFields, List.forall_mem_cons, List.not_mem_nil, false_implies, implies_true, and_true]
    exact (billetBytes_no_entry hn he).trans (le_zero_value 4).symm
  case laneState =>
    refine eventBytes_fields (fields := [(0, 1, _), (1, 1, _), (2, 1, _), (3, 1, 0), (4, 4, _), (8, 40, 0)]) rfl rfl ?_ rfl ?_ (by simp)
    · cases bound <;> rfl
    · have zero : zeroBytes 1 = [0] := rfl
      simp [HoldsFields, eventContents, zero, le_one, le_zero_value, List.drop_append, List.take_append]
  case lineSlip =>
    refine eventBytes_fields (fields := [(0, 2, _), (2, 2, 0), (4, 4, _), (8, 5, _), (13, 35, 0)]) rfl rfl rfl rfl ?_ (by simp)
    simp [HoldsFields, eventContents, le_zero_value, List.drop_append, List.take_append, List.drop_of_length_le]
  case cutRefused =>
    refine eventBytes_fields (fields := [(0, 5, _), (5, 3, 0), (8, 4, _), (12, 4, 0), (16, 5, _), (21, 27, 0)]) rfl rfl rfl rfl ?_ (by simp)
    simp [HoldsFields, eventContents, le_zero_value, List.drop_append, List.take_append, List.drop_of_length_le]
  case reverseTravel =>
    refine eventBytes_fields (fields := [(0, 5, _), (5, 3, 0), (8, 2, _), (10, 38, 0)]) rfl rfl rfl rfl ?_ (by simp)
    simp [HoldsFields, eventContents, le_zero_value, List.drop_append, List.take_append, List.drop_of_length_le]

end Sys2Proof.Machine


/-! ### Tap orders, pattern, coverage, the pending list (R15, R29, R108 to R118) -/

namespace Sys2Proof.Machine

/-! #### The tap orders (R15) -/

/-- Settles O32. -/
theorem tapOrdersAreOneToOne : Obligations.TapOrdersAreOneToOne := by
  refine ⟨fun w p => ⟨rfl, fun low => if_pos low, fun high => if_neg (Nat.not_lt.mpr high), ?_, ?_⟩, fun tap w p even inside => ?_⟩
  · rw [tapColumn, if_pos (by omega), Nat.mul_div_cancel_left _ (by decide)]
  · rw [tapColumn, if_neg (by omega), Nat.add_sub_cancel, Nat.mul_div_cancel_left _ (by decide)]
  cases tap with
  | linear => exact ⟨inside, rfl, inside, rfl⟩
  | mirrored =>
    by_cases low : p < w / 2
    · simp only [tapColumn, tapPosition, if_pos low]
      exact ⟨inside, trivial, inside, trivial⟩
    · have column : ¬ w - 1 - (p - w / 2) < w / 2 := by omega
      have position : ¬ w / 2 + (w - 1 - p) < w / 2 := by omega
      simp only [tapColumn, tapPosition, if_neg low, if_neg column, if_neg position]
      omega
  | interleaved =>
    refine ⟨?_, ?_, ?_, ?_⟩
    · simp only [tapColumn]; split_ifs <;> omega
    · by_cases parity : p % 2 = 0
      · simp only [tapColumn, tapPosition, if_pos parity, if_pos (show p / 2 < w / 2 by omega)]; omega
      · simp only [tapColumn, tapPosition, if_neg parity, if_neg (show ¬ w / 2 + (p - 1) / 2 < w / 2 by omega)]; omega
    · simp only [tapPosition]; split_ifs <;> omega
    · by_cases low : p < w / 2
      · simp only [tapColumn, tapPosition, if_pos low, if_pos (Nat.mul_mod_right 2 p)]; omega
      · simp only [tapColumn, tapPosition, if_neg low, if_neg (show ¬ (2 * (p - w / 2) + 1) % 2 = 0 by omega)]; omega

/-! #### The TEST pattern (R29) -/

section Pattern
variable {g : Geometry} {t : TestParams} {phase : Nat}

theorem substituteBeat_length (data : List Byte) (b : RingBeat) : (substituteBeat g t phase data b).length = data.length :=
  List.length_mapIdx

theorem substituteBeat_hit {data : List Byte} {b : RingBeat} {j : Nat} (hj : j < data.length) (pos : b.pos = j / 32)
    (enabled : b.enables.getLsbD (j % 32) = true) :
    (substituteBeat g t phase data b)[j]? = some (patternByte g t phase (32 * b.index + j % 32)) := by
  simp [substituteBeat, hj, pos, enabled]

theorem substituteBeat_miss {data : List Byte} {b : RingBeat} {j : Nat}
    (h : b.pos = j / 32 → b.enables.getLsbD (j % 32) = false) : (substituteBeat g t phase data b)[j]? = data[j]? := by
  have miss : ¬ (j / 32 = b.pos ∧ b.enables.getLsbD (j % 32) = true) := fun ⟨pos, enabled⟩ => by simp [h pos.symm] at enabled
  simp [substituteBeat, miss]

theorem substituteBeats_length (beats : List RingBeat) (data : List Byte) :
    (beats.foldl (substituteBeat g t phase) data).length = data.length :=
  List.foldlRecOn (motive := fun d : List Byte => d.length = data.length) beats _ rfl fun _ hd b _ => (substituteBeat_length _ b).trans hd

theorem substituteBeats_miss {beats : List RingBeat} {data : List Byte} {j : Nat}
    (h : ∀ b ∈ beats, b.pos = j / 32 → b.enables.getLsbD (j % 32) = false) :
    (beats.foldl (substituteBeat g t phase) data)[j]? = data[j]? :=
  List.foldlRecOn (motive := fun d : List Byte => d[j]? = data[j]?) beats _ rfl fun _ hd b hb => (substituteBeat_miss (h b hb)).trans hd

theorem substituteBeats_hit {beats : List RingBeat} {data : List Byte} {b : RingBeat} {j : Nat}
    (once : (beats.map (·.pos)).Nodup) (hj : j < data.length) (hb : b ∈ beats) (pos : b.pos = j / 32)
    (enabled : b.enables.getLsbD (j % 32) = true) :
    (beats.foldl (substituteBeat g t phase) data)[j]? = some (patternByte g t phase (32 * b.index + j % 32)) := by
  induction beats generalizing data with
  | nil => cases hb
  | cons a beats ih =>
    obtain ⟨fresh, once⟩ := List.nodup_cons.mp once
    rcases List.mem_cons.mp hb with rfl | hb
    · rw [List.foldl_cons, substituteBeats_miss (fun c hc same => absurd (List.mem_map.mpr ⟨c, hc, same.trans pos.symm⟩) fresh)]
      exact substituteBeat_hit hj pos enabled
    · exact ih once (by rw [substituteBeat_length]; exact hj) hb

theorem substitute_test {l : Lane} (h : l.control.state = .test) (ht : l.control.test = some t) (beats : List RingBeat)
    (data : List Byte) : substitute l g beats data = beats.foldl (substituteBeat g t l.capture.phase) data := by
  simp only [substitute, h, ht]

theorem substitute_other {l : Lane} (h : l.control.state ≠ .test) (beats : List RingBeat) (data : List Byte) :
    substitute l g beats data = data := by
  unfold substitute
  split
  · exact absurd ‹_› h
  · rfl

end Pattern

/-- Settles O34. -/
theorem substitutionTouchesEnabledBytesOnly : Obligations.SubstitutionTouchesEnabledBytesOnly := by
  refine ⟨fun g t phase p => ⟨?low, ?high⟩, fun l g beats data once => ⟨?length, fun h => substitute_other h beats data,
    fun t j h ht hj => ⟨fun b hb pos enabled => ?hit, fun miss => ?miss⟩⟩⟩
  case low =>
    simp only [patternByte, Nat.mul_div_cancel_left p (by decide : 0 < 2), Nat.mul_mod_right, if_true]
    rfl
  case high =>
    simp only [patternByte, show (2 * p + 1) / 2 = p by omega, if_neg (show ¬ (2 * p + 1) % 2 = 0 by omega)]
    rfl
  case length =>
    simp only [substitute]
    split
    · exact substituteBeats_length beats data
    · rfl
  case hit => rw [substitute_test h ht, substituteBeats_hit once hj hb pos enabled]
  case miss => rw [substitute_test h ht, substituteBeats_miss miss]

/-! #### The pending list (R108, R109) -/

theorem lowestGrade_le {l : List Defect} {x : Defect} (hx : x ∈ l) : lowestGrade l ≤ x.grade := by
  induction l with
  | nil => cases hx
  | cons d l ih =>
    cases l with
    | nil => rw [List.mem_singleton.mp hx]; exact Nat.le_refl _
    | cons e l =>
      rcases List.mem_cons.mp hx with rfl | hx
      · exact Nat.min_le_left ..
      · exact (Nat.min_le_right ..).trans (ih hx)

theorem Defect.keyLt_irrefl (d : Defect) : ¬ d.keyLt d = true := by rw [keyLt_iff]; omega

/-- The record that a full list loses: of its grade the one with the greatest key. -/
theorem dropLastOfGrade_spec {g : Nat} {l : List Defect} (h : ∃ d ∈ l, d.grade = g)
    (asc : l.Pairwise fun a b => a.keyLt b = true) : ∃ x ∈ l, x.grade = g ∧
      (∀ y ∈ l, y.grade = g → y = x ∨ y.keyLt x = true) ∧ ∀ y, y ∈ dropLastOfGrade g l ↔ y ∈ l ∧ y ≠ x := by
  induction l with
  | nil => simp at h
  | cons d l ih =>
    obtain ⟨first, asc⟩ := List.pairwise_cons.mp asc
    have fresh : d ∉ l := fun hd => d.keyLt_irrefl (first d hd)
    simp only [dropLastOfGrade]
    split
    · next last =>
      obtain ⟨grade, none⟩ := last
      refine ⟨d, List.mem_cons_self, grade, fun y hy same => ?_, fun y => ⟨fun hy => ⟨List.mem_cons_of_mem _ hy, ?_⟩, ?_⟩⟩
      · rcases List.mem_cons.mp hy with rfl | hy
        · exact .inl rfl
        · exact absurd (List.any_eq_true.mpr ⟨y, hy, by simpa using same⟩) none
      · rintro rfl; exact fresh hy
      · rintro ⟨hy, other⟩; exact (List.mem_cons.mp hy).resolve_left other
    · next other =>
      have later : ∃ x ∈ l, x.grade = g := by
        obtain ⟨x, hx, grade⟩ := h
        rcases List.mem_cons.mp hx with rfl | hx
        · by_contra none
          exact other ⟨grade, fun some => by
            obtain ⟨y, hy, same⟩ := List.any_eq_true.mp some
            exact none ⟨y, hy, by simpa using same⟩⟩
        · exact ⟨x, hx, grade⟩
      obtain ⟨x, hx, grade, greatest, mem⟩ := ih later asc
      refine ⟨x, List.mem_cons_of_mem _ hx, grade, fun y hy same => ?_, fun y => ?_⟩
      · rcases List.mem_cons.mp hy with rfl | hy
        · exact .inr (first x hx)
        · exact greatest y hy same
      · rw [List.mem_cons, mem, List.mem_cons]
        constructor
        · rintro (rfl | ⟨hy, ne⟩)
          · exact ⟨.inl rfl, fun e => fresh (e ▸ hx)⟩
          · exact ⟨.inr hy, ne⟩
        · rintro ⟨rfl | hy, ne⟩
          · exact .inl rfl
          · exact .inr ⟨hy, ne⟩

section Waiting
variable {d : Defect} {l : List Defect}

theorem insertWaiting_held (h : ∃ x ∈ l, x.sameKey d = true) : insertWaiting d l = (l, true) :=
  if_pos (List.any_eq_true.mpr h)

theorem insertWaiting_room (h : ∀ x ∈ l, x.sameKey d = false) (room : l.length < 64) :
    insertWaiting d l = (insertByKey d l, false) :=
  (if_neg (by simpa using h)).trans (if_pos room)

theorem insertWaiting_refused (h : ∀ x ∈ l, x.sameKey d = false) (full : l.length = 64) (low : ∀ x ∈ l, d.grade ≤ x.grade) :
    insertWaiting d l = (l, true) := by
  obtain ⟨x, hx, grade⟩ := lowestGrade_mem (l := l) (by rintro rfl; simp at full)
  exact (if_neg (by simpa using h)).trans ((if_neg (by omega)).trans (if_neg (Nat.not_lt.mpr (grade ▸ low x hx))))

theorem insertWaiting_displaces (h : ∀ x ∈ l, x.sameKey d = false) (full : l.length = 64) (high : ∃ x ∈ l, x.grade < d.grade) :
    insertWaiting d l = (insertByKey d (dropLastOfGrade (lowestGrade l) l), true) := by
  obtain ⟨x, hx, lt⟩ := high
  exact (if_neg (by simpa using h)).trans ((if_neg (by omega)).trans (if_pos ((lowestGrade_le hx).trans_lt lt)))

end Waiting

/-- Settles O40. -/
theorem pendingListAdmitsByGrade : Obligations.PendingListAdmitsByGrade := by
  refine ⟨fun a b => ⟨Defect.keyLt_iff, Defect.sameKey_iff⟩, fun d l asc size => ⟨insertWaiting_pairwise asc,
    insertWaiting_length size, insertWaiting_held, fun fresh room => ?room, insertWaiting_refused,
    fun fresh full high => ?displaces⟩⟩
  case room =>
    rw [insertWaiting_room fresh room]
    exact ⟨rfl, insertByKey_length d l, fun x => mem_insertByKey⟩
  case displaces =>
    have some := lowestGrade_mem (l := l) (by rintro rfl; simp at full)
    obtain ⟨x, hx, grade, greatest, mem⟩ := dropLastOfGrade_spec some asc
    have length := dropLastOfGrade_length some
    rw [insertWaiting_displaces fresh full high]
    refine ⟨rfl, by rw [insertByKey_length]; omega, x, hx, fun y hy => grade ▸ lowestGrade_le hy, fun y hy same =>
      greatest y hy (same.trans grade), fun y => by rw [mem_insertByKey, mem]⟩

/-! #### Coverage runs (R111, R112, R117) -/

section AddRun
variable {c span : Nat} {l : List Run} {e : Run}

theorem addRun_extends (h : c ≤ e.stop) : addRun c span (l ++ [e]) = l ++ [{ e with stop := max e.stop (c + span) }] := by
  simp [addRun, h]

theorem addRun_new (h : e.stop < c) (room : l.length < 15) : addRun c span (l ++ [e]) = l ++ [e, ⟨c, c + span, false⟩] := by
  simp only [addRun, List.getLast?_append, List.getLast?_singleton, Option.some_or, if_neg (Nat.not_le.mpr h)]
  have few : ¬ 16 ≤ (l ++ [e]).length := by rw [List.length_append, List.length_singleton]; omega
  split
  · next whole =>
    rw [if_neg few]
    simp
  · simp

theorem addRun_merges {x y : Run} (h : e.stop < c) (full : l.length = 13) :
    addRun c span (x :: y :: l ++ [e]) = ⟨x.start, y.stop, true⟩ :: l ++ [e, ⟨c, c + span, false⟩] := by
  simp [addRun, List.getLast?_append, List.getLast?_cons, h, full]

theorem RunsDisjoint.snoc (h : RunsDisjoint l) (he : e.start < e.stop) (after : ∀ r ∈ l, r.stop ≤ e.start) :
    RunsDisjoint (l ++ [e]) where
  apart := List.pairwise_append.mpr ⟨h.apart, List.pairwise_singleton .., fun a ha b hb => by
    rw [List.mem_singleton.mp hb]; exact after a ha⟩
  filled r hr := by
    rcases List.mem_append.mp hr with hr | hr
    · exact h.filled r hr
    · rw [List.mem_singleton.mp hr]; exact he

theorem runsDisjoint_snoc_iff : RunsDisjoint (l ++ [e]) ↔ RunsDisjoint l ∧ e.start < e.stop ∧ ∀ r ∈ l, r.stop ≤ e.start := by
  constructor
  · intro h
    obtain ⟨apart, -, after⟩ := List.pairwise_append.mp h.apart
    exact ⟨⟨apart, fun r hr => h.filled r (List.mem_append_left _ hr)⟩, h.filled e (by simp),
      fun r hr => after r hr e List.mem_cons_self⟩
  · exact fun ⟨h, he, after⟩ => h.snoc he after

theorem runsDisjoint_cons_iff : RunsDisjoint (e :: l) ↔ RunsDisjoint l ∧ e.start < e.stop ∧ ∀ r ∈ l, e.stop ≤ r.start := by
  constructor
  · intro h
    obtain ⟨first, apart⟩ := List.pairwise_cons.mp h.apart
    exact ⟨⟨apart, fun r hr => h.filled r (List.mem_cons_of_mem _ hr)⟩, h.filled e List.mem_cons_self, first⟩
  · intro ⟨h, he, first⟩
    exact ⟨List.pairwise_cons.mpr ⟨first, h.apart⟩, List.forall_mem_cons.mpr ⟨he, h.filled⟩⟩

/-- A new run stands behind the runs of an ascending list whose newest ends below it. -/
theorem RunsDisjoint.extended (h : RunsDisjoint (l ++ [e])) (lt : e.stop < c) (pos : 1 ≤ span) :
    RunsDisjoint (l ++ [e, ⟨c, c + span, false⟩]) := by
  obtain ⟨-, he, after⟩ := runsDisjoint_snoc_iff.mp h
  rw [show l ++ [e, ⟨c, c + span, false⟩] = (l ++ [e]) ++ [⟨c, c + span, false⟩] by simp]
  refine h.snoc (by simp; omega) fun r hr => ?_
  rcases List.mem_append.mp hr with hr | hr
  · have := after r hr
    simp only; omega
  · rw [List.mem_singleton.mp hr]; exact lt.le

/-- Merging the two oldest runs keeps a list ascending and disjoint. -/
theorem RunsDisjoint.merged {x y : Run} (h : RunsDisjoint (x :: y :: l)) : RunsDisjoint (⟨x.start, y.stop, true⟩ :: l) := by
  obtain ⟨hy, hx, first⟩ := runsDisjoint_cons_iff.mp h
  obtain ⟨hl, filled, second⟩ := runsDisjoint_cons_iff.mp hy
  have := first y List.mem_cons_self
  exact runsDisjoint_cons_iff.mpr ⟨hl, by simp only; omega, second⟩

theorem RunsDisjoint.addRun {runs : List Run} (h : RunsDisjoint runs) (pos : 1 ≤ span) (size : runs.length ≤ 16) :
    RunsDisjoint (addRun c span runs) := by
  rcases List.eq_nil_or_concat runs with rfl | ⟨l, e, rfl⟩
  · exact ⟨List.pairwise_singleton .., fun r hr => by rw [List.mem_singleton.mp hr]; simp only; omega⟩
  rw [List.concat_eq_append] at h size ⊢
  obtain ⟨hl, he, after⟩ := runsDisjoint_snoc_iff.mp h
  by_cases touches : c ≤ e.stop
  · rw [addRun_extends touches]
    exact hl.snoc (by simp only; omega) after
  have lt := Nat.not_le.mp touches
  by_cases room : l.length < 15
  · rw [addRun_new lt room]
    exact h.extended lt pos
  rw [List.length_append, List.length_singleton] at size
  match l, room, size with
  | x :: y :: l, room, size =>
    simp only [List.length_cons] at room size
    rw [addRun_merges lt (by omega)]
    exact RunsDisjoint.merged (h.extended lt pos)
  | [_], room, _ | [], room, _ => simp at room

end AddRun

/-- How many coordinates of [a, a + m) lie in [lo, hi). -/
theorem countP_range_within (a m lo hi : Nat) : (List.range m).countP (fun n => decide (lo ≤ a + n) && decide (a + n < hi)) =
    min hi (a + m) - max lo a := by
  induction m with
  | zero => simp
  | succ m ih =>
    rw [List.range_succ, List.countP_append, ih, List.countP_singleton]
    simp only [Bool.and_eq_true, decide_eq_true_eq]
    split_ifs with inside <;> omega

theorem covers_eq_countP (r : Run) (a b : Nat) : r.covers a b =
    (List.range (b - a)).countP fun n => decide (r.start ≤ a + n) && decide (a + n < r.stop) := by
  rw [countP_range_within, Run.covers]
  omega

theorem covers_pos_iff {r : Run} {a b : Nat} : 0 < r.covers a b ↔ ∃ x, r.start ≤ x ∧ x < r.stop ∧ a ≤ x ∧ x < b := by
  rw [Run.covers]
  exact ⟨fun h => ⟨max r.start a, by omega⟩, fun ⟨x, h⟩ => by omega⟩

/-- Disjoint runs cover no coordinate twice. -/
theorem sum_covers_le {runs : List Run} {a b lo : Nat} (h : RunsDisjoint runs) (from' : ∀ r ∈ runs, lo ≤ r.start) (le : a ≤ b) :
    (runs.map fun r => r.covers a b).sum ≤ b - max a lo := by
  induction runs generalizing lo with
  | nil => simp
  | cons r runs ih =>
    obtain ⟨rest, filled, first⟩ := runsDisjoint_cons_iff.mp h
    have := ih rest first
    have := from' r List.mem_cons_self
    rw [List.map_cons, List.sum_cons, Run.covers]
    omega

/-- Settles O38. -/
theorem coverageRunsStayDisjoint : Obligations.CoverageRunsStayDisjoint := by
  refine ⟨fun c span runs pos h size => ⟨h.addRun pos size, addRun_length size⟩, fun c span => ⟨rfl, fun l e => addRun_extends,
    fun l e => addRun_new, fun x y l e => addRun_merges⟩, fun i runs a b => ⟨fun r => covers_eq_countP r a b, rfl, ?approx⟩,
    fun i runs a b lt h => ?figure⟩
  case approx =>
    simp only [coverageOf, List.any_eq_true, Bool.and_eq_true, decide_eq_true_eq, covers_pos_iff]
  case figure =>
    have sum := sum_covers_le h (a := a) (b := b) (lo := 0) (fun _ _ => Nat.zero_le _) lt.le
    rw [Nat.max_zero] at sum
    exact ⟨sum, Nat.min_eq_right (Nat.div_le_of_le_mul (by rw [Nat.mul_comm]; exact Nat.mul_le_mul_right _ sum))⟩

/-! #### Grading (R90 to R101) -/

theorem gradeOf_eq {c : Classify} (cls : Class) (length peak : Nat) (h : c.g1 < c.g2) (h' : c.g2 < c.g3) :
    gradeOf c cls length peak = min 3
      ((if peak < c.g1 then 0 else if peak < c.g2 then 1 else if peak < c.g3 then 2 else 3) +
        (if c.longLen ≤ length then 1 else 0) + (if cls = .corner then 1 else 0)) := by
  have base : (if c.g1 ≤ peak then 1 else 0) + (if c.g2 ≤ peak then 1 else 0) + (if c.g3 ≤ peak then 1 else 0) =
      if peak < c.g1 then 0 else if peak < c.g2 then 1 else if peak < c.g3 then 2 else 3 := by
    split_ifs <;> omega
  rw [gradeOf, base]

theorem isOscillation_iff {c : Classify} {m : Measure} {cls : Class} {peak : Nat} : isOscillation c m cls peak = true ↔
    cls = .transverse ∧ c.oscSpanPct * m.zoneWidth ≤ m.width * 100 ∧ peak ≤ c.oscPeakMax := by
  simp [isOscillation, and_assoc]

section Offer
variable {k : Fin 6} {d : Defect} {s : State} {c : MarkSettings}

theorem offerIfGraded_unset (h : (s.strand k).marker.settings = none) : offerIfGraded k d s = (d, s) := by
  simp only [offerIfGraded, h]

theorem offerIfGraded_low (h : (s.strand k).marker.settings = some c) (low : d.grade < c.grade) :
    offerIfGraded k d s = (d, s) := by
  simp only [offerIfGraded, h, if_neg (Nat.not_le.mpr low)]

theorem offerIfGraded_offers (h : (s.strand k).marker.settings = some c) (graded : c.grade ≤ d.grade) :
    offerIfGraded k d s = ({ d with mark := (offerMark k c d s).1 }, (offerMark k c d s).2) := by
  simp only [offerIfGraded, h, if_pos graded]

end Offer

section Graded
variable {i : Fin 12} {n : Nat} {reason : CloseReason} {head : Bool} {t : Track} {s : State} {g : Geometry} {m : Measure}
  (hg : (s.lane i).control.geometry = some g)
  (hm : measure g ((s.lane i).control.zones.getD []) (s.strand g.strand).setupOrZero.countsPerM t = m)
include hg

theorem gradeTrack_noise (few : t.lines < n) : gradeTrack i n reason head t s =
    (none, s.modBillet g.strand fun b => { b with noise := min 65535 (b.noise + 1) }) := by
  simp only [gradeTrack, hg, if_pos few]
  rfl

include hm

theorem gradeTrack_oscillation (enough : n ≤ t.lines)
    (shallow : isOscillation s.classify m (classOf s.classify.aspect m) t.peak = true) : gradeTrack i n reason head t s =
      (none, s.modBillet g.strand fun b => { b with osc := min 65535 (b.osc + 1) }) := by
  simp only [gradeTrack, hg, if_neg (Nat.not_lt.mpr enough), hm, if_pos shallow]
  rfl

theorem gradeTrack_defect (enough : n ≤ t.lines)
    (deep : ¬ isOscillation s.classify m (classOf s.classify.aspect m) t.peak = true) :
    let cls := classOf s.classify.aspect m
    let r := offerIfGraded g.strand
      (defectOf i g.strand m cls (gradeOf s.classify cls m.length t.peak) s.clock reason head t) s
    gradeTrack i n reason head t s = (some r.1, r.2) := by
  simp only [gradeTrack, hg, if_neg (Nat.not_lt.mpr enough), hm, if_neg deep]

end Graded

/-- Settles O39. -/
theorem classAndGradeFollowManual : Obligations.ClassAndGradeFollowManual := by
  refine ⟨fun aspect m => ⟨fun h => ?corner, fun h long => ?longitudinal, fun h short wide => ?transverse,
      fun h short narrow => ?mesh⟩,
    fun c cls length peak => gradeOf_eq cls length peak, fun i minLines reason head t s g zones z c hg hz hzone hc => ?grade,
    fun i minLines reason t s v => ⟨fun h => ?none, fun d h => ?record⟩⟩
  case corner => simp only [classOf, h, if_true]
  case longitudinal => simp only [classOf, h, Bool.false_eq_true, if_false, if_pos long]
  case transverse => simp only [classOf, h, Bool.false_eq_true, if_false, if_neg (Nat.not_le.mpr short), if_pos wide]
  case mesh => simp only [classOf, h, Bool.false_eq_true, if_false, if_neg (Nat.not_le.mpr short), if_neg (Nat.not_le.mpr narrow)]
  case none => simp only [closeToPending, h]
  case record => simp only [closeToPending, h]; rfl
  case grade =>
    intro u o withBillet len wid zoneWid cls shallow d r
    have measured : measure g ((s.lane i).control.zones.getD []) (s.strand g.strand).setupOrZero.countsPerM t =
        ⟨len, wid, zoneWid, decide (z.kind = .corner)⟩ := by
      simp [measure, hz, hzone, Strand.setupOrZero, hc, toLength, top32, columnsWidth, len, wid, zoneWid, Bool.beq_eq_decide_eq]
    have osc := isOscillation_iff (c := s.classify) (m := ⟨len, wid, zoneWid, decide (z.kind = .corner)⟩) (cls := cls)
      (peak := t.peak)
    have defect (enough : minLines ≤ t.lines) (deep : ¬ shallow) : r = (some (offerIfGraded g.strand d s).1,
        (offerIfGraded g.strand d s).2) := gradeTrack_defect hg measured enough (mt osc.mp deep)
    refine ⟨gradeTrack_noise hg, fun enough osc' => gradeTrack_oscillation hg measured enough (osc.mpr osc'),
      fun enough deep unset => ?_, fun m enough deep hset => ⟨fun low => ?_, fun graded => ?_⟩⟩
    · rw [defect enough deep, offerIfGraded_unset unset]
    · rw [defect enough deep, offerIfGraded_low hset low]
    · rw [defect enough deep, offerIfGraded_offers hset graded]

end Sys2Proof.Machine


/-! ### The line arithmetic (R49 to R62) -/

namespace Sys2Proof.Machine

/-! #### Contrast and background step (R55, R60, R61) -/

theorem contrast_eq_zero {b x : Nat} (bright : b ≤ 16 * x) : contrast b x = 0 := by
  simp [contrast, Nat.sub_eq_zero_of_le bright]

theorem contrast_black {b : Nat} (pos : 0 < b) : contrast b 0 = 255 := by
  simp [contrast, Nat.mul_div_cancel _ pos]

/-- The floor of 256d / B is 256 at most. -/
theorem contrast_eq {b x : Nat} :
    contrast b x = if 256 * (b - 16 * x) / b = 256 then 255 else 256 * (b - 16 * x) / b := by
  have most : 256 * (b - 16 * x) / b ≤ 256 :=
    Nat.div_le_of_le_mul (by rw [Nat.mul_comm b]; exact Nat.mul_le_mul_left _ (Nat.sub_le ..))
  simp only [contrast]
  split_ifs with full <;> omega

/-- A fall takes at least 1. -/
theorem backgroundStep_falls {b x k : Nat} (dark : 16 * x < b) : backgroundStep b x k < b := by
  have fall : 1 ≤ (b - 16 * x + (2 ^ k - 1)) / 2 ^ k := by
    have pos : 0 < 2 ^ k := by positivity
    rw [Nat.le_div_iff_mul_le pos]
    omega
  rw [backgroundStep_of_lt dark]
  omega

/-! #### Column repair (R51, R52) -/

section Repair
variable {k : Copy} {z : Zone} {c : Nat}

/-- `a` is the nearest LIVE column of the zone below `c`. -/
def NearestBelow (k : Copy) (z : Zone) (c a : Nat) : Prop :=
  z.first ≤ a ∧ a < c ∧ a ∉ k.dead ∧ ∀ j, a < j → j < c → j ∈ k.dead

/-- `e` is the nearest LIVE column of the zone above `c`. -/
def NearestAbove (k : Copy) (z : Zone) (c e : Nat) : Prop :=
  c < e ∧ e ≤ z.last ∧ e ∉ k.dead ∧ ∀ j, c < j → j < e → j ∈ k.dead

theorem live_iff : k.live c = true ↔ c ∉ k.dead := by simp [Copy.live]

theorem live_eq_false_iff : k.live c = false ↔ c ∈ k.dead := by simp [Copy.live]

theorem liveBelow_eq_some_iff (inside : z.first ≤ c) {a : Nat} :
    liveBelow k z.first c (c - z.first) = some a ↔ NearestBelow k z c a := by
  have spec := liveBelow_spec k z.first c (c - z.first) (by omega)
  rw [show z.first + (c - z.first) = c by omega] at spec
  cases found : liveBelow k z.first c (c - z.first) with
  | none =>
    rw [found] at spec
    refine ⟨nofun, fun ⟨above, below, live, _⟩ => absurd (live_eq_false_iff.1 (spec a above below)) live⟩
  | some e =>
    rw [found] at spec
    obtain ⟨above, below, live, dead⟩ := spec
    have live := live_iff.1 live
    constructor
    · rintro ⟨⟩
      exact ⟨above, below, live, fun j more less => live_eq_false_iff.1 (dead j more less)⟩
    · rintro ⟨above', below', live', dead'⟩
      rcases Nat.lt_trichotomy a e with less | rfl | more
      · exact absurd (dead' e less below) live
      · rfl
      · exact absurd (live_eq_false_iff.1 (dead a more below')) live'

theorem liveAbove_eq_some_iff {e : Nat} : liveAbove k c z.last = some e ↔ NearestAbove k z c e := by
  have spec := liveAbove_spec k c z.last
  cases found : liveAbove k c z.last with
  | none =>
    rw [found] at spec
    exact ⟨nofun, fun ⟨above, below, live, _⟩ => absurd (live_eq_false_iff.1 (spec e above below)) live⟩
  | some a =>
    rw [found] at spec
    obtain ⟨above, below, live, dead⟩ := spec
    have live := live_iff.1 live
    constructor
    · rintro ⟨⟩
      exact ⟨above, below, live, fun j more less => live_eq_false_iff.1 (dead j more less)⟩
    · rintro ⟨above', below', live', dead'⟩
      rcases Nat.lt_trichotomy a e with less | rfl | more
      · exact absurd (dead' a above less) live
      · rfl
      · exact absurd (live_eq_false_iff.1 (dead e above' more)) live'

theorem liveBelow_eq_none (inside : z.first ≤ c) (alone : ∀ a, ¬ NearestBelow k z c a) :
    liveBelow k z.first c (c - z.first) = none :=
  Option.eq_none_iff_forall_ne_some.2 fun a found => alone a ((liveBelow_eq_some_iff inside).1 found)

theorem liveAbove_eq_none (alone : ∀ e, ¬ NearestAbove k z c e) : liveAbove k c z.last = none :=
  Option.eq_none_iff_forall_ne_some.2 fun e found => alone e (liveAbove_eq_some_iff.1 found)

theorem repaired_of_live {x : Nat → Nat} (live : c ∉ k.dead) : repaired k x z c = some (x c) :=
  if_pos (live_iff.2 live)

theorem repaired_of_dead {x : Nat → Nat} (inside : z.first ≤ c) (dead : c ∈ k.dead) :
    (∀ a e, NearestBelow k z c a → NearestAbove k z c e → repaired k x z c = some ((x a + x e) / 2)) ∧
    (∀ a, NearestBelow k z c a → (∀ e, ¬ NearestAbove k z c e) → repaired k x z c = some (x a)) ∧
    (∀ e, (∀ a, ¬ NearestBelow k z c a) → NearestAbove k z c e → repaired k x z c = some (x e)) ∧
    ((∀ a, ¬ NearestBelow k z c a) → (∀ e, ¬ NearestAbove k z c e) → repaired k x z c = none) := by
  have notLive : ¬ k.live c = true := fun live => live_iff.1 live dead
  simp only [repaired, if_neg notLive]
  refine ⟨fun a e below above => ?_, fun a below none_ => ?_, fun e none_ above => ?_, fun none_ none_' => ?_⟩
  · rw [(liveBelow_eq_some_iff inside).2 below, liveAbove_eq_some_iff.2 above]
  · rw [(liveBelow_eq_some_iff inside).2 below, liveAbove_eq_none none_]
  · rw [liveBelow_eq_none inside none_, liveAbove_eq_some_iff.2 above]
  · rw [liveBelow_eq_none inside none_, liveAbove_eq_none none_']

end Repair

/-! #### The columns of a line (R50 to R56) -/

section Columns
variable {k : Copy} {x bg : Nat → Nat}

/-- The contrast of a column of a zone; an unrepairable, a saturated and an obscured one have 0. -/
def columnContrast (k : Copy) (x bg : Nat → Nat) (z : Zone) (c : Nat) : Nat := (examine k x bg z c).q.getD 0

theorem columnContrast_eq (k : Copy) (x bg : Nat → Nat) (z : Zone) (c : Nat) : columnContrast k x bg z c =
    ((repaired k x z c).map fun v =>
      if v = 4095 ∨ bg c < 16 * k.detect.bgFloor then 0 else contrast (bg c) v).getD 0 := by
  rw [columnContrast, examine_eq]

theorem zoneColumns_of_ignore {z : Zone} (ignored : z.kind = .ignore) : zoneColumns k x bg z = [] := by
  simp only [zoneColumns, ignored]

theorem zoneColumns_of_kept {z : Zone} (kept : z.kind ≠ .ignore) :
    zoneColumns k x bg z = (List.range (z.last + 1 - z.first)).map fun n => examine k x bg z (z.first + n) := by
  cases kind : z.kind with
  | ignore => exact absurd kind kept
  | face => simp only [zoneColumns, kind]
  | corner => simp only [zoneColumns, kind]

theorem zoneColumns_of_kept_range' {z : Zone} (kept : z.kind ≠ .ignore) :
    zoneColumns k x bg z = (List.range' z.first (z.last + 1 - z.first)).map (examine k x bg z) := by
  rw [zoneColumns_of_kept kept, List.range'_eq_map_range, List.map_map]
  rfl

/-- The columns that take part in a line. -/
def lineColumns (k : Copy) (x bg : Nat → Nat) : List Column := (k.zones.map (zoneColumns k x bg)).flatten

theorem mem_lineColumns {y : Column} : y ∈ lineColumns k x bg ↔
    ∃ z ∈ k.zones, z.kind ≠ .ignore ∧ ∃ c, z.first ≤ c ∧ c ≤ z.last ∧ y = examine k x bg z c := by
  simp only [lineColumns, List.mem_flatten, List.mem_map, exists_exists_and_eq_and, mem_zoneColumns]

/-- The columns of disjoint zones are in ascending order. -/
theorem lineColumns_ascend (disjoint : k.zones.Pairwise fun a b => a.last < b.first) :
    (lineColumns k x bg).Pairwise fun a b => a.col < b.col := by
  rw [lineColumns, ← List.flatMap_def, List.pairwise_flatMap]
  refine ⟨fun z _ => ?_, disjoint.imp fun {a b} below => ?_⟩
  · by_cases ignored : z.kind = .ignore
    · rw [zoneColumns_of_ignore ignored]
      exact .nil
    · rw [zoneColumns_of_kept_range' ignored, List.pairwise_map]
      simpa only [examine_eq] using List.pairwise_lt_range'
  · intro y inA y' inB
    obtain ⟨_, c, _, last, rfl⟩ := (mem_zoneColumns ..).1 inA
    obtain ⟨_, c', first, _, rfl⟩ := (mem_zoneColumns ..).1 inB
    simp only [examine_eq]
    omega

theorem lineColumns_nodup (disjoint : k.zones.Pairwise fun a b => a.last < b.first) :
    ((lineColumns k x bg).map (·.col)).Nodup :=
  List.pairwise_map.2 ((lineColumns_ascend disjoint).imp fun less => Nat.ne_of_lt less)

/-- A sum in which the elements left out count 0. -/
theorem sum_map_filter {α : Type} (p : α → Bool) (f : α → Nat) (l : List α) (zero : ∀ a ∈ l, p a = false → f a = 0) :
    ((l.filter p).map f).sum = (l.map f).sum := by
  induction l with
  | nil => rfl
  | cons a l ih =>
    have ih := ih fun b inL => zero b (List.mem_cons_of_mem _ inL)
    cases kept : p a with
    | true => simp [kept, ih]
    | false => simp [kept, ih, zero a List.mem_cons_self kept]

/-- What the columns that take part count is the sum over the zones that are not IGNORE. -/
theorem countP_lineColumns (p : Column → Bool) :
    (lineColumns k x bg).countP p = ((k.zones.filter fun z => decide (z.kind ≠ .ignore)).map fun z =>
      (List.range (z.last + 1 - z.first)).countP fun n => p (examine k x bg z (z.first + n))).sum := by
  have each : ∀ z ∈ k.zones.filter fun z => decide (z.kind ≠ .ignore),
      (List.range (z.last + 1 - z.first)).countP (fun n => p (examine k x bg z (z.first + n))) =
        (zoneColumns k x bg z).countP p := by
    intro z inZones
    rw [zoneColumns_of_kept (by simpa using (List.mem_filter.1 inZones).2), List.countP_map]
    rfl
  rw [List.map_congr_left each, sum_map_filter, lineColumns, List.countP_flatten, List.map_map]
  · rfl
  · intro z _ ignored
    rw [zoneColumns_of_ignore (by simpa using ignored)]
    rfl

theorem length_lineColumns : (lineColumns k x bg).length =
    ((k.zones.filter fun z => decide (z.kind ≠ .ignore)).map fun z => z.last + 1 - z.first).sum := by
  rw [← List.countP_true, countP_lineColumns]
  simp

end Columns

/-! #### The segments found (R57) -/

section Segments
variable {k : Copy} {x bg : Nat → Nat}

/-- The segments found on a line, kept or not. -/
def foundSegments (k : Copy) (x bg : Nat → Nat) : List Segment := allSegments k (k.zones.map (zoneColumns k x bg))

theorem mem_zoneRuns {z : Zone} {n tLow : Nat} {sg : Segment} (low : 1 ≤ tLow) (order : z.first ≤ z.last) :
    sg ∈ (zoneRuns n tLow (zoneColumns k x bg z)).1 ↔
      z.kind ≠ .ignore ∧ IsRun z n tLow (columnContrast k x bg z) sg := by
  by_cases ignored : z.kind = .ignore
  · simp [zoneColumns_of_ignore ignored, zoneRuns, ignored]
  · have spec := zoneRuns_spec n tLow z.kind (examine k x bg z) low (fun c => by rw [examine_eq])
      (z.last + 1 - z.first) z.first
    obtain ⟨_, _, _, runs⟩ := spec
    rw [zoneColumns_of_kept_range' ignored, runs, show z.first + (z.last + 1 - z.first) - 1 = z.last by omega]
    exact and_congr_left fun _ => ⟨fun _ => ignored, fun _ => by omega⟩

theorem zoneRuns_ascend {z : Zone} {n tLow : Nat} (low : 1 ≤ tLow) :
    (zoneRuns n tLow (zoneColumns k x bg z)).1.Pairwise fun s t => s.c1 < t.c0 := by
  by_cases ignored : z.kind = .ignore
  · rw [zoneColumns_of_ignore ignored]
    exact .nil
  · rw [zoneColumns_of_kept_range' ignored]
    exact (zoneRuns_spec n tLow z.kind (examine k x bg z) low (fun c => by rw [examine_eq]) _ _).2.2.1

theorem foundSegments_eq : foundSegments k x bg = k.zones.zipIdx.flatMap fun zn =>
    (zoneRuns zn.2 k.detect.tLow (zoneColumns k x bg zn.1)).1.filter fun s => decide (k.detect.tHigh ≤ s.peak) := by
  rw [foundSegments, allSegments, List.zipIdx_map, List.flatMap_map]
  rfl

theorem mem_foundSegments {sg : Segment} (low : 1 ≤ k.detect.tLow) (orders : ∀ z ∈ k.zones, z.first ≤ z.last) :
    sg ∈ foundSegments k x bg ↔ k.detect.tHigh ≤ sg.peak ∧
      ∃ n z, k.zones[n]? = some z ∧ z.kind ≠ .ignore ∧ IsRun z n k.detect.tLow (columnContrast k x bg z) sg := by
  simp only [foundSegments_eq, List.mem_flatMap, List.mem_filter, decide_eq_true_eq, Prod.exists,
    List.mem_zipIdx_iff_getElem?]
  constructor
  · rintro ⟨z, n, place, run, high⟩
    exact ⟨high, n, z, place, (mem_zoneRuns low (orders z (List.mem_of_getElem? place))).1 run⟩
  · rintro ⟨high, n, z, place, kept, run⟩
    exact ⟨z, n, place, (mem_zoneRuns low (orders z (List.mem_of_getElem? place))).2 ⟨kept, run⟩, high⟩

theorem foundSegments_ascend (low : 1 ≤ k.detect.tLow) (orders : ∀ z ∈ k.zones, z.first ≤ z.last)
    (disjoint : k.zones.Pairwise fun a b => a.last < b.first) :
    (foundSegments k x bg).Pairwise fun s t => s.c1 < t.c0 := by
  have inPlaces : k.zones.zipIdx.Pairwise fun a b => a.1.last < b.1.first := by
    rw [← List.pairwise_map (f := Prod.fst) (R := fun a b : Zone => a.last < b.first), List.zipIdx_map_fst]
    exact disjoint
  rw [foundSegments_eq, List.pairwise_flatMap]
  refine ⟨fun zn _ => (zoneRuns_ascend low).filter _, inPlaces.imp_of_mem fun {a b} inA inB below => ?_⟩
  intro s inS t inT
  have order {z : Zone × Nat} (inZ : z ∈ k.zones.zipIdx) : z.1.first ≤ z.1.last :=
    orders _ (List.mem_of_getElem? (List.mem_zipIdx_iff_getElem?.1 inZ))
  have last := ((mem_zoneRuns low (order inA)).1 (List.mem_filter.1 inS).1).2.last
  have first := ((mem_zoneRuns low (order inB)).1 (List.mem_filter.1 inT).1).2.first
  omega

theorem insideSegment_iff {segs : List Segment} {c : Nat} :
    insideSegment segs c = true ↔ ∃ sg ∈ segs, sg.c0 ≤ c ∧ c ≤ sg.c1 := by
  simp [insideSegment]

end Segments

/-! #### What a line leaves (R56, R58 to R62) -/

section Detect
variable {k : Copy} {bytes : List Host.Cell} {bg : List (Nat × Nat)} {mode : LineMode}

/-- The segments by which a line of a mode updates the background: a seed line has none. -/
def modeSegments (k : Copy) (x bg : Nat → Nat) (mode : LineMode) : List Segment :=
  if mode.isSeed then [] else foundSegments k x bg

theorem detectLine_background_other (canon : canonical 0 bg = true)
    (disjoint : k.zones.Pairwise fun a b => a.last < b.first) {c : Nat}
    (outside : ∀ z ∈ k.zones, z.kind ≠ .ignore → ¬ (z.first ≤ c ∧ c ≤ z.last)) :
    lookupAt 0 (detectLine k bytes bg mode false).background c = lookupAt 0 bg c := by
  refine (storeColumns_lookup _ (lineColumns k (readingAt k bytes) (lookupAt 0 bg)) bg canon
    (lineColumns_nodup disjoint)).2.2 c fun y inColumns same => ?_
  obtain ⟨z, inZones, kept, c', first, last, rfl⟩ := mem_lineColumns.1 inColumns
  rw [examine_eq] at same
  obtain rfl : c' = c := same
  exact outside z inZones kept ⟨first, last⟩

theorem detectLine_background_column (canon : canonical 0 bg = true)
    (disjoint : k.zones.Pairwise fun a b => a.last < b.first) {z : Zone} {c : Nat} (inZones : z ∈ k.zones)
    (kept : z.kind ≠ .ignore) (first : z.first ≤ c) (last : c ≤ z.last) :
    lookupAt 0 (detectLine k bytes bg mode false).background c =
      newBackground mode k.detect.bgShift (modeSegments k (readingAt k bytes) (lookupAt 0 bg) mode)
        (examine k (readingAt k bytes) (lookupAt 0 bg) z c) := by
  have stored := (storeColumns_lookup
    (newBackground mode k.detect.bgShift (modeSegments k (readingAt k bytes) (lookupAt 0 bg) mode))
    (lineColumns k (readingAt k bytes) (lookupAt 0 bg)) bg canon (lineColumns_nodup disjoint)).2.1 _
    (mem_lineColumns.2 ⟨z, inZones, kept, c, first, last, rfl⟩)
  rw [show (examine k (readingAt k bytes) (lookupAt 0 bg) z c).col = c by rw [examine_eq]] at stored
  exact stored

theorem detectLine_obscured (k : Copy) (bytes : List Host.Cell) (bg : List (Nat × Nat)) (mode : LineMode)
    (stationary : Bool) : (detectLine k bytes bg mode stationary).obscured =
      (lineColumns k (readingAt k bytes) (lookupAt 0 bg)).countP (·.obscured) :=
  List.countP_eq_length_filter.symm

theorem detectLine_uncovered_iff {stationary : Bool} :
    (detectLine k bytes bg mode stationary).uncovered = true ↔
      (lineColumns k (readingAt k bytes) (lookupAt 0 bg)).length = 0 ∨
      k.obscureLimit * (lineColumns k (readingAt k bytes) (lookupAt 0 bg)).length <
        1000 * (detectLine k bytes bg mode stationary).obscured :=
  (Bool.or_eq_true ..).to_iff.trans (or_congr decide_eq_true_iff decide_eq_true_iff)

section Update
variable {shift : Nat} {segs : List Segment} {y : Column}

theorem newBackground_stands (blind : y.reading = none ∨ y.reading = some 4095) :
    newBackground mode shift segs y = y.background := by
  rcases blind with blind | blind <;> simp [newBackground, blind]

theorem newBackground_seed {v : Nat} (reading : y.reading = some v) (unsaturated : v ≠ 4095) (seed : mode ≠ .detect) :
    newBackground mode shift segs y = if mode = .firstSeed then 16 * v else backgroundStep y.background v 1 := by
  cases mode with
  | firstSeed => simp [newBackground, reading, unsaturated]
  | seed => simp [newBackground, reading, unsaturated]
  | detect => exact absurd rfl seed

theorem newBackground_detect {v : Nat} (reading : y.reading = some v) (unsaturated : v ≠ 4095) :
    newBackground .detect shift segs y =
      if insideSegment segs y.col then y.background else backgroundStep y.background v shift := by
  simp [newBackground, reading, unsaturated]

end Update

end Detect

/-- Settles O35. -/
theorem contrastAndBackgroundStayInRange : Obligations.ContrastAndBackgroundStayInRange := by
  refine ⟨fun b x pos => ⟨Nat.min_le_left .., contrast_eq_zero, ?_, fun _ => contrast_eq⟩, fun b x k _ => ?_,
    fun k x z c first last => ⟨repaired_of_live, repaired_of_dead first⟩, fun st seed n => ?_,
    fun k bytes bg mode stationary canon low orders disjoint => ?_⟩
  · rintro rfl
    exact contrast_black pos
  · obtain ⟨least, most⟩ := backgroundStep_between b x k
    exact ⟨least, most, backgroundStep_of_le, fun dark => ⟨backgroundStep_of_lt dark, backgroundStep_falls dark⟩⟩
  · exact ⟨by rintro (rfl | rfl) <;> rfl, by rintro rfl; rfl, by rintro (rfl | rfl) <;> rfl⟩
  intro d b x r q zones width inZone
  have contrasts : ∀ z, columnContrast k x b z = q z := by
    intro z
    funext c
    simp only [columnContrast_eq, q, r]
    cases repaired k x z c <;> rfl
  have kept {z : Zone} (inZones : z ∈ zones) : z ∈ k.zones ∧ z.kind ≠ .ignore := by
    simpa [zones] using inZones
  have reading {z : Zone} {c : Nat} : (examine k x b z c).reading = r z c := by rw [examine_eq]
  have background {z : Zone} {c : Nat} : (examine k x b z c).background = b c := by rw [examine_eq]
  have column {z : Zone} {c : Nat} : (examine k x b z c).col = c := by rw [examine_eq]
  have update : ∀ z c, stationary = false → inZone z c → lookupAt 0 d.background c =
      newBackground mode k.detect.bgShift (modeSegments k x b mode) (examine k x b z c) := by
    rintro z c rfl ⟨inZones, first, last⟩
    exact detectLine_background_column canon disjoint (kept inZones).1 (kept inZones).2 first last
  refine ⟨?_, ?_, ?_, fun moving => ⟨fun c outside => ?_, fun z c inside blind => ?_⟩, fun seeding => ⟨?_, ?_, ?_⟩,
    fun detecting => ⟨foundSegments k x b, foundSegments_ascend low orders disjoint, fun sg => ?_, ?_, ?_, ?_⟩⟩
  · rw [show d.obscured = (lineColumns k x b).countP (·.obscured) from detectLine_obscured .., countP_lineColumns]
    simp only [examine_eq]
    rfl
  · rw [show width = (lineColumns k x b).length from length_lineColumns.symm]
    exact detectLine_uncovered_iff
  · rintro rfl
    rfl
  · subst moving
    exact detectLine_background_other canon disjoint fun z inZones taking within =>
      outside z ⟨by simpa [zones] using ⟨inZones, taking⟩, within.1, within.2⟩
  · rw [update z c moving inside, newBackground_stands (by rw [reading]; exact blind), background]
  · cases mode with
    | detect => exact absurd rfl seeding
    | firstSeed => rfl
    | seed => rfl
  · cases mode with
    | detect => exact absurd rfl seeding
    | firstSeed => rfl
    | seed => rfl
  · intro z c v moving inside found unsaturated
    rw [update z c moving inside, newBackground_seed (reading.trans found) unsaturated seeding, background]
  · rw [mem_foundSegments low orders]
    simp only [contrasts]
  · subst detecting
    rfl
  · subst detecting
    exact decide_eq_true_iff
  · subst detecting
    intro z c v moving inside found unsaturated
    rw [update z c moving inside, newBackground_detect (reading.trans found) unsaturated, background, column]
    exact ⟨fun within => if_pos (insideSegment_iff.2 within), fun without => if_neg fun within =>
      let ⟨sg, inFound, covers⟩ := insideSegment_iff.1 within
      without sg inFound covers⟩

end Sys2Proof.Machine


/-! ### The take of a write in a ring (R7, R14, R16) -/

namespace Sys2Proof.Machine

/-! #### Slot parts (R16) -/

theorem ringBeats_ascend (g : Geometry) (r : Request) : (ringBeats g r).Pairwise fun a b => a.pos < b.pos := by
  rw [ringBeats, List.pairwise_filterMap]
  refine List.pairwise_lt_range.imp fun {j k} less a fromJ b fromK => ?_
  rw [Option.ite_none_right_eq_some] at fromJ fromK
  obtain ⟨_, ⟨⟩⟩ := fromJ
  obtain ⟨_, ⟨⟩⟩ := fromK
  exact less

theorem slotParts_cons_of_empty {b : RingBeat} {bs : List RingBeat} (h : slotParts bs = []) :
    slotParts (b :: bs) = [(b.slot, [b])] := by
  rw [slotParts, h]

theorem slotParts_cons_of_same {b : RingBeat} {bs xs : List RingBeat} {slot : Nat} {rest : List (Nat × List RingBeat)}
    (h : slotParts bs = (slot, xs) :: rest) (same : slot = b.slot) :
    slotParts (b :: bs) = (slot, b :: xs) :: rest := by
  rw [slotParts, h]
  exact if_pos same

theorem slotParts_cons_of_other {b : RingBeat} {bs xs : List RingBeat} {slot : Nat} {rest : List (Nat × List RingBeat)}
    (h : slotParts bs = (slot, xs) :: rest) (other : slot ≠ b.slot) :
    slotParts (b :: bs) = (b.slot, [b]) :: (slot, xs) :: rest := by
  rw [slotParts, h]
  exact if_neg other

/-- The parts joined are the beats, each part is of one slot, and neighbours are of different slots. -/
theorem slotParts_spec (beats : List RingBeat) :
    (slotParts beats).flatMap (·.2) = beats ∧ (∀ x ∈ slotParts beats, x.2 ≠ [] ∧ ∀ b ∈ x.2, b.slot = x.1) ∧
    (slotParts beats).IsChain fun x y => x.1 ≠ y.1 := by
  induction beats with
  | nil => exact ⟨rfl, nofun, .nil⟩
  | cons b bs ih =>
    obtain ⟨joined, slots, differ⟩ := ih
    match h : slotParts bs with
    | [] =>
      rw [h] at joined
      rw [slotParts_cons_of_empty h]
      refine ⟨by simpa using joined, ?_, .singleton _⟩
      rintro x inParts
      obtain rfl := List.mem_singleton.1 inParts
      exact ⟨nofun, fun c inPart => by rw [List.mem_singleton.1 inPart]⟩
    | (slot, xs) :: rest =>
      rw [h] at joined slots differ
      by_cases same : slot = b.slot
      · rw [slotParts_cons_of_same h same]
        refine ⟨by simpa using joined, ?_, ?_⟩
        · rintro x (_ | ⟨_, inRest⟩)
          · refine ⟨nofun, ?_⟩
            rintro c (_ | ⟨_, inPart⟩)
            · exact same.symm
            · exact (slots _ List.mem_cons_self).2 c inPart
          · exact slots x (List.mem_cons_of_mem _ inRest)
        · cases rest with
          | nil => exact .singleton _
          | cons y rest => exact List.IsChain.cons_cons (List.isChain_cons_cons.1 differ).1 (List.isChain_cons_cons.1 differ).2
      · rw [slotParts_cons_of_other h same]
        refine ⟨by simpa using joined, ?_, .cons_cons (Ne.symm same) differ⟩
        rintro x (_ | ⟨_, inRest⟩)
        · exact ⟨nofun, fun c inPart => by rw [List.mem_singleton.1 inPart]⟩
        · exact slots x inRest

/-! #### One part (R16 to R21) -/

section Part
variable {i : Fin 12} {g : Geometry} {slot : Nat} {beats : List RingBeat} {acc : TakeAcc}

/-- The written data-area beats of a part. -/
def dataBeatsOf (g : Geometry) (beats : List RingBeat) : List RingBeat :=
  (beats.filter (·.written)).filter fun b => decide (b.index < g.w / 16)

/-- The part begins at a written beat 0 (R20). -/
def beginsWritten (beats : List RingBeat) : Bool := beats.head?.any fun b => b.index == 0 && b.written

/-- What the data-area beats of a part do. -/
def handledData (i : Fin 12) (g : Geometry) (slot : Nat) (beats : List RingBeat) (acc : TakeAcc) : TakeAcc :=
  if (dataBeatsOf g beats).isEmpty then acc else handleData i g slot (beginsWritten beats) (dataBeatsOf g beats) acc

/-- The data-area beats of a part count as out of sequence themselves. -/
def dataCounted (i : Fin 12) (g : Geometry) (slot : Nat) (beats : List RingBeat) (acc : TakeAcc) : Bool :=
  !(dataBeatsOf g beats).isEmpty && countedOutOfSeq (acc.s.lane i).capture.assembler
    (partAction (acc.s.lane i).capture.assembler g.n slot (beginsWritten beats))

/-- What the beats behind the data area do (R21). -/
def countBeyond (i : Fin 12) (g : Geometry) (beats : List RingBeat) (counted : Bool) (acc : TakeAcc) : TakeAcc :=
  if (beats.filter (·.written)).any (fun b => b.index == g.w / 16) then { acc with s := countTrailerWrite i acc.s }
  else if (beats.filter (·.written)).any (fun b => decide (g.w / 16 < b.index)) && !counted then
    { acc with s := countOutOfSeq i acc.s }
  else acc

theorem handlePart_eq (i : Fin 12) (g : Geometry) (slot : Nat) (beats : List RingBeat) (acc : TakeAcc) :
    handlePart i g acc (slot, beats) =
      countBeyond i g beats (dataCounted i g slot beats acc) (handledData i g slot beats acc) := by
  cases beats <;> rfl

theorem countBeyond_trailer {counted : Bool} (trailer : ∃ b ∈ beats, b.written = true ∧ b.index = g.w / 16) :
    countBeyond i g beats counted acc = { acc with s := countTrailerWrite i acc.s } :=
  if_pos (by simpa [and_assoc] using trailer)

theorem countBeyond_padding (none_ : ∀ b ∈ beats, b.written = true → b.index ≠ g.w / 16)
    (padding : ∃ b ∈ beats, b.written = true ∧ g.w / 16 < b.index) :
    countBeyond i g beats false acc = { acc with s := countOutOfSeq i acc.s } :=
  (if_neg (by simpa using none_)).trans (if_pos (by simpa [and_assoc] using padding))

theorem countBeyond_counted (none_ : ∀ b ∈ beats, b.written = true → b.index ≠ g.w / 16) :
    countBeyond i g beats true acc = acc :=
  (if_neg (by simpa using none_)).trans (if_neg (by simp))

theorem countBeyond_of_data {counted : Bool} (inside : ∀ b ∈ beats, b.written = true → b.index < g.w / 16) :
    countBeyond i g beats counted acc = acc := by
  refine (if_neg ?_).trans (if_neg ?_)
  · simpa using fun b inBeats written => Nat.ne_of_lt (inside b inBeats written)
  · simp only [Bool.and_eq_true, List.any_eq_true, List.mem_filter, decide_eq_true_eq, not_and, Bool.not_eq_true]
    rintro ⟨b, ⟨inBeats, written⟩, beyond⟩
    exact absurd (inside b inBeats written) (by omega)

theorem dataBeatsOf_eq_nil_iff : dataBeatsOf g beats = [] ↔ ∀ b ∈ beats, b.written = true → g.w / 16 ≤ b.index := by
  simp only [dataBeatsOf, List.filter_eq_nil_iff, List.mem_filter, decide_eq_true_eq, Nat.not_lt, and_imp]

/-- Of beats that are all data, all count. -/
theorem dataBeatsOf_eq_self (inside : ∀ b ∈ beats, b.written = true ∧ b.index < g.w / 16) : dataBeatsOf g beats = beats := by
  rw [dataBeatsOf, List.filter_eq_self.2 fun b inBeats => (inside b inBeats).1]
  exact List.filter_eq_self.2 fun b inBeats => decide_eq_true (inside b inBeats).2

theorem dataBeatsOf_append_beyond {x : RingBeat} (beyond : g.w / 16 ≤ x.index) :
    dataBeatsOf g (beats ++ [x]) = dataBeatsOf g beats := by
  have out : [x].filter (fun b => b.written && decide (b.index < g.w / 16)) = [] := by
    rw [List.filter_eq_nil_iff]
    simpa using fun _ => beyond
  simp only [dataBeatsOf, List.filter_filter, List.filter_append, Bool.and_comm] at out ⊢
  rw [out, List.append_nil]

theorem handledData_of_empty (empty : dataBeatsOf g beats = []) : handledData i g slot beats acc = acc :=
  if_pos (by rw [empty]; rfl)

theorem handledData_of_some (some_ : dataBeatsOf g beats ≠ []) : handledData i g slot beats acc =
    handleData i g slot (beginsWritten beats) (dataBeatsOf g beats) acc :=
  if_neg (by simpa using some_)

theorem beginsWritten_append {x : RingBeat} (some_ : beats ≠ []) : beginsWritten (beats ++ [x]) = beginsWritten beats := by
  cases beats with
  | nil => exact absurd rfl some_
  | cons => rfl

/-- A beat behind the data area changes nothing of what the data-area beats do. -/
theorem handledData_append_beyond {x : RingBeat} (some_ : beats ≠ []) (beyond : g.w / 16 ≤ x.index) :
    handledData i g slot (beats ++ [x]) acc = handledData i g slot beats acc := by
  simp only [handledData, dataBeatsOf_append_beyond beyond, beginsWritten_append some_]

theorem dataCounted_append_beyond {x : RingBeat} (some_ : beats ≠ []) (beyond : g.w / 16 ≤ x.index) :
    dataCounted i g slot (beats ++ [x]) acc = dataCounted i g slot beats acc := by
  simp only [dataCounted, dataBeatsOf_append_beyond beyond, beginsWritten_append some_]

theorem handlePart_of_unwritten (none_ : ∀ b ∈ beats, b.written = false) : handlePart i g acc (slot, beats) = acc := by
  rw [handlePart_eq, countBeyond_of_data fun b inBeats written => absurd written (by simp [none_ b inBeats]),
    handledData_of_empty (dataBeatsOf_eq_nil_iff.2 fun b inBeats written => absurd written (by simp [none_ b inBeats]))]

theorem handlePart_of_data (inside : ∀ b ∈ beats, b.written = true ∧ b.index < g.w / 16) :
    handlePart i g acc (slot, beats) = handledData i g slot beats acc := by
  rw [handlePart_eq, countBeyond_of_data fun b inBeats _ => (inside b inBeats).2]

theorem handlePart_append_trailer {x : RingBeat} (some_ : beats ≠ [])
    (inside : ∀ b ∈ beats, b.written = true ∧ b.index < g.w / 16) (written : x.written = true) (trailer : x.index = g.w / 16) :
    handlePart i g acc (slot, beats ++ [x]) = { handlePart i g acc (slot, beats) with
      s := countTrailerWrite i (handlePart i g acc (slot, beats)).s } := by
  rw [handlePart_of_data inside, handlePart_eq, countBeyond_trailer ⟨x, by simp, written, trailer⟩,
    handledData_append_beyond some_ (by omega)]

end Part

/-! #### What the handling forwards -/

section Forwarding
variable {i : Fin 12} {g : Geometry} {slot : Nat} {beats : List RingBeat} {acc : TakeAcc}

theorem fillCurrent_data : (fillCurrent i g slot beats acc).data = acc.data := by
  simp only [fillCurrent]
  split
  · split <;> rfl
  · rfl
  · rfl

/-- The data as the lane's pattern leaves them, at the phase that the part's line start leaves. -/
theorem handleData_data {zero : Bool} : (handleData i g slot zero beats acc).data =
    substitute ((enterSlot i g slot (partAction (acc.s.lane i).capture.assembler g.n slot zero) acc.s).lane i) g beats
      acc.data := by
  simp only [handleData]
  split
  · rfl
  all_goals exact fillCurrent_data

theorem countBeyond_data {counted : Bool} : (countBeyond i g beats counted acc).data = acc.data := by
  simp only [countBeyond]
  split_ifs <;> rfl

theorem substitute_length (l : Lane) (g : Geometry) (beats : List RingBeat) (data : List Byte) :
    (substitute l g beats data).length = data.length := by
  unfold substitute
  split
  · exact substituteBeats_length _ _
  · rfl

/-- What the handling of a write keeps of its data: their number, and all of them while no lane is in TEST. -/
structure Forwards (a b : TakeAcc) : Prop where
  quiet : a.s.Quiet b.s
  length : b.data.length = a.data.length
  plain : (∀ i, (a.s.lane i).control.state ≠ .test) → b.data = a.data

theorem Forwards.refl (a : TakeAcc) : Forwards a a := ⟨.refl _, rfl, fun _ => rfl⟩

theorem Forwards.trans {a b c : TakeAcc} (hab : Forwards a b) (hbc : Forwards b c) : Forwards a c where
  quiet := hab.quiet.trans hbc.quiet
  length := hbc.length.trans hab.length
  plain := fun none_ => (hbc.plain fun i => by rw [hab.quiet.control]; exact none_ i).trans (hab.plain none_)

theorem forwards_handlePart (i : Fin 12) (g : Geometry) (acc : TakeAcc) (part : Nat × List RingBeat) :
    Forwards acc (handlePart i g acc part) := by
  obtain ⟨slot, beats⟩ := part
  refine ⟨quiet_handlePart .., ?_, fun none_ => ?_⟩ <;> rw [handlePart_eq, countBeyond_data]
  · by_cases empty : dataBeatsOf g beats = []
    · rw [handledData_of_empty empty]
    · rw [handledData_of_some empty, handleData_data, substitute_length]
  · by_cases empty : dataBeatsOf g beats = []
    · rw [handledData_of_empty empty]
    · rw [handledData_of_some empty, handleData_data, substitute_other]
      rw [(quiet_enterSlot ..).control]
      exact none_ i

theorem forwards_captureLane (r : Request) (acc : TakeAcc) (i : Fin 12) : Forwards acc (captureLane r acc i) := by
  simp only [captureLane]
  split
  · exact .refl _
  · exact List.foldlRecOn (motive := fun a : TakeAcc => Forwards acc a) _ _ (.refl _)
      fun a ha part _ => ha.trans (forwards_handlePart _ _ a part)

theorem forwards_offerWrite (r : Request) (s : State) : Forwards ⟨s, r.data, []⟩ (offerWrite r s) := by
  simp only [offerWrite]
  refine List.foldlRecOn (motive := fun a : TakeAcc => Forwards ⟨s, r.data, []⟩ a) _ _ ?_
    fun a ha i _ => ha.trans (forwards_captureLane r a i)
  refine ⟨?_, rfl, fun _ => rfl⟩
  dsimp only
  split_ifs
  · exact .refl s
  · exact quiet_unsized s s.global s.ports s.classify s.command s.loader _

theorem forwards_takeAcc (u : UpRequest) (s : State) : Forwards ⟨s, u.req.data, []⟩ (takeAcc u s) := by
  unfold takeAcc
  split
  · exact forwards_offerWrite ..
  · exact .refl _

end Forwarding

/-! #### The write joins the queue (log 11) -/

section Joining
variable {u : UpRequest} {s : State} {i : Fin 12} {g : Geometry}

/-- A write that lands in one lane's ring is handled by that lane alone. -/
theorem offerWrite_of_one {r : Request} (only : touchedLanes s r = [i]) (geometry : (s.lane i).control.geometry = some g) :
    offerWrite r s = (slotParts (ringBeats g r)).foldl (handlePart i g) ⟨s, r.data, []⟩ := by
  simp [offerWrite, only, anyOrder, captureLane, geometry]

theorem touchedLanes_nodup (s : State) (r : Request) : (touchedLanes s r).Nodup :=
  (List.nodup_finRange 12).filter _

theorem touchedLanes_of_one {r : Request} (capturing : (s.lane i).control.state.capturing = true)
    (geometry : (s.lane i).control.geometry = some g)
    (lands : ∃ j, j < r.len ∧ g.base ≤ r.addr + 32 * j ∧ r.addr + 32 * j < ringEnd g)
    (others : ∀ j o, j ≠ i → (s.lane j).control.state.capturing = true → (s.lane j).control.geometry = some o →
      apart r.addr (r.addr + 32 * r.len) o.base (ringEnd o)) : touchedLanes s r = [i] := by
  have touched : ∀ j, j ∈ touchedLanes s r ↔ j = i := by
    refine fun j => ⟨fun inLanes => ?_, ?_⟩
    · obtain ⟨capturing, o, geometry, beats⟩ := mem_touchedLanes.1 inLanes
      exact Decidable.byContradiction fun other => beats (ringBeats_of_apart (others j o other capturing geometry))
    · rintro rfl
      obtain ⟨k, inside, low, high⟩ := lands
      have beat : (⟨(r.addr + 32 * k - g.base) / slotSize g.w, (r.addr + 32 * k - g.base) % slotSize g.w / 32, k,
          r.enables.getD k 0⟩ : RingBeat) ∈ ringBeats g r :=
        mem_ringBeats.2 ⟨inside, low, high, rfl, rfl, rfl⟩
      exact mem_touchedLanes.2 ⟨capturing, g, geometry, List.ne_nil_of_mem beat⟩
  exact (List.perm_singleton.1 ((List.perm_ext_iff_of_nodup (touchedLanes_nodup s r) (List.nodup_singleton i)).2
    fun j => by rw [touched, List.mem_singleton]))

/-- A request as it was made, its place in the take order left out. -/
def InjEntry.asMade (x : InjEntry) : Request × Purpose × Option Nat := (x.req, x.purpose, x.issue)

theorem shiftOrders_asMade (n : Nat) (q : List InjEntry) : (shiftOrders n q).map InjEntry.asMade = q.map InjEntry.asMade := by
  rw [shiftOrders, List.map_map]
  refine List.map_congr_left fun e _ => ?_
  dsimp only [Function.comp]
  split_ifs <;> rfl

theorem takenAfter_injected (u : UpRequest) (s : State) (acc : TakeAcc) :
    (takenAfter u s acc).path.injected.map InjEntry.asMade = acc.s.path.injected.map InjEntry.asMade := by
  simp only [takenAfter]
  split_ifs
  · rfl
  · exact shiftOrders_asMade ..

end Joining

/-- Settles O14. -/
theorem takenRequestIsForwardedAsSent : Obligations.TakenRequestIsForwardedAsSent := by
  refine ⟨fun u s notHeld room => ?_, fun u s i g kind notHeld room capturing geometry lands others => ?_, fun st => ?_,
    fun g => ⟨rfl, ⟨_, Nat.mul_comm ..⟩, ?_⟩, fun g r => ⟨ringBeats_ascend g r, fun _ => mem_ringBeats⟩, fun beats => ?_,
    fun i g slot acc beats x => ⟨handlePart_of_unwritten, fun some_ inside written trailer =>
      handlePart_append_trailer some_ inside written trailer⟩⟩
  · obtain ⟨quiet, length, plain⟩ := forwards_takeAcc u s
    refine ⟨_, _, (exec_take notHeld room).trans (congrArg _ (takeRequest_eq u s)),
      congrArg (· ++ [_]) quiet.pass, rfl, rfl, rfl, rfl, rfl, rfl, rfl, length, plain⟩
  · intro acc asMade
    have handled : takeAcc u s = acc := by
      unfold takeAcc
      rw [kind]
      exact offerWrite_of_one (touchedLanes_of_one capturing geometry lands others) geometry
    have quiet : s.Quiet acc.s := handled ▸ (forwards_takeAcc u s).quiet
    refine ⟨takenAfter u s acc, _, by rw [exec_take notHeld room, takeRequest_eq, handled], congrArg (· ++ [_]) quiet.pass,
      rfl, rfl, rfl, rfl, rfl, rfl, rfl, takenAfter_injected u s acc, fun none_ => ⟨?_, ?_, ?_⟩⟩
    · simp [none_]
    · rw [takenAfter_of_none_injected none_]
    · rw [takenAfter_of_none_injected none_]
  · cases st <;> simp [LaneState.capturing]
  · simp only [slotSize]
    omega
  · obtain ⟨joined, slots, differ⟩ := slotParts_spec beats
    refine ⟨joined, slots, fun n x y atN atNext => ?_⟩
    obtain ⟨inN, rfl⟩ := List.getElem?_eq_some_iff.1 atN
    obtain ⟨inNext, rfl⟩ := List.getElem?_eq_some_iff.1 atNext
    exact List.isChain_iff_getElem.1 differ n inNext

end Sys2Proof.Machine


/-! ### The parts of a write: line starts, drops, filling (R17 to R23, R28, R30, R31) -/

namespace Sys2Proof.Machine

/-! #### The assembler's table (R17 to R20) -/

/-- The current slot of the assembler, where there is one. -/
def Assembler.slot? : Assembler → Option Nat
  | .noSlot => none
  | .assembling c => some c
  | .complete c => some c
  | .discarding c => some c

section Action
variable {a : Assembler} {n slot c : Nat} {zero : Bool}

theorem partAction_of_slot (current : a.slot? = some c) : partAction a n slot zero =
    if slot = c then .current else if slot = (c + 1) % n then .start else if zero then .resync else .outOfSeq := by
  cases a <;> cases current <;> rfl

theorem partAction_current (current : a.slot? = some slot) : partAction a n slot zero = .current :=
  (partAction_of_slot current).trans (if_pos rfl)

/-- A ring of two slots or more has another slot next. -/
theorem next_slot_ne (two : 2 ≤ n) (inside : c < n) : (c + 1) % n ≠ c := by
  rcases Nat.lt_or_ge (c + 1) n with less | last
  · rw [Nat.mod_eq_of_lt less]
    omega
  · rw [show c + 1 = n by omega, Nat.mod_self]
    omega

end Action

/-! #### Buffers -/

section Buffers
variable {c : Capture} {l m : Line} {b : Buffer}

theorem assemblingLine_of_bufA (h : c.bufA = .assembling l) : c.assemblingLine = some l := by
  simp only [Capture.assemblingLine, h]

theorem putAssembling_putAssembling (h : c.assemblingLine = some l) :
    (c.putAssembling (.assembling m)).putAssembling b = c.putAssembling b := by
  obtain inA | ⟨inB, notA⟩ := assemblingLine_eq_some.1 h
  · rw [putAssembling_bufA _ inA, putAssembling_bufA b inA]
    exact putAssembling_bufA b (l := m) rfl
  · rw [putAssembling_bufB _ inB notA, putAssembling_bufB b inB notA]
    exact putAssembling_bufB b (l := m) rfl notA

theorem putAssembling_inProcessing (h : c.assemblingLine = some l) :
    (c.putAssembling (.assembling m)).inProcessing = c.inProcessing := by
  obtain inA | ⟨inB, notA⟩ := assemblingLine_eq_some.1 h
  · rw [putAssembling_bufA _ inA]
    simp only [Capture.inProcessing, inA]
    cases c.bufB <;> rfl
  · rw [putAssembling_bufB _ inB notA]
    simp only [Capture.inProcessing, inB]
    cases c.bufA <;> rfl

/-- What a change of the line being assembled leaves of the line capture unit. -/
theorem putAssembling_frame (c : Capture) (b : Buffer) :
    ∃ bufA bufB, c.putAssembling b = { c with bufA := bufA, bufB := bufB } := by
  simp only [Capture.putAssembling]
  split
  · exact ⟨b, c.bufB, rfl⟩
  · exact ⟨c.bufA, b, rfl⟩
  · exact ⟨c.bufA, c.bufB, rfl⟩

theorem putAssembling_counters (c : Capture) (b : Buffer) : (c.putAssembling b).counters = c.counters := by
  obtain ⟨_, _, eq⟩ := putAssembling_frame c b
  rw [eq]

/-- A line can start at once in a buffer, and is then the one being assembled. -/
def Capture.Ready (c : Capture) : Prop := c.bufA = .free ∨ c.bufA ≠ .free ∧ c.bufB = .free ∧ ∀ l, c.bufA ≠ .assembling l

/-- The buffer of the line dropped is free. -/
theorem ready_of_dropped (h : c.assemblingLine = some l) : (c.putAssembling .free).Ready := by
  obtain inA | ⟨inB, notA⟩ := assemblingLine_eq_some.1 h
  · rw [putAssembling_bufA _ inA]
    exact .inl rfl
  · rw [putAssembling_bufB _ inB notA]
    by_cases free : c.bufA = .free
    · exact .inl free
    · exact .inr ⟨free, rfl, notA⟩

end Buffers

/-! #### What a lane's requests change -/

/-- The state in which a lane has other trailers to make, and the path unit stands as `path`. -/
def State.asking (s : State) (i : Fin 12) (trailers : List Request) (path : Path) : State :=
  { s.setLane i { s.lane i with capture := { (s.lane i).capture with trailers := trailers } } with path := path }

theorem asking_lane (s : State) (i j : Fin 12) (t : List Request) (p : Path) : (s.asking i t p).lane j =
    if j = i then { s.lane i with capture := { (s.lane i).capture with trailers := t } } else s.lane j :=
  State.setLane_lane ..

theorem asking_self (s : State) (i : Fin 12) : s.asking i (s.lane i).capture.trailers s.path = s :=
  congrArg (fun t : State => { t with path := s.path }) (State.setLane_self s i)

theorem asking_asking (s : State) (i : Fin 12) (t u : List Request) (p q : Path) :
    (s.asking i t p).asking i u q = s.asking i u q := by
  refine State.ext_lanes_strands rfl rfl rfl rfl (fun j => ?_) (fun _ => rfl) rfl rfl rfl rfl rfl rfl
  simp only [asking_lane]
  split_ifs <;> rfl

theorem pump_lane_frame (n : Nat) (i : Fin 12) (s : State) : ∃ trailers path, pump n (.lane i) s = s.asking i trailers path := by
  induction n generalizing s with
  | zero => exact ⟨_, _, (asking_self s i).symm⟩
  | succ n ih =>
    simp only [pump]
    split
    · exact ⟨_, _, (asking_self s i).symm⟩
    · split_ifs
      · exact ⟨_, _, (asking_self s i).symm⟩
      · obtain ⟨trailers, path, eq⟩ := ih (made (.lane i) { s with path := s.path.inject ‹_› })
        exact ⟨trailers, path, eq.trans (asking_asking s i _ trailers _ path)⟩
      · refine ⟨(s.lane i).capture.trailers, s.path.joinWait (.lane i), ?_⟩
        conv_lhs => rw [← asking_self s i]
        rfl

/-- A trailer changes nothing but the path unit and the trailers that its lane has still to make. -/
theorem makeTrailer_frame (i : Fin 12) (line : Line) (st : TrailerStatus) (n m : Nat) (a b : Bool) (s : State) :
    ∃ trailers path, makeTrailer i line st n m a b s = s.asking i trailers path := by
  simp only [makeTrailer]
  split
  · exact ⟨_, _, (asking_self s i).symm⟩
  · split_ifs
    · obtain ⟨trailers, path, eq⟩ := pump_lane_frame 17 i (s.setLane i { s.lane i with capture := { (s.lane i).capture with
        trailers := (s.lane i).capture.trailers ++ [trailerWrite ‹_› line st n m a b] } })
      exact ⟨trailers, path, eq.trans (asking_asking s i _ trailers s.path path)⟩
    · exact ⟨_, _, (asking_self s i).symm⟩

/-! #### The line start (R17, R22, R30) -/

section Start
variable {i : Fin 12} {g : Geometry} {slot : Nat} {s : State}

theorem phaseAtLineStart_test {l : Lane} {t : TestParams} (state : l.control.state = .test) (test : l.control.test = some t) :
    l.phaseAtLineStart = if l.capture.phaseFresh then l.capture.phase else (l.capture.phase + 1) % t.period := by
  simp only [Lane.phaseAtLineStart, state, test]

theorem phaseAtLineStart_other {l : Lane} (state : l.control.state ≠ .test) : l.phaseAtLineStart = l.capture.phase := by
  unfold Lane.phaseAtLineStart
  split
  · exact absurd ‹_› state
  · rfl

theorem phaseAtLineStart_unset {l : Lane} (test : l.control.test = none) : l.phaseAtLineStart = l.capture.phase := by
  unfold Lane.phaseAtLineStart
  split
  · simp_all
  · rfl

theorem freshAfterLineStart_eq (l : Lane) :
    l.freshAfterLineStart = if l.control.state = .test then false else l.capture.phaseFresh := by
  unfold Lane.freshAfterLineStart
  split
  · rw [if_pos ‹_›]
  · rw [if_neg ‹_›]

/-- The line capture unit of a lane as a line start leaves it, but for the buffer that the line takes. -/
def Lane.started (l : Lane) : Capture :=
  { l.capture with nextSeq := wrap32 l.capture.nextSeq, phase := l.phaseAtLineStart, phaseFresh := l.freshAfterLineStart }

/-- The line that starts in a slot (R22). -/
def startedLine (i : Fin 12) (g : Geometry) (slot : Nat) (s : State) : Line :=
  ⟨(s.lane i).capture.nextSeq, (s.strand g.strand).motion.coord, s.clock, (s.lane i).capture.arming, slot, false, [], []⟩

theorem isFree_iff {b : Buffer} : b.isFree = true ↔ b = .free := by cases b <;> simp [Buffer.isFree]

theorem startLine_bufA (free : (s.lane i).capture.bufA = .free) : startLine i g slot s =
    s.setLane i { s.lane i with capture := { (s.lane i).started with
      bufA := .assembling (startedLine i g slot s), assembler := .assembling slot } } :=
  if_pos (isFree_iff.2 free)

theorem startLine_bufB (busy : (s.lane i).capture.bufA ≠ .free) (free : (s.lane i).capture.bufB = .free) :
    startLine i g slot s = s.setLane i { s.lane i with capture := { (s.lane i).started with
      bufB := .assembling (startedLine i g slot s), assembler := .assembling slot } } :=
  (if_neg (busy ∘ isFree_iff.1)).trans (if_pos (isFree_iff.2 free))

/-- The lane with a line that found no buffer. -/
def Lane.overrun (l : Lane) (slot : Nat) : Lane :=
  { l with capture := { l.started with
    assembler := .discarding slot
    counters := { l.capture.counters with overrun := bump l.capture.counters.overrun } } }

theorem startLine_overrun (busyA : (s.lane i).capture.bufA ≠ .free) (busyB : (s.lane i).capture.bufB ≠ .free) :
    startLine i g slot s = makeTrailer i (startedLine i g slot s) .overrun 0 0 false false
      (s.setLane i ((s.lane i).overrun slot)) :=
  (if_neg (busyA ∘ isFree_iff.1)).trans (if_neg (busyB ∘ isFree_iff.1))

/-- Of the line capture unit a line start changes, but for what `Lane.started` says, buffers, assembler, counters and the
trailers to be made. -/
theorem startLine_frame (i : Fin 12) (g : Geometry) (slot : Nat) (s : State) :
    (∃ bufA bufB assembler counters trailers, (startLine i g slot s).lane i =
      { s.lane i with capture := { (s.lane i).started with
        bufA := bufA, bufB := bufB, assembler := assembler, counters := counters, trailers := trailers } }) ∧
    ∀ j, j ≠ i → (startLine i g slot s).lane j = s.lane j := by
  by_cases freeA : (s.lane i).capture.bufA = .free
  · rw [startLine_bufA freeA]
    exact ⟨⟨_, _, _, _, _, by rw [State.setLane_lane, if_pos rfl]⟩, fun j other => by rw [State.setLane_lane, if_neg other]⟩
  by_cases freeB : (s.lane i).capture.bufB = .free
  · rw [startLine_bufB freeA freeB]
    exact ⟨⟨_, _, _, _, _, by rw [State.setLane_lane, if_pos rfl]⟩, fun j other => by rw [State.setLane_lane, if_neg other]⟩
  · rw [startLine_overrun freeA freeB]
    obtain ⟨trailers, path, asked⟩ := makeTrailer_frame i (startedLine i g slot s) .overrun 0 0 false false
      (s.setLane i ((s.lane i).overrun slot))
    rw [asked]
    refine ⟨⟨_, _, _, _, trailers, by rw [asking_lane, if_pos rfl, State.setLane_lane, if_pos rfl]; rfl⟩, fun j other => ?_⟩
    rw [asking_lane, if_neg other, State.setLane_lane, if_neg other]

/-- In a free buffer the line that starts is the one being assembled. -/
theorem startLine_ready (ready : (s.lane i).capture.Ready) : ∃ c : Capture,
    startLine i g slot s = s.setLane i { s.lane i with capture := c } ∧ c.assembler = .assembling slot ∧
    c.assemblingLine = some (startedLine i g slot s) ∧ c.counters = (s.lane i).capture.counters := by
  obtain freeA | ⟨busyA, freeB, notA⟩ := ready
  · exact ⟨_, startLine_bufA freeA, rfl, assemblingLine_of_bufA rfl, rfl⟩
  · exact ⟨_, startLine_bufB busyA freeB, rfl, assemblingLine_eq_some.2 (.inr ⟨rfl, notA⟩), rfl⟩

end Start

end Sys2Proof.Machine


/-! ### The parts of a write: drops and filling (R18 to R20, R23, R28) -/

namespace Sys2Proof.Machine

theorem State.modCapture_congr {s : State} {i : Fin 12} {f h : Capture → Capture}
    (same : f (s.lane i).capture = h (s.lane i).capture) : s.modCapture i f = s.modCapture i h := by
  simp only [State.modCapture, same]

/-! #### Leaving a line (R19, R20, R28) -/

section Drop
variable {i : Fin 12} {g : Geometry} {slot : Nat} {s : State} {status : TrailerStatus} {line : Line}

theorem dropAssembling_of_none (none_ : (s.lane i).capture.assemblingLine = none) : dropAssembling i status s = s := by
  simp only [dropAssembling, none_]

theorem dropAssembling_of_some (some_ : (s.lane i).capture.assemblingLine = some line) : dropAssembling i status s =
    makeTrailer i line status 0 0 false false (s.modCapture i fun c => c.putAssembling .free) := by
  simp only [dropAssembling, some_]

theorem dropAssembling_report (i : Fin 12) (status : TrailerStatus) (s : State) :
    (dropAssembling i status s).report = s.report := by
  cases line : (s.lane i).capture.assemblingLine with
  | none => rw [dropAssembling_of_none line]
  | some line' =>
    obtain ⟨_, _, asked⟩ := makeTrailer_frame i line' status 0 0 false false (s.modCapture i fun c => c.putAssembling .free)
    rw [dropAssembling_of_some line, asked]
    rfl

theorem dropAssembling_lane (some_ : (s.lane i).capture.assemblingLine = some line) : ∃ trailers,
    (dropAssembling i status s).lane i =
      { s.lane i with capture := { (s.lane i).capture.putAssembling .free with trailers := trailers } } := by
  obtain ⟨trailers, _, asked⟩ := makeTrailer_frame i line status 0 0 false false
    (s.modCapture i fun c => c.putAssembling .free)
  refine ⟨trailers, ?_⟩
  rw [dropAssembling_of_some some_, asked, asking_lane, if_pos rfl, State.modCapture_lane, if_pos rfl]

/-- The dropped line's trailer is made at once with room. -/
theorem dropAssembling_path (some_ : (s.lane i).capture.assemblingLine = some line)
    (geometry : (s.lane i).control.geometry = some g) (enabled : g.trailers = true) (room : Room 1 s)
    (none_ : (s.lane i).capture.trailers = []) : (dropAssembling i status s).path =
      s.path.inject (trailerWrite g line status 0 0 false false, .trailer i) := by
  have put : ((s.modCapture i fun c => c.putAssembling .free).lane i) =
      { s.lane i with capture := (s.lane i).capture.putAssembling .free } := by rw [State.modCapture_lane, if_pos rfl]
  rw [dropAssembling_of_some some_, makeTrailer_at_once (s := s.modCapture i fun c => c.putAssembling .free) (g := g)
      (by rw [put]; exact geometry) enabled room]
  · rfl
  · obtain ⟨_, _, frame⟩ := putAssembling_frame (s.lane i).capture .free
    rw [put, frame]
    exact none_

/-- What is counted and reported before a line is left: a RUNT, or the slip of a resync (R19, R20). -/
def leaving (i : Fin 12) (g : Geometry) (slot : Nat) (a : PartAction) (s : State) : State :=
  match a with
  | .resync => (s.emit (.lineSlip i g.strand slot (s.lane i).capture.nextSeq (s.strand g.strand).motion.coord
      s.clock)).modCapture i fun c => { c with counters := { c.counters with slip := bump c.counters.slip } }
  | _ => s.modCapture i fun c => { c with counters := { c.counters with runt := bump c.counters.runt } }

/-- The status of the line left. -/
def leftStatus (a : PartAction) : TrailerStatus := if a = .start then .runt else .slip

theorem leaving_frame (i : Fin 12) (g : Geometry) (slot : Nat) (a : PartAction) (s : State) :
    (leaving i g slot a s).path = s.path ∧ ∃ counters, (leaving i g slot a s).lane i =
      { s.lane i with capture := { (s.lane i).capture with counters := counters } } := by
  cases a <;> exact ⟨rfl, _, (State.modCapture_lane ..).trans (if_pos rfl)⟩

theorem leaving_start_counters : ((leaving i g slot .start s).lane i).capture.counters =
    { (s.lane i).capture.counters with runt := bump (s.lane i).capture.counters.runt } := by
  simp [leaving]

theorem leaving_resync_counters : ((leaving i g slot .resync s).lane i).capture.counters =
    { (s.lane i).capture.counters with slip := bump (s.lane i).capture.counters.slip } := by
  simp [leaving]

theorem leaving_assemblingLine (a : PartAction) :
    ((leaving i g slot a s).lane i).capture.assemblingLine = (s.lane i).capture.assemblingLine := by
  obtain ⟨_, _, lane⟩ := leaving_frame i g slot a s
  rw [lane]
  rfl

/-- The state in which the new line of a part starts. -/
def beforeStart (i : Fin 12) (g : Geometry) (slot : Nat) (a : PartAction) (s : State) : State :=
  match a with
  | .resync => dropAssembling i .slip (leaving i g slot .resync s)
  | _ => dropRunt i s

theorem enterSlot_starts {a : PartAction} (starts : a = .start ∨ a = .resync) :
    enterSlot i g slot a s = startLine i g slot (beforeStart i g slot a s) := by
  rcases starts with rfl | rfl <;> rfl

theorem beforeStart_of_line {a : PartAction} (starts : a = .start ∨ a = .resync)
    (some_ : (s.lane i).capture.assemblingLine = some line) :
    beforeStart i g slot a s = dropAssembling i (leftStatus a) (leaving i g slot a s) := by
  rcases starts with rfl | rfl
  · simp only [beforeStart, dropRunt, some_]
    rfl
  · rfl

theorem beforeStart_start_of_none (none_ : (s.lane i).capture.assemblingLine = none) :
    beforeStart i g slot .start s = s := by
  simp only [beforeStart, dropRunt, none_]

theorem beforeStart_resync_of_none (none_ : (s.lane i).capture.assemblingLine = none) :
    beforeStart i g slot .resync s = leaving i g slot .resync s :=
  dropAssembling_of_none (by rw [leaving_assemblingLine, none_])

/-- What the line start reads of the lane is as it was before. -/
structure SameStamp (l m : Lane) : Prop where
  control : m.control = l.control
  nextSeq : m.capture.nextSeq = l.capture.nextSeq
  arming : m.capture.arming = l.capture.arming
  phase : m.capture.phase = l.capture.phase
  phaseFresh : m.capture.phaseFresh = l.capture.phaseFresh

theorem beforeStart_stamp {a : PartAction} (starts : a = .start ∨ a = .resync) :
    SameStamp (s.lane i) ((beforeStart i g slot a s).lane i) := by
  obtain ⟨_, _, counted⟩ := leaving_frame i g slot a s
  cases line : (s.lane i).capture.assemblingLine with
  | none =>
    rcases starts with rfl | rfl
    · rw [beforeStart_start_of_none line]
      exact ⟨rfl, rfl, rfl, rfl, rfl⟩
    · rw [beforeStart_resync_of_none line, counted]
      exact ⟨rfl, rfl, rfl, rfl, rfl⟩
  | some line' =>
    obtain ⟨_, dropped⟩ := dropAssembling_lane (status := leftStatus a) ((leaving_assemblingLine a).trans line)
    obtain ⟨_, _, put⟩ := putAssembling_frame ((leaving i g slot a s).lane i).capture .free
    rw [beforeStart_of_line starts line, dropped, put, counted]
    exact ⟨rfl, rfl, rfl, rfl, rfl⟩

/-- After the drop a line can start. -/
theorem beforeStart_ready {a : PartAction} (starts : a = .start ∨ a = .resync)
    (some_ : (s.lane i).capture.assemblingLine = some line) :
    ((beforeStart i g slot a s).lane i).capture.Ready := by
  have line := (leaving_assemblingLine (i := i) (g := g) (slot := slot) (s := s) a).trans some_
  obtain ⟨_, dropped⟩ := dropAssembling_lane (status := leftStatus a) line
  rw [beforeStart_of_line starts some_, dropped]
  exact ready_of_dropped line

theorem beforeStart_counters {a : PartAction} (starts : a = .start ∨ a = .resync)
    (some_ : (s.lane i).capture.assemblingLine = some line) :
    ((beforeStart i g slot a s).lane i).capture.counters = ((leaving i g slot a s).lane i).capture.counters := by
  obtain ⟨_, dropped⟩ := dropAssembling_lane (status := leftStatus a) ((leaving_assemblingLine (g := g) (slot := slot) a).trans some_)
  rw [beforeStart_of_line starts some_, dropped]
  exact putAssembling_counters ..

theorem beforeStart_path {a : PartAction} (starts : a = .start ∨ a = .resync)
    (some_ : (s.lane i).capture.assemblingLine = some line) (geometry : (s.lane i).control.geometry = some g)
    (enabled : g.trailers = true) (room : Room 1 s) (none_ : (s.lane i).capture.trailers = []) :
    (beforeStart i g slot a s).path = s.path.inject (trailerWrite g line (leftStatus a) 0 0 false false, .trailer i) := by
  obtain ⟨path, _, counted⟩ := leaving_frame i g slot a s
  rw [beforeStart_of_line starts some_, dropAssembling_path (g := g) ((leaving_assemblingLine a).trans some_)
    (by rw [counted]; exact geometry) enabled (by unfold Room; rw [path]; exact room) (by rw [counted]; exact none_), path]

theorem beforeStart_resync_report :
    (beforeStart i g slot .resync s).report = (leaving i g slot .resync s).report := dropAssembling_report ..

theorem startLine_report (i : Fin 12) (g : Geometry) (slot : Nat) (s : State) : (startLine i g slot s).report = s.report := by
  by_cases freeA : (s.lane i).capture.bufA = .free
  · rw [startLine_bufA freeA]
    rfl
  by_cases freeB : (s.lane i).capture.bufB = .free
  · rw [startLine_bufB freeA freeB]
    rfl
  · obtain ⟨_, _, asked⟩ := makeTrailer_frame i (startedLine i g slot s) .overrun 0 0 false false
      (s.setLane i ((s.lane i).overrun slot))
    rw [startLine_overrun freeA freeB, asked]
    rfl

end Drop

/-! #### Copying (R18) -/

section Copying

/-- One beat copied: the bytes it enables, at the places of its beat. -/
theorem copyBeat_lookup (data : List Byte) (b : RingBeat) {bytes : List Host.Cell} (canon : canonical 0 bytes = true) (o : Nat) :
    lookupAt 0 (copyBeat data bytes b) o =
      if o / 32 = b.index ∧ b.enables.getLsbD (o % 32) = true then data.getD (32 * b.pos + o % 32) 0
      else lookupAt 0 bytes o := by
  have upTo (n : Nat) (most : n ≤ 32) :
      let m := (List.range n).foldl (fun m k =>
        if b.enables.getLsbD k then storeAt 0 m (32 * b.index + k) (data.getD (32 * b.pos + k) 0) else m) bytes
      canonical 0 m = true ∧ lookupAt 0 m o =
        if (o / 32 = b.index ∧ o % 32 < n) ∧ b.enables.getLsbD (o % 32) = true then data.getD (32 * b.pos + o % 32) 0
        else lookupAt 0 bytes o := by
    induction n with
    | zero => exact ⟨canon, by simp⟩
    | succ n ih =>
      obtain ⟨canon, ih⟩ := ih (by omega)
      simp only [List.range_succ, List.foldl_append, List.foldl_cons, List.foldl_nil]
      by_cases enabled : b.enables.getLsbD n = true
      · rw [if_pos enabled]
        refine ⟨canonical_storeAt _ _ _ _ canon, ?_⟩
        rw [lookupAt_storeAt_of_canonical _ _ _ _ _ canon]
        by_cases here : o = 32 * b.index + n
        · obtain rfl : n = o % 32 := by omega
          rw [if_pos here, if_pos ⟨⟨by omega, by omega⟩, enabled⟩]
        · rw [if_neg here, ih]
          refine if_congr (and_congr_left' ⟨fun ⟨beat, less⟩ => ⟨beat, by omega⟩, fun ⟨beat, less⟩ => ⟨beat, by omega⟩⟩) rfl rfl
      · rw [if_neg enabled]
        refine ⟨canon, ih.trans (if_congr (and_congr_left fun on => ?_) rfl rfl)⟩
        have other : o % 32 ≠ n := by rintro rfl; exact enabled on
        omega
  rw [copyBeat, (upTo 32 (Nat.le_refl _)).2]
  simp [Nat.mod_lt]

theorem canonical_copyBeat (data : List Byte) (b : RingBeat) {bytes : List Host.Cell} (canon : canonical 0 bytes = true) :
    canonical 0 (copyBeat data bytes b) = true :=
  canonical_foldl_copyBeat data [b] bytes canon

/-- Bytes of beats that the part does not write stand. -/
theorem copyBeats_other (data : List Byte) {beats : List RingBeat} {bytes : List Host.Cell} (canon : canonical 0 bytes = true)
    {o : Nat} (other : ∀ b ∈ beats, b.index ≠ o / 32) :
    lookupAt 0 (beats.foldl (copyBeat data) bytes) o = lookupAt 0 bytes o := by
  induction beats generalizing bytes with
  | nil => rfl
  | cons b beats ih =>
    rw [List.foldl_cons, ih (canonical_copyBeat data b canon) fun b' inBeats => other b' (List.mem_cons_of_mem _ inBeats),
      copyBeat_lookup data b canon, if_neg fun ⟨same, _⟩ => other b List.mem_cons_self same.symm]

/-- Bytes of a beat that the part writes are the enabled ones of its data. -/
theorem copyBeats_written (data : List Byte) {beats : List RingBeat} {bytes : List Host.Cell} (canon : canonical 0 bytes = true)
    (once : (beats.map (·.index)).Nodup) {b : RingBeat} (inBeats : b ∈ beats) {j : Nat} (small : j < 32) :
    lookupAt 0 (beats.foldl (copyBeat data) bytes) (32 * b.index + j) =
      if b.enables.getLsbD j then data.getD (32 * b.pos + j) 0 else lookupAt 0 bytes (32 * b.index + j) := by
  have beat : (32 * b.index + j) / 32 = b.index := by omega
  have place : (32 * b.index + j) % 32 = j := by omega
  induction beats generalizing bytes with
  | nil => cases inBeats
  | cons a beats ih =>
    rw [List.map_cons, List.nodup_cons] at once
    obtain ⟨fresh, once⟩ := once
    rcases List.mem_cons.1 inBeats with rfl | inBeats
    · rw [List.foldl_cons, copyBeats_other data (canonical_copyBeat data b canon), copyBeat_lookup data b canon, beat, place]
      · simp
      · intro c inBeats same
        exact fresh (List.mem_map.2 ⟨c, inBeats, same.trans beat⟩)
    · rw [List.foldl_cons, ih (canonical_copyBeat data a canon) once inBeats, copyBeat_lookup data a canon, beat,
        if_neg (c := b.index = a.index ∧ _) fun both => fresh (List.mem_map.2 ⟨b, inBeats, both.1⟩)]

end Copying

/-! #### Completion (R23) -/

section Fill
variable {i : Fin 12} {g : Geometry} {slot k : Nat} {beats : List RingBeat} {acc : TakeAcc} {line : Line}

/-- The lines fed, with the line of the part. -/
def TakeAcc.feeding (acc : TakeAcc) (i : Fin 12) (line : Line) : List LineId := acc.fed ++ [⟨i, line.arming, line.seq⟩]

theorem fillCurrent_assembling (assembler : (acc.s.lane i).capture.assembler = .assembling k)
    (assembling : (acc.s.lane i).capture.assemblingLine = some line) : fillCurrent i g slot beats acc =
      { acc with
        fed := acc.feeding i line
        s := if (line.fill beats acc.data).coverage.length = g.w / 16 then
            handOn i slot (line.fill beats acc.data)
              (acc.s.modCapture i fun c => c.putAssembling (.assembling (line.fill beats acc.data)))
          else acc.s.modCapture i fun c => c.putAssembling (.assembling (line.fill beats acc.data)) } := by
  simp only [fillCurrent, assembler, assembling]
  split_ifs <;> rfl

theorem fillCurrent_complete (assembler : (acc.s.lane i).capture.assembler = .complete k) :
    fillCurrent i g slot beats acc = { acc with s := countOutOfSeq i acc.s } := by
  simp only [fillCurrent, assembler]

theorem fillCurrent_discarding (assembler : (acc.s.lane i).capture.assembler = .discarding k) :
    fillCurrent i g slot beats acc = acc := by
  simp only [fillCurrent, assembler]

section HandOn
variable {s : State} {f : Line} (assembling : (s.lane i).capture.assemblingLine = some line)
include assembling

/-- A full line that stands marked is dropped. -/
theorem handOn_memError (marked : f.memError = true) :
    handOn i slot f (s.modCapture i fun c => c.putAssembling (.assembling f)) =
      makeTrailer i f .memError 0 0 false false
        (s.modCapture i fun c => { c.putAssembling .free with assembler := .complete slot }) := by
  simp only [handOn, if_pos marked, State.modCapture_modCapture]
  exact congrArg _ (State.modCapture_congr (by simp only [putAssembling_putAssembling assembling]))

/-- A full line waits while another is in processing. -/
theorem handOn_busy (clean : f.memError = false) (busy : (s.lane i).capture.inProcessing ≠ none) :
    handOn i slot f (s.modCapture i fun c => c.putAssembling (.assembling f)) =
      s.modCapture i fun c => { c.putAssembling (.waiting f) with assembler := .complete slot } := by
  have busy' : ((s.modCapture i fun c => c.putAssembling (.assembling f)).lane i).capture.busy = true := by
    rw [State.modCapture_lane, if_pos rfl, Capture.busy, putAssembling_inProcessing assembling]
    exact Option.isSome_iff_ne_none.2 busy
  simp only [handOn, if_neg (Bool.eq_false_iff.1 clean), if_pos busy', State.modCapture_modCapture]
  exact State.modCapture_congr (by simp only [putAssembling_putAssembling assembling])

/-- A full line is taken into processing while none is. -/
theorem handOn_idle (clean : f.memError = false) (idle : (s.lane i).capture.inProcessing = none) :
    handOn i slot f (s.modCapture i fun c => c.putAssembling (.assembling f)) = s.modCapture i fun c =>
      { c.putAssembling (.processing f (s.lane i).settingsCopy) with assembler := .complete slot } := by
  have idle' : ¬ ((s.modCapture i fun c => c.putAssembling (.assembling f)).lane i).capture.busy = true := by
    rw [State.modCapture_lane, if_pos rfl, Capture.busy, putAssembling_inProcessing assembling, idle]
    exact nofun
  have copy : ((s.modCapture i fun c => c.putAssembling (.assembling f)).lane i).settingsCopy = (s.lane i).settingsCopy := by
    rw [State.modCapture_lane, if_pos rfl]
    rfl
  simp only [handOn, if_neg (Bool.eq_false_iff.1 clean), if_neg idle', copy, State.modCapture_modCapture]
  exact State.modCapture_congr (by simp only [putAssembling_putAssembling assembling])

end HandOn

/-- The filling of a line that is not marked changes the line capture unit alone, and none of its counters. -/
theorem fillCurrent_clean (assembler : (acc.s.lane i).capture.assembler = .assembling k)
    (assembling : (acc.s.lane i).capture.assemblingLine = some line) (clean : line.memError = false) :
    ∃ c : Capture, fillCurrent i g slot beats acc =
      { acc with
        fed := acc.feeding i line, s := acc.s.setLane i { acc.s.lane i with capture := c } } ∧
      c.counters = (acc.s.lane i).capture.counters := by
  rw [fillCurrent_assembling assembler assembling]
  split_ifs with full
  · by_cases idle : (acc.s.lane i).capture.inProcessing = none
    · rw [handOn_idle assembling (by exact clean) idle]
      exact ⟨_, rfl, putAssembling_counters ..⟩
    · rw [handOn_busy assembling (by exact clean) idle]
      exact ⟨_, rfl, putAssembling_counters ..⟩
  · exact ⟨_, rfl, putAssembling_counters ..⟩

theorem fillCurrent_report : (fillCurrent i g slot beats acc).s.report = acc.s.report := by
  simp only [fillCurrent]
  split
  · next line _ _ =>
    split_ifs
    · simp only [handOn]
      split_ifs
      · obtain ⟨_, _, asked⟩ := makeTrailer_frame i (line.fill beats acc.data) .memError 0 0 false false
          ((acc.s.modCapture i fun c => c.putAssembling (.assembling (line.fill beats acc.data))).modCapture i
            fun c => { c.putAssembling .free with assembler := .complete slot })
        rw [asked]
        rfl
      · rfl
      · rfl
    · rfl
  · rfl
  · rfl

/-- A part that starts a line in a free buffer feeds it, and changes the line capture unit alone, and none of its counters. -/
theorem fillCurrent_startLine {b : State} {data : List Byte} {fed : List LineId} (ready : (b.lane i).capture.Ready) :
    ∃ c : Capture, fillCurrent i g slot beats ⟨startLine i g slot b, data, fed⟩ =
      ⟨b.setLane i { b.lane i with capture := c }, data,
        fed ++ [⟨i, (b.lane i).capture.arming, (b.lane i).capture.nextSeq⟩]⟩ ∧
      c.counters = (b.lane i).capture.counters := by
  obtain ⟨c, started, assembler, assembling, counters⟩ := startLine_ready (g := g) (slot := slot) ready
  have lane : (startLine i g slot b).lane i = { b.lane i with capture := c } := by
    rw [started, State.setLane_lane, if_pos rfl]
  obtain ⟨d, filled, same⟩ := fillCurrent_clean (g := g) (slot := slot) (beats := beats)
    (acc := ⟨startLine i g slot b, data, fed⟩) (k := slot) (by rw [lane]; exact assembler) (by rw [lane]; exact assembling) rfl
  refine ⟨d, filled.trans ?_, same.trans (by rw [lane]; exact counters)⟩
  have state : (startLine i g slot b).setLane i { b.lane i with capture := d } = b.setLane i { b.lane i with capture := d } := by
    rw [started, State.setLane_setLane]
  simp only [lane, state]
  rfl

end Fill

end Sys2Proof.Machine


/-! ### The parts of a write: what each part does -/

namespace Sys2Proof.Machine

theorem mem_insertNums {x : Nat} (new old : List Nat) : x ∈ new.foldl insertNum old ↔ x ∈ old ∨ x ∈ new := by
  induction new generalizing old with
  | nil => simp
  | cons n new ih =>
    rw [List.foldl_cons, ih, mem_insertNum, List.mem_cons]
    tauto

theorem substitute_congr {l m : Lane} (control : m.control = l.control) (phase : m.capture.phase = l.capture.phase)
    (g : Geometry) (beats : List RingBeat) (data : List Byte) : substitute m g beats data = substitute l g beats data := by
  simp only [substitute, control, phase]

section Parts
variable {i : Fin 12} {g : Geometry} {slot : Nat} {beats : List RingBeat} {acc : TakeAcc} {zero : Bool}

/-! #### The data-area beats of a part -/

theorem handleData_current (current : partAction (acc.s.lane i).capture.assembler g.n slot zero = .current) :
    handleData i g slot zero beats acc =
      fillCurrent i g slot beats { acc with data := substitute (acc.s.lane i) g beats acc.data } := by
  simp only [handleData, current]
  rfl

theorem handleData_outOfSeq (out : partAction (acc.s.lane i).capture.assembler g.n slot zero = .outOfSeq) :
    handleData i g slot zero beats acc =
      { acc with s := countOutOfSeq i acc.s, data := substitute (acc.s.lane i) g beats acc.data } := by
  simp only [handleData, out]
  rfl

/-- The data of a part that starts a line: substituted at the phase that the start leaves (R30). -/
def startedData (i : Fin 12) (g : Geometry) (beats : List RingBeat) (acc : TakeAcc) : List Byte :=
  substitute { acc.s.lane i with capture := { (acc.s.lane i).capture with phase := (acc.s.lane i).phaseAtLineStart } } g beats
    acc.data

theorem SameStamp.phaseAtLineStart {l m : Lane} (same : SameStamp l m) : m.phaseAtLineStart = l.phaseAtLineStart := by
  simp only [Lane.phaseAtLineStart, same.control, same.phase, same.phaseFresh]

theorem handleData_starts {a : PartAction} (action : partAction (acc.s.lane i).capture.assembler g.n slot zero = a)
    (starts : a = .start ∨ a = .resync) : handleData i g slot zero beats acc = fillCurrent i g slot beats
      ⟨startLine i g slot (beforeStart i g slot a acc.s), startedData i g beats acc, acc.fed⟩ := by
  have entered : handleData i g slot zero beats acc = fillCurrent i g slot beats
      ⟨enterSlot i g slot a acc.s, substitute ((enterSlot i g slot a acc.s).lane i) g beats acc.data, acc.fed⟩ := by
    simp only [handleData, action]
    rcases starts with rfl | rfl <;> rfl
  have stamp := beforeStart_stamp (i := i) (g := g) (slot := slot) (s := acc.s) starts
  obtain ⟨⟨_, _, _, _, _, lane⟩, _⟩ := startLine_frame i g slot (beforeStart i g slot a acc.s)
  rw [entered, enterSlot_starts starts]
  exact congrArg (fun data => fillCurrent i g slot beats ⟨_, data, _⟩)
    (substitute_congr (by rw [lane]; exact stamp.control) (by rw [lane]; exact stamp.phaseAtLineStart) ..)

/-- Where the line before is dropped, or a buffer is free, the new line is fed. -/
theorem handleData_starts_ready {a : PartAction} (action : partAction (acc.s.lane i).capture.assembler g.n slot zero = a)
    (starts : a = .start ∨ a = .resync) (ready : ((beforeStart i g slot a acc.s).lane i).capture.Ready) :
    ∃ c : Capture, handleData i g slot zero beats acc =
      ⟨(beforeStart i g slot a acc.s).setLane i { (beforeStart i g slot a acc.s).lane i with capture := c },
        startedData i g beats acc, acc.fed ++ [⟨i, (acc.s.lane i).capture.arming, (acc.s.lane i).capture.nextSeq⟩]⟩ ∧
      c.counters = ((beforeStart i g slot a acc.s).lane i).capture.counters := by
  have stamp := beforeStart_stamp (i := i) (g := g) (slot := slot) (s := acc.s) starts
  obtain ⟨c, filled, counters⟩ := fillCurrent_startLine (g := g) (slot := slot) (beats := beats)
    (data := startedData i g beats acc) (fed := acc.fed) ready
  refine ⟨c, ?_, counters⟩
  rw [handleData_starts action starts, filled, stamp.arming, stamp.nextSeq]

theorem handleData_report : (handleData i g slot zero beats acc).s.report =
    (enterSlot i g slot (partAction (acc.s.lane i).capture.assembler g.n slot zero) acc.s).report := by
  simp only [handleData]
  split
  · rfl
  all_goals exact fillCurrent_report

/-! #### Whole parts -/

theorem beginsWritten_of_written (written : ∀ b ∈ beats, b.written = true) :
    beginsWritten beats = beats.head?.any fun b => b.index == 0 := by
  cases beats with
  | nil => rfl
  | cons b => simp [beginsWritten, written b List.mem_cons_self]

theorem dataBeatsOf_written (written : ∀ b ∈ beats, b.written = true) :
    dataBeatsOf g beats = beats.filter fun b => decide (b.index < g.w / 16) := by
  rw [dataBeatsOf, List.filter_eq_self.2 written]

theorem handlePart_data (some_ : beats ≠ []) (inside : ∀ b ∈ beats, b.written = true ∧ b.index < g.w / 16) :
    handlePart i g acc (slot, beats) = handleData i g slot (beats.head?.any fun b => b.index == 0) beats acc := by
  rw [handlePart_of_data inside, handledData_of_some (by rw [dataBeatsOf_eq_self inside]; exact some_),
    dataBeatsOf_eq_self inside, beginsWritten_of_written fun b inBeats => (inside b inBeats).1]

theorem filter_written_twice (beats : List RingBeat) :
    (beats.filter (·.written)).filter (·.written) = beats.filter (·.written) := by simp

/-- Beats not written count for nothing, but a part whose first beat is not written resyncs nothing (R16, R20). -/
theorem handlePart_written (ascend : beats.Pairwise fun a b => a.index < b.index) :
    handlePart i g acc (slot, beats) = handlePart i g acc (slot, beats.filter (·.written)) := by
  have begins : beginsWritten (beats.filter (·.written)) = beginsWritten beats := by
    cases beats with
    | nil => rfl
    | cons b rest =>
      by_cases written : b.written = true
      · rw [List.filter_cons_of_pos written]
        rfl
      · rw [List.filter_cons_of_neg written]
        cases kept : rest.filter (·.written) with
        | nil => simp [beginsWritten, written]
        | cons c =>
          have later := (List.pairwise_cons.1 ascend).1 c (List.mem_of_mem_filter (kept ▸ List.mem_cons_self))
          simp [beginsWritten, written, show c.index ≠ 0 by omega]
  have data : dataBeatsOf g (beats.filter (·.written)) = dataBeatsOf g beats :=
    congrArg (List.filter _) (filter_written_twice beats)
  have counted : dataCounted i g slot (beats.filter (·.written)) acc = dataCounted i g slot beats acc := by
    rw [dataCounted, data, begins, dataCounted]
  have handled : handledData i g slot (beats.filter (·.written)) acc = handledData i g slot beats acc := by
    rw [handledData, data, begins, handledData]
  rw [handlePart_eq, handlePart_eq, counted, handled, countBeyond, countBeyond, filter_written_twice]

theorem countedOutOfSeq_eq_false {a : Assembler} (inSeq : partAction a g.n slot zero ≠ .outOfSeq) (open_ : a ≠ .complete slot) :
    countedOutOfSeq a (partAction a g.n slot zero) = false := by
  cases action : partAction a g.n slot zero with
  | outOfSeq => exact absurd action inSeq
  | start => rfl
  | resync => rfl
  | current =>
    cases a with
    | complete c =>
      rw [partAction_of_slot (c := c) rfl] at action
      split_ifs at action with same
      exact absurd (by rw [same]) open_
    | _ => rfl

/-- A part out of sequence, or into a COMPLETE slot, is counted once and copies nothing (R18, R20, log 26). -/
theorem handlePart_counted (inside : ∀ b ∈ beats, b.written = true ∧ b.index ≠ g.w / 16)
    (some_ : ∃ b ∈ beats, b.index < g.w / 16)
    (out : partAction (acc.s.lane i).capture.assembler g.n slot (beats.head?.any fun b => b.index == 0) = .outOfSeq ∨
      (acc.s.lane i).capture.assembler = .complete slot) :
    handlePart i g acc (slot, beats) = { acc with
      data := substitute (acc.s.lane i) g (beats.filter fun b => decide (b.index < g.w / 16)) acc.data
      s := countOutOfSeq i acc.s } := by
  have written : ∀ b ∈ beats, b.written = true := fun b inBeats => (inside b inBeats).1
  have some_ : dataBeatsOf g beats ≠ [] := fun empty => by
    obtain ⟨b, inBeats, small⟩ := some_
    exact absurd (dataBeatsOf_eq_nil_iff.1 empty b inBeats (written b inBeats)) (by omega)
  rw [← beginsWritten_of_written written] at out
  have counted : dataCounted i g slot beats acc = true := by
    rw [dataCounted, Bool.and_eq_true]
    refine ⟨by simpa using some_, ?_⟩
    rcases out with out | complete
    · rw [out]
      rfl
    · rw [partAction_current (by rw [complete]; rfl), complete]
      rfl
  rw [handlePart_eq, counted, countBeyond_counted fun b inBeats _ => (inside b inBeats).2, handledData_of_some some_,
    dataBeatsOf_written written]
  rcases out with out | complete
  · exact handleData_outOfSeq out
  · rw [handleData_current (partAction_current (by rw [complete]; rfl))]
    exact fillCurrent_complete (k := slot) complete

/-- A padding beat behind data beats that do not count themselves counts (R21, logs 26 and 41). -/
theorem handlePart_append_padding {pad : RingBeat} (some_ : beats ≠ [])
    (inside : ∀ b ∈ beats, b.written = true ∧ b.index < g.w / 16) (written : pad.written = true) (beyond : g.w / 16 < pad.index)
    (inSeq : partAction (acc.s.lane i).capture.assembler g.n slot (beats.head?.any fun b => b.index == 0) ≠ .outOfSeq)
    (open_ : (acc.s.lane i).capture.assembler ≠ .complete slot) :
    handlePart i g acc (slot, beats ++ [pad]) = { handlePart i g acc (slot, beats) with
      s := countOutOfSeq i (handlePart i g acc (slot, beats)).s } := by
  rw [← beginsWritten_of_written fun b inBeats => (inside b inBeats).1] at inSeq
  have uncounted : dataCounted i g slot (beats ++ [pad]) acc = false := by
    rw [dataCounted_append_beyond some_ (by omega), dataCounted, countedOutOfSeq_eq_false inSeq open_, Bool.and_false]
  have noTrailer : ∀ b ∈ beats ++ [pad], b.written = true → b.index ≠ g.w / 16 := by
    intro b inBeats _
    rcases List.mem_append.1 inBeats with inBeats | isPad
    · exact Nat.ne_of_lt (inside b inBeats).2
    · rw [List.mem_singleton.1 isPad]
      omega
  rw [handlePart_of_data inside, handlePart_eq, uncounted, countBeyond_padding noTrailer ⟨pad, by simp, written, beyond⟩,
    handledData_append_beyond some_ (by omega)]

theorem handlePart_trailer (beyond : ∀ b ∈ beats, b.written = true ∧ g.w / 16 ≤ b.index)
    (trailer : ∃ b ∈ beats, b.index = g.w / 16) :
    handlePart i g acc (slot, beats) = { acc with s := countTrailerWrite i acc.s } := by
  obtain ⟨b, inBeats, trailer⟩ := trailer
  rw [handlePart_eq, countBeyond_trailer ⟨b, inBeats, (beyond b inBeats).1, trailer⟩,
    handledData_of_empty (dataBeatsOf_eq_nil_iff.2 fun b inBeats _ => (beyond b inBeats).2)]

theorem handlePart_padding (some_ : beats ≠ []) (beyond : ∀ b ∈ beats, b.written = true ∧ g.w / 16 ≤ b.index)
    (padding : ∀ b ∈ beats, b.index ≠ g.w / 16) :
    handlePart i g acc (slot, beats) = { acc with s := countOutOfSeq i acc.s } := by
  have empty : dataBeatsOf g beats = [] := dataBeatsOf_eq_nil_iff.2 fun b inBeats _ => (beyond b inBeats).2
  obtain ⟨b, inBeats⟩ := List.exists_mem_of_ne_nil _ some_
  have uncounted : dataCounted i g slot beats acc = false := by simp [dataCounted, empty]
  rw [handlePart_eq, uncounted, countBeyond_padding (fun b inBeats _ => padding b inBeats)
    ⟨b, inBeats, (beyond b inBeats).1, lt_of_le_of_ne (beyond b inBeats).2 (padding b inBeats).symm⟩,
    handledData_of_empty empty]

/-! #### Filling the current slot -/

variable {line : Line}

/-- What a part in the slot being assembled leaves (R18, R23). -/
theorem handleData_fills (assembler : (acc.s.lane i).capture.assembler = .assembling slot)
    (assembling : (acc.s.lane i).capture.assemblingLine = some line) :
    let r := handleData i g slot zero beats acc
    let data := substitute (acc.s.lane i) g beats acc.data
    let f := line.fill beats data
    r.data = data ∧ r.fed = acc.feeding i line ∧
    (f.coverage.length ≠ g.w / 16 → r.s = acc.s.modCapture i fun c => c.putAssembling (.assembling f)) ∧
    (f.coverage.length = g.w / 16 → line.memError = false → (acc.s.lane i).capture.inProcessing = none →
      r.s = acc.s.modCapture i fun c =>
        { c.putAssembling (.processing f (acc.s.lane i).settingsCopy) with assembler := .complete slot }) ∧
    (f.coverage.length = g.w / 16 → line.memError = false → (acc.s.lane i).capture.inProcessing ≠ none →
      r.s = acc.s.modCapture i fun c => { c.putAssembling (.waiting f) with assembler := .complete slot }) ∧
    (f.coverage.length = g.w / 16 → line.memError = true → r.s = makeTrailer i f .memError 0 0 false false
      (acc.s.modCapture i fun c => { c.putAssembling .free with assembler := .complete slot })) := by
  intro r data f
  have filled : r = { acc with
      data := data
      fed := acc.feeding i line
      s := if f.coverage.length = g.w / 16 then
          handOn i slot f (acc.s.modCapture i fun c => c.putAssembling (.assembling f))
        else acc.s.modCapture i fun c => c.putAssembling (.assembling f) } :=
    (handleData_current (partAction_current (by rw [assembler]; rfl))).trans (fillCurrent_assembling assembler assembling)
  rw [filled]
  refine ⟨rfl, rfl, fun part => if_neg part, fun full clean idle => (if_pos full).trans ?_,
    fun full clean busy => (if_pos full).trans ?_, fun full marked => (if_pos full).trans ?_⟩
  · exact handOn_idle assembling clean idle
  · exact handOn_busy assembling clean busy
  · exact handOn_memError assembling marked

/-- What a part that starts a line in buffer A leaves (R17, R18, R22, R23). -/
theorem handleData_fresh (start : partAction (acc.s.lane i).capture.assembler g.n slot zero = .start)
    (none_ : (acc.s.lane i).capture.assemblingLine = none) (free : (acc.s.lane i).capture.bufA = .free) :
    let r := handleData i g slot zero beats acc
    let f := (startedLine i g slot acc.s).fill beats (startedData i g beats acc)
    let c := (acc.s.lane i).capture
    let started := (acc.s.lane i).started
    r.fed = acc.fed ++ [⟨i, c.arming, c.nextSeq⟩] ∧
    (f.coverage.length ≠ g.w / 16 → r.s = acc.s.modCapture i fun _ => { started with
      bufA := .assembling f, assembler := .assembling slot }) ∧
    (f.coverage.length = g.w / 16 → c.inProcessing = none → r.s = acc.s.modCapture i fun _ => { started with
      bufA := .processing f (acc.s.lane i).settingsCopy, assembler := .complete slot }) ∧
    (f.coverage.length = g.w / 16 → c.inProcessing ≠ none → r.s = acc.s.modCapture i fun _ => { started with
      bufA := .waiting f, assembler := .complete slot }) := by
  intro r f c started
  have state : startLine i g slot (beforeStart i g slot .start acc.s) = acc.s.modCapture i fun _ =>
      { started with bufA := .assembling (startedLine i g slot acc.s), assembler := .assembling slot } := by
    rw [beforeStart_start_of_none none_, startLine_bufA free]
    rfl
  have lane := (State.modCapture_lane acc.s i i fun _ =>
    { started with bufA := .assembling (startedLine i g slot acc.s), assembler := .assembling slot }).trans (if_pos rfl)
  have entered := handleData_starts (beats := beats) start (.inl rfl)
  rw [state] at entered
  have assembling : ((acc.s.modCapture i fun _ => { started with
      bufA := .assembling (startedLine i g slot acc.s), assembler := .assembling slot }).lane i).capture.assemblingLine =
      some (startedLine i g slot acc.s) := by
    rw [lane]
    exact assemblingLine_of_bufA rfl
  have filled := entered.trans (fillCurrent_assembling (k := slot) (by rw [lane]) assembling)
  have inProcessing : ((acc.s.modCapture i fun _ => { started with
      bufA := .assembling (startedLine i g slot acc.s), assembler := .assembling slot }).lane i).capture.inProcessing =
      c.inProcessing := by
    rw [lane]
    simp only [Capture.inProcessing, c, free, started, Lane.started]
    cases (acc.s.lane i).capture.bufB <;> rfl
  have put (b : Buffer) : ({ started with
      bufA := .assembling (startedLine i g slot acc.s), assembler := .assembling slot } : Capture).putAssembling b =
      { started with bufA := b, assembler := .assembling slot } := putAssembling_bufA b rfl
  have fed : r.fed = acc.fed ++ [⟨i, c.arming, c.nextSeq⟩] := congrArg TakeAcc.fed filled
  refine ⟨fed, fun part => ?_, fun full idle => ?_, fun full busy => ?_⟩ <;>
    refine (congrArg TakeAcc.s filled).trans ?_
  · refine (if_neg part).trans ?_
    simp only [State.modCapture_modCapture, put]
    rfl
  · refine ((if_pos full).trans (handOn_idle assembling rfl (inProcessing.trans idle))).trans ?_
    simp only [State.modCapture_modCapture, put, lane]
    rfl
  · refine ((if_pos full).trans (handOn_busy assembling rfl (by rw [inProcessing]; exact busy))).trans ?_
    simp only [State.modCapture_modCapture, put]
    rfl

end Parts

/-! #### O33 -/

/-- Settles O33. -/
theorem partsStartFillOrResyncLines : Obligations.PartsStartFillOrResyncLines := by
  refine ⟨fun n slot c zero a two inside => ⟨rfl, fun at_ => ?_⟩, fun i g slot s => ?_,
    fun i line status kept obscured overflow uncovered s g geometry => ⟨makeTrailer_of_disabled geometry,
      makeTrailer_at_once geometry, makeTrailer_waits geometry, fun waits on => makeTrailer_stands geometry on waits⟩,
    fun i g slot beats acc ascend => ?_, fun l beats data tidy once => ?_, fun i g slot beats acc some_ inside => ?_,
    fun i g slot beats acc inside some_ => handlePart_counted inside some_,
    fun i g slot beats pad acc some_ inside written beyond => handlePart_append_padding some_ inside written beyond,
    fun i g slot beats acc some_ beyond => ⟨handlePart_trailer beyond, handlePart_padding some_ beyond⟩⟩
  · have current : a.slot? = some c := by rcases at_ with rfl | rfl | rfl <;> rfl
    simp only [partAction_of_slot current]
    refine ⟨fun same => if_pos same, ?_, fun notCurrent notNext => ?_⟩
    · rintro rfl
      rw [if_neg (next_slot_ne two inside), if_pos rfl]
    · simp only [if_neg notCurrent, if_neg notNext]
      exact ⟨rfl, rfl⟩
  · intro c line after
    obtain ⟨⟨bufA, bufB, assembler, counters, trailers, lane⟩, others⟩ := startLine_frame i g slot s
    have capture : after = { (s.lane i).started with
        bufA := bufA, bufB := bufB, assembler := assembler, counters := counters, trailers := trailers } := by
      simp only [after, lane]
    rw [capture]
    refine ⟨rfl, rfl, fun t state test => ⟨phaseAtLineStart_test state test, ?_⟩,
      fun state => ⟨phaseAtLineStart_other state, ?_⟩, startLine_bufA, startLine_bufB, startLine_overrun, others⟩
    · exact (freshAfterLineStart_eq _).trans (if_pos state)
    · exact (freshAfterLineStart_eq _).trans (if_neg state)
  · have same : (beats.filter fun b => decide (b.enables ≠ 0)) = beats.filter (·.written) :=
      List.filter_congr fun b _ => by simp [RingBeat.written, bne, beq_eq_decide]
    rw [same]
    exact handlePart_written ascend
  · intro f
    obtain ⟨canon, _⟩ := Line.tidy_iff.1 tidy
    refine ⟨rfl, Line.fill_tidy tidy beats data, fun x => ?_, fun b inBeats j small => copyBeats_written data canon once inBeats small,
      fun o other => copyBeats_other data canon other⟩
    exact (mem_insertNums _ _).trans (or_congr_right List.mem_map)
  · intro l c data zero action r coord
    have handled : r = handleData i g slot zero beats acc := handlePart_data some_ inside
    rw [handled]
    refine ⟨fun discarding => ?_, fun line assembler assembling => handleData_fills assembler assembling, ?_,
      fun line starts assembling geometry enabled room none_ => ?_, fun line start assembling => ?_, fun resync some_ => ?_,
      fun resync room => ?_⟩
    · rw [handleData_current (partAction_current (by rw [discarding]; rfl))]
      exact fillCurrent_discarding (k := slot) discarding
    · intro test phase started
      have phases : phase = l.phaseAtLineStart := by
        simp only [phase, test]
        cases unset : l.control.test with
        | none => exact (phaseAtLineStart_unset unset).symm
        | some t =>
          by_cases state : l.control.state = .test
          · rw [phaseAtLineStart_test state unset]
            simp only [state, true_and, c, l]
            cases (acc.s.lane i).capture.phaseFresh <;> rfl
          · rw [phaseAtLineStart_other state]
            exact if_neg fun both => state both.1
      have datas : started = startedData i g beats acc := by
        simp only [started, phases]
        rfl
      refine ⟨fun starts => ?_, fun start none_ free => ?_⟩
      · rw [datas]
        rcases starts with start | resync
        · rw [handleData_starts start (.inl rfl), fillCurrent_data]
        · rw [handleData_starts resync (.inr rfl), fillCurrent_data]
      · have fresh : (if test then false else c.phaseFresh) = l.freshAfterLineStart := (freshAfterLineStart_eq l).symm
        rw [datas, phases, fresh]
        exact handleData_fresh start none_ free
    · obtain ⟨d, entered, _⟩ := handleData_starts_ready (beats := beats) rfl starts (beforeStart_ready starts assembling)
      rw [entered]
      exact ⟨beforeStart_path starts assembling geometry enabled room none_, rfl⟩
    · obtain ⟨d, entered, counters⟩ := handleData_starts_ready (beats := beats) start (.inl rfl)
        (beforeStart_ready (.inl rfl) assembling)
      rw [entered, State.setLane_lane, if_pos rfl]
      exact counters.trans ((beforeStart_counters (.inl rfl) assembling).trans leaving_start_counters)
    · have ready : ((beforeStart i g slot .resync acc.s).lane i).capture.Ready ∧
          ((beforeStart i g slot .resync acc.s).lane i).capture.counters =
            ((leaving i g slot .resync acc.s).lane i).capture.counters := by
        cases assembling : c.assemblingLine with
        | some line => exact ⟨beforeStart_ready (.inr rfl) assembling, beforeStart_counters (.inr rfl) assembling⟩
        | none =>
          obtain ⟨_, _, lane⟩ := leaving_frame i g slot .resync acc.s
          rw [beforeStart_resync_of_none assembling, lane]
          exact ⟨.inl (some_.resolve_left fun other => other assembling), rfl⟩
      obtain ⟨d, entered, counters⟩ := handleData_starts_ready (beats := beats) resync (.inr rfl) ready.1
      rw [entered, State.setLane_lane, if_pos rfl]
      exact counters.trans (ready.2.trans leaving_resync_counters)
    · have entered : (handleData i g slot zero beats acc).s.report = (leaving i g slot .resync acc.s).report := by
        rw [handleData_report, show partAction _ _ _ _ = .resync from resync, enterSlot_starts (.inr rfl), startLine_report,
          beforeStart_resync_report]
      rw [entered]
      exact congrArg ReportUnit.events (ReportUnit.emit_of_room room)

end Sys2Proof.Machine


/-! ### The track table on a line (R68 to R77) -/

namespace Sys2Proof.Machine

/-! #### Serials (R68) -/

section Serials
variable {used : List Nat} {n : Nat}

/-- The serials tried, as numbers. -/
theorem serialAfter_iterate (n k : Nat) (few : k ≤ 25) : serialAfter^[k] n =
    if 4294967295 < n then (if k = 0 then n else k) else if n + k ≤ 4294967295 then n + k else n + k - 4294967295 := by
  induction k with
  | zero =>
    rw [Function.iterate_zero, id]
    split_ifs <;> omega
  | succ k ih =>
    rw [Function.iterate_succ_apply', ih (by omega), serialAfter, top32]
    clear ih
    by_cases above : 4294967295 < n
    · rcases Nat.eq_zero_or_pos k with rfl | later
      · simp only [if_pos above, if_true, if_pos (Nat.le_of_lt above)]
        rfl
      · simp only [if_pos above, if_neg (Nat.ne_of_gt later), if_neg (show ¬ 4294967295 ≤ k by omega), Nat.add_one_ne_zero,
          if_false]
    · simp only [if_neg above]
      by_cases below : n + k ≤ 4294967295
      · simp only [if_pos below]
        split_ifs <;> omega
      · simp only [if_neg below]
        split_ifs <;> omega

/-- The first 25 serials tried are different. -/
theorem serialAfter_iterate_injOn (n : Nat) : Set.InjOn (fun k => serialAfter^[k] n) (Finset.range 25) := by
  intro j inJ k inK same
  have inJ : j < 25 := Finset.mem_range.1 inJ
  have inK : k < 25 := Finset.mem_range.1 inK
  simp only [serialAfter_iterate n j (by omega), serialAfter_iterate n k (by omega)] at same
  split_ifs at same <;> omega

/-- The search ends at the first serial not held, or at the end of its tries. -/
theorem freeSerial_spec (used : List Nat) (tries n : Nat) : ∃ k ≤ tries, freeSerial used tries n = serialAfter^[k] n ∧
    (∀ j < k, serialAfter^[j] n ∈ used) ∧ (k < tries → serialAfter^[k] n ∉ used) := by
  induction tries generalizing n with
  | zero => exact ⟨0, Nat.le_refl _, rfl, nofun, nofun⟩
  | succ tries ih =>
    by_cases held : n ∈ used
    · obtain ⟨k, most, found, before, free⟩ := ih (serialAfter n)
      refine ⟨k + 1, by omega, ?_, ?_, fun less => free (by omega)⟩
      · rw [freeSerial, if_pos (by simpa using held), found]
        rfl
      · rintro (_ | j) less
        · exact held
        · exact before j (by omega)
    · exact ⟨0, Nat.zero_le _, if_neg (by simpa using held), nofun, fun _ => held⟩

/-- Of 25 serials a table of fewer than 24 tracks leaves one free (R68). -/
theorem freeSerial_free (few : used.length < 24) : ∃ k, freeSerial used 25 n = serialAfter^[k] n ∧
    serialAfter^[k] n ∉ used ∧ ∀ j < k, serialAfter^[j] n ∈ used := by
  obtain ⟨k, most, found, before, free⟩ := freeSerial_spec used 25 n
  refine ⟨k, found, free (lt_of_le_of_ne most ?_), before⟩
  rintro rfl
  have held : (Finset.range 25).image (fun j => serialAfter^[j] n) ⊆ used.toFinset := by
    intro serial inImage
    obtain ⟨j, inRange, rfl⟩ := Finset.mem_image.1 inImage
    exact List.mem_toFinset.2 (before j (Finset.mem_range.1 inRange))
  have card := Finset.card_le_card held
  rw [Finset.card_image_of_injOn (serialAfter_iterate_injOn n), Finset.card_range] at card
  have := used.toFinset_card_le
  omega

theorem freeSerial_of_free (tries : Nat) (free : n ∉ used) : freeSerial used tries n = n := by
  cases tries with
  | zero => rfl
  | succ tries => exact if_neg (by simpa using free)

end Serials

/-! #### One segment (R71 to R74) -/

section Take
variable {gap coord first : Nat} {test : Bool} {sg : Segment} {m : LineTable}

/-- The reference span, widened by LINK_GAP on both sides, shares a column with the segment (R71). -/
theorem matches_iff {x : Track} (span : x.r0 ≤ x.r1) (columns : sg.c0 ≤ sg.c1) : x.matches gap sg = true ↔
    sg.zone = x.zone ∧ ∃ n : Int, sg.c0 ≤ n ∧ n ≤ sg.c1 ∧ (x.r0 : Int) - gap ≤ n ∧ n ≤ x.r1 + gap := by
  simp only [Track.matches, Bool.and_eq_true, beq_iff_eq, decide_eq_true_eq, and_assoc, eq_comm (a := x.zone)]
  refine and_congr_right fun _ => ⟨fun ⟨low, high⟩ => ⟨max (sg.c0 : Int) ((x.r0 : Int) - gap), ?_⟩, fun ⟨n, _⟩ => ?_⟩
  · omega
  · omega

theorem extendOldest_of_none {l : List Track} (none_ : ∀ x ∈ l, x.matches gap sg = false) :
    extendOldest gap test sg l = none := by
  induction l with
  | nil => rfl
  | cons x l ih =>
    rw [extendOldest, if_neg (by simp [none_ x List.mem_cons_self]), ih fun y inL => none_ y (List.mem_cons_of_mem _ inL)]
    rfl

theorem extendOldest_of_match {x : Track} {pre post : List Track} (meets : x.matches gap sg = true)
    (before : ∀ y ∈ pre, y.matches gap sg = false) : extendOldest gap test sg (pre ++ x :: post) =
      some (pre ++ (((post.filter fun y => y.matches gap sg).foldl Track.merge x).add sg test) ::
        post.filter fun y => !y.matches gap sg) := by
  induction pre with
  | nil => exact if_pos meets
  | cons y pre ih =>
    rw [List.cons_append, extendOldest, if_neg (by simp [before y List.mem_cons_self]),
      ih fun z inPre => before z (List.mem_cons_of_mem _ inPre)]
    rfl

theorem take_full (none_ : ∀ x ∈ m.old, x.matches gap sg = false) (full : 24 ≤ m.old.length + m.fresh.length) :
    m.take gap coord first test sg = { m with trackFull := bump m.trackFull } := by
  simp only [LineTable.take, extendOldest_of_none none_, if_neg (Nat.not_lt.2 full)]

/-- A segment that matches no track opens one (R72). -/
theorem take_opens (none_ : ∀ x ∈ m.old, x.matches gap sg = false) (room : m.old.length + m.fresh.length < 24) :
    m.take gap coord first test sg = { m with
      fresh := m.fresh ++ [openTrack (freeSerial ((m.old ++ m.fresh).map (·.serial)) 25 m.nextSerial) coord first test sg]
      nextSerial := serialAfter (freeSerial ((m.old ++ m.fresh).map (·.serial)) 25 m.nextSerial) } := by
  simp only [LineTable.take, extendOldest_of_none none_, if_pos room]

/-- A segment extends the oldest track it matches, the younger ones merged into it first (R73, R74). -/
theorem take_extends {x : Track} {pre post : List Track} (old : m.old = pre ++ x :: post) (meets : x.matches gap sg = true)
    (before : ∀ y ∈ pre, y.matches gap sg = false) : m.take gap coord first test sg = { m with
      old := pre ++ (((post.filter fun y => y.matches gap sg).foldl Track.merge x).add sg test) ::
        post.filter fun y => !y.matches gap sg } := by
  simp only [LineTable.take, old, extendOldest_of_match meets before]

end Take

/-! #### The end of the line (R75 to R77) -/

section Line
variable {m : TrackTable} {d : Detect} {coord first : Nat} {test : Bool} {sg : Segment}

/-- A track that the line did not extend, aged (R77). -/
def Track.aged (x : Track) : Track := { x with gap := x.gap + 1 }

theorem update_of_none {x : Track} (none_ : x.newSpan = none) : x.update coord = x.aged := by
  unfold Track.update
  split
  · simp_all
  · rfl

theorem update_of_some {x : Track} {span : Nat × Nat} (some_ : x.newSpan = some span) :
    x.update coord = x.endLine coord span := by
  simp only [Track.update, some_]

/-- The tracks of a list that a line does not extend and that stay open. -/
def keptTracks (d : Detect) (l : List Track) : List Track := (l.map Track.aged).filter fun x => decide (x.gap ≤ d.gapLines)

/-- The tracks of a list that a line does not extend and that close. -/
def closedTracks (d : Detect) (l : List Track) : List Track := (l.map Track.aged).filter fun x => decide (d.gapLines < x.gap)

theorem not_closes (d : Detect) : (fun x : Track => !x.closes d.gapLines) = fun x => decide (x.gap ≤ d.gapLines) := by
  funext x
  simp only [Track.closes, ← decide_not, Nat.not_lt]

theorem line_eq (m : TrackTable) (d : Detect) (coord first : Nat) (test : Bool) (segs : List Segment) :
    let taken := segs.foldl (LineTable.take d.linkGap coord first test) ⟨m.tracks, [], m.nextSerial, m.trackFull⟩
    let all := (taken.old ++ taken.fresh).map (Track.update coord)
    m.line d coord first test segs = (⟨all.filter fun x => decide (x.gap ≤ d.gapLines), taken.nextSerial, taken.trackFull⟩,
      all.filter fun x => decide (d.gapLines < x.gap)) := by
  intro taken all
  rw [← not_closes]
  rfl

theorem map_update_of_none {l : List Track} (none_ : ∀ x ∈ l, x.newSpan = none) :
    l.map (Track.update coord) = l.map Track.aged :=
  List.map_congr_left fun x inL => update_of_none (none_ x inL)

/-- A line without segments ages every track. -/
theorem line_nil (none_ : ∀ x ∈ m.tracks, x.newSpan = none) : m.line d coord first test [] =
    ({ m with tracks := keptTracks d m.tracks }, closedTracks d m.tracks) := by
  rw [line_eq]
  simp only [List.foldl_nil, List.append_nil, map_update_of_none none_]
  rfl

/-- A line of one segment: what the table has after it, the other tracks aged. -/
theorem line_singleton {old fresh : List Track} {nextSerial trackFull : Nat}
    (taken : (⟨m.tracks, [], m.nextSerial, m.trackFull⟩ : LineTable).take d.linkGap coord first test sg =
      ⟨old, fresh, nextSerial, trackFull⟩) : m.line d coord first test [sg] =
      (⟨((old ++ fresh).map (Track.update coord)).filter fun x => decide (x.gap ≤ d.gapLines), nextSerial, trackFull⟩,
        ((old ++ fresh).map (Track.update coord)).filter fun x => decide (d.gapLines < x.gap)) := by
  rw [line_eq]
  simp only [List.foldl_cons, List.foldl_nil, taken]

theorem line_full (none_ : ∀ x ∈ m.tracks, x.newSpan = none) (unmatched : ∀ x ∈ m.tracks, x.matches d.linkGap sg = false)
    (full : 24 ≤ m.tracks.length) : m.line d coord first test [sg] =
      ({ m with tracks := keptTracks d m.tracks, trackFull := bump m.trackFull }, closedTracks d m.tracks) := by
  rw [line_singleton (take_full unmatched (by simpa using full)), List.append_nil, map_update_of_none none_]
  rfl

/-- The track a line opens, at the end of that line. -/
theorem openTrack_update (serial : Nat) : (openTrack serial coord first test sg).update coord = {
    serial := serial, zone := sg.zone, start := max coord first, stop := max coord first, lines := 1
    colMin := sg.c0, colMax := sg.c1, r0 := sg.c0, r1 := sg.c1, newSpan := none, peak := sg.peak
    sum := sg.sum, gap := 0, merged := 0, splitTail := false, test := test } := by
  rw [update_of_some (span := (sg.c0, sg.c1)) rfl, Track.endLine, openTrack]
  simp only [Track.mk.injEq, true_and, and_true]
  exact ⟨by omega, rfl⟩

theorem line_opens (none_ : ∀ x ∈ m.tracks, x.newSpan = none) (unmatched : ∀ x ∈ m.tracks, x.matches d.linkGap sg = false)
    (room : m.tracks.length < 24) (free : ∀ x ∈ m.tracks, x.serial ≠ m.nextSerial) :
    m.line d coord first test [sg] = ({ m with
      tracks := keptTracks d m.tracks ++ [(openTrack m.nextSerial coord first test sg).update coord]
      nextSerial := serialAfter m.nextSerial }, closedTracks d m.tracks) := by
  have unheld : m.nextSerial ∉ (m.tracks ++ []).map Track.serial := by
    rw [List.append_nil, List.mem_map]
    rintro ⟨x, inTracks, same⟩
    exact free x inTracks same
  have gap : ((openTrack m.nextSerial coord first test sg).update coord).gap = 0 := by rw [openTrack_update]
  have opened := take_opens (m := ⟨m.tracks, [], m.nextSerial, m.trackFull⟩) (gap := d.linkGap) (coord := coord)
    (first := first) (test := test) (sg := sg) unmatched (by simpa using room)
  simp only [freeSerial_of_free 25 unheld] at opened
  rw [line_singleton opened, List.map_append, map_update_of_none none_, List.nil_append, List.map_singleton,
    List.filter_append, List.filter_append,
    List.filter_cons_of_pos (by rw [gap]; exact decide_eq_true (Nat.zero_le _)), List.filter_nil,
    List.filter_cons_of_neg (by simp [gap]), List.filter_nil, List.append_nil]
  rfl

/-- The track extended stays in its place; the others age. -/
theorem line_extends {x : Track} {pre post rest : List Track} (none_ : ∀ y ∈ m.tracks, y.newSpan = none)
    (tracks : m.tracks = pre ++ x :: post) (meets : x.matches d.linkGap sg = true)
    (before : ∀ y ∈ pre, y.matches d.linkGap sg = false)
    (others : (post.filter fun y => !y.matches d.linkGap sg) = rest) {u : Track} {span : Nat × Nat}
    (joined : ((post.filter fun y => y.matches d.linkGap sg).foldl Track.merge x).add sg test = u)
    (new : u.newSpan = some span) : m.line d coord first test [sg] =
      ({ m with tracks := keptTracks d pre ++ u.endLine coord span :: keptTracks d rest },
        closedTracks d pre ++ closedTracks d rest) := by
  have extended := take_extends (m := ⟨m.tracks, [], m.nextSerial, m.trackFull⟩) (coord := coord) (first := first)
    (test := test) tracks meets before
  rw [joined, others] at extended
  have noneBefore : ∀ y ∈ pre, y.newSpan = none := fun y inPre => none_ y (by simp [tracks, inPre])
  have noneAfter : ∀ y ∈ rest, y.newSpan = none := by
    intro y inRest
    rw [← others] at inRest
    exact none_ y (by simp [tracks, List.mem_of_mem_filter inRest])
  have gap : (u.endLine coord span).gap = 0 := rfl
  rw [line_singleton extended, List.append_nil, List.map_append, List.map_cons, update_of_some new,
    map_update_of_none noneBefore, map_update_of_none noneAfter, List.filter_append, List.filter_append,
    List.filter_cons_of_pos (by rw [gap]; exact decide_eq_true (Nat.zero_le _)),
    List.filter_cons_of_neg (by simp [gap])]
  rfl

end Line

end Sys2Proof.Machine


/-! ### The line-processed event (R24, R63, R139) -/

namespace Sys2Proof.Machine

/-! #### Tracks of one lane close on its strand -/

section Close
variable {i : Fin 12} {g : Geometry} {n : Nat} {reason : CloseReason} {s : State}

theorem offerIfGraded_defect_strand (k : Fin 6) (d : Defect) (s : State) : (offerIfGraded k d s).1.strand = d.strand := by
  simp only [offerIfGraded]
  split
  · rfl
  · split_ifs <;> rfl

theorem gradeTrack_defect_strand {head : Bool} {t : Track} {d : Defect} (geometry : (s.lane i).control.geometry = some g)
    (made : (gradeTrack i n reason head t s).1 = some d) : d.strand = g.strand := by
  simp only [gradeTrack, geometry] at made
  split_ifs at made
  obtain ⟨⟩ := made
  exact offerIfGraded_defect_strand ..

theorem closeToPending_strand_other {j : Fin 6} {t : Track} (geometry : (s.lane i).control.geometry = some g)
    (other : j ≠ g.strand) : (closeToPending i n reason s t).strand j = s.strand j := by
  have graded := gradeTrack_strand (n := n) (r := reason) (h := false) (t := t) s other (binding_of_geometry geometry)
  cases made : gradeTrack i n reason false t s with
  | mk record u =>
    rw [made] at graded
    cases record with
    | none => simpa only [closeToPending, made] using graded
    | some d =>
      have strand := gradeTrack_defect_strand geometry (congrArg Prod.fst made)
      simp only [closeToPending, made, toPending, strand, State.setStrand_strand, if_neg other]
      exact graded

theorem foldl_closeToPending_strand_other {j : Fin 6} (l : List Track) (geometry : (s.lane i).control.geometry = some g)
    (other : j ≠ g.strand) : (l.foldl (closeToPending i n reason) s).strand j = s.strand j := by
  induction l generalizing s with
  | nil => rfl
  | cons t l ih =>
    rw [List.foldl_cons, ih (by rw [(marked_closeToPending i n reason s t).lane]; exact geometry),
      closeToPending_strand_other geometry other]

theorem marked_foldl_closeToPending (l : List Track) (s : State) : Marked s (l.foldl (closeToPending i n reason) s) :=
  Marked.foldl _ (marked_closeToPending i n reason) l s

end Close

/-! #### Requests of the command unit -/

/-- The command unit's requests change nothing but the path unit and the command unit. -/
theorem pump_command_frame (n : Nat) (s : State) :
    ∃ command path, pump n .command s = { s with command := command, path := path } := by
  induction n generalizing s with
  | zero => exact ⟨s.command, s.path, rfl⟩
  | succ n ih =>
    simp only [pump]
    split
    · exact ⟨s.command, s.path, rfl⟩
    · split_ifs
      · exact ⟨s.command, s.path, rfl⟩
      · exact ih _
      · exact ⟨s.command, _, rfl⟩

theorem completeDisarm_frame (i : Fin 12) (s : State) :
    (∃ command path, completeDisarm i s = { s with command := command, path := path }) ∧
    (completeDisarm i s).path.pass = s.path.pass := by
  have stands : ∃ command path, s = { s with command := command, path := path } := ⟨s.command, s.path, rfl⟩
  unfold completeDisarm
  split
  · split_ifs
    · exact ⟨pump_command_frame 17 _, (requested_retire .done s).pass⟩
    · exact ⟨stands, rfl⟩
  · exact ⟨stands, rfl⟩

theorem completeDisarm_held {i : Fin 12} {s : State} {e : List Byte} (held : s.command.cond = .executing e (some (.disarm i))) :
    completeDisarm i s = retire .done s := by
  simp only [completeDisarm, held, if_true]

theorem completeDisarm_other {i : Fin 12} {s : State} (other : ∀ e, s.command.cond ≠ .executing e (some (.disarm i))) :
    completeDisarm i s = s := by
  unfold completeDisarm
  split
  · next e j held =>
    split_ifs with same
    · exact absurd (same ▸ held) (other e)
    · rfl
  · rfl

/-! #### Events of a change -/

/-- Events emitted one after another. -/
def State.emitAll (s : State) (l : List Event) : State := l.foldl State.emit s

theorem emitAll_frame (l : List Event) (s : State) : ∃ events lost fault detail suppressed, s.emitAll l = { s with
    report := { s.report with
      events := events, lostEvents := lost, fault := fault, detail := detail, suppressed := suppressed } } := by
  induction l generalizing s with
  | nil => exact ⟨_, _, _, _, _, rfl⟩
  | cons e l ih =>
    obtain ⟨events, lost, fault, detail, suppressed, later⟩ := ih (s.emit e)
    refine ⟨events, lost, fault, detail, suppressed, later.trans ?_⟩
    have first : s.emit e = { s with report := s.report.emit e } := rfl
    rw [first, ReportUnit.emit_frame]

/-- The LANE_STATE event, with its cause, of each change that a processed line brings to a lane (R136). -/
def advanceEvents (i : Fin 12) (k : Option (Fin 6)) (old new : LaneState) (line time : Nat) : List Event :=
  match old, new with
  | .armed, .seeding => [.laneState i k old new .firstLine line time]
  | .seeding, .tracking => [.laneState i k old new .seeded line time]
  | .tracking, .parked => [.laneState i k old new .stalled line time]
  | .parked, .tracking => [.laneState i k old new .moving line time]
  | _, _ => []

section Advance
variable {i : Fin 12} {s : State}

theorem modControl_eq {f : Control → Control} {c : Control} (same : f (s.lane i).control = c) :
    s.modControl i f = s.setLane i { s.lane i with control := c } := by
  rw [State.modControl, same]

theorem changeLaneState_modControl {f : Control → Control} {new : LaneState} {cause : Cause} {line : Nat}
    (state : (f (s.lane i).control).state = (s.lane i).control.state)
    (geometry : (f (s.lane i).control).geometry = (s.lane i).control.geometry) :
    changeLaneState i new cause line (s.modControl i f) =
      (s.setLane i { s.lane i with control := { f (s.lane i).control with state := new } }).emitAll
        [.laneState i (s.lane i).binding (s.lane i).control.state new cause line s.clock] := by
  have lane : (s.modControl i f).lane i = { s.lane i with control := f (s.lane i).control } :=
    (State.setLane_lane ..).trans (if_pos rfl)
  simp only [changeLaneState, lane, Lane.binding, state, geometry, State.emitAll, List.foldl_cons, List.foldl_nil]
  rw [State.modControl, State.setLane_setLane]
  rfl

/-- Lane control's second act: the state and the counts by the table, and the event of a change (R139, R140). -/
theorem advanceState_eq (i : Fin 12) (line : Line) (d : Detect) (stationary : Bool) (s : State) :
    let c := (s.lane i).control
    let a := advanced c.state c.seed c.stall d stationary
    advanceState i line d stationary s =
      (s.setLane i { s.lane i with control := { c with state := a.1, seed := a.2.1, stall := a.2.2 } }).emitAll
        (advanceEvents i (s.lane i).binding c.state a.1 line.seq s.clock) := by
  have stands {c : Control} (same : c = (s.lane i).control) : s = s.setLane i { s.lane i with control := c } := by
    rw [same]
    exact (State.setLane_self s i).symm
  intro c a
  cases state : (s.lane i).control.state with
  | off =>
    cases stationary <;> simp only [advanceState, a, c, state, advanced, advanceEvents] <;> exact stands (by rw [← state])
  | stopping =>
    cases stationary <;> simp only [advanceState, a, c, state, advanced, advanceEvents] <;> exact stands (by rw [← state])
  | armed =>
    cases stationary <;> simp only [advanceState, a, c, state, advanced, advanceEvents]
    · rw [← state]
      exact changeLaneState_modControl rfl rfl
    · exact stands (by rw [← state])
  | parked =>
    cases stationary <;> simp only [advanceState, a, c, state, advanced, advanceEvents]
    · rw [← state]
      exact changeLaneState_modControl rfl rfl
    · exact stands (by rw [← state])
  | seeding =>
    cases stationary
    · by_cases full : d.seedLines ≤ (s.lane i).control.seed + 1
      · simp only [advanceState, a, c, state, advanced, advanceEvents, if_pos full, Bool.false_eq_true, if_false]
        rw [← state]
        exact changeLaneState_modControl rfl rfl
      · simp only [advanceState, a, c, state, advanced, advanceEvents, if_neg full, Bool.false_eq_true, if_false]
        exact modControl_eq (by rw [← state])
    · simp only [advanceState, a, c, state, advanced, advanceEvents]
      exact stands (by rw [← state])
  | test =>
    cases stationary
    · by_cases few : (s.lane i).control.seed < d.seedLines
      · simp only [advanceState, a, c, state, advanced, advanceEvents, if_pos few, Bool.false_eq_true, if_false]
        exact modControl_eq (by rw [← state])
      · simp only [advanceState, a, c, state, advanced, advanceEvents, if_neg few, Bool.false_eq_true, if_false]
        exact stands (by rw [← state])
    · simp only [advanceState, a, c, state, advanced, advanceEvents]
      exact stands (by rw [← state])
  | tracking =>
    cases stationary
    · simp only [advanceState, a, c, state, advanced, advanceEvents, Bool.false_eq_true, if_false]
      exact modControl_eq (by rw [← state])
    · by_cases full : d.stallLines ≤ (s.lane i).control.stall + 1
      · simp only [advanceState, a, c, state, advanced, advanceEvents, if_pos full, if_true]
        rw [← state]
        exact changeLaneState_modControl rfl rfl
      · simp only [advanceState, a, c, state, advanced, advanceEvents, if_neg full, if_true]
        exact modControl_eq (by rw [← state])

end Advance

/-! #### The buffers (R24, R32) -/

section Buffers
variable {c : Capture} {stopping : Bool} {k : Copy}

/-- What becomes of a buffer at the line-processed event. -/
def Buffer.afterLine (stopping : Bool) (k : Copy) : Buffer → Buffer
  | .processing _ _ => .free
  | .waiting x => if stopping then .free else .processing x k
  | .assembling x => .assembling x
  | .free => .free

theorem nextLine_buffers (differ : c.RolesDiffer) : (c.nextLine stopping k).bufA = c.bufA.afterLine stopping k ∧
    (c.nextLine stopping k).bufB = c.bufB.afterLine stopping k := by
  obtain ⟨a, bufA, bufB, _⟩ := c
  cases bufA <;> cases bufB <;> cases stopping <;>
    simp_all [Capture.nextLine, Capture.putProcessing, Capture.waitingLine, Capture.putWaiting, Buffer.afterLine,
      Capture.RolesDiffer, Buffer.role]

theorem putProcessing_frame (c : Capture) (b : Buffer) :
    ∃ bufA bufB, c.putProcessing b = { c with bufA := bufA, bufB := bufB } := by
  simp only [Capture.putProcessing]
  split
  · exact ⟨b, c.bufB, rfl⟩
  · exact ⟨c.bufA, b, rfl⟩
  · exact ⟨c.bufA, c.bufB, rfl⟩

theorem putWaiting_frame (c : Capture) (b : Buffer) : ∃ bufA bufB, c.putWaiting b = { c with bufA := bufA, bufB := bufB } := by
  simp only [Capture.putWaiting]
  split
  · exact ⟨b, c.bufB, rfl⟩
  · exact ⟨c.bufA, b, rfl⟩
  · exact ⟨c.bufA, c.bufB, rfl⟩

theorem nextLine_frame (c : Capture) (stopping : Bool) (k : Copy) :
    ∃ bufA bufB, c.nextLine stopping k = { c with bufA := bufA, bufB := bufB } := by
  obtain ⟨_, _, freed⟩ := putProcessing_frame c .free
  simp only [Capture.nextLine]
  split
  · exact ⟨_, _, freed⟩
  · next l _ =>
    obtain ⟨_, _, dropped⟩ := putWaiting_frame (c.putProcessing .free) .free
    obtain ⟨_, _, taken⟩ := putWaiting_frame (c.putProcessing .free) (.processing l k)
    split_ifs
    · exact ⟨_, _, by rw [dropped, freed]⟩
    · exact ⟨_, _, by rw [taken, freed]⟩

end Buffers

end Sys2Proof.Machine


/-! ### What a processed line leaves -/

namespace Sys2Proof.Machine

/-! #### The state while a line is processed -/

/-- The state `s` in which lane `i` stands as `l` and the path unit as `path`, and the grading of tracks has gone as far as
in `graded`. -/
def State.inLine (s : State) (i : Fin 12) (path : Path) (graded : State) (l : Lane) : State :=
  State.gradingOf { s.setLane i l with path := path } graded

section InLine
variable {s : State} {i : Fin 12} {path : Path} {graded : State} {l m : Lane}

theorem inLine_lane (j : Fin 12) : (s.inLine i path graded l).lane j = if j = i then l else s.lane j := State.setLane_lane ..

theorem inLine_lane_self : (s.inLine i path graded l).lane i = l := (inLine_lane i).trans (if_pos rfl)

theorem inLine_strand (k : Fin 6) : (s.inLine i path graded l).strand k = graded.strand k := rfl

theorem inLine_setLane : (s.inLine i path graded l).setLane i m = s.inLine i path graded m :=
  congrArg (fun t : State => State.gradingOf { t with path := path } graded) (State.setLane_setLane s i m l)

theorem inLine_modCapture (f : Capture → Capture) :
    (s.inLine i path graded l).modCapture i f = s.inLine i path graded { l with capture := f l.capture } := by
  rw [State.modCapture, inLine_lane_self, inLine_setLane]

theorem inLine_self : { s.setLane i l with path := path } = s.inLine i path s l := rfl

/-- Tracks of the lane close as they do from the state they are graded in. -/
theorem inLine_foldl_closeToPending (tracks : List Track) (n : Nat) (reason : CloseReason)
    (control : l.control = (graded.lane i).control) :
    tracks.foldl (closeToPending i n reason) (s.inLine i path graded l) =
      s.inLine i path (tracks.foldl (closeToPending i n reason) graded) l :=
  closeToPending_fold_gradingOf i n reason tracks graded { s.setLane i l with path := path }
    (by rw [show ({ s.setLane i l with path := path } : State).lane i = l from (State.setLane_lane ..).trans (if_pos rfl)]
        exact control)

end InLine

/-! #### The stages of a line -/

section Line
variable (i : Fin 12) (g : Geometry) (line : Line) (copy : Copy) (s : State)

/-- The STATIONARY judgement of the line (R26). -/
def lineStationary : Bool := judgeStationary copy.detect.minAdvance line.coord (s.lane i).capture.statRef

/-- What the detection unit makes of the line (R63). -/
def lineDetected : Detected :=
  detectLine copy line.bytes (s.lane i).detection.background
    (lineMode (s.lane i).control.governing (s.lane i).control.seed copy.detect.seedLines) (lineStationary i line copy s)

/-- The track table after the line, and the tracks it closes, were the line not STATIONARY. -/
def lineActed : TrackTable × List Track :=
  (s.lane i).table.line copy.detect line.coord (s.strand g.strand).billet.current.start
    (decide ((s.lane i).control.governing = .test)) (lineDetected i line copy s).segments

def lineTable : TrackTable := if lineStationary i line copy s then (s.lane i).table else (lineActed i g line copy s).1

/-- The part with the tracks closed that the line closes (R77, R78). -/
def lineGraded : State :=
  (if lineStationary i line copy s then [] else (lineActed i g line copy s).2).foldl
    (closeToPending i copy.detect.minLines .gap) s

/-- The part with the tracks closed that drain behind the line (R86). -/
def lineDrained : State :=
  (lineTable i g line copy s).tracks.foldl (closeToPending i copy.detect.minLines .drain) (lineGraded i g line copy s)

def lineRuns : List Run :=
  if lineStationary i line copy s || (lineDetected i line copy s).uncovered then (s.lane i).runs
  else addRun line.coord g.span (s.lane i).runs

/-- The lane after the line, before the trailer is made. -/
def lineLane : Lane := (s.lane i).afterLine line (lineDetected i line copy s) (lineStationary i line copy s)

/-- The part with the line's trailer made or waited for (R27). -/
def lineTrailer : State :=
  makeTrailer i line (processedStatus (s.lane i).control.governing (lineStationary i line copy s))
    (lineDetected i line copy s).segments.length (lineDetected i line copy s).obscured (lineDetected i line copy s).overflow
    (lineDetected i line copy s).uncovered (s.setLane i (lineLane i line copy s))

/-- The line capture unit after the line: the next line is taken (R24, R32). -/
def lineCapture : Capture :=
  { (lineLane i line copy s).capture with
    trailers := ((lineTrailer i line copy s).lane i).capture.trailers }.nextLine (decide ((s.lane i).control.state = LaneState.stopping))
    (s.lane i).settingsCopy

/-- The lane after the line, before its state changes. -/
def lineDone : Lane :=
  { lineLane i line copy s with
    capture := lineCapture i line copy s, table := lineTable i g line copy s, runs := lineRuns i g line copy s }

/-- State, seed count and stall count after the line, by the lane's table. -/
def lineAdvanced : LaneState × Nat × Nat :=
  advanced (s.lane i).control.state (s.lane i).control.seed (s.lane i).control.stall copy.detect (lineStationary i line copy s)

/-- The part with all the tracks closed that end with the line. -/
def lineClosed : State :=
  if (s.lane i).control.state = .stopping then lineDrained i g line copy s else lineGraded i g line copy s

/-- The lane after the line. -/
def lineFinal : Lane :=
  if (s.lane i).control.state = .stopping then
    { lineDone i g line copy s with
      control := { (s.lane i).control with state := .off }
      table := { lineTable i g line copy s with tracks := [] } }
  else
    { lineDone i g line copy s with
      control := { (s.lane i).control with
        state := (lineAdvanced i line copy s).1, seed := (lineAdvanced i line copy s).2.1
        stall := (lineAdvanced i line copy s).2.2 } }

/-- The event of a change of the lane's state. -/
def lineEvents : List Event :=
  if (s.lane i).control.state = .stopping then
    [.laneState i (s.lane i).binding (s.lane i).control.state .off .stopped line.seq s.clock]
  else advanceEvents i (s.lane i).binding (s.lane i).control.state (lineAdvanced i line copy s).1 line.seq s.clock

/-- What the line leaves, but for a DISARM held that then retires. -/
def lineLeft : State :=
  (s.inLine i (lineTrailer i line copy s).path (lineClosed i g line copy s) (lineFinal i g line copy s)).emitAll
    (lineEvents i line copy s)

theorem lineTrailer_eq : lineTrailer i line copy s = s.inLine i (lineTrailer i line copy s).path s
    { lineLane i line copy s with capture := { (lineLane i line copy s).capture with
      trailers := ((lineTrailer i line copy s).lane i).capture.trailers } } := by
  obtain ⟨trailers, path, asked⟩ := makeTrailer_frame i line
    (processedStatus (s.lane i).control.governing (lineStationary i line copy s))
    (lineDetected i line copy s).segments.length (lineDetected i line copy s).obscured (lineDetected i line copy s).overflow
    (lineDetected i line copy s).uncovered (s.setLane i (lineLane i line copy s))
  have whole : lineTrailer i line copy s = s.inLine i path s { lineLane i line copy s with
      capture := { (lineLane i line copy s).capture with trailers := trailers } } := by
    rw [lineTrailer, asked, State.asking, (State.setLane_lane ..).trans (if_pos rfl), State.setLane_setLane, inLine_self]
  rw [whole, inLine_lane_self]
  rfl

theorem lineGraded_marked : Marked s (lineGraded i g line copy s) := marked_foldl_closeToPending ..

theorem lineDrained_marked : Marked s (lineDrained i g line copy s) :=
  (lineGraded_marked i g line copy s).trans (marked_foldl_closeToPending ..)

/-- The tracks act, and those they close are graded (R70 to R78). -/
theorem processTracks_eq {path : Path} {l : Lane} (control : l.control = (s.lane i).control) (table : l.table = (s.lane i).table) :
    processTracks i g.strand line copy (lineDetected i line copy s) (decide ((s.lane i).control.governing = .test))
      (lineStationary i line copy s) (s.inLine i path s l) =
      s.inLine i path (lineGraded i g line copy s) { l with table := lineTable i g line copy s } := by
  simp only [processTracks, lineGraded, lineTable]
  cases lineStationary i line copy s with
  | true => simp only [if_true, List.foldl_nil, ← table]
  | false =>
    simp only [Bool.false_eq_true, if_false]
    rw [inLine_lane_self, inLine_setLane, inLine_strand, table, inLine_foldl_closeToPending]
    · rfl
    · exact control

theorem processCoverage_eq {path : Path} {graded : State} {l : Lane} (runs : l.runs = (s.lane i).runs) :
    processCoverage i g line (lineDetected i line copy s) (lineStationary i line copy s) (s.inLine i path graded l) =
      s.inLine i path graded { l with runs := lineRuns i g line copy s } := by
  simp only [processCoverage, lineRuns]
  split_ifs
  · rw [← runs]
  · rw [inLine_lane_self, inLine_setLane, runs]

/-- The open tracks drain (R86). -/
theorem drainTracks_inLine {path : Path} {graded : State} {l : Lane} (n : Nat) (control : l.control = (graded.lane i).control) :
    drainTracks i n (s.inLine i path graded l) = s.inLine i path
      (l.table.tracks.foldl (closeToPending i n .drain) graded) { l with table := { l.table with tracks := [] } } := by
  simp only [drainTracks, inLine_lane_self, inLine_setLane]
  exact inLine_foldl_closeToPending _ n .drain control

theorem processLine_eq : processLine i g line copy s =
    if (s.lane i).control.state = .stopping then completeDisarm i (lineLeft i g line copy s) else lineLeft i g line copy s := by
  have control : (lineLane i line copy s).control = (s.lane i).control := rfl
  have trailer := lineTrailer_eq i line copy s
  have tracks := processTracks_eq i g line copy s (path := (lineTrailer i line copy s).path)
    (l := { lineLane i line copy s with capture := { (lineLane i line copy s).capture with
      trailers := ((lineTrailer i line copy s).lane i).capture.trailers } }) rfl rfl
  rw [← trailer] at tracks
  have covered := processCoverage_eq i g line copy s (path := (lineTrailer i line copy s).path)
    (graded := lineGraded i g line copy s)
    (l := { lineLane i line copy s with
      capture := { (lineLane i line copy s).capture with
        trailers := ((lineTrailer i line copy s).lane i).capture.trailers }
      table := lineTable i g line copy s }) rfl
  rw [← tracks] at covered
  have copied : ((processCoverage i g line (lineDetected i line copy s) (lineStationary i line copy s)
      (processTracks i g.strand line copy (lineDetected i line copy s) (decide ((s.lane i).control.governing = .test))
        (lineStationary i line copy s) (lineTrailer i line copy s))).lane i).settingsCopy = (s.lane i).settingsCopy := by
    rw [covered, inLine_lane_self]
    rfl
  have next : (processCoverage i g line (lineDetected i line copy s) (lineStationary i line copy s)
      (processTracks i g.strand line copy (lineDetected i line copy s) (decide ((s.lane i).control.governing = .test))
        (lineStationary i line copy s) (lineTrailer i line copy s))).modCapture i
          (fun c => c.nextLine (decide ((s.lane i).control.state = .stopping)) (s.lane i).settingsCopy) =
      s.inLine i (lineTrailer i line copy s).path (lineGraded i g line copy s) (lineDone i g line copy s) := by
    rw [covered, inLine_modCapture]
    rfl
  rw [← copied] at next
  have stages : processLine i g line copy s = if (s.lane i).control.state = .stopping then
      finishStopping i line copy.detect
        (s.inLine i (lineTrailer i line copy s).path (lineGraded i g line copy s) (lineDone i g line copy s))
    else advanceState i line copy.detect (lineStationary i line copy s)
        (s.inLine i (lineTrailer i line copy s).path (lineGraded i g line copy s) (lineDone i g line copy s)) := by
    rw [← next]
    exact if_congr decide_eq_true_iff rfl rfl
  have lanes := (lineGraded_marked i g line copy s).lane i
  have clocks := (lineGraded_marked i g line copy s).clock
  have clocks' := (lineDrained_marked i g line copy s).clock
  by_cases stopping : (s.lane i).control.state = .stopping
  · simp only [stages, lineLeft, lineClosed, lineFinal, lineEvents, if_pos stopping]
    rw [finishStopping, drainTracks_inLine i s _ (by rw [lanes]; rfl), changeLaneState, inLine_lane_self, inLine_setLane]
    exact congrArg (completeDisarm i) (congrArg (fun time => State.emit _ (Event.laneState i (s.lane i).binding
      (s.lane i).control.state .off .stopped line.seq time)) clocks')
  · simp only [stages, lineLeft, lineClosed, lineFinal, lineEvents, if_neg stopping]
    rw [advanceState_eq, inLine_lane_self, inLine_setLane]
    exact congrArg (fun time => State.emitAll _ (advanceEvents i (s.lane i).binding (s.lane i).control.state
      (lineAdvanced i line copy s).1 line.seq time)) clocks

end Line

end Sys2Proof.Machine


/-! ### LINE_PROCESSED: the lane, and lane control -/

namespace Sys2Proof.Machine

section EmitAll
variable (l : List Event) (s : State)

theorem emitAll_lane (j : Fin 12) : (s.emitAll l).lane j = s.lane j := by
  obtain ⟨_, _, _, _, _, frame⟩ := emitAll_frame l s; rw [frame]; rfl

theorem emitAll_strand (k : Fin 6) : (s.emitAll l).strand k = s.strand k := by
  obtain ⟨_, _, _, _, _, frame⟩ := emitAll_frame l s; rw [frame]; rfl

theorem emitAll_path : (s.emitAll l).path = s.path := by obtain ⟨_, _, _, _, _, frame⟩ := emitAll_frame l s; rw [frame]

theorem emitAll_command : (s.emitAll l).command = s.command := by
  obtain ⟨_, _, _, _, _, frame⟩ := emitAll_frame l s; rw [frame]

theorem emitAll_report : ∃ events lost fault detail suppressed, (s.emitAll l).report = { s.report with
    events := events, lostEvents := lost, fault := fault, detail := detail, suppressed := suppressed } := by
  obtain ⟨events, lost, fault, detail, suppressed, frame⟩ := emitAll_frame l s
  exact ⟨events, lost, fault, detail, suppressed, by rw [frame]⟩

end EmitAll

/-! #### The parts of what a line leaves -/

section Left
variable {i : Fin 12} {g : Geometry} {line : Line} {copy : Copy} {s : State}

theorem lineLeft_lane (j : Fin 12) :
    (lineLeft i g line copy s).lane j = if j = i then lineFinal i g line copy s else s.lane j :=
  (emitAll_lane ..).trans (inLine_lane j)

theorem lineLeft_lane_self : (lineLeft i g line copy s).lane i = lineFinal i g line copy s :=
  (lineLeft_lane i).trans (if_pos rfl)

theorem lineLeft_strand (k : Fin 6) : (lineLeft i g line copy s).strand k = (lineClosed i g line copy s).strand k :=
  emitAll_strand ..

theorem lineLeft_path : (lineLeft i g line copy s).path = (lineTrailer i line copy s).path := emitAll_path ..

theorem lineLeft_command : (lineLeft i g line copy s).command = s.command := emitAll_command ..

theorem lineLeft_report : ∃ events lost fault detail suppressed, (lineLeft i g line copy s).report = { s.report with
    jobs := (lineClosed i g line copy s).report.jobs, writer := (lineClosed i g line copy s).report.writer
    events := events, lostEvents := lost, fault := fault, detail := detail, suppressed := suppressed } := emitAll_report ..

theorem lineClosed_marked : Marked s (lineClosed i g line copy s) := by
  unfold lineClosed
  split_ifs
  · exact lineDrained_marked ..
  · exact lineGraded_marked ..

theorem lineClosed_strand_other {j : Fin 6} (geometry : (s.lane i).control.geometry = some g) (other : j ≠ g.strand) :
    (lineClosed i g line copy s).strand j = s.strand j := by
  have graded : (lineGraded i g line copy s).strand j = s.strand j := foldl_closeToPending_strand_other _ geometry other
  unfold lineClosed
  split_ifs
  · rw [lineDrained, foldl_closeToPending_strand_other _ (by rw [(lineGraded_marked i g line copy s).lane]; exact geometry) other,
      graded]
  · exact graded

/-- What the line leaves of the rest of the part: the clock, the ports and the settings stand. -/
theorem lineLeft_frame : (lineLeft i g line copy s).global = s.global ∧ (lineLeft i g line copy s).clock = s.clock ∧
    (lineLeft i g line copy s).ports = s.ports ∧ (lineLeft i g line copy s).classify = s.classify ∧
    (lineLeft i g line copy s).loader = s.loader ∧ (lineLeft i g line copy s).choice = s.choice ∧
    (lineLeft i g line copy s).pending = s.pending := by
  have marked := lineClosed_marked (i := i) (g := g) (line := line) (copy := copy) (s := s)
  obtain ⟨_, _, _, _, _, frame⟩ := emitAll_frame (lineEvents i line copy s)
    (s.inLine i (lineTrailer i line copy s).path (lineClosed i g line copy s) (lineFinal i g line copy s))
  rw [lineLeft, frame]
  exact ⟨rfl, marked.clock, rfl, marked.classify, rfl, rfl, rfl⟩

theorem lineFinal_capture : (lineFinal i g line copy s).capture = lineCapture i line copy s := by
  unfold lineFinal
  split_ifs <;> rfl

theorem lineFinal_detection : (lineFinal i g line copy s).detection = (lineLane i line copy s).detection := by
  unfold lineFinal
  split_ifs <;> rfl

theorem lineFinal_runs : (lineFinal i g line copy s).runs = lineRuns i g line copy s := by
  unfold lineFinal
  split_ifs <;> rfl

theorem lineFinal_table_running (going : (s.lane i).control.state ≠ .stopping) :
    (lineFinal i g line copy s).table = lineTable i g line copy s := by rw [lineFinal, if_neg going]; rfl

theorem lineFinal_table_stopping (stopping : (s.lane i).control.state = .stopping) :
    (lineFinal i g line copy s).table = { lineTable i g line copy s with tracks := [] } := by
  rw [lineFinal, if_pos stopping]

theorem lineFinal_control_running (going : (s.lane i).control.state ≠ .stopping) :
    (lineFinal i g line copy s).control = { (s.lane i).control with
      state := (lineAdvanced i line copy s).1, seed := (lineAdvanced i line copy s).2.1
      stall := (lineAdvanced i line copy s).2.2 } := by
  rw [lineFinal, if_neg going]

theorem lineFinal_control_stopping (stopping : (s.lane i).control.state = .stopping) :
    (lineFinal i g line copy s).control = { (s.lane i).control with state := .off } := by
  rw [lineFinal, if_pos stopping]

/-- Of lane control a processed line changes the state and the two counts. -/
theorem lineFinal_control : (lineFinal i g line copy s).control = { (s.lane i).control with
    state := (lineFinal i g line copy s).control.state, seed := (lineFinal i g line copy s).control.seed
    stall := (lineFinal i g line copy s).control.stall } := by
  by_cases stopping : (s.lane i).control.state = .stopping
  · rw [lineFinal_control_stopping stopping]
  · rw [lineFinal_control_running stopping]

/-- But for the buffers the line capture unit is as the line and its trailer left it. -/
theorem lineCapture_frame : ∃ bufA bufB, lineCapture i line copy s = { (lineLane i line copy s).capture with
    trailers := ((lineTrailer i line copy s).lane i).capture.trailers, bufA := bufA, bufB := bufB } := by
  obtain ⟨bufA, bufB, next⟩ := nextLine_frame { (lineLane i line copy s).capture with
    trailers := ((lineTrailer i line copy s).lane i).capture.trailers } (decide ((s.lane i).control.state = .stopping))
    (s.lane i).settingsCopy
  exact ⟨bufA, bufB, next⟩

theorem lineCapture_buffers (differ : (s.lane i).capture.RolesDiffer) :
    (lineCapture i line copy s).bufA = (s.lane i).capture.bufA.afterLine (decide ((s.lane i).control.state = .stopping))
      (s.lane i).settingsCopy ∧
    (lineCapture i line copy s).bufB = (s.lane i).capture.bufB.afterLine (decide ((s.lane i).control.state = .stopping))
      (s.lane i).settingsCopy :=
  nextLine_buffers differ

/-- The line's trailer is the one request made, or waits (R3, R27). -/
theorem lineTrailer_placed (geometry : (s.lane i).control.geometry = some g) :
    let w := trailerWrite g line (processedStatus (s.lane i).control.governing (lineStationary i line copy s))
      (lineDetected i line copy s).segments.length (lineDetected i line copy s).obscured
      (lineDetected i line copy s).overflow (lineDetected i line copy s).uncovered
    let p := (lineTrailer i line copy s).path
    let waiting := ((lineTrailer i line copy s).lane i).capture.trailers
    let trailers := (s.lane i).capture.trailers
    (g.trailers = false → p = s.path ∧ waiting = trailers) ∧
    (g.trailers = true → Room 1 s → trailers = [] → p = s.path.inject (w, .trailer i) ∧ waiting = []) ∧
    (g.trailers = true → .lane i ∉ s.path.waitList → s.path.waitList ≠ [] ∨ 16 ≤ s.path.injected.length →
      p = s.path.joinWait (.lane i) ∧ waiting = trailers ++ [w]) ∧
    (g.trailers = true → .lane i ∈ s.path.waitList → p = s.path ∧ waiting = trailers ++ [w]) := by
  intro w p waiting trailers
  have lane : (s.setLane i (lineLane i line copy s)).lane i = lineLane i line copy s :=
    (State.setLane_lane ..).trans (if_pos rfl)
  have geometry' : ((s.setLane i (lineLane i line copy s)).lane i).control.geometry = some g := by
    rw [lane]
    exact geometry
  have stands : ((s.setLane i (lineLane i line copy s)).lane i).capture.trailers = trailers := by
    rw [lane]
    rfl
  have asks : (((s.setLane i (lineLane i line copy s)).withTrailer i w).lane i).capture.trailers = trailers ++ [w] := by
    rw [withTrailer_trailers, stands]
  refine ⟨fun disabled => ?_, fun enabled room none_ => ?_, fun enabled free full => ?_, fun enabled waits => ?_⟩
  · have made : lineTrailer i line copy s = _ := makeTrailer_of_disabled geometry' disabled
    exact ⟨(congrArg State.path made).trans rfl, (congrArg (fun t : State => (t.lane i).capture.trailers) made).trans stands⟩
  · have made : lineTrailer i line copy s = _ := makeTrailer_at_once geometry' enabled room (by rw [stands]; exact none_)
    exact ⟨(congrArg State.path made).trans rfl,
      (congrArg (fun t : State => (t.lane i).capture.trailers) made).trans (stands.trans none_)⟩
  · have made : lineTrailer i line copy s = _ := makeTrailer_waits geometry' enabled free full
    exact ⟨(congrArg State.path made).trans rfl, (congrArg (fun t : State => (t.lane i).capture.trailers) made).trans asks⟩
  · have made : lineTrailer i line copy s = _ := makeTrailer_stands geometry' enabled waits
    exact ⟨(congrArg State.path made).trans rfl, (congrArg (fun t : State => (t.lane i).capture.trailers) made).trans asks⟩

/-- What LINE_PROCESSED answers. -/
def lineAnswer (i : Fin 12) (g : Geometry) (line : Line) (copy : Copy) (s : State) : State :=
  if (s.lane i).control.state = .stopping then completeDisarm i (lineLeft i g line copy s) else lineLeft i g line copy s

theorem exec_lineProcessed (running : s.global = .running) (busy : (s.lane i).capture.inProcessing = some (line, copy))
    (geometry : (s.lane i).control.geometry = some g) :
    exec (.lineProcessed i) s = .next (lineAnswer i g line copy s) := by
  have answered : exec (.lineProcessed i) s = .next (processLine i g line copy s) := by
    simp only [exec, execLineProcessed, busy, geometry, running, if_true]
  rw [answered, processLine_eq]
  rfl

/-- A DISARM that retires changes nothing but the path unit and the command unit. -/
theorem lineAnswer_frame : (∃ command path, lineAnswer i g line copy s =
      { lineLeft i g line copy s with command := command, path := path }) ∧
    (lineAnswer i g line copy s).path.pass = (lineTrailer i line copy s).path.pass := by
  rw [← lineLeft_path (g := g)]
  unfold lineAnswer
  split_ifs
  · exact completeDisarm_frame ..
  · exact ⟨⟨_, _, rfl⟩, rfl⟩

theorem lineAnswer_running (going : (s.lane i).control.state ≠ .stopping) :
    lineAnswer i g line copy s = lineLeft i g line copy s := if_neg going

theorem lineAnswer_held {e : List Byte} (stopping : (s.lane i).control.state = .stopping)
    (held : s.command.cond = .executing e (some (.disarm i))) :
    lineAnswer i g line copy s = retire .done (lineLeft i g line copy s) :=
  (if_pos stopping).trans (completeDisarm_held (by rw [lineLeft_command]; exact held))

theorem lineAnswer_other (other : ∀ e, s.command.cond ≠ .executing e (some (.disarm i))) :
    lineAnswer i g line copy s = lineLeft i g line copy s := by
  unfold lineAnswer
  split_ifs
  · exact completeDisarm_other (by rw [lineLeft_command]; exact other)
  · rfl

theorem lineAnswer_lane (j : Fin 12) : (lineAnswer i g line copy s).lane j = (lineLeft i g line copy s).lane j := by
  obtain ⟨⟨_, _, frame⟩, _⟩ := lineAnswer_frame (i := i) (g := g) (line := line) (copy := copy) (s := s)
  rw [frame]
  rfl

theorem lineAnswer_lane_self : (lineAnswer i g line copy s).lane i = lineFinal i g line copy s :=
  (lineAnswer_lane i).trans lineLeft_lane_self

theorem lineAnswer_report : (lineAnswer i g line copy s).report = (lineLeft i g line copy s).report := by
  obtain ⟨⟨_, _, frame⟩, _⟩ := lineAnswer_frame (i := i) (g := g) (line := line) (copy := copy) (s := s)
  rw [frame]

end Left

end Sys2Proof.Machine


/-! ### O36 and O37 -/

namespace Sys2Proof.Machine

/-! #### The trailer write (12.2), and what lane control and line capture judge -/

theorem trailerBytes_fields (l : Line) (status : TrailerStatus) (kept obscured : Nat) (overflow uncovered : Bool) :
    HoldsFields (trailerBytes l status kept obscured overflow uncovered) [(0, 4, l.seq), (4, 5, l.coord), (9, 6, l.time),
      (15, 1, status.code), (16, 2, obscured), (18, 1, kept), (19, 1, overflow.toNat + 2 * uncovered.toNat), (20, 12, 0)] := by
  have flags : flagByte [overflow, uncovered] = overflow.toNat + 2 * uncovered.toNat := by
    simp only [flagByte_cons, flagByte_nil, Nat.mul_zero, Nat.add_zero]
  simp [HoldsFields, trailerBytes, flags, le_one, le_zero_value, List.drop_append, List.take_append, List.drop_of_length_le]

theorem judgeStationary_iff {least coord : Nat} {ref : Option Nat} : judgeStationary least coord ref = true ↔
    least ≠ 0 ∧ ∃ r, ref = some r ∧ coord < r + least := by
  cases ref with
  | none => simp [judgeStationary]
  | some r =>
    simp only [judgeStationary, Bool.and_eq_true, decide_eq_true_eq, Option.some.injEq, exists_eq_left']
    exact and_congr_right fun _ => by omega

theorem governing_running {c : Control} (going : c.state ≠ .stopping) : c.governing = c.state := by
  unfold Control.governing
  split
  · exact absurd ‹_› going
  · rfl

theorem governing_stopping {c : Control} {x : LaneState} (stopping : c.state = .stopping) (left : c.stateLeft = some x) :
    c.governing = x := by
  simp only [Control.governing, stopping, left, Option.getD_some]

theorem processedStatus_eq (st : LaneState) (stationary : Bool) : processedStatus st stationary =
    if stationary then .stationary else if st = .test then .test
    else if st = .armed ∨ st = .seeding then .seed else .ok := by
  cases stationary <;> cases st <;> rfl

/-! #### Tracks extended by one segment -/

section Extended
variable {x y : Track} {coord : Nat} {sg : Segment} {test : Bool}

theorem add_newSpan (none_ : x.newSpan = none) : (x.add sg test).newSpan = some (sg.c0, sg.c1) := by
  simp only [Track.add, none_]

theorem merge_newSpan (noneX : x.newSpan = none) (noneY : y.newSpan = none) : (x.merge y).newSpan = none := by
  simp only [Track.merge, noneX, noneY]

/-- The track that a segment alone extends, at the end of the line. -/
theorem add_endLine (none_ : x.newSpan = none) : (x.add sg test).endLine coord (sg.c0, sg.c1) = { x with
    stop := max x.stop coord, lines := min 65535 (x.lines + 1), colMin := min x.colMin sg.c0
    colMax := max x.colMax sg.c1, r0 := sg.c0, r1 := sg.c1, peak := max x.peak sg.peak
    sum := min 16777215 (x.sum + sg.sum), gap := 0, test := x.test || test } := by
  rw [Track.endLine, Track.add, none_]
  rfl

/-- The track that a segment extends after one merge, at the end of the line. -/
theorem merge_add_endLine (none_ : x.newSpan = none) : ((x.merge y).add sg test).endLine coord (sg.c0, sg.c1) = { x with
    start := min x.start y.start, stop := max (max x.stop y.stop) coord
    lines := min 65535 (min 65535 (x.lines + y.lines) + 1)
    colMin := min (min x.colMin y.colMin) sg.c0, colMax := max (max x.colMax y.colMax) sg.c1
    r0 := sg.c0, r1 := sg.c1, peak := max (max x.peak y.peak) sg.peak
    sum := min 16777215 (min 16777215 (x.sum + y.sum) + sg.sum), gap := 0
    merged := min 255 (x.merged + (1 + y.merged)), splitTail := x.splitTail || y.splitTail
    test := x.test || y.test || test } := by
  rw [Track.endLine, Track.add, Track.merge, none_]
  rfl

end Extended

section Line
variable {m : TrackTable} {d : Detect} {coord first : Nat} {test : Bool} {sg : Segment} {x y : Track} {pre mid post : List Track}

theorem filter_matches_of_none {l : List Track} (none_ : ∀ z ∈ l, z.matches d.linkGap sg = false) :
    (l.filter fun z => z.matches d.linkGap sg) = [] ∧ (l.filter fun z => !z.matches d.linkGap sg) = l :=
  ⟨List.filter_eq_nil_iff.2 fun z inL => by simp [none_ z inL], List.filter_eq_self.2 fun z inL => by simp [none_ z inL]⟩

theorem line_extends_one (none_ : ∀ z ∈ m.tracks, z.newSpan = none) (tracks : m.tracks = pre ++ x :: post)
    (meets : x.matches d.linkGap sg = true) (others : ∀ z ∈ pre ++ post, z.matches d.linkGap sg = false) :
    m.line d coord first test [sg] =
      ({ m with tracks := keptTracks d pre ++ (x.add sg test).endLine coord (sg.c0, sg.c1) :: keptTracks d post },
        closedTracks d pre ++ closedTracks d post) := by
  obtain ⟨matching, rest⟩ := filter_matches_of_none (d := d) (sg := sg) fun z inPost =>
    others z (List.mem_append_right pre inPost)
  exact line_extends none_ tracks meets (fun z inPre => others z (List.mem_append_left post inPre)) rest
    (by rw [matching]; rfl) (add_newSpan (none_ x (by simp [tracks])))

theorem line_extends_two (none_ : ∀ z ∈ m.tracks, z.newSpan = none) (tracks : m.tracks = pre ++ x :: (mid ++ y :: post))
    (meets : x.matches d.linkGap sg = true) (also : y.matches d.linkGap sg = true)
    (others : ∀ z ∈ pre ++ mid ++ post, z.matches d.linkGap sg = false) :
    m.line d coord first test [sg] =
      ({ m with tracks := keptTracks d pre ++
          ((x.merge y).add sg test).endLine coord (sg.c0, sg.c1) :: (keptTracks d mid ++ keptTracks d post) },
        closedTracks d pre ++ (closedTracks d mid ++ closedTracks d post)) := by
  have inMid : ∀ z ∈ mid, z.matches d.linkGap sg = false := fun z inMid => others z (by simp [inMid])
  have inPost : ∀ z ∈ post, z.matches d.linkGap sg = false := fun z inPost => others z (by simp [inPost])
  obtain ⟨midMatching, midRest⟩ := filter_matches_of_none inMid
  obtain ⟨postMatching, postRest⟩ := filter_matches_of_none inPost
  have extended := line_extends (coord := coord) (first := first) (test := test) (rest := mid ++ post)
    (u := (x.merge y).add sg test) none_ tracks meets (fun z inPre => others z (by simp [inPre]))
    (by rw [List.filter_append, midRest, List.filter_cons_of_neg (by simp [also]), postRest])
    (by simp only [List.filter_append, midMatching, List.filter_cons, also, if_true, postMatching]; rfl)
    (add_newSpan (merge_newSpan (none_ x (by simp [tracks])) (none_ y (by simp [tracks]))))
  simp only [keptTracks, closedTracks, List.map_append, List.filter_append] at extended ⊢
  exact extended

end Line

/-- Settles O36. -/
theorem lineProcessedActsOnTheLane : Obligations.LineProcessedActsOnTheLane := by
  refine ⟨fun i s line copy g running busy geometry => ?_, fun m d coord first test none_ => ?_,
    fun m d coord first test segs => ?_, fun m gap coord first test sg => ?_, fun x gap sg span columns => matches_iff span columns,
    fun least coord ref => judgeStationary_iff, fun c => ⟨governing_running, fun x => governing_stopping⟩,
    processedStatus_eq, fun g l status kept obscured overflow uncovered =>
      ⟨rfl, rfl, rfl, rfl, trailerBytes_length .., rfl,
        trailerBytes_fields l status kept obscured overflow uncovered⟩⟩
  · intro l governing mode stationary det acted table graded drained closed next w placed
    have marked : Marked s (lineClosed i g line copy s) := lineClosed_marked
    obtain ⟨bufA, bufB, capture⟩ := lineCapture_frame (i := i) (line := line) (copy := copy) (s := s)
    obtain ⟨global, clock, ports, classify, loader, choice, pending⟩ :=
      lineLeft_frame (i := i) (g := g) (line := line) (copy := copy) (s := s)
    obtain ⟨events, lost, fault, detail, suppressed, report⟩ :=
      lineLeft_report (i := i) (g := g) (line := line) (copy := copy) (s := s)
    obtain ⟨⟨command, path, frame⟩, pass⟩ := lineAnswer_frame (i := i) (g := g) (line := line) (copy := copy) (s := s)
    have strand (k : Fin 6) : (lineAnswer i g line copy s).strand k = (lineClosed i g line copy s).strand k := by
      rw [frame]
      exact lineLeft_strand k
    have trailers : (lineFinal i g line copy s).capture.trailers = ((lineTrailer i line copy s).lane i).capture.trailers := by
      rw [lineFinal_capture, capture]
    have placedSo : placed (lineTrailer i line copy s).path ((lineTrailer i line copy s).lane i).capture.trailers :=
      lineTrailer_placed geometry
    refine ⟨lineAnswer i g line copy s, exec_lineProcessed running busy geometry, ?_⟩
    rw [lineAnswer_lane_self, lineAnswer_report, lineFinal_capture, lineFinal_detection, lineFinal_runs, strand, report]
    refine ⟨by rw [capture]; rfl, by rw [capture]; rfl, rfl, ?_, lineFinal_table_running, lineFinal_table_stopping, rfl,
      lineFinal_control, by rw [capture]; rfl, by rw [capture]; rfl, by rw [capture]; rfl, fun differ => ?_,
      by rw [capture]; rfl, by rw [capture]; rfl, fun j other => ?_, fun j other => ?_, rfl, rfl, rfl, marked.motion _,
      marked.setup _, marked.settings _, ?_, by rw [frame]; exact global, by rw [frame]; exact clock, by rw [frame]; exact ports,
      by rw [frame]; exact classify, by rw [frame]; exact loader, by rw [frame]; exact choice, by rw [frame]; exact pending,
      rfl, ?_, fun going => ?_, fun going => ?_, fun stopping => ⟨lineLeft i g line copy s, lineLeft_command, ?_, ?_, ?_, ?_⟩⟩
    · intro still
      simp only [det, detectLine, still, if_true]
    · have buffers (b : Buffer) : b.afterLine (decide (l.control.state = .stopping)) l.settingsCopy = next b := by
        cases b <;> simp only [Buffer.afterLine, next, decide_eq_true_eq]
      rw [← buffers, ← buffers]
      exact lineCapture_buffers differ
    · rw [lineAnswer_lane, lineLeft_lane, if_neg other]
    · rw [strand, lineClosed_strand_other geometry other]
    · obtain ⟨osc, noise, dropped, current⟩ := marked.current g.strand
      rw [current]
    · rw [pass]
      exact (requested_makeTrailer ..).pass
    · rw [lineAnswer_running going]
      exact lineLeft_command
    · rw [lineAnswer_running going, lineLeft_path, ← lineFinal_capture, trailers]
      exact placedSo
    · exact lineAnswer_other
    · exact fun e held => lineAnswer_held stopping held
    · rw [lineLeft_lane_self, lineLeft_path, trailers]
      exact placedSo
    · rw [lineLeft_path, ← lineFinal_capture, trailers]
      exact placedSo
  · intro aged kept closed
    refine ⟨line_nil none_, fun sg unmatched => ⟨line_full none_ unmatched, fun room free => ?_⟩,
      fun sg x pre post tracks meets others => ?_, fun sg x y pre mid post tracks meets also others => ?_⟩
    · rw [line_opens none_ unmatched room free, openTrack_update]
      rfl
    · rw [line_extends_one none_ tracks meets others, add_endLine (none_ x (by simp [tracks]))]
      rfl
    · rw [line_extends_two none_ (by simp [tracks]) meets also others, merge_add_endLine (none_ x (by simp [tracks]))]
      simp only [List.append_assoc, List.cons_append]
      rfl
  · intro taken ended all
    have update : Track.update coord = ended := by
      funext x
      cases span : x.newSpan with
      | none => rw [update_of_none span]; simp only [ended, span, Track.aged]
      | some new => rw [update_of_some span]; simp only [ended, span]; rfl
    rw [line_eq, update]
  · intro after held hull merged
    have merge : merged = Track.merge := by
      funext x y
      simp only [merged, Track.merge]
      cases x.newSpan <;> cases y.newSpan <;> rfl
    refine ⟨fun unmatched => ⟨take_full unmatched, fun room => ?_⟩, fun x pre post old meets before => ?_⟩
    · have few : ((m.old ++ m.fresh).map Track.serial).length < 24 := by simpa using room
      obtain ⟨k, found, free, heldBefore⟩ := freeSerial_free (n := m.nextSerial) few
      have inUse (n : Nat) : n ∈ (m.old ++ m.fresh).map Track.serial ↔ held n := List.mem_map
      refine ⟨k, fun inUse' => free ((inUse _).2 inUse'), fun j less => (inUse _).1 (heldBefore j less), ?_⟩
      rw [take_opens unmatched room, found]
      rfl
    · intro u
      rw [take_extends old meets before, ← merge]
      rfl

/-! #### Changes of state and their events (R136, R139, R140, R162) -/

section Events
variable {i : Fin 12} {k : Option (Fin 6)} {st : LaneState} {seed stall line time : Nat} {d : Detect} {stationary : Bool}

theorem advanceEvents_of_same : advanceEvents i k st st line time = [] := by cases st <;> rfl

/-- Each change that the tables bring has its event. -/
theorem advanceEvents_of_change (change : (advanced st seed stall d stationary).1 ≠ st) :
    ∃ cause, advanceEvents i k st (advanced st seed stall d stationary).1 line time =
      [.laneState i k st (advanced st seed stall d stationary).1 cause line time] := by
  cases st <;> cases stationary <;> simp only [advanced, ne_eq, not_true_eq_false] at change ⊢
  · exact ⟨_, rfl⟩
  · split_ifs at change ⊢ with full
    · exact ⟨_, rfl⟩
    · exact absurd rfl change
  · split_ifs at change ⊢ with full
    · exact ⟨_, rfl⟩
    · exact absurd rfl change
  · exact ⟨_, rfl⟩

end Events

section Left
variable {i : Fin 12} {g : Geometry} {line : Line} {copy : Copy} {s : State}

theorem lineEvents_of_same (same : (lineFinal i g line copy s).control.state = (s.lane i).control.state) :
    lineEvents i line copy s = [] := by
  by_cases stopping : (s.lane i).control.state = .stopping
  · rw [lineFinal_control_stopping stopping, stopping] at same
    exact absurd same nofun
  · rw [lineFinal_control_running stopping] at same
    rw [lineEvents, if_neg stopping, show (lineAdvanced i line copy s).1 = (s.lane i).control.state from same,
      advanceEvents_of_same]

theorem lineEvents_of_change (change : (lineFinal i g line copy s).control.state ≠ (s.lane i).control.state) :
    ∃ e, lineEvents i line copy s = [e] ∧ e.kindCode = 1 := by
  by_cases stopping : (s.lane i).control.state = .stopping
  · exact ⟨_, if_pos stopping, rfl⟩
  · rw [lineFinal_control_running stopping] at change
    obtain ⟨cause, event⟩ := advanceEvents_of_change (i := i) (k := (s.lane i).binding) (line := line.seq) (time := s.clock) change
    exact ⟨_, (if_neg stopping).trans event, rfl⟩

/-- Before its event the report unit is as the grading of the tracks leaves it. -/
theorem lineLeft_report_eq : ∃ jobs writer, (lineLeft i g line copy s).report =
    (lineEvents i line copy s).foldl ReportUnit.emit { s.report with jobs := jobs, writer := writer } := by
  refine ⟨(lineClosed i g line copy s).report.jobs, (lineClosed i g line copy s).report.writer, ?_⟩
  by_cases same : (lineFinal i g line copy s).control.state = (s.lane i).control.state
  · rw [lineLeft, lineEvents_of_same same]
    rfl
  · obtain ⟨e, one, _⟩ := lineEvents_of_change same
    rw [lineLeft, one]
    rfl

/-- With room, or without a change, nothing is lost. -/
theorem lineLeft_report_room (room : s.report.events.length < 16 ∨
      (lineFinal i g line copy s).control.state = (s.lane i).control.state) :
    ∃ jobs writer, (lineLeft i g line copy s).report =
      { s.report with jobs := jobs, writer := writer, events := s.report.events ++ lineEvents i line copy s } := by
  obtain ⟨jobs, writer, report⟩ := lineLeft_report_eq (i := i) (g := g) (line := line) (copy := copy) (s := s)
  refine ⟨jobs, writer, report.trans ?_⟩
  by_cases same : (lineFinal i g line copy s).control.state = (s.lane i).control.state
  · rw [lineEvents_of_same same, List.append_nil]
    rfl
  · obtain ⟨e, one, _⟩ := lineEvents_of_change same
    rw [one]
    exact ReportUnit.emit_of_room (r := { s.report with jobs := jobs, writer := writer }) (room.resolve_right same)

/-- Without room the event of a change is lost. -/
theorem lineLeft_report_full (full : 16 ≤ s.report.events.length)
    (change : (lineFinal i g line copy s).control.state ≠ (s.lane i).control.state) :
    ∃ jobs writer, (lineLeft i g line copy s).report = ({ s.report with
      jobs := jobs, writer := writer, lostEvents := bump s.report.lostEvents } : ReportUnit).raise .eventLost 1 := by
  obtain ⟨jobs, writer, report⟩ := lineLeft_report_eq (i := i) (g := g) (line := line) (copy := copy) (s := s)
  obtain ⟨e, one, kind⟩ := lineEvents_of_change change
  refine ⟨jobs, writer, report.trans ?_⟩
  rw [one, ← kind]
  exact ReportUnit.emit_of_full (r := { s.report with jobs := jobs, writer := writer }) full

end Left

/-! #### The roles of the buffers (R22, R24) -/

section Roles
variable {c : Capture} {k : Copy} (differ : c.RolesDiffer)
include differ

/-- In STOPPING no line is left to process. -/
theorem nextLine_stopping : (c.nextLine true k).inProcessing = none ∧ (c.nextLine true k).waitingLine = none := by
  obtain ⟨a, bufA, bufB, _⟩ := c
  cases bufA <;> cases bufB <;>
    simp_all [Capture.nextLine, Capture.putProcessing, Capture.waitingLine, Capture.putWaiting, Capture.inProcessing,
      Capture.RolesDiffer, Buffer.role]

/-- The line that waits is the next in processing. -/
theorem nextLine_taken (busy : c.inProcessing ≠ none) : (c.nextLine false k).waitingLine = none ∧
    (c.nextLine false k).inProcessing = c.waitingLine.map fun w => (w, k) := by
  obtain ⟨a, bufA, bufB, _⟩ := c
  cases bufA <;> cases bufB <;>
    simp_all [Capture.nextLine, Capture.putProcessing, Capture.waitingLine, Capture.putWaiting, Capture.inProcessing,
      Capture.RolesDiffer, Buffer.role]

theorem waitingLine_iff {l : Line} : c.waitingLine = some l ↔ c.bufA = .waiting l ∨ c.bufB = .waiting l := by
  rw [waitingLine_eq_some]
  refine or_congr_right ⟨And.left, fun inB => ⟨inB, fun a inA => ?_⟩⟩
  simp [Capture.RolesDiffer, inA, inB, Buffer.role] at differ

theorem assemblingLine_iff {l : Line} : c.assemblingLine = some l ↔ c.bufA = .assembling l ∨ c.bufB = .assembling l := by
  rw [assemblingLine_eq_some]
  refine or_congr_right ⟨And.left, fun inB => ⟨inB, fun a inA => ?_⟩⟩
  simp [Capture.RolesDiffer, inA, inB, Buffer.role] at differ

theorem inProcessing_iff {l : Line} {k : Copy} :
    c.inProcessing = some (l, k) ↔ c.bufA = .processing l k ∨ c.bufB = .processing l k := by
  unfold Capture.RolesDiffer at differ
  simp only [Capture.inProcessing]
  cases inA : c.bufA <;> cases inB : c.bufB <;> simp_all [Buffer.role]

end Roles

/-- Settles O37. -/
theorem lineProcessedAdvancesLaneState : Obligations.LineProcessedAdvancesLaneState := by
  refine ⟨fun i s line copy g running busy geometry differ => ?_,
    fun c l differ => ⟨waitingLine_iff differ, assemblingLine_iff differ, fun k => inProcessing_iff differ⟩,
    fun l g d z geometry detect zones => by simp only [Lane.settingsCopy, geometry, detect, zones]; rfl⟩
  intro l stationary event
  have bound : l.binding = some g.strand := binding_of_geometry geometry
  refine ⟨lineAnswer i g line copy s, exec_lineProcessed running busy geometry, ?_⟩
  rw [lineAnswer_lane_self, lineAnswer_report]
  refine ⟨fun going => ?_, fun going room => ?_, fun stopping => ⟨?_, ?_, ?_⟩, fun stopping room => ?_, fun stopping => ?_,
    fun room => ?_, fun full => ⟨?_, fun change => ?_⟩, fun e stopping held => ?_, fun other => ?_, fun going => ?_⟩
  · rw [lineFinal_control_running going]
    rfl
  · obtain ⟨jobs, writer, report⟩ := lineLeft_report_room (g := g) (line := line) (copy := copy) (i := i) (.inl room)
    rw [report, lineEvents, if_neg going, lineFinal_control_running going, bound]
    simp only [event, l]
    generalize (s.lane i).control.state = old
    generalize (lineAdvanced i line copy s).1 = new
    cases old <;> cases new <;> rfl
  · rw [lineFinal_control_stopping stopping]
  · rw [lineFinal_table_stopping stopping]
  · rw [lineFinal_capture, lineCapture, decide_eq_true stopping]
    exact nextLine_stopping differ
  · obtain ⟨jobs, writer, report⟩ := lineLeft_report_room (g := g) (line := line) (copy := copy) (i := i) (.inl room)
    rw [report, lineEvents, if_pos stopping, bound]
  · rw [lineFinal_control_stopping stopping]
    exact ⟨rfl, rfl⟩
  · obtain ⟨jobs, writer, report⟩ := lineLeft_report_room room
    rw [report]
    exact ⟨rfl, rfl, rfl, rfl⟩
  · by_cases same : (lineFinal i g line copy s).control.state = l.control.state
    · obtain ⟨jobs, writer, report⟩ := lineLeft_report_room (.inr same)
      rw [report, lineEvents_of_same same]
      exact List.append_nil _
    · obtain ⟨jobs, writer, report⟩ := lineLeft_report_full full same
      rw [report, ReportUnit.raise_frame]
  · obtain ⟨jobs, writer, report⟩ := lineLeft_report_full full change
    refine ⟨by rw [report, ReportUnit.raise_frame]; rfl, fun none_ => ?_, fun held => ?_⟩
    · rw [report.trans (ReportUnit.raise_first none_)]
      exact ⟨rfl, rfl, rfl⟩
    · rw [report.trans (ReportUnit.raise_later held)]
      exact ⟨rfl, rfl, rfl⟩
  · refine ⟨_, lineAnswer_held stopping held, lineLeft_command, ?_⟩
    rw [lineLeft_lane_self, lineFinal_control_stopping stopping]
  · rw [lineAnswer_other other, lineLeft_command]
  · rw [lineFinal_capture, lineCapture, decide_eq_false going]
    exact nextLine_taken differ fun idle => Option.some_ne_none _ (busy.symm.trans idle)

end Sys2Proof.Machine


/-! ### The job of a cut: its group and its billet record (R115 to R120) -/

namespace Sys2Proof.Machine

/-! #### Records removed from the pending list (R116) -/

section Removed
variable {b : Nat} {l m : List Defect}

theorem Defect.removedAt_eq (b : Nat) (d : Defect) :
    d.removedAt b = { d with straddle := d.straddle || decide (b ≤ d.stop) } := by
  by_cases across : b ≤ d.stop
  · simp only [Defect.removedAt, if_pos across, decide_eq_true across, Bool.or_true]
  · simp only [Defect.removedAt, if_neg across, decide_eq_false across, Bool.or_false]

theorem Defect.unmarked_removedAt (d : Defect) : (d.removedAt b).unmarked = d.unmarked.removedAt b := by
  rw [Defect.removedAt_eq, Defect.removedAt_eq]
  rfl

/-- What is chosen by the start does not depend on the mark states. -/
theorem map_unmarked_filter {p : Defect → Bool} (blind : ∀ d, p d.unmarked = p d) (same : l.map Defect.unmarked = m.map Defect.unmarked) :
    (l.filter p).map Defect.unmarked = (m.filter p).map Defect.unmarked := by
  have through (l : List Defect) : (l.filter p).map Defect.unmarked = (l.map Defect.unmarked).filter p := by
    rw [List.filter_map]
    exact congrArg (List.map Defect.unmarked) (List.filter_congr fun d _ => (blind d).symm)
  rw [through, through, same]

theorem map_unmarked_removedAt (same : l.map Defect.unmarked = m.map Defect.unmarked) :
    (l.map (Defect.removedAt b)).map Defect.unmarked = m.map fun d => (d.removedAt b).unmarked := by
  have through (l : List Defect) :
      (l.map fun d => (d.removedAt b).unmarked) = (l.map Defect.unmarked).map (Defect.removedAt b) := by
    rw [List.map_map]
    exact List.map_congr_left fun d _ => Defect.unmarked_removedAt d
  rw [List.map_map, through m, ← same, ← through l]
  rfl

theorem pairwise_keyLt_of_unmarked (same : l.map Defect.unmarked = m.map Defect.unmarked)
    (ascend : m.Pairwise fun a d => a.keyLt d = true) : l.Pairwise fun a d => a.keyLt d = true := by
  have through (l : List Defect) : (l.map Defect.unmarked).Pairwise (fun a d => a.keyLt d = true) ↔
      l.Pairwise fun a d => a.keyLt d = true := List.pairwise_map
  rw [← through, same, through]
  exact ascend

end Removed

/-! #### The group (R115, R116) -/

section Group
variable {d : Defect} {l heads : List Defect}

/-- A record goes behind every record whose key is not greater. -/
theorem insertByKey_eq (d : Defect) (l : List Defect) :
    insertByKey d l = l.takeWhile (fun x => !d.keyLt x) ++ d :: l.dropWhile fun x => !d.keyLt x := by
  induction l with
  | nil => rfl
  | cons x l ih =>
    by_cases less : d.keyLt x = true
    · simp [insertByKey, less]
    · simp [insertByKey, less, ih]

/-- The heads' records join those removed from the pending list, in the order they were made. -/
def joinGroup (heads removed : List Defect) : List Defect := heads.foldl (fun l d => insertByKey d l) removed

theorem mem_joinGroup {x : Defect} : x ∈ joinGroup heads l ↔ x ∈ l ∨ x ∈ heads := by
  induction heads generalizing l with
  | nil => simp [joinGroup]
  | cons d heads ih =>
    rw [joinGroup, List.foldl_cons, ← joinGroup, ih, mem_insertByKey, List.mem_cons]
    tauto

theorem joinGroup_length : (joinGroup heads l).length = l.length + heads.length := by
  induction heads generalizing l with
  | nil => rfl
  | cons d heads ih =>
    rw [joinGroup, List.foldl_cons, ← joinGroup, ih, insertByKey_length, List.length_cons]
    omega

/-- Key order in which a record of equal key stands behind only as the head of a split track (R116). -/
def InKeyOrder (a d : Defect) : Prop := d.keyLt a = false ∧ (a.sameKey d = true → d.reason = .cut)

theorem Defect.keyLt_asymm {a d : Defect} (less : a.keyLt d = true) : d.keyLt a = false := by
  by_contra more
  exact a.keyLt_irrefl (Defect.keyLt_trans less (by simpa using more))

theorem Defect.not_sameKey_of_keyLt {a d : Defect} (less : a.keyLt d = true) : ¬ a.sameKey d = true := by
  rw [Defect.sameKey_iff]
  rintro ⟨start, lane, serial⟩
  rw [Defect.keyLt_iff, lane, serial, start] at less
  omega

/-- A record before another stays before what is not before that one. -/
theorem Defect.keyLt_of_keyLt_of_not {a d x : Defect} (less : d.keyLt a = true) (le : x.keyLt a = false) : d.keyLt x = true := by
  by_cases same : d.sameKey x = true
  · obtain ⟨start, lane, serial⟩ := Defect.sameKey_iff.1 same
    have : d.keyLt a = x.keyLt a := by simp only [Defect.keyLt, lane, serial, start]
    rw [this, le] at less
    cases less
  · refine Defect.keyLt_of_not same fun more => ?_
    have := Defect.keyLt_trans more less
    rw [le] at this
    cases this

theorem pairwise_insertByKey (order : l.Pairwise InKeyOrder) (head : d.reason = .cut) :
    (insertByKey d l).Pairwise InKeyOrder := by
  induction l with
  | nil => exact List.pairwise_singleton ..
  | cons x l ih =>
    obtain ⟨first, order⟩ := List.pairwise_cons.1 order
    by_cases less : d.keyLt x = true
    · rw [insertByKey, if_pos less]
      have before {y : Defect} (below : d.keyLt y = true) : InKeyOrder d y :=
        ⟨Defect.keyLt_asymm below, fun same => absurd same (Defect.not_sameKey_of_keyLt below)⟩
      refine List.pairwise_cons.2 ⟨fun y inList => ?_, List.pairwise_cons.2 ⟨first, order⟩⟩
      rcases List.mem_cons.1 inList with rfl | inList
      · exact before less
      · exact before (Defect.keyLt_of_keyLt_of_not less (first y inList).1)
    · rw [insertByKey, if_neg less]
      refine List.pairwise_cons.2 ⟨fun y inList => ?_, ih order⟩
      rcases mem_insertByKey.1 inList with rfl | inList
      · exact ⟨by simpa using less, fun _ => head⟩
      · exact first y inList

/-- The group stands in key order, a record of the list before a head of equal key (R116). -/
theorem pairwise_joinGroup (ascend : l.Pairwise fun a d => a.keyLt d = true) (heads_ : ∀ d ∈ heads, d.reason = .cut) :
    (joinGroup heads l).Pairwise InKeyOrder := by
  have start : l.Pairwise InKeyOrder := ascend.imp fun less =>
    ⟨Defect.keyLt_asymm less, fun same => absurd same (Defect.not_sameKey_of_keyLt less)⟩
  clear ascend
  induction heads generalizing l with
  | nil => exact start
  | cons d heads ih =>
    exact ih (fun x inHeads => heads_ x (List.mem_cons_of_mem _ inHeads))
      (pairwise_insertByKey start (heads_ d List.mem_cons_self))

end Group

/-! #### The billet record (R117, R119, R120) -/

section Record

theorem foldl_max_grade (l : List Defect) (g : Nat) : g ≤ l.foldl (fun g d => max g d.grade) g ∧
    (∀ d ∈ l, d.grade ≤ l.foldl (fun g d => max g d.grade) g) ∧
    (l.foldl (fun g d => max g d.grade) g = g ∨ ∃ d ∈ l, d.grade = l.foldl (fun g d => max g d.grade) g) := by
  induction l generalizing g with
  | nil => exact ⟨Nat.le_refl _, nofun, .inl rfl⟩
  | cons d l ih =>
    obtain ⟨low, all, found⟩ := ih (max g d.grade)
    rw [List.foldl_cons]
    refine ⟨by omega, ?_, ?_⟩
    · rintro x (_ | ⟨_, inList⟩)
      · omega
      · exact all x inList
    · rcases found with same | ⟨x, inList, same⟩
      · rcases Nat.le_total d.grade g with le | le
        · exact .inl (same.trans (Nat.max_eq_left le))
        · exact .inr ⟨d, List.mem_cons_self, (same.trans (Nat.max_eq_right le)).symm⟩
      · exact .inr ⟨x, List.mem_cons_of_mem _ inList, same⟩

theorem le_maxGrade {group : List Defect} : ∀ d ∈ group, d.grade ≤ maxGrade group := (foldl_max_grade group 0).2.1

/-- The greatest grade is that of a record of the group. -/
theorem exists_maxGrade {group : List Defect} (some_ : group ≠ []) : ∃ d ∈ group, d.grade = maxGrade group := by
  rcases (foldl_max_grade group 0).2.2 with zero | found
  · obtain ⟨d, inGroup⟩ := List.exists_mem_of_ne_nil _ some_
    have := le_maxGrade d inGroup
    exact ⟨d, inGroup, by rw [show maxGrade group = 0 from zero] at this ⊢; omega⟩
  · exact found

theorem classCount_eq (c : Class) (group : List Defect) : classCount c group = group.countP fun d => decide (d.cls = c) :=
  List.countP_eq_length_filter.symm

/-- The verdict is the first condition that applies (R120). -/
theorem verdictOf_eq (c : StrandSetup) (group : List Defect) (coverage : List CoverEntry) (approx test : Bool) (dropped : Nat) :
    verdictOf c group coverage approx test dropped =
      if ∃ d ∈ group, c.rejectGrade ≤ d.grade then .defective
      else if coverage = [] ∨ (∃ e ∈ coverage, e.perMille < c.coverMin) ∨ approx = true ∨ test = true ∨ 0 < dropped then
        .unverified
      else .clean := by
  refine if_congr (by simp) rfl (if_congr ?_ rfl rfl)
  simp only [Bool.or_eq_true, List.isEmpty_iff, List.any_eq_true, decide_eq_true_eq, or_assoc]

/-- The run list trimmed at `b` (R118). -/
theorem trimRuns_eq (b : Nat) (runs : List Run) :
    trimRuns b runs = runs.filterMap fun r => if r.stop ≤ b then none else some { r with start := max r.start b } := by
  induction runs with
  | nil => rfl
  | cons r runs ih =>
    have same : (if r.start < b then { r with start := b } else r) = { r with start := max r.start b } := by
      split_ifs with below
      · rw [Nat.max_eq_right (by omega)]
      · rw [Nat.max_eq_left (by omega)]
    unfold trimRuns at ih ⊢
    by_cases gone : r.stop ≤ b
    · simp only [List.filter_cons_of_neg (p := fun r : Run => decide (b < r.stop)) (by simpa using gone), List.filterMap_cons,
        if_pos gone, ih]
    · simp only [List.filter_cons_of_pos (p := fun r : Run => decide (b < r.stop)) (by simpa using gone), List.map_cons, same,
        List.filterMap_cons, if_neg gone, ih]

end Record

end Sys2Proof.Machine


/-! ### The stages of an accepted cut (R115) -/

namespace Sys2Proof.Machine

/-! #### Mark states in the jobs queued -/

/-- A job without the mark states of its records. -/
def Job.cleared (j : Job) : Job := { j with group := j.group.map Defect.unmarked }

theorem remarkRecord_cleared (k : Fin 6) (e : MarkEntry) (m : Mark) (s : State) :
    (remarkRecord k e m s).report.jobs.map Job.cleared = s.report.jobs.map Job.cleared := by
  rw [remarkRecord_jobs, List.map_map]
  refine List.map_congr_left fun j _ => ?_
  by_cases strand : j.billet.strand = k
  · simp [Job.cleared, Job.remark, strand, Function.comp_def]
  · simp [Job.remark, strand]

theorem fireEntry_cleared (k : Fin 6) (e : MarkEntry) (s : State) :
    (fireEntry k e s).report.jobs.map Job.cleared = s.report.jobs.map Job.cleared := remarkRecord_cleared ..

theorem offerIfGraded_cleared (k : Fin 6) (d : Defect) (s : State) :
    (offerIfGraded k d s).2.report.jobs.map Job.cleared = s.report.jobs.map Job.cleared := by
  simp only [offerIfGraded, offerMark]
  split
  · rfl
  · split_ifs
    · rfl
    · rfl
    · rfl
    · exact fireEntry_cleared ..
    · rfl
    · rfl

/-- Grading a track changes of the jobs queued only mark states. -/
theorem gradeTrack_cleared (i : Fin 12) (n : Nat) (r : CloseReason) (head : Bool) (t : Track) (s : State) :
    (gradeTrack i n r head t s).2.report.jobs.map Job.cleared = s.report.jobs.map Job.cleared := by
  simp only [gradeTrack]
  split
  · rfl
  · split_ifs
    · rfl
    · rfl
    · exact offerIfGraded_cleared ..

/-! #### The heads, one after another -/

/-- One head graded: a record made joins those made before. -/
def gradeHead (i : Fin 12) (n : Nat) (acc : List Defect × State) (t : Track) : List Defect × State :=
  (acc.1 ++ (gradeTrack i n .cut true t acc.2).1.toList, (gradeTrack i n .cut true t acc.2).2)

/-- MIN_LINES in force of a lane (R91). -/
def minLinesOf (l : Lane) : Nat := (l.control.detect.map (·.minLines)).getD 0

theorem minLinesOf_eq (l : Lane) : (l.control.detect.getD Detect.zero).minLines = minLinesOf l := by
  unfold minLinesOf
  cases l.control.detect <;> rfl

/-- A lane's part in the cut: its table is split, and its heads are graded in age order. -/
theorem splitLane_eq (b : Nat) (acc : List Defect × State) (i : Fin 12) : splitLane b acc i =
    ((acc.2.lane i).table.heads b).foldl (gradeHead i (minLinesOf (acc.2.lane i)))
      (acc.1, acc.2.setLane i { acc.2.lane i with table := (acc.2.lane i).table.split b }) := by
  rw [splitLane, minLinesOf_eq]
  refine congrArg (fun f => List.foldl f _ _) (funext fun acc => funext fun t => ?_)
  rw [gradeHead]
  cases gradeTrack i (minLinesOf _) .cut true t acc.2 with
  | mk record u =>
    cases record with
    | none => simp
    | some d => rfl

theorem gradeHead_gradingOf {i : Fin 12} {n : Nat} {made : List Defect} {u v : State} {t : Track}
    (control : (u.lane i).control = (v.lane i).control) :
    gradeHead i n (made, u.gradingOf v) t = ((gradeHead i n (made, v) t).1, u.gradingOf (gradeHead i n (made, v) t).2) := by
  simp only [gradeHead, gradeTrack_gradingOf i n .cut true t v u control]

theorem marked_gradeHead (i : Fin 12) (n : Nat) (acc : List Defect × State) (t : Track) :
    Marked acc.2 (gradeHead i n acc t).2 := marked_gradeTrack i n .cut true t acc.2

theorem foldl_gradeHead_gradingOf {i : Fin 12} {n : Nat} (heads : List Track) {made : List Defect} {u v : State}
    (control : (u.lane i).control = (v.lane i).control) :
    heads.foldl (gradeHead i n) (made, u.gradingOf v) =
      ((heads.foldl (gradeHead i n) (made, v)).1, u.gradingOf (heads.foldl (gradeHead i n) (made, v)).2) := by
  induction heads generalizing made v with
  | nil => rfl
  | cons t heads ih =>
    rw [List.foldl_cons, List.foldl_cons, gradeHead_gradingOf control]
    exact ih (control.trans (by rw [(marked_gradeHead i n (made, v) t).lane]))

theorem marked_foldl_gradeHead (i : Fin 12) (n : Nat) (heads : List Track) (acc : List Defect × State) :
    Marked acc.2 (heads.foldl (gradeHead i n) acc).2 :=
  List.foldlRecOn (motive := fun r : List Defect × State => Marked acc.2 r.2) _ _ (.refl _)
    fun r hr t _ => hr.trans (marked_gradeHead i n r t)

/-- The heads of some lanes of `s` at `b`, each with its lane: lane by lane, and in age order within a lane. -/
def cutHeads (s : State) (b : Nat) (lanes : List (Fin 12)) : List (Fin 12 × Track) :=
  lanes.flatMap fun i => ((s.lane i).table.heads b).map (Prod.mk i)

/-- A head judged with the MIN_LINES in force of its lane in `s`. -/
def judgeHead (s : State) (acc : List Defect × State) (h : Fin 12 × Track) : List Defect × State :=
  gradeHead h.1 (minLinesOf (s.lane h.1)) acc h.2

theorem foldl_judgeHead_lane (s : State) (i : Fin 12) (heads : List Track) (acc : List Defect × State) :
    (heads.map (Prod.mk i)).foldl (judgeHead s) acc = heads.foldl (gradeHead i (minLinesOf (s.lane i))) acc := by
  rw [List.foldl_map]
  rfl

theorem foldl_judgeHead_cleared (s : State) (heads : List (Fin 12 × Track)) (acc : List Defect × State) :
    (heads.foldl (judgeHead s) acc).2.report.jobs.map Job.cleared = acc.2.report.jobs.map Job.cleared :=
  List.foldlRecOn (motive := fun r : List Defect × State => r.2.report.jobs.map Job.cleared = acc.2.report.jobs.map Job.cleared)
    _ _ rfl fun r hr h _ => (gradeTrack_cleared h.1 _ .cut true h.2 r.2).trans hr

/-- The lanes' parts leave what the grading of their heads leaves, one after another from the state before. -/
theorem foldl_splitLane_judge {s : State} {b : Nat} {lanes : List (Fin 12)} (once : lanes.Nodup) {made : List Defect} {u v : State}
    (stand : ∀ i ∈ lanes, u.lane i = s.lane i) (control : ∀ i, (u.lane i).control = (v.lane i).control) :
    ∃ w : State, lanes.foldl (splitLane b) (made, u.gradingOf v) =
      (((cutHeads s b lanes).foldl (judgeHead s) (made, v)).1,
        w.gradingOf ((cutHeads s b lanes).foldl (judgeHead s) (made, v)).2) := by
  induction lanes generalizing made u v with
  | nil => exact ⟨u, rfl⟩
  | cons i lanes ih =>
    obtain ⟨fresh, once⟩ := List.nodup_cons.1 once
    have lane : (u.gradingOf v).lane i = s.lane i := stand i List.mem_cons_self
    have control' (j : Fin 12) : ((u.setLane i { s.lane i with table := (s.lane i).table.split b }).lane j).control =
        (v.lane j).control := by
      rw [← control, State.setLane_lane]
      split_ifs with here
      · rw [here, stand i List.mem_cons_self]
      · rfl
    have first : splitLane b (made, u.gradingOf v) i =
        (((((s.lane i).table.heads b).foldl (gradeHead i (minLinesOf (s.lane i))) (made, v)).1),
          (u.setLane i { s.lane i with table := (s.lane i).table.split b }).gradingOf
            (((s.lane i).table.heads b).foldl (gradeHead i (minLinesOf (s.lane i))) (made, v)).2) := by
      rw [splitLane_eq]
      simp only [lane]
      exact foldl_gradeHead_gradingOf _ (control' i)
    have marked := marked_foldl_gradeHead i (minLinesOf (s.lane i)) ((s.lane i).table.heads b) (made, v)
    rw [List.foldl_cons, first, cutHeads, List.flatMap_cons, List.foldl_append, foldl_judgeHead_lane]
    refine ih once (fun j inLanes => ?_) fun j => (control' j).trans (by rw [marked.lane])
    rw [State.setLane_lane, if_neg (ne_of_mem_of_not_mem inLanes fresh)]
    exact stand j (List.mem_cons_of_mem _ inLanes)

/-! #### The stages -/

section Stages
variable (k : Fin 6) (c : StrandSetup) (b : Nat) (s : State)

/-- The lanes that take the cut, in the order in which they do (log 12). -/
def cutLanes : List (Fin 12) := anyOrder s.choice (splittingLanes s k b)

/-- The part with the order of the lanes chosen. -/
def cutBase : State :=
  if (splittingLanes s k b).length ≤ 1 then s else { s with choice := s.choice + (splittingLanes s k b).length }

/-- Step 1: the tables split, and the records of their heads. -/
def cutSplit : List Defect × State := (cutLanes k b s).foldl (splitLane b) ([], cutBase k b s)

/-- The open billet that the cut closes. -/
def cutOpen : OpenBillet := ((cutSplit k b s).2.strand k).billet.current

/-- Step 2: the records removed from the pending list. -/
def cutRemoved : List Defect :=
  (((cutSplit k b s).2.strand k).billet.waiting.filter fun d => decide (d.start < b)).map (Defect.removedAt b)

def cutGroup : List Defect := joinGroup (cutSplit k b s).1 (cutRemoved k b s)

/-- Step 3: the coverage entries. -/
def cutCoverage : List CoverEntry :=
  ((cutOpen k b s).active.filter fun i => decide (((cutSplit k b s).2.lane i).binding = some k)).map
    fun i => coverageOf i ((cutSplit k b s).2.lane i).runs (cutOpen k b s).start b

/-- Step 4: the run lists trimmed. -/
def cutTrimmed : State := (boundLanes (cutSplit k b s).2 k).foldl (trimLanes b) (cutSplit k b s).2

/-- Step 5: the billet record. -/
def cutRecord : BilletRecord :=
  billetRecord k c (cutOpen k b s) b (cutTrimmed k b s).clock (cutGroup k b s) (cutCoverage k b s)

theorem acceptCut_eq : acceptCut k c b s =
    { (cutTrimmed k b s).setStrand k { (cutSplit k b s).2.strand k with billet :=
        { waiting := ((cutSplit k b s).2.strand k).billet.waiting.filter fun d => !decide (d.start < b)
          current := (cutOpen k b s).next b (activeLanes (cutTrimmed k b s) k) (testLane (cutTrimmed k b s) k) } } with
      report := (cutTrimmed k b s).report.takeJob ⟨cutRecord k c b s, cutGroup k b s⟩ } := rfl

theorem cutBase_eq : ∃ choice, cutBase k b s = { s with choice := choice } := by
  unfold cutBase
  split_ifs
  · exact ⟨s.choice, rfl⟩
  · exact ⟨_, rfl⟩

theorem cutBase_lane (i : Fin 12) : (cutBase k b s).lane i = s.lane i := by
  obtain ⟨_, base⟩ := cutBase_eq k b s; rw [base]; rfl

theorem cutBase_strand (j : Fin 6) : (cutBase k b s).strand j = s.strand j := by
  obtain ⟨_, base⟩ := cutBase_eq k b s; rw [base]; rfl

variable {k b s}

theorem mem_cutLanes {i : Fin 12} :
    i ∈ cutLanes k b s ↔ (s.lane i).binding = some k ∧ (s.lane i).table.heads b ≠ [] := by
  rw [cutLanes, (anyOrder_perm ..).mem_iff, splittingLanes, List.mem_filter, mem_boundLanes]
  simp

theorem cutLanes_nodup : (cutLanes k b s).Nodup :=
  (anyOrder_perm ..).nodup_iff.2 (((List.nodup_finRange 12).filter _).filter _)

theorem cutSplit_spec : Cutting b k (cutLanes k b s) (cutBase k b s) (cutSplit k b s).2 ∧
    ∀ d ∈ (cutSplit k b s).1, HeadOf b k (cutBase k b s) d := by
  have spec := splitLanes_spec b k (cutLanes k b s) [] (cutBase k b s) ([], cutBase k b s)
    ⟨fun _ => by simp, .refl _, fun _ _ => rfl, rfl⟩ nofun
    (fun i inLanes => by rw [cutBase_lane]; exact (mem_cutLanes.1 inLanes).1) (by rw [List.append_nil]; exact cutLanes_nodup)
  rwa [List.append_nil] at spec

/-- A table of which no track starts below `b` is not changed by the split. -/
theorem split_of_no_heads {m : TrackTable} (none_ : m.heads b = []) : m.split b = m := by
  have stays : ∀ x ∈ m.tracks, ¬ x.start < b := by
    simpa [TrackTable.heads] using none_
  have tracks : (m.tracks.map fun x => if x.start < b then x.tail b else x) = m.tracks :=
    (List.map_congr_left fun x inTracks => if_neg (stays x inTracks)).trans (List.map_id' _)
  rw [TrackTable.split, tracks]

theorem cutSplit_lane (i : Fin 12) : (cutSplit k b s).2.lane i =
    if (s.lane i).binding = some k then { s.lane i with table := (s.lane i).table.split b } else s.lane i := by
  rw [cutSplit_spec.1.lanes, cutBase_lane]
  by_cases bound : (s.lane i).binding = some k
  · rw [if_pos bound]
    by_cases heads : (s.lane i).table.heads b = []
    · rw [if_neg fun inLanes => (mem_cutLanes.1 inLanes).2 heads, split_of_no_heads heads]
    · rw [if_pos (mem_cutLanes.2 ⟨bound, heads⟩)]
  · rw [if_neg bound, if_neg fun inLanes => bound (mem_cutLanes.1 inLanes).1]

theorem cutSplit_control (i : Fin 12) : ((cutSplit k b s).2.lane i).control = (s.lane i).control := by
  rw [cutSplit_lane]
  split_ifs <;> rfl

theorem cutSplit_binding (i : Fin 12) : ((cutSplit k b s).2.lane i).binding = (s.lane i).binding := by
  rw [Lane.binding, cutSplit_control, Lane.binding]

theorem cutSplit_runs (i : Fin 12) : ((cutSplit k b s).2.lane i).runs = (s.lane i).runs := by
  rw [cutSplit_lane]
  split_ifs <;> rfl

/-- The lanes aside, the split is a matter of grading and marking. -/
theorem cutSplit_marked : Marked { cutBase k b s with lanes := (cutSplit k b s).2.lanes } (cutSplit k b s).2 :=
  cutSplit_spec.1.marked

theorem cutSplit_clock : (cutSplit k b s).2.clock = s.clock := by
  obtain ⟨_, base⟩ := cutBase_eq k b s
  rw [cutSplit_marked.clock, base]

theorem cutSplit_report : ∃ jobs writer, (cutSplit k b s).2.report = { s.report with jobs := jobs, writer := writer } ∧
    jobs.length = s.report.jobs.length := by
  obtain ⟨_, base⟩ := cutBase_eq k b s
  obtain ⟨jobs, writer, report, same⟩ := (cutSplit_marked (k := k) (b := b) (s := s)).report
  refine ⟨jobs, writer, by rw [report, base], ?_⟩
  have := congrArg List.length same
  rw [base] at this
  simpa using this

theorem cutOpen_eq : ∃ osc noise, cutOpen k b s =
    { (s.strand k).billet.current with osc := osc, noise := noise, dropped := (cutOpen k b s).dropped } := by
  obtain ⟨osc, noise, dropped, current⟩ := (cutSplit_marked (k := k) (b := b) (s := s)).current k
  have strand : ({ cutBase k b s with lanes := (cutSplit k b s).2.lanes } : State).strand k = s.strand k := cutBase_strand k b s k
  rw [strand] at current
  exact ⟨osc, noise, by rw [cutOpen, current]⟩

theorem cutSplit_waiting : ((cutSplit k b s).2.strand k).billet.waiting.map Defect.unmarked =
    (s.strand k).billet.waiting.map Defect.unmarked := by
  rw [cutSplit_spec.1.waiting, cutBase_strand]

/-- Every track below `b` is accounted for. -/
theorem cutSplit_accounted : Accounted k s
    ((allLanes.filter fun i => decide ((s.lane i).binding = some k)).map fun i => ((s.lane i).table.heads b).length).sum
    (cutSplit k b s) := by
  have accounted := Accounted.lanes (b := b) (k := k) (s := cutBase k b s) (u := cutBase k b s) (m := 0)
    (l := cutLanes k b s) (done := []) (acc := ([], cutBase k b s))
    ⟨rfl, fun _ _ => ⟨Nat.le_refl _, Nat.le_refl _, by simp⟩⟩
    ⟨fun _ => by simp, .refl _, fun _ _ => rfl, rfl⟩ nofun
    (fun i inLanes => by rw [cutBase_lane]; exact (mem_cutLanes.1 inLanes).1) (by rw [List.append_nil]; exact cutLanes_nodup)
  have count : ((cutLanes k b s).map fun i => (((cutBase k b s).lane i).table.heads b).length).sum =
      ((allLanes.filter fun i => decide ((s.lane i).binding = some k)).map fun i =>
        ((s.lane i).table.heads b).length).sum := by
    simp only [cutBase_lane]
    rw [cutLanes, ((anyOrder_perm ..).map _).sum_eq, splittingLanes, boundLanes_eq]
    exact sum_map_filter _ _ _ fun i _ none_ => by simpa using none_
  rw [Nat.zero_add, count] at accounted
  obtain ⟨dropped, sum⟩ := accounted
  rw [cutBase_strand] at dropped sum
  exact ⟨dropped, sum⟩

/-- What the cut's grading leaves is what grading the heads one after another leaves. -/
theorem cutSplit_judge : ∃ w : State, cutSplit k b s =
    (((cutHeads s b (cutLanes k b s)).foldl (judgeHead s) ([], s)).1,
      w.gradingOf ((cutHeads s b (cutLanes k b s)).foldl (judgeHead s) ([], s)).2) := by
  obtain ⟨_, base⟩ := cutBase_eq k b s
  have start : cutBase k b s = (cutBase k b s).gradingOf s :=
    State.eq_gradingOf (by rw [base]) (by rw [base]) (by rw [base]) (by rw [base]) (by rw [base])
  rw [cutSplit, start]
  exact foldl_splitLane_judge cutLanes_nodup (fun i _ => cutBase_lane k b s i) fun i => by rw [cutBase_lane]

/-- All lanes of the strand, those that take the cut first. -/
def cutOrder (k : Fin 6) (b : Nat) (s : State) : List (Fin 12) :=
  cutLanes k b s ++ (boundLanes s k).filter fun i => ((s.lane i).table.heads b).isEmpty

theorem cutOrder_perm : (cutOrder k b s).Perm (allLanes.filter fun i => decide ((s.lane i).binding = some k)) := by
  rw [← boundLanes_eq]
  refine ((anyOrder_perm ..).append_right _).trans ?_
  have parts := List.filter_append_perm (fun i => !((s.lane i).table.heads b).isEmpty) (boundLanes s k)
  simpa only [splittingLanes, Bool.not_not] using parts

theorem cutHeads_cutOrder : cutHeads s b (cutOrder k b s) = cutHeads s b (cutLanes k b s) := by
  have none_ : cutHeads s b ((boundLanes s k).filter fun i => ((s.lane i).table.heads b).isEmpty) = [] := by
    rw [cutHeads, List.flatMap_eq_nil_iff]
    intro i inRest
    have : (s.lane i).table.heads b = [] := by simpa using (List.mem_filter.1 inRest).2
    rw [this]
    rfl
  rw [cutHeads, cutOrder, List.flatMap_append]
  exact (congrArg _ none_).trans (List.append_nil _)

theorem boundLanes_nodup (s : State) (k : Fin 6) : (boundLanes s k).Nodup := (List.nodup_finRange 12).filter _

theorem cutTrimmed_eq : cutTrimmed k b s = { (cutSplit k b s).2 with lanes := (cutTrimmed k b s).lanes } :=
  (trimLanes_fold b _ _ (boundLanes_nodup ..)).1

theorem cutTrimmed_lane (i : Fin 12) : (cutTrimmed k b s).lane i = if (s.lane i).binding = some k then
    { s.lane i with table := (s.lane i).table.split b, runs := trimRuns b (s.lane i).runs } else s.lane i := by
  rw [cutTrimmed, (trimLanes_fold b _ _ (boundLanes_nodup ..)).2, cutSplit_lane]
  have inLanes : i ∈ boundLanes (cutSplit k b s).2 k ↔ (s.lane i).binding = some k := by
    rw [mem_boundLanes, cutSplit_binding]
  by_cases bound : (s.lane i).binding = some k
  · rw [if_pos (inLanes.2 bound)]
    simp only [if_pos bound]
  · rw [if_neg fun inside => bound (inLanes.1 inside), if_neg bound, if_neg bound]

theorem cutTrimmed_control (i : Fin 12) : ((cutTrimmed k b s).lane i).control = (s.lane i).control := by
  rw [cutTrimmed_lane]
  split_ifs <;> rfl

theorem cutTrimmed_report : (cutTrimmed k b s).report = (cutSplit k b s).2.report := by rw [cutTrimmed_eq]

theorem cutTrimmed_clock : (cutTrimmed k b s).clock = s.clock := by rw [cutTrimmed_eq]; exact cutSplit_clock

end Stages

end Sys2Proof.Machine


/-! ### O27 -/

namespace Sys2Proof.Machine

section Cut
variable {k : Fin 6} {c : StrandSetup} {b : Nat} {s : State}

/-! #### What the grading of the heads leaves -/

/-- The heads of all lanes of the strand graded one after another from `s`. -/
def cutGraded (k : Fin 6) (b : Nat) (s : State) : List Defect × State :=
  (cutHeads s b (cutOrder k b s)).foldl (judgeHead s) ([], s)

theorem cutSplit_graded : (cutSplit k b s).1 = (cutGraded k b s).1 ∧
    (∀ j, (cutSplit k b s).2.strand j = (cutGraded k b s).2.strand j) ∧
    (cutSplit k b s).2.report.jobs = (cutGraded k b s).2.report.jobs ∧
    (cutSplit k b s).2.report.writer = (cutGraded k b s).2.report.writer := by
  obtain ⟨w, split⟩ := cutSplit_judge (k := k) (b := b) (s := s)
  rw [cutGraded, cutHeads_cutOrder, split]
  exact ⟨rfl, fun _ => rfl, rfl, rfl⟩

theorem cutSplit_cleared : (cutSplit k b s).2.report.jobs.map Job.cleared = s.report.jobs.map Job.cleared := by
  rw [cutSplit_graded.2.2.1]
  exact foldl_judgeHead_cleared ..

/-- With no track below `b` nothing is graded. -/
theorem cutSplit_none (none_ : ∀ i, (s.lane i).binding = some k → ∀ x ∈ (s.lane i).table.tracks, b ≤ x.start) :
    cutSplit k b s = ([], cutBase k b s) := by
  have lanes : cutLanes k b s = [] := by
    refine List.eq_nil_iff_forall_not_mem.2 fun i inLanes => ?_
    obtain ⟨bound, heads⟩ := mem_cutLanes.1 inLanes
    refine heads (List.map_eq_nil_iff.2 (List.filter_eq_nil_iff.2 fun x inTracks => ?_))
    simpa using none_ i bound x inTracks
  rw [cutSplit, lanes, List.foldl_nil]

/-! #### The billet that opens, the lanes and the report unit -/

theorem acceptCut_lane (i : Fin 12) : (acceptCut k c b s).lane i = (cutTrimmed k b s).lane i := rfl

theorem acceptCut_strand_self : (acceptCut k c b s).strand k = { (cutSplit k b s).2.strand k with billet :=
    { waiting := ((cutSplit k b s).2.strand k).billet.waiting.filter fun d => decide (b ≤ d.start)
      current := (cutOpen k b s).next b (activeLanes (cutTrimmed k b s) k) (testLane (cutTrimmed k b s) k) } } := by
  have keep : (fun d : Defect => !decide (d.start < b)) = fun d => decide (b ≤ d.start) := by
    funext d
    rw [← decide_not]
    exact decide_eq_decide.2 Nat.not_lt
  rw [← keep]
  exact State.setStrand_strand_self ..

theorem activeLanes_cutTrimmed : activeLanes (cutTrimmed k b s) k = allLanes.filter fun i =>
    decide ((s.lane i).binding = some k) && decide ((s.lane i).control.state ≠ .off) := by
  rw [activeLanes, boundLanes_eq, List.filter_filter]
  refine List.filter_congr fun i _ => ?_
  rw [Lane.binding, cutTrimmed_control, Bool.and_comm, Lane.binding]

theorem testLane_cutTrimmed : testLane (cutTrimmed k b s) k = true ↔
    ∃ i, (s.lane i).binding = some k ∧ (s.lane i).control.state = .test := by
  simp only [testLane, List.any_eq_true, mem_boundLanes, decide_eq_true_eq, Lane.binding, cutTrimmed_control]

/-- The job of the cut. -/
def cutJob (k : Fin 6) (c : StrandSetup) (b : Nat) (s : State) : Job := ⟨cutRecord k c b s, cutGroup k b s⟩

theorem acceptCut_report : (acceptCut k c b s).report = (cutSplit k b s).2.report.takeJob (cutJob k c b s) := by
  rw [acceptCut_eq, ← cutTrimmed_report]
  rfl

theorem acceptCut_report_room (room : s.report.jobs.length < 8) : (acceptCut k c b s).report = { s.report with
    jobs := (cutSplit k b s).2.report.jobs ++ [cutJob k c b s], writer := (cutSplit k b s).2.report.writer } := by
  obtain ⟨jobs, writer, report, length⟩ := cutSplit_report (k := k) (b := b) (s := s)
  rw [acceptCut_report, report]
  exact if_pos (by simpa [length] using room)

theorem acceptCut_report_full (full : 8 ≤ s.report.jobs.length) : (acceptCut k c b s).report = ({ s.report with
    jobs := (cutSplit k b s).2.report.jobs, writer := (cutSplit k b s).2.report.writer
    lostJobs := bump s.report.lostJobs } : ReportUnit).raise .reportLost k.val := by
  obtain ⟨jobs, writer, report, length⟩ := cutSplit_report (k := k) (b := b) (s := s)
  rw [acceptCut_report, report]
  exact if_neg (by simpa [length] using full)

/-- Queued or lost, the job changes nothing else of the report unit; the writer stands as the grading left it. -/
theorem acceptCut_report_frame : (acceptCut k c b s).report = { s.report with
      jobs := (acceptCut k c b s).report.jobs, writer := (acceptCut k c b s).report.writer
      lostJobs := (acceptCut k c b s).report.lostJobs, fault := (acceptCut k c b s).report.fault
      detail := (acceptCut k c b s).report.detail, suppressed := (acceptCut k c b s).report.suppressed } ∧
    (acceptCut k c b s).report.writer = (cutSplit k b s).2.report.writer := by
  rcases Nat.lt_or_ge s.report.jobs.length 8 with room | full
  · rw [acceptCut_report_room room]
    exact ⟨rfl, rfl⟩
  · rw [acceptCut_report_full full, ReportUnit.raise_frame]
    exact ⟨rfl, rfl⟩

/-! #### The group -/

theorem cutRemoved_unmarked : (cutRemoved k b s).map Defect.unmarked =
    ((s.strand k).billet.waiting.filter fun d => decide (d.start < b)).map fun d => (d.removedAt b).unmarked :=
  map_unmarked_removedAt (map_unmarked_filter (fun _ => rfl) cutSplit_waiting)

theorem cutRemoved_ascend (ascend : (s.strand k).billet.waiting.Pairwise fun a d => a.keyLt d = true) :
    (cutRemoved k b s).Pairwise fun a d => a.keyLt d = true := by
  refine List.pairwise_map.2 (((pairwise_keyLt_of_unmarked cutSplit_waiting ascend).filter _).imp fun {a d} less => ?_)
  rw [Defect.removedAt_eq, Defect.removedAt_eq]
  exact less

theorem cutGroup_length : (cutGroup k b s).length =
    (s.strand k).billet.waiting.countP (fun d => decide (d.start < b)) + (cutSplit k b s).1.length := by
  have removed := congrArg List.length (cutRemoved_unmarked (k := k) (b := b) (s := s))
  rw [List.length_map, List.length_map] at removed
  rw [cutGroup, joinGroup_length, removed, List.countP_eq_length_filter]

/-- A record of the pending list below `b` is in the group. -/
theorem mem_cutGroup_of_waiting {d : Defect} (waits : d ∈ (s.strand k).billet.waiting) (below : d.start < b) :
    (d.removedAt b).unmarked ∈ (cutGroup k b s).map Defect.unmarked := by
  have inRemoved : (d.removedAt b).unmarked ∈ (cutRemoved k b s).map Defect.unmarked := by
    rw [cutRemoved_unmarked]
    exact List.mem_map.2 ⟨d, List.mem_filter.2 ⟨waits, decide_eq_true below⟩, rfl⟩
  obtain ⟨x, inList, same⟩ := List.mem_map.1 inRemoved
  exact List.mem_map.2 ⟨x, mem_joinGroup.2 (.inl inList), same⟩

/-- What the group holds: records of the pending list, and heads. -/
theorem cutGroup_of {d : Defect} (inGroup : d ∈ cutGroup k b s) : d.start < b ∧
    (d.unmarked ∈ (s.strand k).billet.waiting.map (fun x => (x.removedAt b).unmarked) ∨
      (s.lane d.lane).binding = some k ∧ d.reason = .cut ∧ d.splitHead = true ∧ d.straddle = false ∧ d.time = s.clock ∧
        ∃ x ∈ (s.lane d.lane).table.tracks, x.serial = d.serial ∧ x.start = d.start ∧ d.stop = min x.stop (b - 1)) := by
  rcases mem_joinGroup.1 inGroup with removed | head
  · obtain ⟨x, chosen, rfl⟩ := List.mem_map.1 removed
    obtain ⟨waits, below⟩ := List.mem_filter.1 chosen
    have start : (x.removedAt b).start = x.start := by rw [Defect.removedAt_eq]
    refine ⟨by simpa [start] using below, .inl ?_⟩
    rw [← map_unmarked_removedAt (cutSplit_waiting (k := k) (b := b) (s := s))]
    exact List.mem_map.2 ⟨x.removedAt b, List.mem_map.2 ⟨x, waits, rfl⟩, rfl⟩
  · obtain ⟨_, base⟩ := cutBase_eq k b s
    obtain ⟨bound, reason, splitHead, straddle, time, x, inTracks, below, serial, start, stop⟩ := cutSplit_spec.2 d head
    rw [cutBase_lane] at bound inTracks
    rw [base] at time
    exact ⟨start ▸ below, .inr ⟨bound, reason, splitHead, straddle, time, x, inTracks, serial, start, stop⟩⟩

theorem cutGroup_order (ascend : (s.strand k).billet.waiting.Pairwise fun a d => a.keyLt d = true) :
    (cutGroup k b s).Pairwise InKeyOrder :=
  pairwise_joinGroup (cutRemoved_ascend ascend) fun d made => (cutSplit_spec.2 d made).2.1

/-- Of the billet that the cut closes, the grading of the heads moves the tallies only. -/
theorem cutOpen_fields : (cutOpen k b s).serial = (s.strand k).billet.current.serial ∧
    (cutOpen k b s).start = (s.strand k).billet.current.start ∧
    (cutOpen k b s).partialHead = (s.strand k).billet.current.partialHead ∧
    (cutOpen k b s).testSeen = (s.strand k).billet.current.testSeen ∧
    (cutOpen k b s).laneLeft = (s.strand k).billet.current.laneLeft ∧
    (cutOpen k b s).dropped = (s.strand k).billet.current.dropped := by
  obtain ⟨_, _, current⟩ := cutOpen_eq (k := k) (b := b) (s := s)
  refine ⟨?_, ?_, ?_, ?_, ?_, cutSplit_accounted.1⟩ <;> rw [current]

/-- With no track below `b` the group is the records removed, and the tallies stand. -/
theorem cutGroup_none (none_ : ∀ i, (s.lane i).binding = some k → ∀ x ∈ (s.lane i).table.tracks, b ≤ x.start) :
    (cutGroup k b s).map Defect.unmarked =
      ((s.strand k).billet.waiting.filter fun d => decide (d.start < b)).map (fun d => (d.removedAt b).unmarked) ∧
    (cutOpen k b s).osc = (s.strand k).billet.current.osc ∧ (cutOpen k b s).noise = (s.strand k).billet.current.noise := by
  have ungraded := cutSplit_none none_
  refine ⟨?_, ?_, ?_⟩
  · rw [cutGroup, ungraded, ← cutRemoved_unmarked]
    rfl
  · rw [cutOpen, ungraded, cutBase_strand]
  · rw [cutOpen, ungraded, cutBase_strand]

theorem heads_length (b : Nat) (m : TrackTable) : (m.heads b).length = m.tracks.countP fun x => decide (x.start < b) := by
  rw [TrackTable.heads, List.length_map, List.countP_eq_length_filter]

/-- Each track below `b` gives one record of the group, or raises a tally by 1. -/
theorem cutGroup_accounted :
    let n := ((allLanes.filter fun i => decide ((s.lane i).binding = some k)).map fun i =>
      (s.lane i).table.tracks.countP fun x => decide (x.start < b)).sum
    let o := (s.strand k).billet.current
    o.osc + n ≤ 65535 → o.noise + n ≤ 65535 → o.osc ≤ (cutOpen k b s).osc ∧ o.noise ≤ (cutOpen k b s).noise ∧
      (cutGroup k b s).length + ((cutOpen k b s).osc - o.osc) + ((cutOpen k b s).noise - o.noise) =
        (s.strand k).billet.waiting.countP (fun d => decide (d.start < b)) + n := by
  have sums := (cutSplit_accounted (k := k) (b := b) (s := s)).2
  simp only [heads_length] at sums
  intro n o oscRoom noiseRoom
  obtain ⟨osc, noise, sum⟩ := sums oscRoom noiseRoom
  refine ⟨osc, noise, ?_⟩
  rw [cutGroup_length, Nat.add_assoc, Nat.add_assoc, ← Nat.add_assoc _ _ (_ - _)]
  exact congrArg _ sum

theorem cutCoverage_eq : cutCoverage k b s =
    ((s.strand k).billet.current.active.filter fun i => decide ((s.lane i).binding = some k)).map
      fun i => coverageOf i (s.lane i).runs (s.strand k).billet.current.start b := by
  obtain ⟨_, _, current⟩ := cutOpen_eq (k := k) (b := b) (s := s)
  have active : (cutOpen k b s).active = (s.strand k).billet.current.active := by rw [current]
  have start : (cutOpen k b s).start = (s.strand k).billet.current.start := by rw [current]
  simp only [cutCoverage, active, start, cutSplit_binding, cutSplit_runs]

end Cut

/-! #### The statement -/

section Statement
variable {k : Fin 6} {c : StrandSetup} {s : State}

/-- The cut input's state is high: what the cut is judged on (R44, R114). -/
def State.cutTaken (s : State) (k : Fin 6) : State :=
  s.setStrand k { s.strand k with motion := { (s.strand k).motion with cutHigh := true, cutDue := none } }

theorem exec_cutEvent_accepted (running : s.global = .running) (low : (s.strand k).motion.cutHigh = false)
    (due : (s.strand k).motion.cutDue = some true) (stepped : (s.strand k).motion.pairDue = none)
    (setup : (s.strand k).setup = some c) (reached : c.cutDist ≤ (s.strand k).motion.coord)
    (above : (s.strand k).billet.current.start < (s.strand k).motion.coord - c.cutDist) :
    exec (.cutEvent k) s =
      .next (acceptCut k c ((s.strand k).motion.coord - c.cutDist) (s.cutTaken k)) := by
  have strand : (s.cutTaken k).strand k =
      { s.strand k with motion := { (s.strand k).motion with cutHigh := true, cutDue := none } } :=
    State.setStrand_strand_self ..
  rw [exec_cutEvent running due low, decodeDue_none stepped, compareDue_rise due low setup]
  have judged : judgeCut k c (s.cutTaken k) = acceptCut k c ((s.strand k).motion.coord - c.cutDist) (s.cutTaken k) := by
    rw [judgeCut, strand]
    exact if_pos ⟨reached, above⟩
  exact congrArg _ judged

end Statement

/-- Settles O27: the cut is the stages of `acceptCut_eq`; the judgement of the heads leaves the group, the tallies and the
mark states, the rest is the closing of the billet and the job it makes. -/
theorem acceptedCutClosesBillet : Obligations.AcceptedCutClosesBillet := by
  intro k c s running low due stepped setup reached b o unmarked taken above
  have strand : (s.cutTaken k).strand k =
      { s.strand k with motion := { (s.strand k).motion with cutHigh := true, cutDue := none } } :=
    State.setStrand_strand_self ..
  have billet : ((s.cutTaken k).strand k).billet = (s.strand k).billet := by rw [strand]
  have taken_ : taken = Defect.removedAt b := funext fun d => (Defect.removedAt_eq b d).symm
  obtain ⟨serial, start, partialHead, testSeen, laneLeft, dropped⟩ := cutOpen_fields (k := k) (b := b) (s := s.cutTaken k)
  obtain ⟨event, motion⟩ := acceptCut_spec k c b (s.cutTaken k)
  obtain ⟨reportFrame, writer⟩ := acceptCut_report_frame (k := k) (c := c) (b := b) (s := s.cutTaken k)
  obtain ⟨made, strands, jobs, writers⟩ := cutSplit_graded (k := k) (b := b) (s := s.cutTaken k)
  have self := acceptCut_strand_self (k := k) (c := c) (b := b) (s := s.cutTaken k)
  have waits := cutSplit_waiting (k := k) (b := b) (s := s.cutTaken k)
  rw [billet] at serial start partialHead testSeen laneLeft dropped waits
  refine ⟨acceptCut k c b (s.cutTaken k), exec_cutEvent_accepted running low due stepped setup reached above, ?_⟩
  refine ⟨?_, ?_, ?_, ?_, ?_, ?_, ?_, ?_, ?_, ?_, fun i bound => ?_, fun i unbound => ?_, fun j other => ?_, ?_, event.clock, ?_, ?_, ?_,
    ⟨cutOrder k b (s.cutTaken k), cutOrder_perm, ?_⟩, ?_, fun none_ => ?_, reportFrame, fun full => ?_, fun room => ?_⟩
  · rw [self]
    exact congrArg wrap32 serial
  · rw [self]; rfl
  · rw [self]; rfl
  · rw [self]; rfl
  · rw [self]; rfl
  · rw [self]; rfl
  · rw [self]; rfl
  · rw [self]
    exact activeLanes_cutTrimmed
  · rw [self]
    exact testLane_cutTrimmed
  · rw [self]
    exact map_unmarked_filter (p := fun d => decide (b ≤ d.start)) (fun _ => rfl) waits
  · rw [acceptCut_lane, cutTrimmed_lane, if_pos (show ((s.cutTaken k).lane i).binding = some k from bound), trimRuns_eq]
    rfl
  · rw [acceptCut_lane, cutTrimmed_lane, if_neg (show ¬ ((s.cutTaken k).lane i).binding = some k from unbound)]
    rfl
  · rw [event.strands j other]
    exact (State.setStrand_strand ..).trans (if_neg other)
  · rw [motion, strand]
  · rw [event.frame]
    rfl
  · rw [event.frame]
    rfl
  · conv_lhs => rw [event.frame]
    rfl
  · intro high heads judge insert r v removed
    have graded : r = cutGraded k b (s.cutTaken k) := by
      have heads_ : heads = cutHeads (s.cutTaken k) b (cutOrder k b (s.cutTaken k)) := by
        simp only [heads, cutHeads, TrackTable.heads, List.map_map]
        rfl
      simp only [r, heads_]
      rfl
    have inserts : insert = fun l d => insertByKey d l := funext fun l => funext fun d => (insertByKey_eq d l).symm
    rw [self, strands, ← graded, writer, writers, ← graded]
    refine ⟨rfl, rfl, rfl, fun full => ?_, fun room => ⟨cutJob k c b (s.cutTaken k), ?_, ?_, ?_, ?_⟩⟩
    · rw [acceptCut_report_full (s := s.cutTaken k) full, ReportUnit.raise_frame]
      exact jobs.trans (by rw [← graded])
    · rw [acceptCut_report_room (s := s.cutTaken k) room, jobs, ← graded]
    · simp only [cutJob, cutGroup, joinGroup, made, cutRemoved, strands, ← graded, inserts, removed, taken_, v]
    · simp only [cutJob, cutRecord, billetRecord, cutOpen, strands, ← graded, v]
    · simp only [cutJob, cutRecord, billetRecord, cutOpen, strands, ← graded, v]
  · rw [event.setup, strand]
  · have none_ := cutSplit_none (k := k) (b := b) (s := s.cutTaken k) none_
    obtain ⟨_, base⟩ := cutBase_eq k b (s.cutTaken k)
    have marker : ((s.cutTaken k).strand k).marker = (s.strand k).marker := by rw [strand]
    rw [self, writer, none_, base]
    exact ⟨marker, rfl⟩
  · have lost := acceptCut_report_full (k := k) (c := c) (b := b) (s := s.cutTaken k) full
    refine ⟨?_, by rw [lost, ReportUnit.raise_frame]; rfl, fun none_ => ?_, fun held => ?_⟩
    · intro cleared
      rw [lost, ReportUnit.raise_frame]
      exact cutSplit_cleared (k := k) (b := b) (s := s.cutTaken k)
    · rw [lost.trans (ReportUnit.raise_first none_)]
      exact ⟨rfl, rfl, rfl⟩
    · rw [lost.trans (ReportUnit.raise_later held)]
      exact ⟨rfl, rfl, rfl⟩
  · obtain ⟨_, _, report, length⟩ := cutSplit_report (k := k) (b := b) (s := s.cutTaken k)
    have coverage := cutCoverage_eq (k := k) (b := b) (s := s.cutTaken k)
    rw [acceptCut_report_room (s := s.cutTaken k) room, taken_]
    refine ⟨rfl, rfl, rfl, rfl, cutJob k c b (s.cutTaken k), ?_, List.getLast?_concat, fun d inList below => ?_, fun d inGroup => ?_,
      fun none_ => ?_, fun ascend => ?_, dropped, ?_, rfl, serial, start, rfl, cutTrimmed_clock, ?_, classCount_eq .., classCount_eq ..,
      classCount_eq .., classCount_eq .., le_maxGrade, fun empty => ?_, exists_maxGrade, rfl, partialHead, ?_, ?_, ?_, ?_⟩
    · rw [List.length_append, report, length]
      rfl
    · exact mem_cutGroup_of_waiting (s := s.cutTaken k) (by rw [billet]; exact inList) below
    · have of := cutGroup_of (s := s.cutTaken k) inGroup
      rw [billet] at of
      exact of
    · have ungraded := cutGroup_none (s := s.cutTaken k) none_
      rw [billet] at ungraded
      exact ungraded
    · exact cutGroup_order (s := s.cutTaken k) (by rw [billet]; exact ascend)
    · have sums := cutGroup_accounted (k := k) (b := b) (s := s.cutTaken k)
      rw [billet] at sums
      exact sums
    · exact congrArg (fun a => toLength (b - a) c.countsPerM) start
    · exact congrArg maxGrade empty
    · rw [billet] at coverage
      exact coverage
    · simp only [cutJob, cutRecord, billetRecord, testSeen, Bool.or_eq_true, List.any_eq_true]
      rfl
    · simp only [cutJob, cutRecord, billetRecord, laneLeft, Bool.or_eq_true, List.any_eq_true]
      rfl
    · exact verdictOf_eq ..

end Sys2Proof.Machine
